-- ==== Sys2Proof/Word.lean ====
section
/-! DEFINITION. The two word types of the block: every register and memory word is 32 bits wide (R12), and the
smallest piece of memory the model keeps is one byte of a word (R135). -/

namespace Sys2Proof

/-- A 32-bit register, memory or command word. -/
abbrev Word := BitVec 32

/-- One byte of a word. -/
abbrev Byte := BitVec 8

end Sys2Proof
end

