-- ==== Sys2Proof/Config.lean ====
section
/-! DEFINITION. What an implementation fixes (R10, R11): the parameters and kernels as one structure that every
meaning takes as its argument, the sizes the spec fixes for good, and the values it leaves open.
The defaults of R10 are `Sys2Proof.Machine.params` in Machine/Kernels.lean. -/

namespace Sys2Proof

/-- The parameters of R10 and the kernels of R11, the latter with the type and range their rules state. -/
structure Params where
  /-- MAX_CH, the number of channel slots (legal 2..16). -/
  maxCh : Nat
  /-- MAX_BOXES (legal 1..16). -/
  maxBoxes : Nat
  /-- N_LONG, the lines of a long block (a multiple of 8, at most 1024). -/
  nLong : Nat
  /-- QMAX, the largest legal quantised magnitude. -/
  qMax : Nat
  /-- SF_OFFSET. -/
  sfOffset : Int
  /-- IQ_HEADROOM (R220). -/
  iqHeadroom : Nat
  /-- ESC_HCB, the codebook CH_BEGIN writes. -/
  escHcb : BitVec 4
  /-- ZERO_HCB, the codebook of a band that is not transmitted. -/
  zeroHcb : BitVec 4
  /-- The TRANSMITTED set of codebooks (R253). -/
  transmitted : BitVec 4 → Bool
  /-- NOISE_LEVEL_BIAS (R221). -/
  noiseLevelBias : Int
  /-- NOISE_OFFSET_BIAS (R221). -/
  noiseOffsetBias : Int
  /-- PROFILE_LTP. -/
  profileLtp : Bool
  /-- ANGLE_ALPHABET. -/
  angleAlphabet : Nat
  /-- ANGLE_VALID. -/
  angleValid : Nat
  /-- ANGLE_DEFAULT. -/
  angleDefault : Int
  /-- ALPHA_ALPHABET. -/
  alphaAlphabet : Nat
  /-- ALPHA_BIAS. -/
  alphaBias : Int
  /-- ALPHA_DEFAULT. -/
  alphaDefault : Int
  /-- SFILL_GAIN_CAP. -/
  sfillGainCap : Nat
  /-- SFILL_GAIN_FRAC. -/
  sfillGainFrac : Nat
  /-- SHIFT_CAP (R205). -/
  shiftCap : Nat
  /-- IQ_EXP (R220): a scale factor to its int8 exponent and its fraction 0..3. -/
  iqExp : Byte → Byte × BitVec 2
  /-- IQ_MANT (R220): a quantised value and a fraction to an int32 mantissa. -/
  iqMant : Word → BitVec 2 → Word
  /-- NOISE_KERNEL (R221): level, offset and scale factor to the mantissa NM and the int8 exponent NE. -/
  noiseKernel : BitVec 3 → BitVec 5 → Byte → Word × Byte
  /-- NOISE_RNG (R222): a seed to the sign of the line and the next seed. -/
  noiseRng : Word → Bool × Word
  /-- ROT_TABLE (R226): an angle index to (cs, sn), signed Q30. -/
  rotTable : Nat → Int × Int
  /-- ALPHA_TABLE (R227): a coefficient to its signed Q28 alpha. -/
  alphaTable : Int → Int

/-- The legal builds: the column "legal" of R10. The bound on IQ_HEADROOM is QMAX^(4/3) * 2^(3/4) < 2^IQ_HEADROOM to
the twelfth power. -/
structure Params.Legal (P : Params) : Prop where
  maxCh : 2 ≤ P.maxCh ∧ P.maxCh ≤ 16
  maxBoxes : 1 ≤ P.maxBoxes ∧ P.maxBoxes ≤ 16
  nLong : P.nLong % 8 = 0 ∧ P.nLong ≤ 1024
  qMax : 1 ≤ P.qMax
  iqHeadroom : P.qMax ^ 16 * 2 ^ 9 < 2 ^ (12 * P.iqHeadroom) ∧ P.iqHeadroom ≤ 31
  angles : P.angleValid ≤ P.angleAlphabet ∧ P.angleDefault < P.angleValid
  rotTable : ∀ i < P.angleValid, -1073741824 ≤ (P.rotTable i).1 ∧ (P.rotTable i).1 ≤ 1073741824 ∧
    -1073741824 ≤ (P.rotTable i).2 ∧ (P.rotTable i).2 ≤ 1073741824

namespace Config

/-- ID (R42). -/
def idWord : Word := 0x4D504831

/-- MAX_MCT_BANDS (R10): 64, fixed. -/
def maxMctBands : Nat := 64

/-- MAX_SFB_TABLE (R10): 64, fixed. -/
def maxSfbTable : Nat := 64

/-- N_WIN_SHORT (R10): 8, fixed. -/
def nWinShort : Nat := 8

/-- The contents of the rotation ROM before they are held to their range. OPEN (R226, P1): the source gives no
table, so this is a free value (log 2). `Machine.params` holds each entry to [-2^30, 2^30]. Safe. -/
opaque rotTableRaw : Nat → Word × Word

/-- The free value of a host read whose data the spec leaves unspecified (R451, R465, U2, U3): the n-th such read
of a run takes the n-th value (log 4). Safe. -/
opaque freeWord : Nat → Word

end Config

end Sys2Proof
end

