-- ==== Sys2Proof/Machine/Kernels.lean ====
section
/-! DEFINITION. The numeric kernels of R220 to R227 with their default definitions, the integer searches they use
(R13), and the default parameters of R10. None of it reads the machine's state. -/

namespace Sys2Proof.Machine

/-- The greatest `y` reachable from `acc` by adding distinct powers of two below `2^bits`, each kept while `p`
holds: for a `p` that is true up to some bound and false above it, the greatest `y` with `p y`. -/
def greatestBits (p : Nat → Bool) : Nat → Nat → Nat
  | 0, acc => acc
  | b + 1, acc => if p (acc + 2 ^ b) then greatestBits p b (acc + 2 ^ b) else greatestBits p b acc

/-- root12(N) (R13): the greatest y with y^12 <= N. -/
def root12 (n : Nat) : Nat := greatestBits (fun y => decide (y ^ 12 ≤ n)) (n.log2 / 12 + 1) 0

/-- IQ_EXP (R220) for an SF_OFFSET and an IQ_HEADROOM. -/
def iqExpDefault (sfOffset headroom : Int) (sf : Byte) : Byte × BitVec 2 :=
  let s : Int := (sf.toNat : Int) - sfOffset
  let e0 := s / 4
  (BitVec.ofInt 8 (e0 + headroom), BitVec.ofInt 2 (s - 4 * e0))

/-- |IQ_MANT| (R220): root12(|q|^16 * 2^(3r + 144)). R220 writes 144 for the default IQ_HEADROOM 19; the model takes it
as 12 * (31 - IQ_HEADROOM), a DESIGN CHOICE for the other builds (log 24). -/
def iqMagnitude (headroom q : Nat) (r : BitVec 2) : Nat := root12 (q ^ 16 * 2 ^ (3 * r.toNat + 12 * (31 - headroom)))

/-- IQ_MANT (R220): the sign of q on the floored magnitude. -/
def iqMantDefault (headroom : Nat) (q : Word) (r : BitVec 2) : Word :=
  BitVec.ofInt 32 (q.toInt.sign * (iqMagnitude headroom q.toInt.natAbs r : Int))

/-- The argument t of NOISE_KERNEL (R221), in twelfths of an octave. -/
def noiseT (levelBias offsetBias sfOffset : Int) (nl : BitVec 3) (off : BitVec 5) (sf : Byte) : Int :=
  4 * ((nl.toNat : Int) - levelBias) + 3 * ((sf.toNat : Int) + (off.toNat : Int) - offsetBias - sfOffset)

/-- NOISE_KERNEL (R221) for NOISE_LEVEL_BIAS, NOISE_OFFSET_BIAS and SF_OFFSET: (NM, NE). -/
def noiseKernelDefault (levelBias offsetBias sfOffset : Int) (nl : BitVec 3) (off : BitVec 5) (sf : Byte) :
    Word × Byte :=
  let t := noiseT levelBias offsetBias sfOffset nl off sf
  (BitVec.ofNat 32 (root12 (2 ^ ((t % 12).toNat + 360))), BitVec.ofInt 8 (t / 12 + 1))

/-- NOISE_RNG (R222): (neg, seed'). -/
def noiseRngDefault (seed : Word) : Bool × Word :=
  let next := seed * 1664525#32 + 1013904223#32
  (next.getLsbD 31, next)

/-- ALPHA_TABLE (R227): floor((v * 2^28 + 5) / 10). -/
def alphaTableDefault (v : Int) : Int := (v * 268435456 + 5) / 10

/-- A raw table word held to the range [-2^30, 2^30] of R226. -/
def q30 (w : Word) : Int := max (-1073741824) (min 1073741824 w.toInt)

/-- ROT_TABLE (R226): the open table, each entry in its stated range (log 2). -/
def rotTableOpen (i : Nat) : Int × Int := (q30 (Config.rotTableRaw i).1, q30 (Config.rotTableRaw i).2)

/-- The defaults of R10, with which exec and step run (log 1). -/
def params : Params where
  maxCh := 16
  maxBoxes := 16
  nLong := 1024
  qMax := 8191
  sfOffset := 100
  iqHeadroom := 19
  escHcb := 11
  zeroHcb := 0
  transmitted := fun cb => decide (1 ≤ cb.toNat) && decide (cb.toNat ≤ 11)
  noiseLevelBias := 14
  noiseOffsetBias := 16
  profileLtp := false
  angleAlphabet := 65
  angleValid := 64
  angleDefault := 48
  alphaAlphabet := 121
  alphaBias := 60
  alphaDefault := 0
  sfillGainCap := 10
  sfillGainFrac := 16
  shiftCap := 31
  iqExp := iqExpDefault 100 19
  iqMant := iqMantDefault 19
  noiseKernel := noiseKernelDefault 14 16 100
  noiseRng := noiseRngDefault
  rotTable := rotTableOpen
  alphaTable := alphaTableDefault

/-- A build with the default quantiser and noise kernels (R220, R221) of its own SF_OFFSET, IQ_HEADROOM and biases. -/
def defaultKernels (P : Params) : Params :=
  { P with
    iqExp := iqExpDefault P.sfOffset P.iqHeadroom
    iqMant := iqMantDefault P.iqHeadroom
    noiseKernel := noiseKernelDefault P.noiseLevelBias P.noiseOffsetBias P.sfOffset }

end Sys2Proof.Machine
end

