-- ==== Sys2Proof/Machine/Numerics.lean ====
section
/-! DEFINITION. Block-floating-point numerics (40_bfp_numerics.md) on mathematical integers: alignment,
renormalisation, the operator framework, the lane functions and the stereo-filling gain. No state is read here. -/

namespace Sys2Proof.Machine

/-- A band value (R200, R202): its mantissas in line order, and its exponent. -/
structure Band where
  mant : List Int
  exp : Int
  deriving DecidableEq, Repr

/-- fits32 (R13). -/
def fits32 (x : Int) : Bool := decide (-2147483648 ≤ x) && decide (x ≤ 2147483647)

/-- sat32 (R13). -/
def sat32 (x : Int) : Int := min (max x (-2147483648)) 2147483647

/-- allzero (R202). -/
def allZero (xs : List Int) : Bool := xs.all (fun x => decide (x = 0))

/-- align (R205): an arithmetic right shift by the exponent difference, at most SHIFT_CAP. -/
def align (P : Params) (m e E : Int) : Int := m >>> (min (E - e).toNat P.shiftCap)

/-- common (R206): the exponent two operands are aligned to; an all-zero band takes no part. -/
def common (x y : Band) : Option Int :=
  match allZero x.mant, allZero y.mant with
  | true, true => none
  | true, false => some y.exp
  | false, true => some x.exp
  | false, false => some (max x.exp y.exp)

/-- How many bits a value needs besides its sign: the least k with -2^k <= x < 2^k. -/
def magBits : Int → Nat
  | .ofNat n => if n = 0 then 0 else n.log2 + 1
  | .negSucc n => if n = 0 then 0 else n.log2 + 1

/-- The least right shift after which every value fits 32 bits (R212). -/
def leastShift : List Int → Nat
  | [] => 0
  | x :: xs => max (magBits x - 31) (leastShift xs)

/-- shr (R212): a floor shift right by d, or left by -d. -/
def shr (x d : Int) : Int := if 0 ≤ d then x >>> d.toNat else x * ((2 ^ (-d).toNat : Nat) : Int)

/-- renorm (R212): the stored band, and whether it saturated (OVF). -/
def renorm (xs : List Int) (e0 eold : Int) : Band × Bool :=
  if allZero xs then (⟨xs, eold⟩, false)
  else
    let n := leastShift xs
    let e := e0 + (n : Int)
    if e > 127 then (⟨xs.map (fun x => sat32 (shr x (127 - e0))), 127⟩, true)
    else if e < -128 then (⟨xs.map (fun x => shr x (-128 - e0)), -128⟩, false)
    else (⟨xs.map (fun (x : Int) => x >>> n), e⟩, false)

/-- The results of OP2: the two bands to store, and OVF. -/
structure Op2Result where
  fst : Band
  snd : Band
  ovf : Bool
  deriving DecidableEq, Repr

/-- OP2 (R214) on band values; none is the early return when both bands are all zero. -/
def op2 (P : Params) (f : Int → Int → Int × Int) (x y : Band) : Option Op2Result :=
  match common x y with
  | none => none
  | some e0 =>
    let lanes := List.zipWith (fun a b => f (align P a x.exp e0) (align P b y.exp e0)) x.mant y.mant
    let r1 := renorm (lanes.map (·.1)) e0 x.exp
    let r2 := renorm (lanes.map (·.2)) e0 y.exp
    some ⟨r1.1, r2.1, r1.2 || r2.2⟩

/-- f_MS (R215). -/
def laneMs (m s : Int) : Int × Int := (m + s, m - s)

/-- f_ROT (R216) for the table entry (cs, sn). -/
def laneRot (cs sn a b : Int) : Int × Int := ((cs * a - sn * b) >>> 30, (sn * a + cs * b) >>> 30)

/-- f_PRED (R217) for A = ALPHA_TABLE(v) and the direction bit d. -/
def lanePred (A : Int) (d : Bool) (a b : Int) : Int × Int :=
  let p := (A * a) >>> 28
  let side := if d then b - p else b + p
  (a + side, a - side)

/-- ADD1 (R218) of the list z at exponent ez into a band; none is the early return. -/
def add1 (P : Params) (x : Band) (z : List Int) (ez : Int) : Option (Band × Bool) :=
  match common x ⟨z, ez⟩ with
  | none => none
  | some e0 =>
    some (renorm (List.zipWith (fun m v => align P m x.exp e0 + align P v ez e0) x.mant z) e0 x.exp)

/-- HALFSUM (R219). -/
def halfSum (P : Params) (x y : Band) : Band × Bool :=
  match common x y with
  | none => (⟨x.mant.map (fun _ => 0), 0⟩, false)
  | some e0 =>
    renorm (List.zipWith (fun a b => align P a x.exp e0 + align P b y.exp e0) x.mant y.mant) (e0 - 1) 0

/-- The sum of the squares of a list of mantissas (R230). -/
def sumSquares : List Int → Nat
  | [] => 0
  | x :: xs => x.natAbs * x.natAbs + sumSquares xs

/-- How many doublings beyond 2^320 bring the energies of R230 to integers beside T2, which a large SF_OFFSET makes
small (log 13): 0 up to an SF_OFFSET of 640. -/
def sfillExtra (P : Params) : Nat := (P.sfOffset - 640).toNat

/-- E_dmx and E_res of R230 times 2^(320 + sfillExtra): an exact integer for every int8 exponent (log 13). -/
def scaledEnergy (P : Params) (xs : List Int) (e : Int) : Nat :=
  sumSquares xs * 2 ^ ((2 * (e + 129)).toNat + sfillExtra P)

/-- T2 of R230 times 2^(2 * (320 + sfillExtra)): an exact integer for every SF_OFFSET (log 13). -/
def scaledTarget (P : Params) (lines : Nat) (sf : Byte) : Nat :=
  lines ^ 2 * 2 ^ ((sf.toNat : Int) - P.sfOffset + 640 + 2 * (sfillExtra P : Int)).toNat

/-- The bound of R230 on a gain g: (g^2 * E_dmx + 2^32 * E_res)^2 <= 2^64 * T2. R230 writes 2^32 and 2^64 for the
default SFILL_GAIN_FRAC 16; the model takes them as 2^(2 * SFILL_GAIN_FRAC) and 2^(4 * SFILL_GAIN_FRAC), a DESIGN CHOICE
for the other builds (log 23). -/
def gainFits (P : Params) (eDmx eRes t2 g : Nat) : Bool :=
  decide ((g ^ 2 * eDmx + 2 ^ (2 * P.sfillGainFrac) * eRes) ^ 2 ≤ 2 ^ (4 * P.sfillGainFrac) * t2)

/-- CAP (R230): SFILL_GAIN_CAP * 2^SFILL_GAIN_FRAC. -/
def gainCap (P : Params) : Nat := P.sfillGainCap * 2 ^ P.sfillGainFrac

/-- The gain G of R230: 0 when there is nothing to add or no room for it, else the largest that fits, at most CAP. -/
def sfillGain (P : Params) (d : List Int) (ep : Int) (m : List Int) (er : Int) (sf : Byte) : Nat :=
  let eDmx := scaledEnergy P d ep
  let eRes := scaledEnergy P m er
  let t2 := scaledTarget P m.length sf
  if eDmx = 0 ∨ t2 ≤ eRes ^ 2 then 0
  else
    greatestBits (fun g => decide (g ≤ gainCap P) && gainFits P eDmx eRes t2 g) ((gainCap P).log2 + 1) 0

/-- D of R230: the first row of the inverse rotation applied to the aligned previous bands. -/
def downmix (P : Params) (cs sn : Int) (p1 p2 : Band) (ep : Int) : List Int :=
  List.zipWith (fun a b => (cs * align P a p1.exp ep + sn * align P b p2.exp ep) >>> 30) p1.mant p2.mant

/-- What SFILL (R230) adds to a band: floor(G * D_k / 2^16). R230 writes 2^16 for the default SFILL_GAIN_FRAC; the model
takes it as 2^SFILL_GAIN_FRAC, a DESIGN CHOICE for the other builds (log 23). -/
def sfillAdd (P : Params) (g : Nat) (d : List Int) : List Int := d.map (fun x => ((g : Int) * x) >>> P.sfillGainFrac)

end Sys2Proof.Machine
end

