-- ==== Sys2Proof/Machine/State.lean ====
section
/-! DEFINITION. The machine's state as plain data (10_state.md), the errors it can record (R401), how a step can
stop, and the state after reset (R100). Registers the spec computes from other state (BUSY, irq) and constants (ID,
PARAM, PARAM2, the rotation ROM) are not stored (log 14, log 15). -/

namespace Sys2Proof.Machine

/-- STAGE of a channel (R59, R251). -/
inductive Stage where
  | idle | begun | scaled | decoded
  deriving DecidableEq, Repr

/-- MCT_STATE (R81, R301). -/
inductive MctState where
  | idle | boxesParsed | rotationApplied | saved
  deriving DecidableEq, Repr

/-- PREV_MODE (R82): the mode of the last committed frame. -/
inductive PrevMode where
  | alpha | angle | none
  deriving DecidableEq, Repr

/-- The memories of a channel memory block (R70 to R77). -/
inductive ChMem where
  | mant | qin | exp | sf | cb | nflag | pmant | pexp | dmxe | dmxm
  deriving DecidableEq, Repr

/-- The kinds of error (R45, R400). -/
inductive ErrKind where
  | parse | unsupported | decode | illegal | sequence | arg
  deriving DecidableEq, Repr

/-- The causes of R401, in the table's order. -/
inductive Cause where
  | illegalOpcode | reservedField
  | chRange | sameChannel | bandTable | nchRange | chmapRange | chmapDup
  | stage | mctState
  | ltp | gainControl | erPayload | igfTiles
  | lfeShort | grouping | maxSfb | cwMismatch | boxCount | keepNoPrev | pairRange | windowMismatch | maskWidth
  | dtMode | symRange
  | iqRange | angleRange
  deriving DecidableEq, Repr

/-- A raised error (R16): its cause and the INDEX and BAND the rule gives, 0xFF where it gives none. -/
structure Err where
  cause : Cause
  index : Nat := 0xFF
  band : Nat := 0xFF
  deriving DecidableEq, Repr

/-- Why the MODEL stops. The block itself never does (U14). -/
inductive Fault where
  /-- A command read the cell at this bus byte address, and nothing has written it since reset (R98, R451, U1).
  Raised by the readers of Machine/Ops.lean. Safe: the hardware goes on with an unknown value. -/
  | unwrittenCell (addr : Nat)
  deriving DecidableEq, Repr

/-- Why an instruction has no meaning. -/
inductive Refusal where
  /-- The instruction has no meaning in this model yet. Raised by exec only, and by none of its arms now. Safe. -/
  | notModelled (mnemonic : String)
  deriving DecidableEq, Repr

/-- How a command ends early: by raising an error (R16), or by the model's fault. -/
inductive Halt where
  | raise (e : Err)
  | fault (f : Fault)
  deriving DecidableEq, Repr

/-- A host access (R15, R132): a byte address, a width in bytes, and for a write its value. -/
inductive Access where
  | read (addr : Word) (width : Nat)
  | write (addr : Word) (width : Nat) (value : Word)
  deriving DecidableEq, Repr

/-- Who moves next: the host with one access, the reset input, or the block (R3, R139; log 6). -/
inductive Turn where
  | host (x : Access)
  | rst
  | block
  deriving DecidableEq, Repr

/-- A bus response (R132): OK or ERROR, and the read data (0 for a write). -/
structure Resp where
  ok : Bool
  data : Word
  deriving DecidableEq, Repr

/-- A channel register block (R55 to R61) with the hidden FRAC (R95). -/
structure Channel where
  ics : Word
  groupLen : Word
  noise : Word
  nseed : Word
  stage : Stage
  prevShort : Bool
  prevPath : Bool
  prevWinSeq : BitVec 2
  prevWinShape : Bool
  msMaskLo : Vector Word 8
  msMaskHi : Vector Word 8
  /-- FRAC[w][b] at index w*64+b. -/
  frac : Vector (BitVec 2) 512
  deriving DecidableEq, Repr

/-- A box register block (R85 to R91). BOX_PREV is kept field by field. -/
structure Box where
  ctrl : Word
  maskLo : Word
  maskHi : Word
  sym : Vector Byte 64
  info : Word
  coef : Vector Word 64
  hist : Vector Word 64
  prevPair : Byte
  prevPairValid : Bool
  prevBoxShort : Bool
  histValid : Bool
  deriving DecidableEq, Repr

/-- L_BOX[i] of the frame latch (R96, R317). -/
structure LBox where
  ctrl : Word
  mask : BitVec 64
  pair : Nat
  c1 : Nat
  c2 : Nat
  sh : Bool
  width : Nat
  deriving DecidableEq, Repr

/-- The channel memories: (bus byte address, byte), addresses strictly rising, no entry that says what an unlisted
address says (log 12). -/
abbrev Memory := List Host.Cell

/-- The whole machine. -/
structure State where
  -- STATUS (R44); BUSY is `pending.isSome`
  done : Bool
  err : Bool
  drop : Bool
  haz : Bool
  ovf : Bool
  buserr : Bool
  -- ERR_CODE, IRQ_EN, CMD_COUNT (R45 to R47)
  errCode : Word
  irqEn : Word
  cmdCount : Word
  -- band-table descriptor (R50)
  nsfb : Word
  nfStart : Word
  sfbOffLong : Vector (BitVec 11) 65
  sfbOffShort : Vector (BitVec 11) 65
  -- channel register blocks and channel memories
  chans : Vector Channel 16
  mem : Memory
  -- MCT frame registers and persistent MCT state (R80 to R83)
  mctCtrl : Word
  mctState : MctState
  prevMode : PrevMode
  chMap : Vector Byte 16
  boxes : Vector Box 16
  -- hidden: the frame latch (R96) and PENDING (R97)
  lCtrl : Word
  lBox : Vector LBox 16
  pending : Option Word
  -- the model's own: turns to come, last bus response, free values drawn (log 4, 6, 19)
  turns : List Turn
  resp : Option Resp
  draws : Nat
  deriving DecidableEq, Repr

/-- A channel register block after reset (R100); FRAC 0 is a DESIGN CHOICE (log 5). -/
def Channel.reset : Channel where
  ics := 0
  groupLen := 0
  noise := 0
  nseed := 0
  stage := .idle
  prevShort := false
  prevPath := false
  prevWinSeq := 0
  prevWinShape := false
  msMaskLo := Vector.replicate 8 0
  msMaskHi := Vector.replicate 8 0
  frac := Vector.replicate 512 0

/-- A box register block after reset (R100). -/
def Box.reset : Box where
  ctrl := 0
  maskLo := 0
  maskHi := 0
  sym := Vector.replicate 64 0
  info := 0
  coef := Vector.replicate 64 0
  hist := Vector.replicate 64 0
  prevPair := 0
  prevPairValid := false
  prevBoxShort := false
  histValid := false

/-- A latch entry after reset: a DESIGN CHOICE (log 5), never read before MCT_PARSE writes it (R96). -/
def LBox.reset : LBox where
  ctrl := 0
  mask := 0
  pair := 0
  c1 := 0
  c2 := 0
  sh := false
  width := 0

/-- The state after `rst` (R100, R450): no memory byte listed, so PMANT and PEXP read 0 and every working-memory
cell is unwritten. -/
def State.reset : State where
  done := false
  err := false
  drop := false
  haz := false
  ovf := false
  buserr := false
  errCode := 0
  irqEn := 0
  cmdCount := 0
  nsfb := 0
  nfStart := 0
  sfbOffLong := Vector.replicate 65 0
  sfbOffShort := Vector.replicate 65 0
  chans := Vector.replicate 16 Channel.reset
  mem := []
  mctCtrl := 0
  mctState := .idle
  prevMode := .none
  chMap := Vector.replicate 16 0
  boxes := Vector.replicate 16 Box.reset
  lCtrl := 0
  lBox := Vector.replicate 16 LBox.reset
  pending := none
  turns := []
  resp := none
  draws := 0

end Sys2Proof.Machine
end

