-- ==== Sys2Proof/Machine/Flags.lean ====
section
/-! DEFINITION. The STATUS flags (R44), how the host clears them (R134), OVF (R212) and the interrupt output (R410). -/

namespace Sys2Proof.Machine

/-- STATUS.BUSY (R44): 1 exactly while a command is pending (R97). -/
def State.busy (s : State) : Bool := s.pending.isSome

/-- The STATUS word (R44): BUSY, DONE, ERR, DROP, HAZ, OVF, BUSERR from bit 0 up, reserved bits 0. -/
def State.statusWord (s : State) : Word :=
  BitVec.ofNat 25 0 ++ BitVec.ofBool s.buserr ++ BitVec.ofBool s.ovf ++ BitVec.ofBool s.haz ++
    BitVec.ofBool s.drop ++ BitVec.ofBool s.err ++ BitVec.ofBool s.done ++ BitVec.ofBool s.busy

/-- A host write of STATUS (R134): each W1C bit written 1 is cleared; BUSY and ERR ignore the write. -/
def State.writeStatus (s : State) (v : Word) : State :=
  { s with
    done := s.done && !v.getLsbD 1
    drop := s.drop && !v.getLsbD 3
    haz := s.haz && !v.getLsbD 4
    ovf := s.ovf && !v.getLsbD 5
    buserr := s.buserr && !v.getLsbD 6 }

/-- OVF is sticky (R212): `b` is whether a renormalisation saturated. -/
def State.orOvf (s : State) (b : Bool) : State := { s with ovf := s.ovf || b }

/-- IRQ_EN.DONE_IE (R46). -/
def State.doneIe (s : State) : Bool := s.irqEn.getLsbD 0

/-- IRQ_EN.ERR_IE (R46). -/
def State.errIe (s : State) : Bool := s.irqEn.getLsbD 1

/-- The interrupt output (R410). -/
def State.irq (s : State) : Bool := (s.done && s.doneIe) || (s.err && s.errIe)

end Sys2Proof.Machine
end

