-- ==== Sys2Proof/Machine/Ops.lean ====
section
/-! DEFINITION. The named operations over registers and memory, and the one operation that records an error (R402)
with the one that ends it (R385). Memory is a list of bytes in canonical form (log 12); a run of cells is replaced
by one splice. -/

namespace Sys2Proof.Machine

/-! ### Registers -/

/-- Channel register block c. Commands use it for c < MAX_CH <= 16 only (R252; log 11). -/
def State.ch (s : State) (c : Nat) : Channel := (s.chans[c]?).getD Channel.reset

/-- Replace channel register block c. -/
def State.setCh (s : State) (c : Nat) (x : Channel) : State := { s with chans := s.chans.setIfInBounds c x }

/-- Box register block i (log 11). -/
def State.box (s : State) (i : Nat) : Box := (s.boxes[i]?).getD Box.reset

/-- Replace box register block i. -/
def State.setBox (s : State) (i : Nat) (x : Box) : State := { s with boxes := s.boxes.setIfInBounds i x }

/-- Latch entry L_BOX[i] (R96; log 11). -/
def State.latch (s : State) (i : Nat) : LBox := (s.lBox[i]?).getD LBox.reset

/-- CH_MAP[p] as a slot number (R83; log 11). -/
def State.chMapAt (s : State) (p : Nat) : Nat := ((s.chMap[p]?).getD 0).toNat

/-- Set STAGE of channel c (R251). -/
def State.setStage (s : State) (c : Nat) (g : Stage) : State := s.setCh c { s.ch c with stage := g }

/-- Set NSEED of channel c (R58). -/
def State.setSeed (s : State) (c : Nat) (v : Word) : State := s.setCh c { s.ch c with nseed := v }

/-- A vector of n entries from a list, padded with `d`. -/
def vecOfList {α : Type} (n : Nat) (l : List α) (d : α) : Vector α n :=
  ⟨⟨(l ++ List.replicate n d).take n⟩, by simp⟩

/-- Set FRAC of channel c (R95) from its 512 values in w*64+b order. -/
def State.setFrac (s : State) (c : Nat) (l : List (BitVec 2)) : State :=
  s.setCh c { s.ch c with frac := vecOfList 512 l 0 }

/-- FRAC[c][w][b] (R95). -/
def State.fracAt (s : State) (c w b : Nat) : BitVec 2 := ((s.ch c).frac[w * 64 + b]?).getD 0

/-! ### Addresses of the channel memories (R128) -/

/-- The offset of a memory in its channel's block (R128). -/
def ChMem.offset : ChMem → Nat
  | .mant => 0x0000
  | .qin => 0x1000
  | .exp => 0x2000
  | .sf => 0x2800
  | .cb => 0x3000
  | .nflag => 0x3800
  | .pmant => 0x4000
  | .pexp => 0x5000
  | .dmxe => 0x5800
  | .dmxm => 0x6000

/-- Whether a cell holds a 32-bit word (MANT, QIN, PMANT, DMXM) or at most 8 bits (the others). -/
def ChMem.isWord : ChMem → Bool
  | .mant => true
  | .qin => true
  | .pmant => true
  | .dmxm => true
  | .exp => false
  | .sf => false
  | .cb => false
  | .nflag => false
  | .pexp => false
  | .dmxe => false

/-- The bus byte address of cell i of memory M of channel c (R128). -/
def cellAddr (M : ChMem) (c i : Nat) : Nat := 0x100000 + 0x8000 * c + M.offset + 4 * i

/-! ### Memory -/

/-- What an unlisted byte reads as (R100): 0 in PMANT and PEXP, no value elsewhere (log 3, log 12). -/
def unlisted (a : Nat) : Option Byte :=
  if 0x100000 ≤ a ∧ 0x4000 ≤ (a - 0x100000) % 0x8000 ∧ (a - 0x100000) % 0x8000 < 0x5800 then some 0 else none

/-- The canonical form of a memory: addresses strictly rising, no entry equal to what it would read as unlisted. -/
abbrev Memory.wf (m : Memory) : Prop :=
  m.Pairwise (fun x y => x.1 < y.1) ∧ ∀ x ∈ m, unlisted x.1 ≠ some x.2

/-- The entries at address a and above. -/
def dropBelow (a : Nat) (m : Memory) : Memory := m.dropWhile (fun x => decide (x.1 < a))

/-- One byte of memory: its entry, or what an unlisted byte reads as. -/
def readByte (m : Memory) (a : Nat) : Option Byte :=
  match dropBelow a m with
  | [] => unlisted a
  | x :: _ => if x.1 = a then some x.2 else unlisted a

/-- The 32-bit word at byte address a, little-endian (R135); none when a byte of it has no value. -/
def readWord (m : Memory) (a : Nat) : Option Word :=
  match readByte m a, readByte m (a + 1), readByte m (a + 2), readByte m (a + 3) with
  | some b0, some b1, some b2, some b3 => some (b3 ++ b2 ++ b1 ++ b0)
  | _, _, _, _ => none

/-- Replace the bytes of [lo, hi) by `cells` (rising, inside [lo, hi)), keeping the canonical form. -/
def splice (m : Memory) (lo hi : Nat) (cells : List Host.Cell) : Memory :=
  m.takeWhile (fun x => decide (x.1 < lo)) ++
    (cells.filter (fun x => decide (unlisted x.1 ≠ some x.2)) ++ dropBelow hi m)

/-- The byte entries of 32-bit words stored from address a up (R135). -/
def wordCells : Nat → List Word → List Host.Cell
  | _, [] => []
  | a, w :: ws =>
    (a, w.extractLsb' 0 8) :: (a + 1, w.extractLsb' 8 8) :: (a + 2, w.extractLsb' 16 8) ::
      (a + 3, w.extractLsb' 24 8) :: wordCells (a + 4) ws

/-- The entries of byte cells stored one to a word from address a up: the cell's byte is the word's byte 0. -/
def byteCells : Nat → List Byte → List Host.Cell
  | _, [] => []
  | a, b :: bs => (a, b) :: byteCells (a + 4) bs

/-- Write 32-bit cells i, i+1, … of a word memory of channel c. -/
def State.putWords (s : State) (M : ChMem) (c i : Nat) (ws : List Word) : State :=
  { s with mem := splice s.mem (cellAddr M c i) (cellAddr M c (i + ws.length)) (wordCells (cellAddr M c i) ws) }

/-- Write cells i, i+1, … of a byte memory of channel c. -/
def State.putBytes (s : State) (M : ChMem) (c i : Nat) (bs : List Byte) : State :=
  { s with mem := splice s.mem (cellAddr M c i) (cellAddr M c (i + bs.length)) (byteCells (cellAddr M c i) bs) }

/-- Read one 32-bit cell; an unwritten one is the model's fault (R451). -/
def getWordAt (m : Memory) (a : Nat) : Except Halt Word :=
  match readWord m a with
  | some w => .ok w
  | none => .error (.fault (.unwrittenCell a))

/-- Read one byte cell; an unwritten one is the model's fault (R451). -/
def getByteAt (m : Memory) (a : Nat) : Except Halt Byte :=
  match readByte m a with
  | some b => .ok b
  | none => .error (.fault (.unwrittenCell a))

/-- Read n 32-bit cells from address a up, giving each to `f` before the next is read. -/
def walkWords {α : Type} (f : Word → Except Halt α) : Nat → Memory → Nat → Except Halt (List α)
  | 0, _, _ => .ok []
  | n + 1, m, a => do
    let m' := dropBelow a m
    let w ← getWordAt m' a
    let x ← f w
    let xs ← walkWords f n m' (a + 4)
    .ok (x :: xs)

/-- Read n byte cells from address a up. -/
def walkBytes : Nat → Memory → Nat → Except Halt (List Byte)
  | 0, _, _ => .ok []
  | n + 1, m, a => do
    let m' := dropBelow a m
    let b ← getByteAt m' a
    let bs ← walkBytes n m' (a + 4)
    .ok (b :: bs)

/-- Whether n 32-bit cells from address a up are all 0, stopping at the first that is not (R280; log 10). -/
def walkAllZero : Nat → Memory → Nat → Except Halt Bool
  | 0, _, _ => .ok true
  | n + 1, m, a => do
    let m' := dropBelow a m
    let w ← getWordAt m' a
    if w = 0 then walkAllZero n m' (a + 4) else .ok false

/-- Cells i … i+n-1 of a word memory of channel c. -/
def State.getWords (s : State) (M : ChMem) (c i n : Nat) : Except Halt (List Word) :=
  walkWords .ok n s.mem (cellAddr M c i)

/-- Cells i … i+n-1 of a byte memory of channel c. -/
def State.getBytes (s : State) (M : ChMem) (c i n : Nat) : Except Halt (List Byte) :=
  walkBytes n s.mem (cellAddr M c i)

/-- Cell i of a byte memory of channel c. -/
def State.getByte (s : State) (M : ChMem) (c i : Nat) : Except Halt Byte := getByteAt s.mem (cellAddr M c i)

/-- PMANT[c][*] <- 0 and PEXP[c][*][*] <- 0 (R305, R342): 0 is what their unlisted bytes read as. -/
def State.clearSaved (s : State) (nLong c : Nat) : State :=
  { s with
    mem := splice (splice s.mem (cellAddr .pmant c 0) (cellAddr .pmant c nLong) []) (cellAddr .pexp c 0)
      (cellAddr .pexp c 512) [] }

/-! ### Errors and completion (R160, R402) -/

/-- The CODE field of a kind (R45). -/
def ErrKind.code : ErrKind → BitVec 4
  | .parse => 1
  | .unsupported => 2
  | .decode => 3
  | .illegal => 4
  | .sequence => 5
  | .arg => 6

/-- The kind of each cause (R401). -/
def Cause.kind : Cause → ErrKind
  | .illegalOpcode | .reservedField => .illegal
  | .chRange | .sameChannel | .bandTable | .nchRange | .chmapRange | .chmapDup => .arg
  | .stage | .mctState => .sequence
  | .ltp | .gainControl | .erPayload | .igfTiles => .unsupported
  | .lfeShort | .grouping | .maxSfb | .cwMismatch | .boxCount | .keepNoPrev | .pairRange | .windowMismatch
  | .maskWidth | .dtMode | .symRange => .parse
  | .iqRange | .angleRange => .decode

/-- The cause id (R401). -/
def Cause.id : Cause → BitVec 8
  | .illegalOpcode => 0x01
  | .reservedField => 0x02
  | .chRange => 0x10
  | .sameChannel => 0x11
  | .bandTable => 0x12
  | .nchRange => 0x13
  | .chmapRange => 0x14
  | .chmapDup => 0x15
  | .stage => 0x20
  | .mctState => 0x21
  | .ltp => 0x30
  | .gainControl => 0x31
  | .erPayload => 0x32
  | .igfTiles => 0x33
  | .lfeShort => 0x40
  | .grouping => 0x41
  | .maxSfb => 0x42
  | .cwMismatch => 0x43
  | .boxCount => 0x44
  | .keepNoPrev => 0x45
  | .pairRange => 0x46
  | .windowMismatch => 0x47
  | .maskWidth => 0x48
  | .dtMode => 0x49
  | .symRange => 0x4A
  | .iqRange => 0x50
  | .angleRange => 0x51

/-- The ERR_CODE word of an error (R45): BAND, INDEX, CAUSE, reserved 0, CODE; INDEX and BAND modulo 256 (R401). -/
def Err.word (e : Err) : Word :=
  BitVec.ofNat 8 e.band ++ BitVec.ofNat 8 e.index ++ e.cause.id ++ BitVec.ofNat 4 0 ++ e.cause.kind.code

/-- A command completes (R160): BUSY <- 0, DONE <- 1, PENDING <- none. -/
def State.complete (s : State) : State := { s with pending := none, done := true }

/-- Steps 2 and 3 of R402: the first error since ERR was last cleared is the one kept. -/
def State.record (s : State) (e : Err) : State :=
  if s.err then s else { s with err := true, errCode := e.word }

/-- `raise` (R402) from the state that survives it: record the error and complete the command. -/
def State.raise (s : State) (e : Err) : State := (s.record e).complete

/-- The error condition ends (R385, R340): ERR <- 0, ERR_CODE <- 0. -/
def State.clearError (s : State) : State := { s with err := false, errCode := 0 }

/-- The outcome of a command (R160, R402): `r` is the state its rule reaches at `done`, or how it ended early, and
`base` what a raise leaves of its changes. -/
def finish (base : State) (r : Except Halt State) : Host.Outcome State Fault Refusal :=
  match r with
  | .ok t => .next t.complete
  | .error (.raise e) => .next (base.raise e)
  | .error (.fault f) => .fault f

/-- A check (R16): raise `e` when `bad` holds. -/
def raiseIf (bad : Bool) (e : Err) : Except Halt Unit :=
  if bad then .error (.raise e) else .ok ()

end Sys2Proof.Machine
end

