-- ==== Sys2Proof/Machine/Operands.lean ====
section
/-! DEFINITION. Register fields (R50 to R57, R80, R85), the band notation of R17 and R253, and the operand and
configuration checks R251, R252, R262 to R264. -/

namespace Sys2Proof.Machine

/-! ### Register fields -/

/-- The bits a write of NSFB keeps (R50). -/
def nsfbMask : Word := 0x00007F7F
/-- The bits a write of NF_START keeps (R50). -/
def nfStartMask : Word := 0x07FF07FF
/-- The bits a write of ICS keeps (R55). -/
def icsMask : Word := 0x0F7F03FF
/-- The bits a write of NOISE keeps (R57). -/
def noiseMask : Word := 0x00001F07
/-- The bits a write of MCT_CTRL keeps (R80). -/
def mctCtrlMask : Word := 0x001F1F0F
/-- The bits a write of BOX_CTRL keeps (R85). -/
def boxCtrlMask : Word := 0x007F1FFF
/-- The bits a write of IRQ_EN keeps (R46). -/
def irqEnMask : Word := 0x00000003

/-- ICS.WIN_SEQ (R55). -/
def icsWinSeq (v : Word) : BitVec 2 := v.extractLsb' 0 2
/-- ICS.WIN_SHAPE. -/
def icsWinShape (v : Word) : Bool := v.getLsbD 2
/-- ICS.IS_LFE. -/
def icsLfe (v : Word) : Bool := v.getLsbD 3
/-- ICS.LTP. -/
def icsLtp (v : Word) : Bool := v.getLsbD 4
/-- ICS.GAIN_CTRL. -/
def icsGainCtrl (v : Word) : Bool := v.getLsbD 5
/-- ICS.ER_PAYLOAD. -/
def icsErPayload (v : Word) : Bool := v.getLsbD 6
/-- ICS.NOISE_EN. -/
def icsNoiseEn (v : Word) : Bool := v.getLsbD 7
/-- ICS.IGF_EN. -/
def icsIgfEn (v : Word) : Bool := v.getLsbD 8
/-- ICS.PATH. -/
def icsPath (v : Word) : Bool := v.getLsbD 9
/-- ICS.MAX_SFB. -/
def icsMaxSfb (v : Word) : Nat := (v.extractLsb' 16 7).toNat
/-- ICS.NUM_GROUPS. -/
def icsNumGroups (v : Word) : Nat := (v.extractLsb' 24 4).toNat

/-- NOISE.NOISE_LEVEL (R57). -/
def noiseLevel (v : Word) : BitVec 3 := v.extractLsb' 0 3
/-- NOISE.NOISE_OFFSET (R57). -/
def noiseOffset (v : Word) : BitVec 5 := v.extractLsb' 8 5

/-- MCT_CTRL.INDEP (R80). -/
def ctlIndep (v : Word) : Bool := v.getLsbD 0
/-- MCT_CTRL.SF_ENABLE. -/
def ctlSfEnable (v : Word) : Bool := v.getLsbD 1
/-- MCT_CTRL.MODE: true is angle rotation. -/
def ctlMode (v : Word) : Bool := v.getLsbD 2
/-- MCT_CTRL.KEEP_TREE. -/
def ctlKeepTree (v : Word) : Bool := v.getLsbD 3
/-- MCT_CTRL.NUM_BOXES. -/
def ctlNumBoxes (v : Word) : Nat := (v.extractLsb' 8 5).toNat
/-- MCT_CTRL.NCH. -/
def ctlNch (v : Word) : Nat := (v.extractLsb' 16 5).toNat

/-- BOX_CTRL.PAIR_IDX (R85). -/
def boxPairIdx (v : Word) : Nat := (v.extractLsb' 0 8).toNat
/-- BOX_CTRL.HAS_MASK. -/
def boxHasMask (v : Word) : Bool := v.getLsbD 8
/-- BOX_CTRL.BANDWISE. -/
def boxBandwise (v : Word) : Bool := v.getLsbD 9
/-- BOX_CTRL.PRED_DIR. -/
def boxPredDir (v : Word) : Bool := v.getLsbD 10
/-- BOX_CTRL.DELTA_TIME. -/
def boxDeltaTime (v : Word) : Bool := v.getLsbD 11
/-- BOX_CTRL.SF_FLAG. -/
def boxSfFlag (v : Word) : Bool := v.getLsbD 12
/-- BOX_CTRL.NUM_BANDS. -/
def boxNumBands (v : Word) : Nat := (v.extractLsb' 16 7).toNat

/-! ### Band notation (R17, R253) -/

/-- short(c) (R17). -/
def State.short (s : State) (c : Nat) : Bool := decide (icsWinSeq (s.ch c).ics = 2)

/-- nwin(c) (R17). -/
def State.nwin (s : State) (c : Nat) : Nat := if s.short c then Config.nWinShort else 1

/-- wlen(c) (R17). -/
def State.wlen (P : Params) (s : State) (c : Nat) : Nat := if s.short c then P.nLong / 8 else P.nLong

/-- OFF(c)[b] (R253). -/
def State.off (s : State) (c b : Nat) : Nat :=
  if s.short c then ((s.sfbOffShort[b]?).getD 0).toNat else ((s.sfbOffLong[b]?).getD 0).toNat

/-- NSFB(c) (R253). -/
def State.nsfbOf (s : State) (c : Nat) : Nat :=
  if s.short c then (s.nsfb.extractLsb' 8 7).toNat else (s.nsfb.extractLsb' 0 7).toNat

/-- The line (within a window) noise filling starts from for channel c (R50, R280). -/
def State.nfStartOf (s : State) (c : Nat) : Nat :=
  if s.short c then (s.nfStart.extractLsb' 16 11).toNat else (s.nfStart.extractLsb' 0 11).toNat

/-- MAXSFB(c) (R253). -/
def State.maxSfb (s : State) (c : Nat) : Nat := icsMaxSfb (s.ch c).ics

/-- NG(c) (R253). -/
def State.ng (s : State) (c : Nat) : Nat := icsNumGroups (s.ch c).ics

/-- GL(c, g) (R56, R253): nibble g of GROUP_LEN. -/
def State.gl (s : State) (c g : Nat) : Nat := ((s.ch c).groupLen.extractLsb' (4 * g) 4).toNat

/-- The first line of band b of window w (R17). -/
def State.lineLo (P : Params) (s : State) (c w b : Nat) : Nat := w * s.wlen P c + s.off c b

/-- The number of lines of band b (R203). -/
def State.bandWidth (s : State) (c b : Nat) : Nat := s.off c (b + 1) - s.off c b

/-- The lengths of the groups of channel c; nibbles at g >= NG(c) are ignored (R263). -/
def State.groupLens (s : State) (c : Nat) : List Nat := (List.range (s.ng c)).map (s.gl c)

/-- The group a window falls in, given the group lengths (R17). -/
def groupOf : List Nat → Nat → Nat
  | [], _ => 0
  | l :: ls, w => if w < l then 0 else 1 + groupOf ls (w - l)

/-- grp(c, w) (R17). -/
def State.grp (s : State) (c w : Nat) : Nat := groupOf (s.groupLens c) w

/-- wins(c, g) (R253). -/
def State.wins (s : State) (c g : Nat) : List Nat := (List.range (s.nwin c)).filter (fun w => decide (s.grp c w = g))

/-- The pairs (x, b) with x < nx and b < nb, x outermost, both ascending. -/
def pairList (nx nb : Nat) : List (Nat × Nat) := (List.range nx).flatMap (fun x => (List.range nb).map (fun b => (x, b)))

/-- Bit b of the mid/side mask of group g of channel c (R61). -/
def State.msBit (s : State) (c g b : Nat) : Bool :=
  ((((s.ch c).msMaskHi[g]?).getD 0) ++ (((s.ch c).msMaskLo[g]?).getD 0)).getLsbD b

/-- CB[c][g][b] (R74): the 4 bits of the cell. -/
def State.getCb (s : State) (c g b : Nat) : Except Halt (BitVec 4) := do
  let v ← s.getByte .cb c (g * 64 + b)
  .ok (v.extractLsb' 0 4)

/-- SF[c][g][b] (R73). -/
def State.getSf (s : State) (c g b : Nat) : Except Halt Byte := s.getByte .sf c (g * 64 + b)

/-- NFLAG[c][w][b] (R75): bit 0 of the cell. -/
def State.getNflag (s : State) (c w b : Nat) : Except Halt Bool := do
  let v ← s.getByte .nflag c (w * 64 + b)
  .ok (v.getLsbD 0)

/-! ### Checks -/

/-- CHK_CH(c) (R252). -/
def chkCh (P : Params) (c : Nat) : Except Halt Unit :=
  raiseIf (decide (P.maxCh ≤ c)) { cause := .chRange, index := c }

/-- The stage a command needs of a channel (R251). -/
def chkStage (s : State) (c : Nat) (g : Stage) : Except Halt Unit :=
  raiseIf (decide ((s.ch c).stage ≠ g)) { cause := .stage, index := c }

/-- The first band of the table of c whose offsets do not rise (R262 step 2). -/
def State.badBand (s : State) (c : Nat) : Option Nat :=
  (List.range (s.nsfbOf c)).find? (fun b => decide (s.off c (b + 1) ≤ s.off c b))

/-- CHK_BT(c) (R262). -/
def chkBt (P : Params) (s : State) (c : Nat) : Except Halt Unit := do
  raiseIf (decide (Config.maxSfbTable < s.nsfbOf c)) { cause := .bandTable, index := c }
  match s.badBand c with
  | some b => .error (.raise { cause := .bandTable, index := c, band := b })
  | none => raiseIf (decide (s.wlen P c < s.off c (s.nsfbOf c))) { cause := .bandTable, index := c, band := s.nsfbOf c }

/-- The grouping rule of R263 step 5. -/
def State.groupingOk (s : State) (c : Nat) : Bool :=
  if s.short c then
    decide (1 ≤ s.ng c) && decide (s.ng c ≤ 8) && (s.groupLens c).all (fun l => decide (1 ≤ l)) &&
      decide ((s.groupLens c).sum = 8)
  else decide (s.ng c = 1) && decide (s.gl c 0 = 1)

/-- CHK_ICS(c) (R263). -/
def chkIcs (P : Params) (s : State) (c : Nat) : Except Halt Unit := do
  raiseIf (icsLtp (s.ch c).ics && !P.profileLtp) { cause := .ltp, index := c }
  raiseIf (icsGainCtrl (s.ch c).ics) { cause := .gainControl, index := c }
  raiseIf (icsErPayload (s.ch c).ics) { cause := .erPayload, index := c }
  raiseIf (icsLfe (s.ch c).ics && s.short c) { cause := .lfeShort, index := c }
  raiseIf (!s.groupingOk c) { cause := .grouping, index := c }
  raiseIf (decide (s.nsfbOf c < s.maxSfb c)) { cause := .maxSfb, index := c, band := s.maxSfb c }

/-- CHK_CFG(c) (R264). -/
def chkCfg (P : Params) (s : State) (c : Nat) : Except Halt Unit := do
  chkBt P s c
  chkIcs P s c

end Sys2Proof.Machine
end

