-- ==== Sys2Proof/Machine/Bands.lean ====
section
/-! DEFINITION. The operators of 40_bfp_numerics.md on the bands held in the channel memories: band and setband
(R202), OP2 (R214), ADD1 (R218) and stereo filling (R230). Mantissas are read before the exponent (log 10). -/

namespace Sys2Proof.Machine

/-- A band read from a mantissa memory and its exponent memory (R202, R230). -/
def State.bandOf (P : Params) (s : State) (mm em : ChMem) (c w b : Nat) : Except Halt Band := do
  let ws ← s.getWords mm c (s.lineLo P c w b) (s.bandWidth c b)
  let e ← s.getByte em c (w * 64 + b)
  .ok ⟨ws.map BitVec.toInt, e.toInt⟩

/-- band(c, w, b) (R202). -/
def State.band (P : Params) (s : State) (c w b : Nat) : Except Halt Band := s.bandOf P .mant .exp c w b

/-- A band written to a mantissa memory and its exponent memory. -/
def State.setBandOf (P : Params) (s : State) (mm em : ChMem) (c w b : Nat) (x : Band) : State :=
  (s.putWords mm c (s.lineLo P c w b) (x.mant.map (BitVec.ofInt 32))).putBytes em c (w * 64 + b) [BitVec.ofInt 8 x.exp]

/-- setband(c, w, b, M, e) (R202). -/
def State.setBand (P : Params) (s : State) (c w b : Nat) (x : Band) : State := s.setBandOf P .mant .exp c w b x

/-- OP2(f, c1, c2, w, b) (R214). -/
def State.op2At (P : Params) (f : Int → Int → Int × Int) (c1 c2 w b : Nat) (s : State) : Except Halt State := do
  let x ← s.band P c1 w b
  let y ← s.band P c2 w b
  match op2 P f x y with
  | none => .ok s
  | some r => .ok (((s.setBand P c1 w b r.fst).setBand P c2 w b r.snd).orOvf r.ovf)

/-- ADD1(c, w, b, Z, ez) (R218). -/
def State.add1At (P : Params) (c w b : Nat) (z : List Int) (ez : Int) (s : State) : Except Halt State := do
  let x ← s.band P c w b
  match add1 P x z ez with
  | none => .ok s
  | some r => .ok ((s.setBand P c w b r.1).orOvf r.2)

/-- The previous-frame band of a channel (R230), all zeros when R331 says so. -/
def State.prevBand (P : Params) (s : State) (c b : Nat) : Except Halt Band := do
  let x ← s.bandOf P .pmant .pexp c 0 b
  if (s.ch c).prevShort || ((s.ch c).prevPath != icsPath (s.ch c).ics) then .ok ⟨x.mant.map (fun _ => 0), x.exp⟩
  else .ok x

/-- SFILL(c1, c2, b, i) (R230). -/
def State.sfill (P : Params) (c1 c2 b i : Nat) (s : State) : Except Halt State := do
  let p1 ← s.prevBand P c1 b
  let p2 ← s.prevBand P c2 b
  match common p1 p2 with
  | none => .ok s
  | some ep =>
    let d := downmix P (P.rotTable i).1 (P.rotTable i).2 p1 p2 ep
    let x ← s.band P c2 0 b
    let sf ← s.getSf c2 0 b
    let g := sfillGain P d ep x.mant x.exp sf
    if g = 0 then .ok s else s.add1At P c2 0 b (sfillAdd P g d) ep

end Sys2Proof.Machine
end

