-- ==== Sys2Proof/Machine/Channel.lean ====
section
/-! DEFINITION. The channel spectral decoder commands (41_channel_decoder.md): CH_BEGIN, IQ_SCALE, IQ_DEQUANT,
NOISE_FILL, MS_APPLY. Each rule is a function of the build (R10); the exec definitions run the default one. -/

namespace Sys2Proof.Machine

/-! ### CH_BEGIN (R255) -/

/-- The pseudocode of R255. -/
def chBegin (P : Params) (c : Nat) (s : State) : Except Halt State := do
  chkCh P c
  .ok (((s.putBytes .cb c 0 (List.replicate 512 (P.escHcb.setWidth 8))).putBytes .nflag c 0
    (List.replicate 512 0)).setStage c .begun)

/-- CH_BEGIN c in build P. -/
def runChBegin (P : Params) (c : Nat) (s : State) : Host.Outcome State Fault Refusal :=
  finish s (chBegin P c s)

/-- CH_BEGIN c. -/
def execChBegin (c : Nat) (s : State) : Host.Outcome State Fault Refusal := runChBegin params c s

/-! ### IQ_SCALE (R265) -/

/-- The exponent and fraction of band (w, b): of its scale factor when it is transmitted below MAX_SFB, else 0. -/
def scaleCell (P : Params) (s : State) (c : Nat) (wb : Nat × Nat) : Except Halt (Byte × BitVec 2) :=
  if wb.1 < s.nwin c ∧ wb.2 < s.maxSfb c then do
    let cb ← s.getCb c (s.grp c wb.1) wb.2
    if P.transmitted cb then do
      let sf ← s.getSf c (s.grp c wb.1) wb.2
      .ok (P.iqExp sf)
    else .ok (0, 0)
  else .ok (0, 0)

/-- The pseudocode of R265. -/
def iqScale (P : Params) (c : Nat) (s : State) : Except Halt State := do
  chkCh P c
  chkStage s c .begun
  chkCfg P s c
  let cells ← (pairList 8 64).mapM (scaleCell P s c)
  .ok (((s.putBytes .exp c 0 (cells.map (·.1))).setFrac c (cells.map (·.2))).setStage c .scaled)

/-- IQ_SCALE c in build P. -/
def runIqScale (P : Params) (c : Nat) (s : State) : Host.Outcome State Fault Refusal :=
  finish s (iqScale P c s)

/-- IQ_SCALE c. -/
def execIqScale (c : Nat) (s : State) : Host.Outcome State Fault Refusal := runIqScale params c s

/-! ### IQ_DEQUANT (R272) -/

/-- Whether band (w, b) is in T of R272, given w < nwin(c) and b < MAXSFB(c). -/
def isTransmitted (P : Params) (s : State) (c : Nat) (wb : Nat × Nat) : Except Halt Bool := do
  let cb ← s.getCb c (s.grp c wb.1) wb.2
  .ok (P.transmitted cb)

/-- The bands a list keeps under a test that may read memory, in order. -/
def filterRun {α : Type} (f : α → Except Halt Bool) : List α → Except Halt (List α)
  | [] => .ok []
  | x :: xs => do
    let keep ← f x
    let ys ← filterRun f xs
    .ok (if keep then x :: ys else ys)

/-- The range check of one quantised value of band b (R272). -/
def checkQ (P : Params) (c b : Nat) (q : Word) : Except Halt Word := do
  raiseIf (decide (P.qMax < q.toInt.natAbs)) { cause := .iqRange, index := c, band := b }
  .ok q

/-- The quantised values of a band, each checked as it is read. -/
def readQuant (P : Params) (s : State) (c : Nat) (wb : Nat × Nat) : Except Halt ((Nat × Nat) × List Word) := do
  let qs ← walkWords (checkQ P c wb.2) (s.bandWidth c wb.2) s.mem (cellAddr .qin c (s.lineLo P c wb.1 wb.2))
  .ok (wb, qs)

/-- Write the mantissas of one transmitted band (R272). -/
def putDequant (P : Params) (c : Nat) (s : State) (x : (Nat × Nat) × List Word) : State :=
  s.putWords .mant c (s.lineLo P c x.1.1 x.1.2) (x.2.map (fun q => P.iqMant q (s.fracAt c x.1.1 x.1.2)))

/-- The pseudocode of R272. -/
def iqDequant (P : Params) (c : Nat) (s : State) : Except Halt State := do
  chkCh P c
  chkStage s c .scaled
  chkCfg P s c
  let t ← filterRun (isTransmitted P s c) (pairList (s.nwin c) (s.maxSfb c))
  let qs ← t.mapM (readQuant P s c)
  .ok ((qs.foldl (putDequant P c) (s.putWords .mant c 0 (List.replicate P.nLong 0))).setStage c .decoded)

/-- IQ_DEQUANT c in build P. -/
def runIqDequant (P : Params) (c : Nat) (s : State) : Host.Outcome State Fault Refusal :=
  finish s (iqDequant P c s)

/-- IQ_DEQUANT c. -/
def execIqDequant (c : Nat) (s : State) : Host.Outcome State Fault Refusal := runIqDequant params c s

/-! ### NOISE_FILL (R280) -/

/-- Whether a test that may read memory holds of every element, stopping at the first that fails (log 10). -/
def allRun {α : Type} (f : α → Except Halt Bool) : List α → Except Halt Bool
  | [] => .ok true
  | x :: xs => do
    let b ← f x
    if b then allRun f xs else .ok false

/-- Whether the quantised lines of band b in window w are all 0. -/
def quantZero (P : Params) (s : State) (c b w : Nat) : Except Halt Bool :=
  walkAllZero (s.bandWidth c b) s.mem (cellAddr .qin c (s.lineLo P c w b))

/-- Whether band b of window w is not flagged as noise. -/
def notFlagged (s : State) (c b w : Nat) : Except Halt Bool := do
  let f ← s.getNflag c w b
  .ok (!f)

/-- cand of R280: its conjuncts from left to right, stopping at the first that is false. -/
def noiseCand (P : Params) (s : State) (c g b : Nat) : Except Halt Bool :=
  if s.off c b < s.nfStartOf c then .ok false
  else do
    let cb ← s.getCb c g b
    if P.transmitted cb then do
      let z ← allRun (quantZero P s c b) (s.wins c g)
      if z then allRun (notFlagged s c b) (s.wins c g) else .ok false
    else .ok false

/-- n noise lines of magnitude nm, and the seed after them: one generator call a line (R222, R280). -/
def noiseLines (P : Params) (nm : Int) : Nat → Word → List Int × Word
  | 0, seed => ([], seed)
  | n + 1, seed =>
    let r := P.noiseRng seed
    let rest := noiseLines P nm n r.2
    ((if r.1 then -nm else nm) :: rest.1, rest.2)

/-- Fill band b of window w (R280): the noise is added, the band flagged. -/
def fillWindow (P : Params) (c b : Nat) (nm ne : Int) (acc : State × Word) (w : Nat) : Except Halt (State × Word) := do
  let z := noiseLines P nm (acc.1.bandWidth c b) acc.2
  let s ← acc.1.add1At P c w b z.1 ne
  .ok (s.putBytes .nflag c (w * 64 + b) [1], z.2)

/-- One (group, band) of the loop of R280. -/
def fillBand (P : Params) (c : Nat) (acc : State × Word) (gb : Nat × Nat) : Except Halt (State × Word) := do
  let cand ← noiseCand P acc.1 c gb.1 gb.2
  if cand then do
    let sf ← acc.1.getSf c gb.1 gb.2
    let k := P.noiseKernel (noiseLevel (acc.1.ch c).noise) (noiseOffset (acc.1.ch c).noise) sf
    (acc.1.wins c gb.1).foldlM (fillWindow P c gb.2 k.1.toInt k.2.toInt) acc
  else .ok acc

/-- The pseudocode of R280. -/
def noiseFill (P : Params) (c : Nat) (s : State) : Except Halt State := do
  chkCh P c
  chkStage s c .decoded
  chkCfg P s c
  if !icsNoiseEn (s.ch c).ics || decide (noiseLevel (s.ch c).noise = 0) then .ok s
  else do
    let r ← (pairList (s.ng c) (s.maxSfb c)).foldlM (fillBand P c) (s, (s.ch c).nseed)
    .ok (r.1.setSeed c r.2)

/-- NOISE_FILL c in build P. -/
def runNoiseFill (P : Params) (c : Nat) (s : State) : Host.Outcome State Fault Refusal :=
  finish s (noiseFill P c s)

/-- NOISE_FILL c. -/
def execNoiseFill (c : Nat) (s : State) : Host.Outcome State Fault Refusal := runNoiseFill params c s

/-! ### MS_APPLY (R290, R292) -/

/-- The common-window channels differ in WIN_SEQ, NUM_GROUPS, a group length or MAX_SFB (R290). -/
def cwMismatch (s : State) (c1 c2 : Nat) : Bool :=
  decide (icsWinSeq (s.ch c1).ics ≠ icsWinSeq (s.ch c2).ics) || decide (s.ng c1 ≠ s.ng c2) ||
    (List.range (s.ng c1)).any (fun g => decide (s.gl c1 g ≠ s.gl c2 g)) || decide (s.maxSfb c1 ≠ s.maxSfb c2)

/-- M/S of one band where its mask bit is set (R290). -/
def msBand (P : Params) (c1 c2 : Nat) (s : State) (wb : Nat × Nat) : Except Halt State :=
  if s.msBit c1 (s.grp c1 wb.1) wb.2 then s.op2At P laneMs c1 c2 wb.1 wb.2 else .ok s

/-- The half-sum of one band into the downmix history (R292). -/
def dmxBand (P : Params) (c1 c2 : Nat) (s : State) (wb : Nat × Nat) : Except Halt State := do
  let x ← s.band P c1 wb.1 wb.2
  let y ← s.band P c2 wb.1 wb.2
  let r := halfSum P x y
  .ok ((s.setBandOf P .dmxm .dmxe c1 wb.1 wb.2 r.1).orOvf r.2)

/-- DMX_UPDATE(c1, c2) (R292). -/
def dmxUpdate (P : Params) (c1 c2 : Nat) (s : State) : Except Halt State :=
  (pairList (s.nwin c1) (s.maxSfb c1)).foldlM (dmxBand P c1 c2)
    ((s.putWords .dmxm c1 0 (List.replicate P.nLong 0)).putBytes .dmxe c1 0 (List.replicate 512 0))

/-- PREV_WIN_SEQ and PREV_WIN_SHAPE of c1 (R60, R290). -/
def savePrevWin (c1 : Nat) (s : State) : State :=
  s.setCh c1
    { s.ch c1 with prevWinSeq := icsWinSeq (s.ch c1).ics, prevWinShape := icsWinShape (s.ch c1).ics }

/-- The pseudocode of R290. -/
def msApply (P : Params) (c1 c2 : Nat) (cw : Bool) (s : State) : Except Halt State := do
  chkCh P c1
  chkCh P c2
  raiseIf (decide (c1 = c2)) { cause := .sameChannel, index := c1 }
  chkStage s c1 .decoded
  chkStage s c2 .decoded
  if cw then do
    chkCfg P s c1
    chkCfg P s c2
    raiseIf (cwMismatch s c1 c2) { cause := .cwMismatch, index := c1 }
    let s1 ← (pairList (s.nwin c1) (s.maxSfb c1)).foldlM (msBand P c1 c2) s
    let s2 ← dmxUpdate P c1 c2 s1
    .ok (savePrevWin c1 s2)
  else .ok s

/-- MS_APPLY c1, c2, cw in build P. -/
def runMsApply (P : Params) (c1 c2 : Nat) (cw : Bool) (s : State) : Host.Outcome State Fault Refusal :=
  finish s (msApply P c1 c2 cw s)

/-- MS_APPLY c1, c2, cw. -/
def execMsApply (c1 c2 : Nat) (cw : Bool) (s : State) : Host.Outcome State Fault Refusal := runMsApply params c1 c2 cw s

end Sys2Proof.Machine
end

