-- ==== Sys2Proof/Machine/Control.lean ====
section
/-! DEFINITION. The control commands (43_control.md): NOP and CLEAR_ERR. -/

namespace Sys2Proof.Machine

/-- NOP (R380): it completes. -/
def execNop (s : State) : Host.Outcome State Fault Refusal := finish s (.ok s)

/-- CLEAR_ERR (R385): the error condition ends. -/
def execClearErr (s : State) : Host.Outcome State Fault Refusal := finish s (.ok s.clearError)

end Sys2Proof.Machine
end

