-- ==== Sys2Proof/Machine/Mct.lean ====
section
/-! DEFINITION. The MCT commands (42_mct.md): MCT_PARSE, MCT_APPLY, MCT_CLOSE, MCT_RESET, with the history reset,
the pair list, coefficient reconstruction, coverage and frame close they share. -/

namespace Sys2Proof.Machine

/-! ### History reset (R305) -/

/-- The part of HRESET that a box sees: HIST and BOX_PREV become 0. -/
def Box.forget (x : Box) : Box :=
  { x with
    hist := Vector.replicate 64 0, prevPair := 0, prevPairValid := false, prevBoxShort := false, histValid := false }

/-- The part of HRESET that a channel's registers see. -/
def Channel.forget (x : Channel) : Channel := { x with prevShort := false, prevPath := false }

/-- HRESET() (R305). -/
def hreset (P : Params) (s : State) : State :=
  let s1 := (List.range P.maxBoxes).foldl (fun t i => t.setBox i (t.box i).forget) s
  let s2 := { s1 with prevMode := .none }
  (List.range P.maxCh).foldl (fun t c => (t.clearSaved P.nLong c).setCh c (t.ch c).forget) s2

/-! ### Pair list (R307) -/

/-- PAIRS(n) (R307): every (p1, p2) with p1 < p2 < n, by p1 then p2. -/
def pairs (n : Nat) : List (Nat × Nat) :=
  (List.range n).flatMap (fun p1 => (List.range' (p1 + 1) (n - (p1 + 1))).map (fun p2 => (p1, p2)))

/-! ### MCT_PARSE (R310) -/

/-- What MCT_PARSE stages for one box. -/
structure ParsedBox where
  coef : Vector Word 64
  info : Word
  latch : LBox
  deriving DecidableEq, Repr

/-- The {MASK_HI, MASK_LO} of a box (R86). -/
def Box.mask (x : Box) : BitVec 64 := x.maskHi ++ x.maskLo

/-- SYM[j] of a box (R87). -/
def Box.symAt (x : Box) (j : Nat) : Nat := ((x.sym[j]?).getD 0).toNat

/-- HIST[b] of a box (R90). -/
def Box.histAt (x : Box) (b : Nat) : Int := ((x.hist[b]?).getD 0).toInt

/-- DEF of R310: the default coefficient of a mode (true: angle). -/
def modeDefault (P : Params) (mode : Bool) : Int := if mode then P.angleDefault else P.alphaDefault

/-- Whether PREV_MODE is the given mode. -/
def PrevMode.is : PrevMode → Bool → Bool
  | .alpha, m => !m
  | .angle, m => m
  | .none, _ => false

/-- PREV_MODE of a mode (R341). -/
def PrevMode.ofMode (mode : Bool) : PrevMode := if mode then .angle else .alpha

/-- Whether a box carries a band count (R314). -/
def boxFlagged (ctrl : Word) : Bool := boxHasMask ctrl || boxBandwise ctrl

/-- The active width W (R314). -/
def boxWidth (ctrl : Word) : Nat := if boxFlagged ctrl then boxNumBands ctrl else 1

/-- Whether the mask lets band b through: HAS_MASK = 0 or its bit is 1. -/
def maskAllows (ctrl : Word) (mask : BitVec 64) (b : Nat) : Bool := !boxHasMask ctrl || mask.getLsbD b

/-- The coded bands (R314). -/
def codedBands (ctrl : Word) (mask : BitVec 64) : List Nat :=
  if boxBandwise ctrl then (List.range (boxWidth ctrl)).filter (maskAllows ctrl mask) else [0]

/-- WORKHIST(i, mode, sh)[b] (R312). -/
def workHist (P : Params) (s : State) (i : Nat) (mode sh : Bool) (b : Nat) : Int :=
  if !(s.box i).histValid || !s.prevMode.is mode || ((s.box i).prevBoxShort != sh) then modeDefault P mode
  else (s.box i).histAt b

/-- The alphabet of a mode (R310). -/
def alphabet (P : Params) (mode : Bool) : Nat := if mode then P.angleAlphabet else P.alphaAlphabet

/-- The inverse DPCM of one symbol of band b (R313). -/
def reconstruct (P : Params) (i : Nat) (mode : Bool) (pred : Int) (sym b : Nat) : Except Halt Word :=
  if mode then
    let v := (pred + (sym : Int)) % (P.angleAlphabet : Int)
    if (P.angleValid : Int) ≤ v then .error (.raise { cause := .angleRange, index := i, band := b })
    else .ok (BitVec.ofInt 32 v)
  else .ok (BitVec.ofInt 32 (pred + (sym : Int) - P.alphaBias))

/-- The predictor of band b (R313). -/
def predictor (P : Params) (s : State) (i : Nat) (mode sh : Bool) (b : Nat) : Int :=
  if boxDeltaTime (s.box i).ctrl then workHist P s i mode sh b else modeDefault P mode

/-- The reconstructed coefficients of the coded bands, each with its band (R310). -/
def codedValues (P : Params) (s : State) (i : Nat) (mode sh : Bool) : List (Nat × Nat) → Except Halt (List (Nat × Word))
  | [] => .ok []
  | (b, j) :: rest => do
    let v ← reconstruct P i mode (predictor P s i mode sh b) ((s.box i).symAt j) b
    let vs ← codedValues P s i mode sh rest
    .ok ((b, v) :: vs)

/-- NEW[b] of R310 (R316): the coded value, else the working history below W, else the default. -/
def newCoef (P : Params) (s : State) (i : Nat) (mode sh : Bool) (width : Nat) (vals : List (Nat × Word)) (b : Nat) :
    Word :=
  match vals.find? (fun x => decide (x.1 = b)) with
  | some x => x.2
  | none => BitVec.ofInt 32 (if b < width then workHist P s i mode sh b else modeDefault P mode)

/-- The BOX_INFO word of a parsed box (R88). -/
def infoWord (c1 c2 : Nat) (sh : Bool) (ncoded : Nat) : Word :=
  BitVec.ofNat 1 0 ++ BitVec.ofNat 7 ncoded ++ BitVec.ofNat 6 0 ++ BitVec.ofBool true ++ BitVec.ofBool sh ++
    BitVec.ofNat 8 c2 ++ BitVec.ofNat 8 c1

/-- The pair index of box i (R310): the kept one, or PAIR_IDX. -/
def pairIndex (s : State) (keep : Bool) (i : Nat) : Except Halt Nat :=
  if keep then do
    raiseIf (!(s.box i).prevPairValid) { cause := .keepNoPrev, index := i }
    .ok (s.box i).prevPair.toNat
  else .ok (boxPairIdx (s.box i).ctrl)

/-- The channel slots of a pair index in a group of n channels (R307, R310). -/
def pairSlots (s : State) (n i pi : Nat) : Except Halt (Nat × Nat) :=
  match (pairs n)[pi]? with
  | none => .error (.raise { cause := .pairRange, index := i, band := pi })
  | some p => .ok (s.chMapAt p.1, s.chMapAt p.2)

/-- The channel checks of one box (R310). -/
def boxChannels (P : Params) (s : State) (i c1 c2 : Nat) : Except Halt Unit := do
  chkStage s c1 .decoded
  chkStage s c2 .decoded
  chkCfg P s c1
  chkCfg P s c2
  raiseIf (s.short c1 != s.short c2) { cause := .windowMismatch, index := i }
  raiseIf (icsIgfEn (s.ch c1).ics && icsIgfEn (s.ch c2).ics) { cause := .igfTiles, index := i }

/-- The first symbol of a box at or above its alphabet, among the first n (R310). -/
def badSymbol (P : Params) (x : Box) (mode : Bool) (n : Nat) : Option Nat :=
  (List.range n).find? (fun j => decide (alphabet P mode ≤ x.symAt j))

/-- The checks of R310 on a box's own fields: band count, delta-time legality (R311), symbols. -/
def boxFields (P : Params) (s : State) (mode : Bool) (i : Nat) : Except Halt Unit := do
  raiseIf (boxFlagged (s.box i).ctrl && decide (Config.maxMctBands < boxNumBands (s.box i).ctrl))
    { cause := .maskWidth, index := i, band := boxNumBands (s.box i).ctrl }
  raiseIf (boxDeltaTime (s.box i).ctrl && decide (s.prevMode ≠ .none) && !s.prevMode.is mode)
    { cause := .dtMode, index := i }
  match badSymbol P (s.box i) mode (codedBands (s.box i).ctrl (s.box i).mask).length with
  | some j => .error (.raise { cause := .symRange, index := i, band := j })
  | none => .ok ()

/-- One round of the box loop of R310. -/
def parseBox (P : Params) (s : State) (keep mode : Bool) (n i : Nat) : Except Halt ParsedBox := do
  let pi ← pairIndex s keep i
  let (c1, c2) ← pairSlots s n i pi
  boxChannels P s i c1 c2
  boxFields P s mode i
  let ctrl := (s.box i).ctrl
  let mask := (s.box i).mask
  let coded := codedBands ctrl mask
  let sh := s.short c1
  let vals ← codedValues P s i mode sh coded.zipIdx
  .ok
    { coef := vecOfList 64 ((List.range 64).map (newCoef P s i mode sh (boxWidth ctrl) vals)) 0
      info := infoWord c1 c2 sh coded.length
      latch := ⟨ctrl, mask, pi, c1, c2, sh, boxWidth ctrl⟩ }

/-- The first position of CH_MAP below n whose slot is out of range (R310). -/
def badMapRange (P : Params) (s : State) (n : Nat) : Option Nat :=
  (List.range n).find? (fun p => decide (P.maxCh ≤ s.chMapAt p))

/-- The first position of CH_MAP below n that repeats an earlier one (R310). -/
def badMapDup (s : State) (n : Nat) : Option Nat :=
  (List.range n).find? (fun q => (List.range q).any (fun p => decide (s.chMapAt p = s.chMapAt q)))

/-- The checks of the group's channel list, made when there is a box (R310). -/
def groupChecks (P : Params) (s : State) (n : Nat) : Except Halt Unit := do
  raiseIf (decide (n < 2) || decide (P.maxCh < n)) { cause := .nchRange, band := n }
  match badMapRange P s n with
  | some p => .error (.raise { cause := .chmapRange, band := p })
  | none =>
    match badMapDup s n with
    | some q => .error (.raise { cause := .chmapDup, band := q })
    | none => .ok ()

/-- The staged writes of one parsed box (R310). -/
def State.commitBox (s : State) (i : Nat) (x : ParsedBox) : State :=
  { s.setBox i { s.box i with coef := x.coef, info := x.info } with lBox := s.lBox.setIfInBounds i x.latch }

/-- The `commit` line of R310: every staged write, the latch of MCT_CTRL, and the new MCT_STATE. -/
def commitParse (P : Params) (s : State) (ps : List ParsedBox) : State :=
  let s1 := ps.zipIdx.foldl (fun t x => t.commitBox x.2 x.1) s
  let s2 :=
    (List.range' ps.length (P.maxBoxes - ps.length)).foldl (fun t i => t.setBox i { t.box i with info := 0 }) s1
  { s2 with lCtrl := s.mctCtrl, mctState := .boxesParsed }

/-- Whether MCT_PARSE may start in this state (R301). -/
def parseAllowed (s : State) : Bool := decide (s.mctState = .idle) || decide (s.mctState = .saved)

/-- The state MCT_PARSE works on, and the one a later raise leaves (R310, R402): after HRESET when INDEP = 1. -/
def parseBase (P : Params) (s : State) : State :=
  if parseAllowed s && ctlIndep s.mctCtrl then hreset P s else s

/-- The pseudocode of R310 after the HRESET line, on the state after it. -/
def parseFrame (P : Params) (s : State) : Except Halt State := do
  raiseIf (decide (P.maxBoxes < ctlNumBoxes s.mctCtrl)) { cause := .boxCount, band := ctlNumBoxes s.mctCtrl }
  if 1 ≤ ctlNumBoxes s.mctCtrl then groupChecks P s (ctlNch s.mctCtrl) else .ok ()
  let ps ← (List.range (ctlNumBoxes s.mctCtrl)).mapM
    (parseBox P s (ctlKeepTree s.mctCtrl && !ctlIndep s.mctCtrl) (ctlMode s.mctCtrl) (ctlNch s.mctCtrl))
  .ok (commitParse P s ps)

/-- The pseudocode of R310. -/
def mctParse (P : Params) (s : State) : Except Halt State := do
  raiseIf (!parseAllowed s) { cause := .mctState }
  parseFrame P (parseBase P s)

/-- MCT_PARSE in build P. -/
def runMctParse (P : Params) (s : State) : Host.Outcome State Fault Refusal :=
  finish (parseBase P s) (mctParse P s)

/-- MCT_PARSE. -/
def execMctParse (s : State) : Host.Outcome State Fault Refusal := runMctParse params s

/-! ### MCT_APPLY (R325) -/

/-- The re-check of one latched box (R325). -/
def recheckBox (P : Params) (s : State) (i : Nat) : Except Halt Unit := do
  chkStage s (s.latch i).c1 .decoded
  chkStage s (s.latch i).c2 .decoded
  chkCfg P s (s.latch i).c1
  chkCfg P s (s.latch i).c2
  raiseIf ((s.short (s.latch i).c1 != (s.latch i).sh) || (s.short (s.latch i).c2 != (s.latch i).sh))
    { cause := .windowMismatch, index := i }

/-- COV(i) (R320). -/
def covered (s : State) (x : LBox) : List Nat :=
  let bl := max (s.maxSfb x.c1) (s.maxSfb x.c2)
  if boxFlagged x.ctrl then (List.range (min x.width bl)).filter (maskAllows x.ctrl x.mask) else List.range bl

/-- coef(i, b) (R320). -/
def State.coefAt (s : State) (i b : Nat) : Word :=
  (((s.box i).coef[if boxBandwise (s.latch i).ctrl then b else 0]?)).getD 0

/-- Stereo filling of a band of box i where R330 calls for it. -/
def fillStereo (P : Params) (i b : Nat) (s : State) : Except Halt State :=
  if ctlMode s.lCtrl && ctlSfEnable s.lCtrl && boxSfFlag (s.latch i).ctrl && !(s.latch i).sh then do
    let f ← s.getNflag (s.latch i).c2 0 b
    if f then s.sfill P (s.latch i).c1 (s.latch i).c2 b (s.coefAt i b).toNat else .ok s
  else .ok s

/-- The lane function of band b of box i (R216, R217, R325). -/
def laneOf (P : Params) (s : State) (i b : Nat) : Int → Int → Int × Int :=
  if ctlMode s.lCtrl then
    laneRot (P.rotTable (s.coefAt i b).toNat).1 (P.rotTable (s.coefAt i b).toNat).2
  else lanePred (P.alphaTable (s.coefAt i b).toInt) (boxPredDir (s.latch i).ctrl)

/-- One band of one window of box i (R325). -/
def applyBand (P : Params) (i : Nat) (s : State) (wb : Nat × Nat) : Except Halt State := do
  let t ← fillStereo P i wb.2 s
  t.op2At P (laneOf P t i wb.2) (t.latch i).c1 (t.latch i).c2 wb.1 wb.2

/-- The windows and bands of box i, windows outermost (R325). -/
def boxBands (s : State) (i : Nat) : List (Nat × Nat) :=
  (List.range (if (s.latch i).sh then Config.nWinShort else 1)).flatMap
    (fun w => (covered s (s.latch i)).map (fun b => (w, b)))

/-- One box of MCT_APPLY (R325). -/
def applyBox (P : Params) (s : State) (i : Nat) : Except Halt State := (boxBands s i).foldlM (applyBand P i) s

/-- The pseudocode of R325. -/
def mctApply (P : Params) (s : State) : Except Halt State := do
  raiseIf (decide (s.mctState ≠ .boxesParsed)) { cause := .mctState }
  (List.range (ctlNumBoxes s.lCtrl)).forM (recheckBox P s)
  let t ← (List.range (ctlNumBoxes s.lCtrl)).foldlM (applyBox P) s
  .ok { t with mctState := .rotationApplied }

/-- MCT_APPLY in build P. -/
def runMctApply (P : Params) (s : State) : Host.Outcome State Fault Refusal :=
  finish s (mctApply P s)

/-- MCT_APPLY. -/
def execMctApply (s : State) : Host.Outcome State Fault Refusal := runMctApply params s

/-! ### MCT_CLOSE (R340 to R342) -/

/-- A box of the committed frame (R341): COEF becomes the history. -/
def Box.commit (x : Box) (l : LBox) : Box :=
  { x with
    hist := x.coef, prevPair := BitVec.ofNat 8 l.pair, prevPairValid := true, prevBoxShort := l.sh, histValid := true }

/-- A box outside the committed frame (R341). -/
def Box.drop (x : Box) : Box := { x with prevPairValid := false, histValid := false }

/-- Whether channel c takes part in the latched frame (R341). -/
def participates (s : State) (c : Nat) : Bool :=
  (List.range (ctlNumBoxes s.lCtrl)).any (fun i => decide ((s.latch i).c1 = c) || decide ((s.latch i).c2 = c))

/-- Save the spectrum and flags of one participating channel (R341). -/
def saveChannel (P : Params) (s : State) (c : Nat) : Except Halt State := do
  let ms ← s.getWords .mant c 0 P.nLong
  let es ← s.getBytes .exp c 0 512
  let t := (s.putWords .pmant c 0 ms).putBytes .pexp c 0 es
  .ok (t.setCh c { t.ch c with prevShort := s.short c, prevPath := icsPath (s.ch c).ics })

/-- The box part of COMMIT() (R341). -/
def commitBoxes (P : Params) (s : State) : State :=
  let n := ctlNumBoxes s.lCtrl
  let s1 := (List.range n).foldl (fun t i => t.setBox i ((t.box i).commit (t.latch i))) s
  (List.range' n (P.maxBoxes - n)).foldl (fun t i => t.setBox i (t.box i).drop) s1

/-- COMMIT() (R341). -/
def commitFrame (P : Params) (s : State) : Except Halt State :=
  ((List.range P.maxCh).filter (participates s)).foldlM (saveChannel P)
    { commitBoxes P s with prevMode := PrevMode.ofMode (ctlMode s.lCtrl) }

/-- FAILCLOSE() (R342). -/
def failClose (P : Params) (s : State) : State := (List.range P.maxCh).foldl (fun t c => t.clearSaved P.nLong c) s

/-- The pseudocode of R340. -/
def mctClose (P : Params) (ok : Bool) (s : State) : Except Halt State :=
  if ok && !s.err then do
    raiseIf (decide (s.mctState ≠ .rotationApplied)) { cause := .mctState }
    let t ← commitFrame P s
    .ok { t with mctState := .saved }.clearError
  else .ok { failClose P s with mctState := .idle }.clearError

/-- MCT_CLOSE ok in build P. -/
def runMctClose (P : Params) (ok : Bool) (s : State) : Host.Outcome State Fault Refusal :=
  finish s (mctClose P ok s)

/-- MCT_CLOSE ok. -/
def execMctClose (ok : Bool) (s : State) : Host.Outcome State Fault Refusal := runMctClose params ok s

/-! ### MCT_RESET (R345) -/

/-- The pseudocode of R345. -/
def mctReset (P : Params) (s : State) : State := { hreset P s with mctState := .idle }

/-- MCT_RESET in build P. -/
def runMctReset (P : Params) (s : State) : Host.Outcome State Fault Refusal :=
  finish s (.ok (mctReset P s))

/-- MCT_RESET. -/
def execMctReset (s : State) : Host.Outcome State Fault Refusal := runMctReset params s

end Sys2Proof.Machine
end

