-- ==== Sys2Proof/Syntax.lean ====
section
/-! DEFINITION. The eleven commands of the block (R165, R168), one constructor for each row of the opcode table. -/

namespace Sys2Proof

/-- A decoded command (R168). Channel slots are the unsigned integers of R163, in 0..255 when well formed. -/
inductive Instr where
  /-- NOP (R380). -/
  | nop
  /-- CH_BEGIN c (R255). -/
  | chBegin (c : Nat)
  /-- IQ_SCALE c (R265). -/
  | iqScale (c : Nat)
  /-- IQ_DEQUANT c (R272). -/
  | iqDequant (c : Nat)
  /-- NOISE_FILL c (R280). -/
  | noiseFill (c : Nat)
  /-- MS_APPLY c1, c2, cw (R290). -/
  | msApply (c1 c2 : Nat) (cw : Bool)
  /-- MCT_PARSE (R310). -/
  | mctParse
  /-- MCT_APPLY (R325). -/
  | mctApply
  /-- MCT_CLOSE ok (R340). -/
  | mctClose (ok : Bool)
  /-- MCT_RESET (R345). -/
  | mctReset
  /-- CLEAR_ERR (R385). -/
  | clearErr
  deriving DecidableEq, Repr

end Sys2Proof
end

