-- ==== Sys2Proof/Machine/Dispatch.lean ====
section
/-! DEFINITION. exec: one arm for each command, each one call of its meaning. -/

namespace Sys2Proof.Machine

def exec (i : Instr) (s : State) : Host.Outcome State Fault Refusal :=
  match i with
  | .nop => Sys2Proof.Machine.execNop s
  | .chBegin c => Sys2Proof.Machine.execChBegin c s
  | .iqScale c => Sys2Proof.Machine.execIqScale c s
  | .iqDequant c => Sys2Proof.Machine.execIqDequant c s
  | .noiseFill c => Sys2Proof.Machine.execNoiseFill c s
  | .msApply c1 c2 cw => Sys2Proof.Machine.execMsApply c1 c2 cw s
  | .mctParse => Sys2Proof.Machine.execMctParse s
  | .mctApply => Sys2Proof.Machine.execMctApply s
  | .mctClose ok => Sys2Proof.Machine.execMctClose ok s
  | .mctReset => Sys2Proof.Machine.execMctReset s
  | .clearErr => Sys2Proof.Machine.execClearErr s

end Sys2Proof.Machine
end

