-- ==== Sys2Proof/WellFormed.lean ====
section
/-! DEFINITION. When a command is well formed: each channel operand fits the 8-bit field that carries it (R161,
R163). The range below MAX_CH is checked by the command, not here (R163). -/

namespace Sys2Proof

/-- Every operand fits its field of the command word. -/
def Instr.wf : Instr → Bool
  | .chBegin c => decide (c < 256)
  | .iqScale c => decide (c < 256)
  | .iqDequant c => decide (c < 256)
  | .noiseFill c => decide (c < 256)
  | .msApply c1 c2 _ => decide (c1 < 256) && decide (c2 < 256)
  | .nop => true
  | .mctParse => true
  | .mctApply => true
  | .mctClose _ => true
  | .mctReset => true
  | .clearErr => true

end Sys2Proof
end

