-- ==== Sys2Proof/Decode.lean ====
section
/-! DEFINITION. The command decoder (R160 to R168), total on every 32-bit word, and after it the encoder. A word is
one command (R162): the opcode byte alone names it, the other mask bits are reserved-zero checks (R167). -/

namespace Sys2Proof

/-- Why a word is no command (R166). -/
inductive IllegalWord where
  /-- The opcode byte is reserved. -/
  | illegalOpcode
  /-- A listed opcode with a 1 in a reserved field. -/
  | reservedField
  deriving DecidableEq, Repr

/-- OP, bits [7:0] (R161). -/
def cmdOp (v : Word) : Nat := (v.extractLsb' 0 8).toNat

/-- A, bits [15:8] (R161): the first channel slot. -/
def cmdA (v : Word) : Nat := (v.extractLsb' 8 8).toNat

/-- B, bits [23:16] (R161): the second channel slot. -/
def cmdB (v : Word) : Nat := (v.extractLsb' 16 8).toNat

/-- F[0], bit 24 (R161, R163): the boolean operand. -/
def cmdF (v : Word) : Bool := v.getLsbD 24

/-- The command `i` of a word whose opcode byte selects the row (mask, match) of R167. -/
def checkRow (v mask pat : Word) (i : Instr) : Except IllegalWord Instr :=
  if v &&& mask = pat then .ok i else .error .reservedField

/-- The decoder: match and mask of R167, row by row; any other opcode byte is reserved (R165). -/
def decode (v : Word) : Except IllegalWord Instr :=
  match cmdOp v with
  | 0x00 => checkRow v 0xFFFFFFFF 0x00000000 .nop
  | 0x01 => checkRow v 0xFFFF00FF 0x00000001 (.chBegin (cmdA v))
  | 0x02 => checkRow v 0xFFFF00FF 0x00000002 (.iqScale (cmdA v))
  | 0x03 => checkRow v 0xFFFF00FF 0x00000003 (.iqDequant (cmdA v))
  | 0x04 => checkRow v 0xFFFF00FF 0x00000004 (.noiseFill (cmdA v))
  | 0x05 => checkRow v 0xFE0000FF 0x00000005 (.msApply (cmdA v) (cmdB v) (cmdF v))
  | 0x10 => checkRow v 0xFFFFFFFF 0x00000010 .mctParse
  | 0x11 => checkRow v 0xFFFFFFFF 0x00000011 .mctApply
  | 0x12 => checkRow v 0xFEFFFFFF 0x00000012 (.mctClose (cmdF v))
  | 0x13 => checkRow v 0xFFFFFFFF 0x00000013 .mctReset
  | 0x20 => checkRow v 0xFFFFFFFF 0x00000020 .clearErr
  | _ => .error .illegalOpcode

/-- A command word from its fields (R161, R175): OP | n<<8 | m<<16 | f<<24. -/
def packWord (op : Byte) (a b : Nat) (f : Bool) : Word :=
  BitVec.ofNat 7 0 ++ BitVec.ofBool f ++ BitVec.ofNat 8 b ++ BitVec.ofNat 8 a ++ op

/-- The encoder (R165, R175). -/
def encode : Instr → Word
  | .nop => packWord 0x00 0 0 false
  | .chBegin c => packWord 0x01 c 0 false
  | .iqScale c => packWord 0x02 c 0 false
  | .iqDequant c => packWord 0x03 c 0 false
  | .noiseFill c => packWord 0x04 c 0 false
  | .msApply c1 c2 cw => packWord 0x05 c1 c2 cw
  | .mctParse => packWord 0x10 0 0 false
  | .mctApply => packWord 0x11 0 0 false
  | .mctClose ok => packWord 0x12 0 0 ok
  | .mctReset => packWord 0x13 0 0 false
  | .clearErr => packWord 0x20 0 0 false

/-- The command word made of the low `nbits` bits of `w`, every higher bit 0. -/
def tableWord (nbits w : Nat) : Word := BitVec.ofNat 32 (w % 2 ^ nbits)

/-- The instruction the decoder reads from a row's bits, or none where it refuses. -/
def decodeTableWord (nbits w : Nat) : Option Instr := (decode (tableWord nbits w)).toOption

end Sys2Proof
end

