-- ==== Sys2Proof/Machine/Bus.lean ====
section
/-! DEFINITION. The host bus (20_memory.md): address decoding (R121 to R131), the read and write views (R133, R134),
the bus response (R132), taking a command (R43, R160), and reset (R450, R452). -/

namespace Sys2Proof.Machine

/-! ### What an address names -/

/-- A word of a channel register block (R125). -/
inductive ChReg where
  | ics | groupLen | noise | nseed | stage | prevInfo
  | msMaskLo (g : Nat)
  | msMaskHi (g : Nat)
  deriving DecidableEq, Repr

/-- A word of a box register block (R127). -/
inductive BoxReg where
  | ctrl | maskLo | maskHi | info | prev
  | sym (j : Nat)
  | coef (b : Nat)
  | hist (b : Nat)
  deriving DecidableEq, Repr

/-- What a mapped address names (R129). -/
inductive BusCell where
  | id | cmd | status | errCode | irqEn | ctrl | cmdCount | param | param2
  | nsfb | nfStart
  | sfbOffLong (b : Nat)
  | sfbOffShort (b : Nat)
  | rotCos (i : Nat)
  | rotSin (i : Nat)
  | chan (c : Nat) (r : ChReg)
  | mctCtrl | mctState | mctPrev
  | chMap (p : Nat)
  | box (i : Nat) (r : BoxReg)
  | mem (c : Nat) (M : ChMem) (i : Nat)
  deriving DecidableEq, Repr

/-- The global words (R122, R123). -/
def decodeGlobal (a : Nat) : Option BusCell :=
  if a = 0x000 then some .id
  else if a = 0x004 then some .cmd
  else if a = 0x008 then some .status
  else if a = 0x00C then some .errCode
  else if a = 0x010 then some .irqEn
  else if a = 0x014 then some .ctrl
  else if a = 0x018 then some .cmdCount
  else if a = 0x01C then some .param
  else if a = 0x020 then some .param2
  else if a = 0x040 then some .nsfb
  else if a = 0x044 then some .nfStart
  else if 0x400 ≤ a ∧ a < 0x504 then some (.sfbOffLong ((a - 0x400) / 4))
  else if 0x600 ≤ a ∧ a < 0x704 then some (.sfbOffShort ((a - 0x600) / 4))
  else if 0x800 ≤ a ∧ a < 0x900 then some (.rotCos ((a - 0x800) / 4))
  else if 0x900 ≤ a ∧ a < 0xA00 then some (.rotSin ((a - 0x900) / 4))
  else none

/-- The word at an offset of a channel register block (R125). -/
def decodeChReg (o : Nat) : Option ChReg :=
  if o = 0x00 then some .ics
  else if o = 0x04 then some .groupLen
  else if o = 0x08 then some .noise
  else if o = 0x0C then some .nseed
  else if o = 0x10 then some .stage
  else if o = 0x14 then some .prevInfo
  else if 0x40 ≤ o ∧ o < 0x80 then
    some (if o % 8 = 0 then .msMaskLo ((o - 0x40) / 8) else .msMaskHi ((o - 0x40) / 8))
  else none

/-- The MCT frame words (R126). -/
def decodeMct (a : Nat) : Option BusCell :=
  if a = 0x2000 then some .mctCtrl
  else if a = 0x2004 then some .mctState
  else if a = 0x2008 then some .mctPrev
  else if 0x2040 ≤ a ∧ a < 0x2080 then some (.chMap ((a - 0x2040) / 4))
  else none

/-- The word at an offset of a box register block (R127). -/
def decodeBoxReg (o : Nat) : Option BoxReg :=
  if o = 0x000 then some .ctrl
  else if o = 0x004 then some .maskLo
  else if o = 0x008 then some .maskHi
  else if o = 0x00C then some .info
  else if o = 0x010 then some .prev
  else if 0x100 ≤ o ∧ o < 0x200 then some (.sym ((o - 0x100) / 4))
  else if 0x200 ≤ o ∧ o < 0x300 then some (.coef ((o - 0x200) / 4))
  else if 0x300 ≤ o ∧ o < 0x400 then some (.hist ((o - 0x300) / 4))
  else none

/-- A line of a word memory is mapped only below N_LONG (R78). -/
def lineCell (P : Params) (c : Nat) (M : ChMem) (i : Nat) : Option BusCell :=
  if i < P.nLong then some (.mem c M i) else none

/-- The cell at an offset of the memory block of channel c (R128). -/
def decodeChMem (P : Params) (c o : Nat) : Option BusCell :=
  if o < 0x1000 then lineCell P c .mant (o / 4)
  else if o < 0x2000 then lineCell P c .qin ((o - 0x1000) / 4)
  else if o < 0x2800 then some (.mem c .exp ((o - 0x2000) / 4))
  else if o < 0x3000 then some (.mem c .sf ((o - 0x2800) / 4))
  else if o < 0x3800 then some (.mem c .cb ((o - 0x3000) / 4))
  else if o < 0x4000 then some (.mem c .nflag ((o - 0x3800) / 4))
  else if o < 0x5000 then lineCell P c .pmant ((o - 0x4000) / 4)
  else if o < 0x5800 then some (.mem c .pexp ((o - 0x5000) / 4))
  else if o < 0x6000 then some (.mem c .dmxe ((o - 0x5800) / 4))
  else if o < 0x7000 then lineCell P c .dmxm ((o - 0x6000) / 4)
  else none

/-- decode(a) (R129): the cell at a byte address, or none for UNMAPPED (R131) and for a misaligned address. -/
def decodeAddr (P : Params) (a : Nat) : Option BusCell :=
  if a % 4 ≠ 0 then none
  else if a < 0x1000 then decodeGlobal a
  else if a < 0x1800 then
    if (a - 0x1000) / 0x80 < P.maxCh then
      (decodeChReg ((a - 0x1000) % 0x80)).map (.chan ((a - 0x1000) / 0x80))
    else none
  else if a < 0x8000 then decodeMct a
  else if a < 0xC000 then
    if (a - 0x8000) / 0x400 < P.maxBoxes then
      (decodeBoxReg ((a - 0x8000) % 0x400)).map (.box ((a - 0x8000) / 0x400))
    else none
  else if 0x100000 ≤ a ∧ a < 0x180000 then
    if (a - 0x100000) / 0x8000 < P.maxCh then
      decodeChMem P ((a - 0x100000) / 0x8000) ((a - 0x100000) % 0x8000)
    else none
  else none

/-! ### Read view (R133) -/

/-- The STAGE code (R59). -/
def Stage.code : Stage → Word
  | .idle => 0
  | .begun => 1
  | .scaled => 2
  | .decoded => 3

/-- The MCT_STATE code (R81). -/
def MctState.code : MctState → Word
  | .idle => 0
  | .boxesParsed => 1
  | .rotationApplied => 2
  | .saved => 3

/-- The PREV_MODE code (R82). -/
def PrevMode.code : PrevMode → Word
  | .alpha => 0
  | .angle => 1
  | .none => 2

/-- PARAM (R47). -/
def paramWord (P : Params) : Word :=
  BitVec.ofNat 8 0 ++ BitVec.ofNat 8 Config.maxMctBands ++ BitVec.ofNat 8 P.maxBoxes ++ BitVec.ofNat 8 P.maxCh

/-- PARAM2 (R47). -/
def param2Word (P : Params) : Word :=
  BitVec.ofNat 7 0 ++ BitVec.ofBool P.profileLtp ++ BitVec.ofNat 8 Config.nWinShort ++ BitVec.ofNat 16 P.nLong

/-- An entry of the rotation ROM (R51): 0 at and above ANGLE_VALID. -/
def romWord (P : Params) (i : Nat) (x : Int) : Word := if i < P.angleValid then BitVec.ofInt 32 x else 0

/-- PREV_INFO (R60). -/
def Channel.prevInfo (x : Channel) : Word :=
  BitVec.ofNat 27 0 ++ BitVec.ofBool x.prevWinShape ++ x.prevWinSeq ++ BitVec.ofBool x.prevPath ++
    BitVec.ofBool x.prevShort

/-- BOX_PREV (R91). -/
def Box.prevWord (x : Box) : Word :=
  BitVec.ofNat 21 0 ++ BitVec.ofBool x.histValid ++ BitVec.ofBool x.prevBoxShort ++ BitVec.ofBool x.prevPairValid ++
    x.prevPair

/-- The value of a word of a channel register block. -/
def Channel.view (x : Channel) : ChReg → Word
  | .ics => x.ics &&& icsMask
  | .groupLen => x.groupLen
  | .noise => x.noise &&& noiseMask
  | .nseed => x.nseed
  | .stage => x.stage.code
  | .prevInfo => x.prevInfo
  | .msMaskLo g => (x.msMaskLo[g]?).getD 0
  | .msMaskHi g => (x.msMaskHi[g]?).getD 0

/-- The value of a word of a box register block. -/
def Box.view (x : Box) : BoxReg → Word
  | .ctrl => x.ctrl &&& boxCtrlMask
  | .maskLo => x.maskLo
  | .maskHi => x.maskHi
  | .info => x.info
  | .prev => x.prevWord
  | .sym j => ((x.sym[j]?).getD 0).setWidth 32
  | .coef b => (x.coef[b]?).getD 0
  | .hist b => (x.hist[b]?).getD 0

/-- How a memory shows the 32 bits behind a cell (R133): words as they are, EXP, PEXP and DMXE sign-extended from
8 bits, SF, CB and NFLAG zero-extended from 8, 4 and 1. -/
def ChMem.view (M : ChMem) (v : Word) : Word :=
  match M with
  | .mant => v
  | .qin => v
  | .pmant => v
  | .dmxm => v
  | .exp => (v.extractLsb' 0 8).signExtend 32
  | .pexp => (v.extractLsb' 0 8).signExtend 32
  | .dmxe => (v.extractLsb' 0 8).signExtend 32
  | .sf => (v.extractLsb' 0 8).setWidth 32
  | .cb => (v.extractLsb' 0 4).setWidth 32
  | .nflag => (v.extractLsb' 0 1).setWidth 32

/-- The bits a memory cell holds, as a word; none when it is unwritten. -/
def cellBits (m : Memory) (M : ChMem) (c i : Nat) : Option Word :=
  if M.isWord then readWord m (cellAddr M c i) else (readByte m (cellAddr M c i)).map (fun b => b.setWidth 32)

/-- readview(cell) (R133): the data of a read, or none where it is unspecified because the cell is unwritten (R451). -/
def readView (P : Params) (s : State) : BusCell → Option Word
  | .id => some Config.idWord
  | .cmd => some 0
  | .status => some s.statusWord
  | .errCode => some s.errCode
  | .irqEn => some (s.irqEn &&& irqEnMask)
  | .ctrl => some 0
  | .cmdCount => some s.cmdCount
  | .param => some (paramWord P)
  | .param2 => some (param2Word P)
  | .nsfb => some (s.nsfb &&& nsfbMask)
  | .nfStart => some (s.nfStart &&& nfStartMask)
  | .sfbOffLong b => some (((s.sfbOffLong[b]?).getD 0).setWidth 32)
  | .sfbOffShort b => some (((s.sfbOffShort[b]?).getD 0).setWidth 32)
  | .rotCos i => some (romWord P i (P.rotTable i).1)
  | .rotSin i => some (romWord P i (P.rotTable i).2)
  | .chan c r => some ((s.ch c).view r)
  | .mctCtrl => some (s.mctCtrl &&& mctCtrlMask)
  | .mctState => some s.mctState.code
  | .mctPrev => some s.prevMode.code
  | .chMap p => some (((s.chMap[p]?).getD 0).setWidth 32)
  | .box i r => some ((s.box i).view r)
  | .mem c M i => (cellBits s.mem M c i).map M.view

/-- The view through which the unknown content of an unwritten cell shows (U2): the memory's own. -/
def BusCell.freeView : BusCell → Word → Word
  | .mem _ M _, v => M.view v
  | _, v => v

/-! ### Write view (R134) and reset -/

/-- Reset (R450): every field as State.reset has it, but the turns to come and the free values drawn, which are the
model's own (log 9). -/
def State.hardReset (s : State) : State := { State.reset with turns := s.turns, draws := s.draws }

/-- Take a command word (R43, R160): it becomes PENDING, BUSY is 1, and CMD_COUNT has counted it. -/
def State.take (s : State) (v : Word) : State := { s with pending := some v, cmdCount := s.cmdCount + 1 }

/-- A write to a word of a channel register block (R134): STAGE and PREV_INFO are read-only. -/
def Channel.write (x : Channel) (v : Word) : ChReg → Channel
  | .ics => { x with ics := v &&& icsMask }
  | .groupLen => { x with groupLen := v }
  | .noise => { x with noise := v &&& noiseMask }
  | .nseed => { x with nseed := v }
  | .stage => x
  | .prevInfo => x
  | .msMaskLo g => { x with msMaskLo := x.msMaskLo.setIfInBounds g v }
  | .msMaskHi g => { x with msMaskHi := x.msMaskHi.setIfInBounds g v }

/-- A write to a word of a box register block (R134): BOX_INFO, BOX_PREV, COEF and HIST are read-only. -/
def Box.write (x : Box) (v : Word) : BoxReg → Box
  | .ctrl => { x with ctrl := v &&& boxCtrlMask }
  | .maskLo => { x with maskLo := v }
  | .maskHi => { x with maskHi := v }
  | .info => x
  | .prev => x
  | .sym j => { x with sym := x.sym.setIfInBounds j (v.extractLsb' 0 8) }
  | .coef _ => x
  | .hist _ => x

/-- A write to a memory cell (R134): MANT and QIN store the word, EXP and SF its low 8 bits, CB its low 4; each sets
the cell's written-mark (R98). The other memories are read-only. -/
def State.writeMem (s : State) (c : Nat) (M : ChMem) (i : Nat) (v : Word) : State :=
  match M with
  | .mant => s.putWords .mant c i [v]
  | .qin => s.putWords .qin c i [v]
  | .exp => s.putBytes .exp c i [v.extractLsb' 0 8]
  | .sf => s.putBytes .sf c i [v.extractLsb' 0 8]
  | .cb => s.putBytes .cb c i [(v.extractLsb' 0 4).setWidth 8]
  | .nflag => s
  | .pmant => s
  | .pexp => s
  | .dmxe => s
  | .dmxm => s

/-- writeview(cell, v) (R134). -/
def writeView (s : State) (v : Word) : BusCell → State
  | .id => s
  | .cmd => s.take v
  | .status => s.writeStatus v
  | .errCode => s
  | .irqEn => { s with irqEn := v &&& irqEnMask }
  | .ctrl => if v.getLsbD 0 then s.hardReset else s
  | .cmdCount => s
  | .param => s
  | .param2 => s
  | .nsfb => { s with nsfb := v &&& nsfbMask }
  | .nfStart => { s with nfStart := v &&& nfStartMask }
  | .sfbOffLong b => { s with sfbOffLong := s.sfbOffLong.setIfInBounds b (v.extractLsb' 0 11) }
  | .sfbOffShort b => { s with sfbOffShort := s.sfbOffShort.setIfInBounds b (v.extractLsb' 0 11) }
  | .rotCos _ => s
  | .rotSin _ => s
  | .chan c r => s.setCh c ((s.ch c).write v r)
  | .mctCtrl => { s with mctCtrl := v &&& mctCtrlMask }
  | .mctState => s
  | .mctPrev => s
  | .chMap p => { s with chMap := s.chMap.setIfInBounds p (v.extractLsb' 0 8) }
  | .box i r => s.setBox i ((s.box i).write v r)
  | .mem c M i => s.writeMem c M i v

/-! ### The bus response (R132) -/

/-- The ALWAYS set of reads (R132). -/
def BusCell.alwaysRead : BusCell → Bool
  | .id | .status | .errCode | .irqEn | .ctrl | .cmdCount | .param | .param2 => true
  | _ => false

/-- The ALWAYS set of writes (R132). -/
def BusCell.alwaysWrite : BusCell → Bool
  | .status | .irqEn | .ctrl => true
  | _ => false

/-- Answer an access. -/
def State.respond (s : State) (ok : Bool) (data : Word) : State := { s with resp := some ⟨ok, data⟩ }

/-- The ERROR response (R132): data 0, BUSERR set, no other effect. -/
def State.busError (s : State) : State := ({ s with buserr := true }).respond false 0

/-- Answer a read with an unspecified value (R451, R465): the next free value, shown through `f` (log 4). -/
def State.respondFree (s : State) (f : Word → Word) : State :=
  ({ s with draws := s.draws + 1 }).respond true (f (Config.freeWord s.draws))

/-- The cell an access reaches (R132): none when it is not one aligned word, or is unmapped. -/
def accessCell (P : Params) (addr : Word) (width : Nat) : Option BusCell :=
  if width = 4 then decodeAddr P addr.toNat else none

/-- MemRead(a, n) (R132). -/
def busRead (P : Params) (s : State) (addr : Word) (width : Nat) : State :=
  match accessCell P addr width with
  | none => s.busError
  | some x =>
    if s.busy && !x.alwaysRead then s.respondFree (fun v => v)
    else
      match readView P s x with
      | some v => s.respond true v
      | none => s.respondFree x.freeView

/-- MemWrite(a, n, v) (R132). -/
def busWrite (P : Params) (s : State) (addr : Word) (width : Nat) (v : Word) : State :=
  match accessCell P addr width with
  | none => s.busError
  | some x =>
    if s.busy && !x.alwaysWrite then ({ s with haz := true }).respond true 0
    else (writeView s v x).respond true 0

/-- One host access. -/
def busAccess (P : Params) (s : State) : Access → State
  | .read addr width => busRead P s addr width
  | .write addr width v => busWrite P s addr width v

end Sys2Proof.Machine
end

