-- ==== Sys2Proof/Machine/Sequencer.lean ====
section
/-! DEFINITION. What one step does: the turn at hand (R3, R139; log 6), and on the block's turn the pending command:
dropped, refused as illegal, or run (R160). How a command runs is an argument, so that every build takes its turns
alike (R10; log 1). -/

namespace Sys2Proof.Machine

/-- The opcodes that run while ERR = 1 (R160, R405). -/
def runsUnderErr (v : Word) : Bool :=
  decide (cmdOp v = 0x00) || decide (cmdOp v = 0x12) || decide (cmdOp v = 0x13) || decide (cmdOp v = 0x20)

/-- The error of a word that is no command (R166). -/
def illegalErr : IllegalWord → Err
  | .illegalOpcode => { cause := .illegalOpcode }
  | .reservedField => { cause := .reservedField }

/-- What a command does to a state. -/
abbrev Runner := Instr → State → Host.Outcome State Fault Refusal

/-- The block runs the taken word v (R160 after BUSY, PENDING and CMD_COUNT): the drop, then decoding, then the
command's rule. -/
def runWord (run : Runner) (s : State) (v : Word) : Host.Outcome State Fault Refusal :=
  if s.err && !runsUnderErr v then .next { s with drop := true }.complete
  else
    match decode v with
    | .error e => .next (s.raise (illegalErr e))
    | .ok i => run i s

/-- The block's turn: it runs PENDING, or stays idle with all state kept (R430). -/
def blockTurn (run : Runner) (s : State) : Host.Outcome State Fault Refusal :=
  match s.pending with
  | none => .next s
  | some v => runWord run s v

/-- One turn in build P. -/
def takeTurn (P : Params) (run : Runner) (s : State) : Turn → Host.Outcome State Fault Refusal
  | .host x => .next (busAccess P s x)
  | .rst => .next s.hardReset
  | .block => blockTurn run s

/-- The next turn of the machine: the first listed, and the block's when none is. -/
def nextTurn (P : Params) (run : Runner) (s : State) : Host.Outcome State Fault Refusal :=
  match s.turns with
  | [] => blockTurn run s
  | t :: ts => takeTurn P run { s with turns := ts } t

/-- The turns with the block's put first; with none listed the block moves next already. -/
def blockFirst : List Turn → List Turn
  | [] => []
  | t :: ts => .block :: t :: ts

/-- A command word as the host's write to CMD leaves it, with the block to move next (log 6). -/
def placeWord (s : State) (v : Word) : State := { s.take v with turns := blockFirst s.turns }

end Sys2Proof.Machine
end

