-- ==== Sys2Proof/Machine/Step.lean ====
section
/-! DEFINITION. The step function, and where the host places the next command. -/

namespace Sys2Proof.Machine

/-- One step: one turn of the host, of `rst`, or of the block. -/
def step (s : State) : Host.Outcome State Fault Refusal := nextTurn params exec s

/-- The command whose bits are `w` taken from CMD and about to run: the next step runs it. -/
def State.withFetchWord (s : State) (nbits w : Nat) : State := placeWord s (tableWord nbits w)

end Sys2Proof.Machine
end

