-- ==== Sys2Proof/Machine/Builds.lean ====
section
/-! DEFINITION. The machine in any build (R10, R11): its commands and its step take the parameters as an argument.
exec and step are those of the default build (log 1). -/

namespace Sys2Proof.Machine

/-- A command in build P. -/
def execWith (P : Params) (i : Instr) (s : State) : Host.Outcome State Fault Refusal :=
  match i with
  | .nop => execNop s
  | .chBegin c => runChBegin P c s
  | .iqScale c => runIqScale P c s
  | .iqDequant c => runIqDequant P c s
  | .noiseFill c => runNoiseFill P c s
  | .msApply c1 c2 cw => runMsApply P c1 c2 cw s
  | .mctParse => runMctParse P s
  | .mctApply => runMctApply P s
  | .mctClose ok => runMctClose P ok s
  | .mctReset => runMctReset P s
  | .clearErr => execClearErr s

/-- One step in build P. -/
def stepWith (P : Params) (s : State) : Host.Outcome State Fault Refusal := nextTurn P (execWith P) s

end Sys2Proof.Machine
end

