-- ==== Sys2Proof/Safety.lean ====
section
/-! DEFINITION. What a safe run means, in the terms the statements use: the invariants of the machine, and when a
channel's configuration passes its checks. -/

namespace Sys2Proof.Machine

/-- The written-mark of a 32-bit cell (R98). -/
def wordMarked (m : Memory) (M : ChMem) (c i : Nat) : Prop := (readWord m (cellAddr M c i)).isSome = true

/-- The written-mark of a byte cell (R98). -/
def byteMarked (m : Memory) (M : ChMem) (c i : Nat) : Prop := (readByte m (cellAddr M c i)).isSome = true

/-- What the stage of channel c says of the written-marks (R451): from BEGUN on every CB and NFLAG cell is written,
from SCALED on every EXP cell, and at DECODED every line of MANT. -/
structure ChannelMarks (s : State) (c : Nat) : Prop where
  cb : (s.ch c).stage ≠ .idle → ∀ i < 512, byteMarked s.mem .cb c i
  nflag : (s.ch c).stage ≠ .idle → ∀ i < 512, byteMarked s.mem .nflag c i
  exp : (s.ch c).stage = .scaled ∨ (s.ch c).stage = .decoded → ∀ i < 512, byteMarked s.mem .exp c i
  mant : (s.ch c).stage = .decoded → ∀ k < 1024, wordMarked s.mem .mant c k

/-- ChannelMarks of every channel slot. -/
def MarksFollowStage (s : State) : Prop := ∀ c < 16, ChannelMarks s c

/-- A coefficient word is an index of the rotation table (R204, R226). -/
def validAngle (v : Word) : Prop := 0 ≤ v.toInt ∧ v.toInt < 64

/-- A frame is open: parsed or rotated, not yet closed (R96, R301). -/
def frameOpen (s : State) : Prop := s.mctState = .boxesParsed ∨ s.mctState = .rotationApplied

/-- The latch of an open frame is in range (R96, R310, R317): its boxes exist, each names two different slots that
exist, at most 64 bands wide. -/
def LatchInRange (s : State) : Prop :=
  frameOpen s → ctlNumBoxes s.lCtrl ≤ 16 ∧ ∀ i < ctlNumBoxes s.lCtrl,
    (s.latch i).c1 < 16 ∧ (s.latch i).c2 < 16 ∧ (s.latch i).c1 ≠ (s.latch i).c2 ∧ (s.latch i).width ≤ 64

/-- Every coefficient of an open angle frame is a valid angle (R204). -/
def FrameAngles (s : State) : Prop :=
  frameOpen s → ctlMode s.lCtrl = true → ∀ i < ctlNumBoxes s.lCtrl, ∀ b < 64, validAngle (((s.box i).coef[b]?).getD 0)

/-- Every committed history of an angle frame is a valid angle (R204, R341). -/
def HistoryAngles (s : State) : Prop :=
  s.prevMode = .angle → ∀ i < 16, (s.box i).histValid = true → ∀ b < 64, validAngle (((s.box i).hist[b]?).getD 0)

/-- The latch and the angles, which a step keeps together. -/
structure AngleInv (s : State) : Prop where
  latch : LatchInRange s
  frame : FrameAngles s
  hist : HistoryAngles s

/-- ERR_CODE is 0 while ERR is 0, and names an error while it is 1 (R45, R402). -/
def ErrCodeFollowsErr (s : State) : Prop :=
  (s.err = false → s.errCode = 0) ∧ (s.err = true → s.errCode.extractLsb' 0 4 ≠ 0)

/-- The reserved bits of every writable register are 0 (R133, R134). -/
def ReservedBitsZero (s : State) : Prop :=
  s.irqEn &&& irqEnMask = s.irqEn ∧ s.nsfb &&& nsfbMask = s.nsfb ∧ s.nfStart &&& nfStartMask = s.nfStart ∧
    s.mctCtrl &&& mctCtrlMask = s.mctCtrl ∧
    (∀ c < 16, (s.ch c).ics &&& icsMask = (s.ch c).ics ∧ (s.ch c).noise &&& noiseMask = (s.ch c).noise) ∧
    ∀ i < 16, (s.box i).ctrl &&& boxCtrlMask = (s.box i).ctrl

/-- The band table of channel c passes R262. -/
structure BandTableOk (s : State) (c : Nat) : Prop where
  count : s.nsfbOf c ≤ 64
  rising : ∀ b < s.nsfbOf c, s.off c b < s.off c (b + 1)
  last : s.off c (s.nsfbOf c) ≤ s.wlen params c

/-- The ICS of channel c passes R263 (PROFILE_LTP is false). -/
structure IcsOk (s : State) (c : Nat) : Prop where
  ltp : icsLtp (s.ch c).ics = false
  gain : icsGainCtrl (s.ch c).ics = false
  er : icsErPayload (s.ch c).ics = false
  lfe : icsLfe (s.ch c).ics = true → s.short c = false
  long : s.short c = false → s.ng c = 1 ∧ s.gl c 0 = 1
  shortGroups : s.short c = true → 1 ≤ s.ng c ∧ s.ng c ≤ 8 ∧ (∀ g < s.ng c, 1 ≤ s.gl c g) ∧
    ((List.range (s.ng c)).map (s.gl c)).sum = 8
  maxSfb : s.maxSfb c ≤ s.nsfbOf c

/-- The configuration of channel c passes R264. -/
def CfgOk (s : State) (c : Nat) : Prop := BandTableOk s c ∧ IcsOk s c

/-! ### The terms the command statements use -/

/-- Byte address a lies in one of the cells i … i+n-1 of memory M of channel c (R128). -/
def inCells (M : ChMem) (c i n a : Nat) : Prop := cellAddr M c i ≤ a ∧ a < cellAddr M c (i + n)

/-- A word cell, 0 when it is unwritten. -/
def wordAt (m : Memory) (M : ChMem) (c i : Nat) : Word := (readWord m (cellAddr M c i)).getD 0

/-- A byte cell, 0 when it is unwritten. -/
def byteAt (m : Memory) (M : ChMem) (c i : Nat) : Byte := (readByte m (cellAddr M c i)).getD 0

/-- Band b of group g is transmitted (R253). -/
def isCoded (s : State) (c g b : Nat) : Bool := params.transmitted ((byteAt s.mem .cb c (g * 64 + b)).extractLsb' 0 4)

/-- Band b of window w is one of T of R272: below nwin and MAX_SFB, and transmitted. -/
def inT (s : State) (c w b : Nat) : Prop := w < s.nwin c ∧ b < s.maxSfb c ∧ isCoded s c (s.grp c w) b = true

/-- The bands OP2 leaves of two bands (R214). -/
def pairAfter (f : Int → Int → Int × Int) (x y : Band) : Band × Band :=
  match op2 params f x y with
  | none => (x, y)
  | some r => (r.fst, r.snd)

/-- The band ADD1 leaves of a band (R218). -/
def addAfter (x : Band) (z : List Int) (ez : Int) : Band :=
  match add1 params x z ez with
  | none => x
  | some r => r.1

/-- A renormalisation of xs at exponent e0 saturates (R212): a value is not 0, and every right shift that brings all of
them into 32 bits takes the exponent above 127. -/
def Saturates (xs : List Int) (e0 : Int) : Prop :=
  (∃ x ∈ xs, x ≠ 0) ∧ ∀ n : Nat, (∀ x ∈ xs, -2 ^ 31 ≤ x / 2 ^ n ∧ x / 2 ^ n < 2 ^ 31) → 127 < e0 + n

/-- Every mantissa of a band is 0 (R202). -/
def Band.isZero (x : Band) : Prop := ∀ m ∈ x.mant, m = 0

/-- The exponent two bands that are not both zero are brought to (R206). -/
def sharedExp (x y : Band) : Int :=
  if ∀ m ∈ x.mant, m = 0 then y.exp else if ∀ m ∈ y.mant, m = 0 then x.exp else max x.exp y.exp

/-- The lane function f on the lines of two bands at their shared exponent (R214). -/
def pairLanes (f : Int → Int → Int × Int) (x y : Band) : List (Int × Int) :=
  List.zipWith (fun a b => f (align params a x.exp (sharedExp x y)) (align params b y.exp (sharedExp x y))) x.mant y.mant

/-- OP2 with the lane function f saturates on two bands (R212, R214): on its first or its second outputs. -/
def PairSaturates (f : Int → Int → Int × Int) (x y : Band) : Prop :=
  ¬ (x.isZero ∧ y.isZero) ∧ (Saturates ((pairLanes f x y).map (·.1)) (sharedExp x y) ∨
    Saturates ((pairLanes f x y).map (·.2)) (sharedExp x y))

/-- The lanes of two bands, added at their shared exponent (R218, R219). -/
def sumLanes (x y : Band) : List Int :=
  List.zipWith (fun a b => align params a x.exp (sharedExp x y) + align params b y.exp (sharedExp x y)) x.mant y.mant

/-- ADD1 of the list z at exponent ez saturates on a band (R212, R218). -/
def AddSaturates (x : Band) (z : List Int) (ez : Int) : Prop :=
  ¬ (x.isZero ∧ ∀ v ∈ z, v = 0) ∧ Saturates (sumLanes x ⟨z, ez⟩) (sharedExp x ⟨z, ez⟩)

/-- HALFSUM saturates on two bands (R212, R219). -/
def HalfSaturates (x y : Band) : Prop := ¬ (x.isZero ∧ y.isZero) ∧ Saturates (sumLanes x y) (sharedExp x y - 1)

/-- cand of R280, an unwritten cell counting as a failed test. -/
def isNoiseCand (s : State) (c g b : Nat) : Bool :=
  decide (s.nfStartOf c ≤ s.off c b) && isCoded s c g b &&
    (s.wins c g).all (fun w => (List.range (s.bandWidth c b)).all
      (fun k => decide (readWord s.mem (cellAddr .qin c (s.lineLo params c w b + k)) = some 0))) &&
    (s.wins c g).all (fun w => !(byteAt s.mem .nflag c (w * 64 + b)).getLsbD 0)

/-- The (group, band, window) triples NOISE_FILL fills, in its order (R280). -/
def noiseFills (s : State) (c : Nat) : List (Nat × Nat × Nat) :=
  ((pairList (s.ng c) (s.maxSfb c)).filter (fun gb => isNoiseCand s c gb.1 gb.2)).flatMap
    (fun gb => (s.wins c gb.1).map (fun w => (gb.1, gb.2, w)))

/-- The lines of a list of filled triples. -/
def linesFilled (s : State) (c : Nat) (l : List (Nat × Nat × Nat)) : Nat := (l.map (fun x => s.bandWidth c x.2.1)).sum

/-- The seed after n generator calls (R222). -/
def seedAfter : Nat → Word → Word
  | 0, x => x
  | n + 1, x => seedAfter n (params.noiseRng x).2

/-- The noise that NOISE_FILL adds to the j-th band it fills, band b of group g: its lines, signed by the generator from
the seed that the earlier lines left, and its exponent (R280). -/
def noiseAdded (s : State) (c j g b : Nat) : List Int × Int :=
  let k := params.noiseKernel (noiseLevel (s.ch c).noise) (noiseOffset (s.ch c).noise) (byteAt s.mem .sf c (g * 64 + b))
  ((noiseLines params k.1.toInt (s.bandWidth c b)
    (seedAfter (linesFilled s c ((noiseFills s c).take j)) (s.ch c).nseed)).1, k.2.toInt)

/-- What NOISE_FILL reads has a value (R451). -/
structure NoiseReadable (s : State) (c : Nat) : Prop where
  cb : ∀ g < s.ng c, ∀ b < s.maxSfb c, s.nfStartOf c ≤ s.off c b → byteMarked s.mem .cb c (g * 64 + b)
  qin : ∀ g < s.ng c, ∀ b < s.maxSfb c, s.nfStartOf c ≤ s.off c b → isCoded s c g b = true → ∀ w ∈ s.wins c g,
    ∀ k < s.bandWidth c b, wordMarked s.mem .qin c (s.lineLo params c w b + k)
  nflag : ∀ g < s.ng c, ∀ b < s.maxSfb c, s.nfStartOf c ≤ s.off c b → isCoded s c g b = true → ∀ w ∈ s.wins c g,
    byteMarked s.mem .nflag c (w * 64 + b)
  fill : ∀ x ∈ noiseFills s c, byteMarked s.mem .sf c (x.1 * 64 + x.2.1) ∧ ∃ y, s.band params c x.2.2 x.2.1 = .ok y

/-- Box i of a frame passes every check of R310, with pair index pi and slots c1, c2, in a group of n channels. -/
structure BoxParses (s : State) (keep mode : Bool) (n i pi c1 c2 : Nat) : Prop where
  pair : if keep then (s.box i).prevPairValid = true ∧ pi = (s.box i).prevPair.toNat else pi = boxPairIdx (s.box i).ctrl
  slots : ∃ p1 p2, p1 < p2 ∧ p2 < n ∧ pi = p1 * (2 * n - p1 - 1) / 2 + (p2 - p1 - 1) ∧ c1 = s.chMapAt p1 ∧
    c2 = s.chMapAt p2
  stages : (s.ch c1).stage = .decoded ∧ (s.ch c2).stage = .decoded
  configs : CfgOk s c1 ∧ CfgOk s c2
  windows : s.short c1 = s.short c2
  igf : icsIgfEn (s.ch c1).ics = false ∨ icsIgfEn (s.ch c2).ics = false
  width : boxFlagged (s.box i).ctrl = true → boxNumBands (s.box i).ctrl ≤ 64
  deltaTime : boxDeltaTime (s.box i).ctrl = true → s.prevMode = .none ∨ s.prevMode = PrevMode.ofMode mode
  symbols : ∀ j < (codedBands (s.box i).ctrl (s.box i).mask).length,
    (s.box i).symAt j < (if mode then 65 else 121)
  angles : mode = true → ∀ j b, (codedBands (s.box i).ctrl (s.box i).mask)[j]? = some b →
    (predictor params s i true (s.short c1) b + ((s.box i).symAt j : Int)) % 65 < 64

/-- The previous-frame band stereo filling uses: all zeros where R331 says so. -/
def prevBandUsed (s : State) (c : Nat) (x : Band) : Band :=
  if (s.ch c).prevShort || ((s.ch c).prevPath != icsPath (s.ch c).ics) then ⟨x.mant.map (fun _ => 0), x.exp⟩ else x

/-- Whether stereo filling runs for band b of box i (R330). -/
def stereoFills (s : State) (i b : Nat) : Bool :=
  ctlMode s.lCtrl && ctlSfEnable s.lCtrl && boxSfFlag (s.latch i).ctrl && !(s.latch i).sh &&
    (byteAt s.mem .nflag (s.latch i).c2 b).getLsbD 0

/-- The residual band after SFILL (R230) with angle index v, from the previous bands p1, p2, the residual y and its
scale factor. -/
def filledBand (v : Nat) (p1 p2 y : Band) (sf : Byte) : Band :=
  match common p1 p2 with
  | none => y
  | some ep =>
    let d := downmix params (params.rotTable v).1 (params.rotTable v).2 p1 p2 ep
    let g := sfillGain params d ep y.mant y.exp sf
    if g = 0 then y else addAfter y (sfillAdd params g d) ep

/-- SFILL (R230) saturates with angle index v, on the previous bands p1, p2 and the residual y with scale factor sf. -/
def FillSaturates (v : Nat) (p1 p2 y : Band) (sf : Byte) : Prop :=
  let ep := sharedExp p1 p2
  let d := downmix params (params.rotTable v).1 (params.rotTable v).2 p1 p2 ep
  let g := sfillGain params d ep y.mant y.exp sf
  ¬ (p1.isZero ∧ p2.isZero) ∧ g ≠ 0 ∧ AddSaturates y (sfillAdd params g d) ep

/-- Band b of window w of box i, holding x and y, saturates in MCT_APPLY (R325): in its stereo filling where that runs,
or in its operator. -/
def BoxBandSaturates (s : State) (i b : Nat) (x y : Band) : Prop :=
  (stereoFills s i b = false ∧ PairSaturates (laneOf params s i b) x y) ∨
  (stereoFills s i b = true ∧ ∃ p1 p2 sf, s.bandOf params .pmant .pexp (s.latch i).c1 0 b = .ok p1 ∧
    s.bandOf params .pmant .pexp (s.latch i).c2 0 b = .ok p2 ∧ readByte s.mem (cellAddr .sf (s.latch i).c2 b) = some sf ∧
    let q1 := prevBandUsed s (s.latch i).c1 p1
    let q2 := prevBandUsed s (s.latch i).c2 p2
    let v := (s.coefAt i b).toNat
    (FillSaturates v q1 q2 y sf ∨ PairSaturates (laneOf params s i b) x (filledBand v q1 q2 y sf)))

/-- What box i of MCT_APPLY makes of state s (R325): u. -/
structure BoxApplied (s : State) (i : Nat) (u : State) : Prop where
  frame : u = { s with mem := u.mem, ovf := u.ovf }
  ovf : u.ovf = true ↔ s.ovf = true ∨ ∃ w b x y, (w, b) ∈ boxBands s i ∧
    s.band params (s.latch i).c1 w b = .ok x ∧ s.band params (s.latch i).c2 w b = .ok y ∧ BoxBandSaturates s i b x y
  plain : ∀ w b x y, (w, b) ∈ boxBands s i → stereoFills s i b = false →
    s.band params (s.latch i).c1 w b = .ok x → s.band params (s.latch i).c2 w b = .ok y →
    u.band params (s.latch i).c1 w b = .ok (pairAfter (laneOf params s i b) x y).1 ∧
      u.band params (s.latch i).c2 w b = .ok (pairAfter (laneOf params s i b) x y).2
  filled : ∀ w b x y p1 p2 sf, (w, b) ∈ boxBands s i → stereoFills s i b = true →
    s.band params (s.latch i).c1 w b = .ok x → s.band params (s.latch i).c2 w b = .ok y →
    s.bandOf params .pmant .pexp (s.latch i).c1 0 b = .ok p1 → s.bandOf params .pmant .pexp (s.latch i).c2 0 b = .ok p2 →
    readByte s.mem (cellAddr .sf (s.latch i).c2 b) = some sf →
    let y' := filledBand (s.coefAt i b).toNat (prevBandUsed s (s.latch i).c1 p1) (prevBandUsed s (s.latch i).c2 p2) y sf
    u.band params (s.latch i).c1 w b = .ok (pairAfter (laneOf params s i b) x y').1 ∧
      u.band params (s.latch i).c2 w b = .ok (pairAfter (laneOf params s i b) x y').2
  outside : ∀ a, (∀ w b, (w, b) ∈ boxBands s i → ∀ c, c = (s.latch i).c1 ∨ c = (s.latch i).c2 →
      ¬ inCells .mant c (s.lineLo params c w b) (s.bandWidth c b) a ∧ ¬ inCells .exp c (w * 64 + b) 1 a) →
    readByte u.mem a = readByte s.mem a

/-- Box i of an open frame passes the re-check of R325, and what MCT_APPLY reads for it has a value. -/
structure BoxReady (s : State) (i : Nat) : Prop where
  slots : (s.latch i).c1 < 16 ∧ (s.latch i).c2 < 16 ∧ (s.latch i).c1 ≠ (s.latch i).c2
  stages : (s.ch (s.latch i).c1).stage = .decoded ∧ (s.ch (s.latch i).c2).stage = .decoded
  configs : CfgOk s (s.latch i).c1 ∧ CfgOk s (s.latch i).c2
  windows : s.short (s.latch i).c1 = (s.latch i).sh ∧ s.short (s.latch i).c2 = (s.latch i).sh
  bands : ∀ w b, (w, b) ∈ boxBands s i →
    (∃ x, s.band params (s.latch i).c1 w b = .ok x) ∧ ∃ y, s.band params (s.latch i).c2 w b = .ok y
  flags : ctlMode s.lCtrl = true → ctlSfEnable s.lCtrl = true → boxSfFlag (s.latch i).ctrl = true →
    (s.latch i).sh = false → ∀ b ∈ covered s (s.latch i), byteMarked s.mem .nflag (s.latch i).c2 b
  factors : ∀ b ∈ covered s (s.latch i), stereoFills s i b = true → byteMarked s.mem .sf (s.latch i).c2 b

/-- Byte address a lies in the saved spectrum of channel c: PMANT or PEXP (R77). -/
def inSaved (c a : Nat) : Prop := inCells .pmant c 0 1024 a ∨ inCells .pexp c 0 512 a

/-- What a command leaves alone whatever it does: everything only the host writes, and the model's own inputs. -/
structure HostFieldsKept (s t : State) : Prop where
  flags : t.drop = s.drop ∧ t.haz = s.haz ∧ t.buserr = s.buserr
  counters : t.cmdCount = s.cmdCount ∧ t.irqEn = s.irqEn
  tables : t.nsfb = s.nsfb ∧ t.nfStart = s.nfStart ∧ t.sfbOffLong = s.sfbOffLong ∧ t.sfbOffShort = s.sfbOffShort
  mct : t.mctCtrl = s.mctCtrl ∧ t.chMap = s.chMap
  chans : ∀ c < 16, (t.ch c).ics = (s.ch c).ics ∧ (t.ch c).groupLen = (s.ch c).groupLen ∧
    (t.ch c).noise = (s.ch c).noise ∧ (t.ch c).msMaskLo = (s.ch c).msMaskLo ∧ (t.ch c).msMaskHi = (s.ch c).msMaskHi
  boxes : ∀ i < 16, (t.box i).ctrl = (s.box i).ctrl ∧ (t.box i).maskLo = (s.box i).maskLo ∧
    (t.box i).maskHi = (s.box i).maskHi ∧ (t.box i).sym = (s.box i).sym
  inputs : t.turns = s.turns ∧ t.resp = s.resp ∧ t.draws = s.draws

/-- What a word that the host may read and write (R133, R134) reads as after v is written to it; none for every other
word. -/
def BusCell.stored : BusCell → Word → Option Word
  | .irqEn, v => some (v &&& 0x00000003)
  | .nsfb, v => some (v &&& 0x00007F7F)
  | .nfStart, v => some (v &&& 0x07FF07FF)
  | .sfbOffLong _, v => some (v &&& 0x000007FF)
  | .sfbOffShort _, v => some (v &&& 0x000007FF)
  | .chan _ .ics, v => some (v &&& 0x0F7F03FF)
  | .chan _ .groupLen, v => some v
  | .chan _ .noise, v => some (v &&& 0x00001F07)
  | .chan _ .nseed, v => some v
  | .chan _ (.msMaskLo _), v => some v
  | .chan _ (.msMaskHi _), v => some v
  | .mctCtrl, v => some (v &&& 0x001F1F0F)
  | .chMap _, v => some (v &&& 0x000000FF)
  | .box _ .ctrl, v => some (v &&& 0x007F1FFF)
  | .box _ .maskLo, v => some v
  | .box _ .maskHi, v => some v
  | .box _ (.sym _), v => some (v &&& 0x000000FF)
  | .mem _ .mant _, v => some v
  | .mem _ .qin _, v => some v
  | .mem _ .exp _, v => some ((v.extractLsb' 0 8).signExtend 32)
  | .mem _ .sf _, v => some (v &&& 0x000000FF)
  | .mem _ .cb _, v => some (v &&& 0x0000000F)
  | _, _ => none

/-- The words a write does not reach (R134): read-only ones. -/
def BusCell.readOnly : BusCell → Bool
  | .id | .errCode | .cmdCount | .param | .param2 | .rotCos _ | .rotSin _ | .mctState | .mctPrev => true
  | .chan _ .stage | .chan _ .prevInfo => true
  | .box _ .info | .box _ .prev | .box _ (.coef _) | .box _ (.hist _) => true
  | .mem _ .nflag _ | .mem _ .pmant _ | .mem _ .pexp _ | .mem _ .dmxe _ | .mem _ .dmxm _ => true
  | _ => false

end Sys2Proof.Machine
end

