-- ==== Sys2Proof/Certificates/Slice0/Obligations.lean ====
section
/-! DEFINITION. The statements for the provers, in the order of OBLIGATIONS.json. "Completes" means that exec answers
a next state; u.complete is u with PENDING empty and DONE set (R160). -/

open Sys2Proof Sys2Proof.Machine

/-! ### Encoding, decoding and the step -/

/-- decode(encode(x)) = x for every well-formed command, and encode(decode(v)) = v for every v that decodes (R168). -/
def Obligations.DecodeAndEncodeAgree : Prop :=
  (∀ i : Instr, i.wf = true → decode (encode i) = .ok i) ∧
    ∀ (v : Word) (i : Instr), decode v = .ok i → encode i = v ∧ i.wf = true

/-- Which words are refused, and as what (R165, R167): an opcode byte that is not listed, or a listed one with a 1 in
a field that must be zero. -/
def Obligations.RefusedWords : Prop :=
  ∀ v : Word,
    (decode v = .error .illegalOpcode ↔
      cmdOp v ∉ [0x00, 0x01, 0x02, 0x03, 0x04, 0x05, 0x10, 0x11, 0x12, 0x13, 0x20]) ∧
    (decode v = .error .reservedField ↔
      (cmdOp v ∈ [0x00, 0x10, 0x11, 0x13, 0x20] ∧ v.extractLsb' 8 24 ≠ 0) ∨
      (cmdOp v ∈ [0x01, 0x02, 0x03, 0x04] ∧ v.extractLsb' 16 16 ≠ 0) ∨
      (cmdOp v = 0x05 ∧ v.extractLsb' 25 7 ≠ 0) ∨
      (cmdOp v = 0x12 ∧ (v.extractLsb' 8 16 ≠ 0 ∨ v.extractLsb' 25 7 ≠ 0)))

/-- What the block does with a refused word (R166): it raises ILLEGAL, unless ERR makes it drop the word first. -/
def Obligations.RefusedWordRaisesIllegal : Prop :=
  ∀ (s : State) (v : Word), s.turns = [] → s.pending = some v → s.err = false →
    (decode v = .error .illegalOpcode →
      step s = .next { s with pending := none, done := true, err := true, errCode := 0xFFFF0104 }) ∧
    (decode v = .error .reservedField →
      step s = .next { s with pending := none, done := true, err := true, errCode := 0xFFFF0204 })

/-- The words of R178 and one with every operand bit set decode to what they stand for. -/
def Obligations.WordsDecodeAsWritten : Prop :=
  decode 0x00000000 = .ok .nop ∧ decode 0x00000001 = .ok (.chBegin 0) ∧ decode 0x00000302 = .ok (.iqScale 3) ∧
    decode 0x00000F03 = .ok (.iqDequant 15) ∧ decode 0x00000104 = .ok (.noiseFill 1) ∧
    decode 0x01010005 = .ok (.msApply 0 1 true) ∧ decode 0x00050205 = .ok (.msApply 2 5 false) ∧
    decode 0x01FFFF05 = .ok (.msApply 255 255 true) ∧ decode 0x00000010 = .ok .mctParse ∧
    decode 0x00000011 = .ok .mctApply ∧ decode 0x01000012 = .ok (.mctClose true) ∧
    decode 0x00000012 = .ok (.mctClose false) ∧ decode 0x00000013 = .ok .mctReset ∧
    decode 0x00000020 = .ok .clearErr

/-- A step runs the decoded command: the block's turn, and the placed word of withFetchWord. So does the step of every
other build (R10; log 1), and step is that of the default one. The turns are the model's own (log 6). -/
def Obligations.StepRunsTheDecodedCommand : Prop :=
  (∀ (s : State) (v : Word) (i : Instr), s.pending = some v → decode v = .ok i →
    (s.err = false ∨ cmdOp v ∈ [0x00, 0x12, 0x13, 0x20]) →
    (s.turns = [] → step s = exec i s) ∧
      ∀ ts, s.turns = .block :: ts → step s = exec i { s with turns := ts }) ∧
  (∀ (s : State) (nbits w : Nat) (i : Instr), s.err = false → decodeTableWord nbits w = some i →
    step (s.withFetchWord nbits w) =
      exec i { s with pending := some (tableWord nbits w), cmdCount := s.cmdCount + 1 }) ∧
  (∀ (P : Params) (s : State) (v : Word) (i : Instr), s.turns = [] → s.pending = some v → decode v = .ok i →
    (s.err = false ∨ cmdOp v ∈ [0x00, 0x12, 0x13, 0x20]) → stepWith P s = execWith P i s) ∧
  (∀ s : State, stepWith params s = step s) ∧ ∀ (i : Instr) (s : State), execWith params i s = exec i s

/-- A host write of CMD while BUSY = 0 takes the word and counts it; while BUSY = 1 it is dropped, uncounted, and sets
HAZ. A read returns 0 (R41, R43). -/
def Obligations.WritingCmdTakesACommand : Prop :=
  ∀ (s : State) (ts : List Turn) (v : Word),
    (s.turns = .host (.write 0x004 4 v) :: ts → s.pending = none →
      step s = .next { s with turns := ts, pending := some v, cmdCount := s.cmdCount + 1, resp := some ⟨true, 0⟩ }) ∧
    (s.turns = .host (.write 0x004 4 v) :: ts → s.pending ≠ none →
      step s = .next { s with turns := ts, haz := true, resp := some ⟨true, 0⟩ }) ∧
    (s.turns = .host (.read 0x004 4) :: ts → s.pending = none →
      step s = .next { s with turns := ts, resp := some ⟨true, 0⟩ })

/-- While ERR = 1 a taken word whose opcode is not NOP, MCT_CLOSE, MCT_RESET or CLEAR_ERR is dropped (R405). -/
def Obligations.CommandsAreDroppedUnderErr : Prop :=
  ∀ (s : State) (v : Word), s.pending = none → s.err = true → cmdOp v ∉ [0x00, 0x12, 0x13, 0x20] →
    s.turns = [.host (.write 0x004 4 v)] →
    ∃ t, step s = .next t ∧ t = { s with turns := [], pending := some v, cmdCount := s.cmdCount + 1, resp := some ⟨true, 0⟩ } ∧
      step t = .next { t with pending := none, done := true, drop := true }

/-! ### Errors -/

/-- The fields of a recorded error (R45): CODE of the kind, CAUSE, INDEX and BAND modulo 256, reserved bits 0; and the
code and cause id of every cause (R401). -/
def Obligations.ErrCodeLayout : Prop :=
  (∀ e : Err, (e.word.extractLsb' 0 4 = e.cause.kind.code) ∧ e.word.extractLsb' 4 4 = 0 ∧
    e.word.extractLsb' 8 8 = e.cause.id ∧ (e.word.extractLsb' 16 8).toNat = e.index % 256 ∧
    (e.word.extractLsb' 24 8).toNat = e.band % 256) ∧
  ∀ c : Cause, (c, c.kind.code, c.id) ∈ ([
    (.illegalOpcode, 4, 0x01), (.reservedField, 4, 0x02),
    (.chRange, 6, 0x10), (.sameChannel, 6, 0x11), (.bandTable, 6, 0x12), (.nchRange, 6, 0x13), (.chmapRange, 6, 0x14),
    (.chmapDup, 6, 0x15),
    (.stage, 5, 0x20), (.mctState, 5, 0x21),
    (.ltp, 2, 0x30), (.gainControl, 2, 0x31), (.erPayload, 2, 0x32), (.igfTiles, 2, 0x33),
    (.lfeShort, 1, 0x40), (.grouping, 1, 0x41), (.maxSfb, 1, 0x42), (.cwMismatch, 1, 0x43), (.boxCount, 1, 0x44),
    (.keepNoPrev, 1, 0x45), (.pairRange, 1, 0x46), (.windowMismatch, 1, 0x47), (.maskWidth, 1, 0x48), (.dtMode, 1, 0x49),
    (.symRange, 1, 0x4A),
    (.iqRange, 3, 0x50), (.angleRange, 3, 0x51)] : List (Cause × BitVec 4 × Byte))

/-- An error discards every change of the command but the HRESET of MCT_PARSE, records itself when ERR was 0, keeps the
first error when ERR was 1, and completes the command (R402, R403). -/
def Obligations.ErrorsArePreciseAndRecordedOnce : Prop :=
  (∀ (i : Instr) (s t : State), exec i s = .next t → s.err = false → t.err = true →
    ∃ e : Err, t = { (if i = .mctParse then parseBase params s else s) with
      err := true, errCode := e.word, pending := none, done := true }) ∧
  ∀ (s : State) (v : Word) (x : IllegalWord), s.turns = [] → s.pending = some v → s.err = true →
    cmdOp v ∈ [0x00, 0x12, 0x13, 0x20] → decode v = .error x → step s = .next { s with pending := none, done := true }

/-- A model fault names a cell that exists and that nothing has written, and no step is refused (R98, R451). -/
def Obligations.FaultNamesAnUnwrittenCell : Prop :=
  (∀ (i : Instr) (s : State) (a : Nat), exec i s = .fault (.unwrittenCell a) →
    ∃ M c k, c < 16 ∧ k < (if ChMem.isWord M then 1024 else 512) ∧ a = cellAddr M c k ∧ cellBits s.mem M c k = none) ∧
    ∀ (s : State) (r : Refusal), step s ≠ .refused r

/-! ### The host bus -/

/-- In every legal build, each listed address names its own cell (R121 to R128), two different mapped addresses never
name the same one (R129), and the blocks and lines the build leaves out are unmapped (R78, R125, R127, R128). -/
def Obligations.AddressesNameDifferentCells : Prop :=
  ∀ P : Params, P.Legal →
    (∀ (a b : Nat) (x : BusCell), decodeAddr P a = some x → decodeAddr P b = some x → a = b) ∧
    (decodeAddr P 0x000 = some .id ∧ decodeAddr P 0x004 = some .cmd ∧ decodeAddr P 0x008 = some .status ∧
      decodeAddr P 0x00C = some .errCode ∧ decodeAddr P 0x010 = some .irqEn ∧ decodeAddr P 0x014 = some .ctrl ∧
      decodeAddr P 0x018 = some .cmdCount ∧ decodeAddr P 0x01C = some .param ∧ decodeAddr P 0x020 = some .param2 ∧
      decodeAddr P 0x040 = some .nsfb ∧ decodeAddr P 0x044 = some .nfStart ∧ decodeAddr P 0x2000 = some .mctCtrl ∧
      decodeAddr P 0x2004 = some .mctState ∧ decodeAddr P 0x2008 = some .mctPrev) ∧
    (∀ b < 65, decodeAddr P (0x400 + 4 * b) = some (.sfbOffLong b) ∧
      decodeAddr P (0x600 + 4 * b) = some (.sfbOffShort b)) ∧
    (∀ i < 64, decodeAddr P (0x800 + 4 * i) = some (.rotCos i) ∧ decodeAddr P (0x900 + 4 * i) = some (.rotSin i)) ∧
    (∀ p < 16, decodeAddr P (0x2040 + 4 * p) = some (.chMap p)) ∧
    (∀ c < P.maxCh, let at' := fun o => decodeAddr P (0x1000 + 0x80 * c + o)
      at' 0x00 = some (.chan c .ics) ∧ at' 0x04 = some (.chan c .groupLen) ∧ at' 0x08 = some (.chan c .noise) ∧
      at' 0x0C = some (.chan c .nseed) ∧ at' 0x10 = some (.chan c .stage) ∧ at' 0x14 = some (.chan c .prevInfo) ∧
      ∀ g < 8, at' (0x40 + 8 * g) = some (.chan c (.msMaskLo g)) ∧ at' (0x44 + 8 * g) = some (.chan c (.msMaskHi g))) ∧
    (∀ i < P.maxBoxes, let at' := fun o => decodeAddr P (0x8000 + 0x400 * i + o)
      at' 0x000 = some (.box i .ctrl) ∧ at' 0x004 = some (.box i .maskLo) ∧ at' 0x008 = some (.box i .maskHi) ∧
      at' 0x00C = some (.box i .info) ∧ at' 0x010 = some (.box i .prev) ∧
      ∀ j < 64, at' (0x100 + 4 * j) = some (.box i (.sym j)) ∧ at' (0x200 + 4 * j) = some (.box i (.coef j)) ∧
        at' (0x300 + 4 * j) = some (.box i (.hist j))) ∧
    (∀ c < P.maxCh, let at' := fun o => decodeAddr P (0x100000 + 0x8000 * c + o)
      (∀ k < 1024, ∀ x ∈ ([(0x0000, .mant), (0x1000, .qin), (0x4000, .pmant), (0x6000, .dmxm)] : List (Nat × ChMem)),
        at' (x.1 + 4 * k) = if k < P.nLong then some (.mem c x.2 k) else none) ∧
      ∀ j < 512, ∀ x ∈ ([(0x2000, .exp), (0x2800, .sf), (0x3000, .cb), (0x3800, .nflag), (0x5000, .pexp),
          (0x5800, .dmxe)] : List (Nat × ChMem)), at' (x.1 + 4 * j) = some (.mem c x.2 j)) ∧
    (∀ c, P.maxCh ≤ c → c < 16 → (∀ o < 0x80, decodeAddr P (0x1000 + 0x80 * c + o) = none) ∧
      ∀ o < 0x8000, decodeAddr P (0x100000 + 0x8000 * c + o) = none) ∧
    ∀ i, P.maxBoxes ≤ i → i < 16 → ∀ o < 0x400, decodeAddr P (0x8000 + 0x400 * i + o) = none

/-- An access that is not one aligned mapped word gets ERROR, data 0 and BUSERR, and does nothing else, BUSY or not
(R131, R132, R136). The holes of R122 to R128 are unmapped. -/
def Obligations.BadAccessesGetBusError : Prop :=
  (∀ (s : State) (ts : List Turn) (a : Word) (n : Nat) (v : Word),
    (n ≠ 4 ∨ a.toNat % 4 ≠ 0 ∨ decodeAddr params a.toNat = none) →
    (s.turns = .host (.read a n) :: ts →
      step s = .next { s with turns := ts, buserr := true, resp := some ⟨false, 0⟩ }) ∧
    (s.turns = .host (.write a n v) :: ts →
      step s = .next { s with turns := ts, buserr := true, resp := some ⟨false, 0⟩ })) ∧
  ∀ a : Nat, (0x24 ≤ a ∧ a < 0x40) ∨ (0x48 ≤ a ∧ a < 0x400) ∨ (0x504 ≤ a ∧ a < 0x600) ∨ (0x704 ≤ a ∧ a < 0x800) ∨
      (0xA00 ≤ a ∧ a < 0x1000) ∨ (0x1800 ≤ a ∧ a < 0x2000) ∨ (0x200C ≤ a ∧ a < 0x2040) ∨ (0x2080 ≤ a ∧ a < 0x8000) ∨
      (0xC000 ≤ a ∧ a < 0x100000) ∨ 0x180000 ≤ a ∨
      (0x1000 ≤ a ∧ a < 0x1800 ∧ 0x18 ≤ a % 0x80 ∧ a % 0x80 < 0x40) ∨
      (0x8000 ≤ a ∧ a < 0xC000 ∧ 0x14 ≤ a % 0x400 ∧ a % 0x400 < 0x100) ∨
      (0x100000 ≤ a ∧ a < 0x180000 ∧ 0x7000 ≤ a % 0x8000) →
    decodeAddr params a = none

/-- A host read changes nothing but the bus response, BUSERR on a bus error, and the count of free values the model has
drawn (R133, R137; log 4). With BUSY = 0 it answers the word's value, and the words only commands write, the memories and
the sizes of the build read as laid out (R47, R59, R60, R81, R82, R88 to R91, R133). -/
def Obligations.HostReadsHaveNoSideEffect : Prop :=
  (∀ (s : State) (ts : List Turn) (a : Word) (n : Nat), s.turns = .host (.read a n) :: ts →
    (∃ r b d, step s = .next { s with turns := ts, resp := some r, buserr := b, draws := d } ∧
      (n = 4 → (decodeAddr params a.toNat).isSome = true → r.ok = true ∧ b = s.buserr)) ∧
    ∀ (x : BusCell) (d : Word), n = 4 → s.pending = none → decodeAddr params a.toNat = some x →
      readView params s x = some d → step s = .next { s with turns := ts, resp := some ⟨true, d⟩ }) ∧
  (∀ s : State, readView params s .cmdCount = some s.cmdCount ∧ readView params s .errCode = some s.errCode ∧
    readView params s .mctState = some (match s.mctState with
      | .idle => 0 | .boxesParsed => 1 | .rotationApplied => 2 | .saved => 3) ∧
    readView params s .mctPrev = some (match s.prevMode with | .alpha => 0 | .angle => 1 | .none => 2)) ∧
  (∀ (s : State) (c : Nat), readView params s (.chan c .nseed) = some (s.ch c).nseed ∧
    readView params s (.chan c .stage) = some (match (s.ch c).stage with
      | .idle => 0 | .begun => 1 | .scaled => 2 | .decoded => 3) ∧
    ∃ d : Word, readView params s (.chan c .prevInfo) = some d ∧ d.getLsbD 0 = (s.ch c).prevShort ∧
      d.getLsbD 1 = (s.ch c).prevPath ∧ d.extractLsb' 2 2 = (s.ch c).prevWinSeq ∧
      d.getLsbD 4 = (s.ch c).prevWinShape ∧ d.extractLsb' 5 27 = 0) ∧
  (∀ (s : State) (i : Nat), readView params s (.box i .info) = some (s.box i).info ∧
    (∀ b < 64, readView params s (.box i (.coef b)) = (s.box i).coef[b]? ∧
      readView params s (.box i (.hist b)) = (s.box i).hist[b]?) ∧
    ∃ d : Word, readView params s (.box i .prev) = some d ∧ d.extractLsb' 0 8 = (s.box i).prevPair ∧
      d.getLsbD 8 = (s.box i).prevPairValid ∧ d.getLsbD 9 = (s.box i).prevBoxShort ∧
      d.getLsbD 10 = (s.box i).histValid ∧ d.extractLsb' 11 21 = 0) ∧
  (∀ (s : State) (c j : Nat),
    (∀ M ∈ [ChMem.mant, .qin, .pmant, .dmxm], readView params s (.mem c M j) = readWord s.mem (cellAddr M c j)) ∧
    (∀ M ∈ [ChMem.exp, .pexp, .dmxe],
      readView params s (.mem c M j) = (readByte s.mem (cellAddr M c j)).map (·.signExtend 32)) ∧
    readView params s (.mem c .sf j) = (readByte s.mem (cellAddr .sf c j)).map (·.setWidth 32) ∧
    readView params s (.mem c .cb j) = (readByte s.mem (cellAddr .cb c j)).map (fun v => (v.extractLsb' 0 4).setWidth 32) ∧
    readView params s (.mem c .nflag j) =
      (readByte s.mem (cellAddr .nflag c j)).map (fun v => (v.extractLsb' 0 1).setWidth 32)) ∧
  ∀ (P : Params) (s : State), P.Legal → ∃ d e : Word, readView P s .param = some d ∧ readView P s .param2 = some e ∧
    (d.extractLsb' 0 8).toNat = P.maxCh ∧ (d.extractLsb' 8 8).toNat = P.maxBoxes ∧ d.extractLsb' 16 8 = 64 ∧
    d.extractLsb' 24 8 = 0 ∧ (e.extractLsb' 0 16).toNat = P.nLong ∧ e.extractLsb' 16 8 = 8 ∧
    e.getLsbD 24 = P.profileLtp ∧ e.extractLsb' 25 7 = 0

/-- Under BUSY (R132, R465): a read outside ALWAYS answers OK with a free value (log 4), a write outside ALWAYS is
dropped with HAZ, and the ALWAYS words answer as they do otherwise. -/
def Obligations.AccessesUnderBusy : Prop :=
  ∀ (s : State) (ts : List Turn) (a v : Word) (x : BusCell), s.pending ≠ none → decodeAddr params a.toNat = some x →
    (s.turns = .host (.read a 4) :: ts → x ∉ [.id, .status, .errCode, .irqEn, .ctrl, .cmdCount, .param, .param2] →
      step s = .next { s with turns := ts, resp := some ⟨true, Config.freeWord s.draws⟩, draws := s.draws + 1 }) ∧
    (s.turns = .host (.write a 4 v) :: ts → x ∉ [.status, .irqEn, .ctrl] →
      step s = .next { s with turns := ts, haz := true, resp := some ⟨true, 0⟩ }) ∧
    (s.turns = .host (.read a 4) :: ts → x ∈ [.id, .status, .errCode, .irqEn, .ctrl, .cmdCount, .param, .param2] →
      ∃ d, readView params s x = some d ∧ step s = .next { s with turns := ts, resp := some ⟨true, d⟩ }) ∧
    (s.turns = .host (.write a 4 v) :: ts → x ∈ [.status, .irqEn, .ctrl] →
      step s = .next { writeView { s with turns := ts } v x with resp := some ⟨true, 0⟩ })

/-- A write to a read-only word is ignored with the OK response (R134). -/
def Obligations.ReadOnlyWordsIgnoreWrites : Prop :=
  ∀ (s : State) (ts : List Turn) (a v : Word) (x : BusCell), s.pending = none →
    s.turns = .host (.write a 4 v) :: ts → decodeAddr params a.toNat = some x → x.readOnly = true →
    step s = .next { s with turns := ts, resp := some ⟨true, 0⟩ }

/-- A write to a word the host may write makes that word read as written, reserved bits 0, and leaves every other
mapped word reading as before (R79, R133, R134); the fields of a word are at their bits (R55, R57, R61, R80, R85, R86). -/
def Obligations.WrittenWordsReadBack : Prop :=
  (∀ (s : State) (ts : List Turn) (a v d : Word) (x : BusCell), s.pending = none →
    s.turns = .host (.write a 4 v) :: ts → decodeAddr params a.toNat = some x → x.stored v = some d →
    ∃ t, step s = .next t ∧ t.turns = ts ∧ t.resp = some ⟨true, 0⟩ ∧ readView params t x = some d ∧
      ∀ (b : Word) (y : BusCell), decodeAddr params b.toNat = some y → y ≠ x → readView params t y = readView params s y) ∧
  (∀ v : Word, icsWinSeq v = v.extractLsb' 0 2 ∧ icsMaxSfb v = v.toNat / 2 ^ 16 % 2 ^ 7 ∧
    icsNumGroups v = v.toNat / 2 ^ 24 % 2 ^ 4 ∧
    [icsWinShape v, icsLfe v, icsLtp v, icsGainCtrl v, icsErPayload v, icsNoiseEn v, icsIgfEn v, icsPath v] =
      [2, 3, 4, 5, 6, 7, 8, 9].map v.getLsbD ∧
    (noiseLevel v).toNat = v.toNat % 2 ^ 3 ∧ (noiseOffset v).toNat = v.toNat / 2 ^ 8 % 2 ^ 5 ∧
    [ctlIndep v, ctlSfEnable v, ctlMode v, ctlKeepTree v] = [0, 1, 2, 3].map v.getLsbD ∧
    ctlNumBoxes v = v.toNat / 2 ^ 8 % 2 ^ 5 ∧ ctlNch v = v.toNat / 2 ^ 16 % 2 ^ 5 ∧
    [boxHasMask v, boxBandwise v, boxPredDir v, boxDeltaTime v, boxSfFlag v] = [8, 9, 10, 11, 12].map v.getLsbD ∧
    boxPairIdx v = v.toNat % 2 ^ 8 ∧ boxNumBands v = v.toNat / 2 ^ 16 % 2 ^ 7) ∧
  (∀ (s : State) (c g b : Nat), g < 8 → b < 64 → s.msBit c g b =
    if b < 32 then (((s.ch c).msMaskLo[g]?).getD 0).getLsbD b else (((s.ch c).msMaskHi[g]?).getD 0).getLsbD (b - 32)) ∧
  ∀ (x : Box) (b : Nat), b < 64 →
    x.mask.getLsbD b = (if b < 32 then x.maskLo.getLsbD b else x.maskHi.getLsbD (b - 32)) ∧
    x.sym[b]?.map BitVec.toNat = some (x.symAt b)

/-- STATUS (R44, R134): the layout of a read, and the W1C bits of a write, whatever BUSY is. -/
def Obligations.StatusReadAndClear : Prop :=
  ∀ (s : State) (ts : List Turn),
    (s.turns = .host (.read 0x008 4) :: ts → ∃ d : Word,
      step s = .next { s with turns := ts, resp := some ⟨true, d⟩ } ∧ d.getLsbD 0 = s.pending.isSome ∧
        d.getLsbD 1 = s.done ∧ d.getLsbD 2 = s.err ∧ d.getLsbD 3 = s.drop ∧ d.getLsbD 4 = s.haz ∧
        d.getLsbD 5 = s.ovf ∧ d.getLsbD 6 = s.buserr ∧ d.extractLsb' 7 25 = 0) ∧
    ∀ v : Word, s.turns = .host (.write 0x008 4 v) :: ts → ∃ t, step s = .next t ∧
      t = { s with turns := ts, resp := some ⟨true, 0⟩, done := t.done, drop := t.drop, haz := t.haz, ovf := t.ovf,
                   buserr := t.buserr } ∧
      (t.done = true ↔ s.done = true ∧ v.getLsbD 1 = false) ∧ (t.drop = true ↔ s.drop = true ∧ v.getLsbD 3 = false) ∧
      (t.haz = true ↔ s.haz = true ∧ v.getLsbD 4 = false) ∧ (t.ovf = true ↔ s.ovf = true ∧ v.getLsbD 5 = false) ∧
      (t.buserr = true ↔ s.buserr = true ∧ v.getLsbD 6 = false)

/-- CTRL.SRST and `rst` put every field in its reset state, BUSY or not (R450, R452); the turns to come and the count
of free values are the model's own and stay (log 9). A write with bit 0 = 0 changes nothing. -/
def Obligations.ResetPutsEverythingBack : Prop :=
  ∀ (s : State) (ts : List Turn) (v : Word),
    (s.turns = .rst :: ts → step s = .next { State.reset with turns := ts, draws := s.draws }) ∧
    (s.turns = .host (.write 0x014 4 v) :: ts → v.getLsbD 0 = true →
      step s = .next { State.reset with turns := ts, draws := s.draws, resp := some ⟨true, 0⟩ }) ∧
    (s.turns = .host (.write 0x014 4 v) :: ts → v.getLsbD 0 = false →
      step s = .next { s with turns := ts, resp := some ⟨true, 0⟩ })

/-- What a host reads after reset is the table of R100: constants, PREV_MODE 2, 0 in every other register and in PMANT
and PEXP, and no value in a working-memory cell. -/
def Obligations.WhatResetLeaves : Prop :=
  State.reset.irq = false ∧ State.reset.pending = none ∧
  ∀ (a : Word) (x : BusCell), decodeAddr params a.toNat = some x →
    readView params State.reset x =
      match x with
      | .id => some 0x4D504831
      | .param => some 0x00401010
      | .param2 => some 0x00080400
      | .rotCos i => some (BitVec.ofInt 32 (params.rotTable i).1)
      | .rotSin i => some (BitVec.ofInt 32 (params.rotTable i).2)
      | .mctPrev => some 2
      | .mem _ M _ => if M = .pmant ∨ M = .pexp then some 0 else none
      | _ => some 0

/-- irq is high exactly while an enabled DONE or ERR is pending, and a completed command with DONE_IE raises it
(R410). -/
def Obligations.InterruptFollowsDoneAndErr : Prop :=
  (∀ s : State, s.irq = true ↔ (s.done = true ∧ s.irqEn.getLsbD 0 = true) ∨ (s.err = true ∧ s.irqEn.getLsbD 1 = true)) ∧
    ∀ (i : Instr) (s t : State), exec i s = .next t → s.irqEn.getLsbD 0 = true → t.irq = true

/-! ### Every command -/

/-- A command that answers has completed (R160), and has left alone everything that only the host writes (R44, R142);
OVF is sticky (R212). -/
def Obligations.CommandsLeaveHostFieldsAlone : Prop :=
  ∀ (i : Instr) (s t : State), exec i s = .next t →
    t.pending = none ∧ t.done = true ∧ (s.ovf = true → t.ovf = true) ∧ HostFieldsKept s t

/-- NSEED is written by NOISE_FILL of its channel and by no other command (R58). -/
def Obligations.OnlyNoiseFillMovesTheSeed : Prop :=
  ∀ (i : Instr) (s t : State) (c : Nat), exec i s = .next t → c < 16 → i ≠ .noiseFill c →
    (t.ch c).nseed = (s.ch c).nseed

/-- Nothing moves STAGE except CH_BEGIN, IQ_SCALE and IQ_DEQUANT of the channel, from the stage each needs (R251). -/
def Obligations.StageMoves : Prop :=
  ∀ (i : Instr) (s t : State) (c : Nat), exec i s = .next t → c < 16 → (t.ch c).stage ≠ (s.ch c).stage →
    (i = .chBegin c ∧ (t.ch c).stage = .begun) ∨
    (i = .iqScale c ∧ (s.ch c).stage = .begun ∧ (t.ch c).stage = .scaled) ∨
    (i = .iqDequant c ∧ (s.ch c).stage = .scaled ∧ (t.ch c).stage = .decoded)

/-- The MCT state machine (R301), for a command that runs with ERR = 0, and MCT_CLOSE and MCT_RESET with ERR = 1. -/
def Obligations.MctStateMoves : Prop :=
  (∀ (i : Instr) (s t : State), exec i s = .next t → s.err = false →
    (t.err = true → t.mctState = s.mctState) ∧
    (t.err = false →
      match i with
      | .mctParse => (s.mctState = .idle ∨ s.mctState = .saved) ∧ t.mctState = .boxesParsed
      | .mctApply => s.mctState = .boxesParsed ∧ t.mctState = .rotationApplied
      | .mctClose true => s.mctState = .rotationApplied ∧ t.mctState = .saved
      | .mctClose false => t.mctState = .idle
      | .mctReset => t.mctState = .idle
      | .nop | .chBegin _ | .iqScale _ | .iqDequant _ | .noiseFill _ | .msApply _ _ _ | .clearErr =>
        t.mctState = s.mctState)) ∧
  (∀ s : State, (s.mctState ≠ .idle → s.mctState ≠ .saved →
      exec .mctParse s = .next (s.raise { cause := .mctState })) ∧
    (s.mctState ≠ .boxesParsed → exec .mctApply s = .next (s.raise { cause := .mctState })) ∧
    (s.mctState ≠ .rotationApplied → s.err = false →
      exec (.mctClose true) s = .next (s.raise { cause := .mctState }))) ∧
  ∀ (s t : State) (ok : Bool), s.err = true → exec (.mctClose ok) s = .next t ∨ exec .mctReset s = .next t →
    t.mctState = .idle

/-! ### Control commands -/

/-- NOP completes and does nothing else; with any of bits [31:8] set it raises RESERVED_FIELD (R380). -/
def Obligations.NopCompletes : Prop :=
  (∀ s : State, exec .nop s = .next { s with pending := none, done := true }) ∧
    ∀ (s : State) (v : Word), s.turns = [] → s.pending = some v → cmdOp v = 0 → v ≠ 0 → s.err = false →
      step s = .next { s with pending := none, done := true, err := true, errCode := 0xFFFF0204 }

/-- CLEAR_ERR completes with ERR and ERR_CODE 0 and every other flag as it was; with any of bits [31:8] set it raises
RESERVED_FIELD, or keeps the first error (R385). -/
def Obligations.ClearErrEndsTheError : Prop :=
  (∀ s : State, exec .clearErr s = .next { s with err := false, errCode := 0, pending := none, done := true }) ∧
    ∀ (s : State) (v : Word), s.turns = [] → s.pending = some v → cmdOp v = 0x20 → v ≠ 0x20 →
      (s.err = false →
        step s = .next { s with pending := none, done := true, err := true, errCode := 0xFFFF0204 }) ∧
      (s.err = true → step s = .next { s with pending := none, done := true })

/-- MCT_RESET completes in every state: it resets the persistent MCT state (R305), goes to IDLE, and leaves ERR, the
working memories and everything else (R345). -/
def Obligations.MctResetForgetsTheHistory : Prop :=
  ∀ s : State, ∃ t, exec .mctReset s = .next t ∧
    t = { s with boxes := t.boxes, chans := t.chans, mem := t.mem, prevMode := .none, mctState := .idle,
                 pending := none, done := true } ∧
    (∀ i < 16, t.box i = { s.box i with hist := Vector.replicate 64 0, prevPair := 0, prevPairValid := false,
                                        prevBoxShort := false, histValid := false }) ∧
    (∀ c < 16, t.ch c = { s.ch c with prevShort := false, prevPath := false }) ∧
    (∀ c < 16, ∀ a, inSaved c a → readByte t.mem a = some 0) ∧
    ∀ a, (∀ c < 16, ¬ inSaved c a) → readByte t.mem a = readByte s.mem a

/-! ### Channel commands -/

/-- CH_BEGIN c (R255): for a slot that exists it completes from any stage, with every CB entry 11, every NFLAG 0 and
STAGE BEGUN, and changes nothing else; for any other slot it raises CH_RANGE. -/
def Obligations.ChBeginStartsTheFrame : Prop :=
  ∀ (s : State) (c : Nat),
    (c < 16 → ∃ t, exec (.chBegin c) s = .next t ∧
      t = { s.setCh c { s.ch c with stage := .begun } with mem := t.mem, pending := none, done := true } ∧
      (∀ j < 512, readByte t.mem (cellAddr .cb c j) = some 11 ∧ readByte t.mem (cellAddr .nflag c j) = some 0) ∧
      ∀ a, ¬ inCells .cb c 0 512 a → ¬ inCells .nflag c 0 512 a → readByte t.mem a = readByte s.mem a) ∧
    (16 ≤ c → exec (.chBegin c) s = .next (s.raise { cause := .chRange, index := c }))

/-- IQ_SCALE c (R265) completes when its checks pass and what it reads is written: the exponent and fraction of every
transmitted band come from its scale factor, all others are 0, and nothing else changes. -/
def Obligations.IqScaleSetsTheExponents : Prop :=
  ∀ (s : State) (c : Nat), c < 16 → (s.ch c).stage = .begun → CfgOk s c →
    (∀ w < s.nwin c, ∀ b < s.maxSfb c, byteMarked s.mem .cb c (s.grp c w * 64 + b) ∧
      (isCoded s c (s.grp c w) b = true → byteMarked s.mem .sf c (s.grp c w * 64 + b))) →
    ∃ t, exec (.iqScale c) s = .next t ∧
      t = { s.setCh c { s.ch c with stage := .scaled, frac := (t.ch c).frac } with
            mem := t.mem, pending := none, done := true } ∧
      (∀ w < 8, ∀ b < 64,
        (inT s c w b → readByte t.mem (cellAddr .exp c (w * 64 + b)) =
            some (params.iqExp (byteAt s.mem .sf c (s.grp c w * 64 + b))).1 ∧
          t.fracAt c w b = (params.iqExp (byteAt s.mem .sf c (s.grp c w * 64 + b))).2) ∧
        (¬ inT s c w b → readByte t.mem (cellAddr .exp c (w * 64 + b)) = some 0 ∧ t.fracAt c w b = 0)) ∧
      ∀ a, ¬ inCells .exp c 0 512 a → readByte t.mem a = readByte s.mem a

/-- IQ_DEQUANT c (R272) completes when its checks pass and every quantised value it reads is written and at most QMAX:
the lines of transmitted bands are dequantised, every other line is 0, and nothing else changes. -/
def Obligations.IqDequantWritesTheMantissas : Prop :=
  ∀ (s : State) (c : Nat), c < 16 → (s.ch c).stage = .scaled → CfgOk s c →
    (∀ w < s.nwin c, ∀ b < s.maxSfb c, byteMarked s.mem .cb c (s.grp c w * 64 + b)) →
    (∀ w b k, inT s c w b → k < s.bandWidth c b → ∃ q : Word,
      readWord s.mem (cellAddr .qin c (s.lineLo params c w b + k)) = some q ∧ q.toInt.natAbs ≤ 8191) →
    ∃ t, exec (.iqDequant c) s = .next t ∧
      t = { s.setCh c { s.ch c with stage := .decoded } with mem := t.mem, pending := none, done := true } ∧
      (∀ w b k, inT s c w b → k < s.bandWidth c b →
        readWord t.mem (cellAddr .mant c (s.lineLo params c w b + k)) =
          some (params.iqMant (wordAt s.mem .qin c (s.lineLo params c w b + k)) (s.fracAt c w b))) ∧
      (∀ j < 1024, (∀ w b, inT s c w b → j < s.lineLo params c w b ∨ s.lineLo params c w b + s.bandWidth c b ≤ j) →
        readWord t.mem (cellAddr .mant c j) = some 0) ∧
      ∀ a, ¬ inCells .mant c 0 1024 a → readByte t.mem a = readByte s.mem a

/-- IQ_DEQUANT c raises DECODE(IQ_RANGE) with the band of the first quantised value above QMAX, in window, band and line
order (R272). -/
def Obligations.IqDequantRangeError : Prop :=
  ∀ (s : State) (c w b k : Nat) (q : Word), c < 16 → (s.ch c).stage = .scaled → CfgOk s c →
    (∀ w' < s.nwin c, ∀ b' < s.maxSfb c, byteMarked s.mem .cb c (s.grp c w' * 64 + b')) →
    inT s c w b → k < s.bandWidth c b → readWord s.mem (cellAddr .qin c (s.lineLo params c w b + k)) = some q →
    8191 < q.toInt.natAbs →
    (∀ w' b' k', inT s c w' b' → k' < s.bandWidth c b' →
      (w' < w ∨ (w' = w ∧ (b' < b ∨ (b' = b ∧ k' < k)))) → ∃ q' : Word,
        readWord s.mem (cellAddr .qin c (s.lineLo params c w' b' + k')) = some q' ∧ q'.toInt.natAbs ≤ 8191) →
    exec (.iqDequant c) s = .next (s.raise { cause := .iqRange, index := c, band := b })

/-- NOISE_FILL c (R280): with NOISE_EN = 0 or level 0 it completes and changes nothing; otherwise it fills every
candidate band, flags it, and advances NSEED by one generator call for each filled line, in group, band, window and line
order; OVF rises exactly when the addition saturates in a filled band. -/
def Obligations.NoiseFillFillsTheCandidates : Prop :=
  ∀ (s : State) (c : Nat), c < 16 → (s.ch c).stage = .decoded → CfgOk s c →
    (icsNoiseEn (s.ch c).ics = false ∨ noiseLevel (s.ch c).noise = 0 →
      exec (.noiseFill c) s = .next { s with pending := none, done := true }) ∧
    (icsNoiseEn (s.ch c).ics = true → noiseLevel (s.ch c).noise ≠ 0 → NoiseReadable s c →
      ∃ t, exec (.noiseFill c) s = .next t ∧
        t = { s.setCh c { s.ch c with nseed := seedAfter (linesFilled s c (noiseFills s c)) (s.ch c).nseed } with
              mem := t.mem, ovf := t.ovf, pending := none, done := true } ∧
        (∀ j g b w x, (noiseFills s c)[j]? = some (g, b, w) → s.band params c w b = .ok x →
          t.band params c w b = .ok (addAfter x (noiseAdded s c j g b).1 (noiseAdded s c j g b).2) ∧
            readByte t.mem (cellAddr .nflag c (w * 64 + b)) = some 1) ∧
        (t.ovf = true ↔ s.ovf = true ∨ ∃ j g b w x, (noiseFills s c)[j]? = some (g, b, w) ∧
          s.band params c w b = .ok x ∧ AddSaturates x (noiseAdded s c j g b).1 (noiseAdded s c j g b).2) ∧
        ∀ a, (∀ g b w, (g, b, w) ∈ noiseFills s c →
            ¬ inCells .mant c (s.lineLo params c w b) (s.bandWidth c b) a ∧ ¬ inCells .exp c (w * 64 + b) 1 a ∧
              ¬ inCells .nflag c (w * 64 + b) 1 a) →
          readByte t.mem a = readByte s.mem a)

/-- A second NOISE_FILL finds every filled band flagged: it adds nothing and leaves NSEED (R280). -/
def Obligations.NoiseFillTwiceAddsNothing : Prop :=
  ∀ (s t : State) (c : Nat), c < 256 → exec (.noiseFill c) s = .next t → exec (.noiseFill c) t = .next t

/-- MS_APPLY c1, c2, 0 completes and changes nothing (R290). -/
def Obligations.MsApplyWithoutCommonWindow : Prop :=
  ∀ (s : State) (c1 c2 : Nat), c1 < 16 → c2 < 16 → c1 ≠ c2 → (s.ch c1).stage = .decoded → (s.ch c2).stage = .decoded →
    exec (.msApply c1 c2 false) s = .next { s with pending := none, done := true }

/-- MS_APPLY c1, c2, 1 (R290, R292): every band below MAX_SFB whose mask bit is set becomes (M + S, M - S), every other
keeps its value; the half-sum of each goes to DMXM and DMXE of c1, which are 0 elsewhere; PREV_INFO of c1 takes the
window sequence and shape; OVF rises exactly when a masked band or a half-sum saturates; nothing else changes. -/
def Obligations.MsApplyCombinesTheMaskedBands : Prop :=
  ∀ (s : State) (c1 c2 : Nat), c1 < 16 → c2 < 16 → c1 ≠ c2 → (s.ch c1).stage = .decoded → (s.ch c2).stage = .decoded →
    CfgOk s c1 → CfgOk s c2 → icsWinSeq (s.ch c1).ics = icsWinSeq (s.ch c2).ics → s.ng c1 = s.ng c2 →
    (∀ g < s.ng c1, s.gl c1 g = s.gl c2 g) → s.maxSfb c1 = s.maxSfb c2 →
    (∀ w < s.nwin c1, ∀ b < s.maxSfb c1,
      (∃ x, s.band params c1 w b = .ok x) ∧ ∃ y, s.band params c2 w b = .ok y) →
    ∃ t, exec (.msApply c1 c2 true) s = .next t ∧
      t = { s.setCh c1 { s.ch c1 with prevWinSeq := icsWinSeq (s.ch c1).ics,
                                      prevWinShape := icsWinShape (s.ch c1).ics } with
            mem := t.mem, ovf := t.ovf, pending := none, done := true } ∧
      (∀ w < s.nwin c1, ∀ b < s.maxSfb c1, ∀ x y, s.band params c1 w b = .ok x → s.band params c2 w b = .ok y →
        let xy := if s.msBit c1 (s.grp c1 w) b then pairAfter laneMs x y else (x, y)
        t.band params c1 w b = .ok xy.1 ∧ t.band params c2 w b = .ok xy.2 ∧
          t.bandOf params .dmxm .dmxe c1 w b = .ok (halfSum params xy.1 xy.2).1) ∧
      (t.ovf = true ↔ s.ovf = true ∨ ∃ w b x y, w < s.nwin c1 ∧ b < s.maxSfb c1 ∧ s.band params c1 w b = .ok x ∧
        s.band params c2 w b = .ok y ∧
        if s.msBit c1 (s.grp c1 w) b then
          PairSaturates laneMs x y ∨ HalfSaturates (pairAfter laneMs x y).1 (pairAfter laneMs x y).2
        else HalfSaturates x y) ∧
      (∀ j < 1024, (∀ w < s.nwin c1, ∀ b < s.maxSfb c1,
          j < s.lineLo params c1 w b ∨ s.lineLo params c1 w b + s.bandWidth c1 b ≤ j) →
        readWord t.mem (cellAddr .dmxm c1 j) = some 0) ∧
      (∀ w < 8, ∀ b < 64, ¬ (w < s.nwin c1 ∧ b < s.maxSfb c1) →
        readByte t.mem (cellAddr .dmxe c1 (w * 64 + b)) = some 0) ∧
      ∀ a, ¬ inCells .dmxm c1 0 1024 a → ¬ inCells .dmxe c1 0 512 a →
        (∀ w < s.nwin c1, ∀ b < s.maxSfb c1, s.msBit c1 (s.grp c1 w) b = true → ∀ c, c = c1 ∨ c = c2 →
          ¬ inCells .mant c (s.lineLo params c w b) (s.bandWidth c b) a ∧ ¬ inCells .exp c (w * 64 + b) 1 a) →
        readByte t.mem a = readByte s.mem a

/-- MS_APPLY never reads an unwritten cell while the written-marks follow the stages (R451). -/
def Obligations.MsApplyNeverFaultsOnDecodedChannels : Prop :=
  ∀ (s : State) (c1 c2 : Nat) (cw : Bool), MarksFollowStage s → ∃ t, exec (.msApply c1 c2 cw) s = .next t

/-- The first failing check of IQ_SCALE, IQ_DEQUANT and NOISE_FILL is the one raised (R251, R252, R262, R263, R264,
R415). -/
def Obligations.ChannelChecksInOrder : Prop :=
  ∀ (s : State) (c : Nat) (i : Instr) (need : Stage),
    (i, need) ∈ [(Instr.iqScale c, Stage.begun), (Instr.iqDequant c, Stage.scaled), (Instr.noiseFill c, Stage.decoded)] →
    let fails := fun e : Err => exec i s = .next (s.raise e)
    (16 ≤ c → fails { cause := .chRange, index := c }) ∧
    (c < 16 → (s.ch c).stage ≠ need → fails { cause := .stage, index := c }) ∧
    (c < 16 → (s.ch c).stage = need →
      (64 < s.nsfbOf c → fails { cause := .bandTable, index := c }) ∧
      (s.nsfbOf c ≤ 64 →
        (∀ b < s.nsfbOf c, s.off c (b + 1) ≤ s.off c b → (∀ b' < b, s.off c b' < s.off c (b' + 1)) →
          fails { cause := .bandTable, index := c, band := b }) ∧
        ((∀ b < s.nsfbOf c, s.off c b < s.off c (b + 1)) → s.wlen params c < s.off c (s.nsfbOf c) →
          fails { cause := .bandTable, index := c, band := s.nsfbOf c })) ∧
      (BandTableOk s c →
        let ics := (s.ch c).ics
        (icsLtp ics = true → fails { cause := .ltp, index := c }) ∧
        (icsLtp ics = false → icsGainCtrl ics = true → fails { cause := .gainControl, index := c }) ∧
        (icsLtp ics = false → icsGainCtrl ics = false → icsErPayload ics = true →
          fails { cause := .erPayload, index := c }) ∧
        (icsLtp ics = false → icsGainCtrl ics = false → icsErPayload ics = false →
          (icsLfe ics = true → s.short c = true → fails { cause := .lfeShort, index := c }) ∧
          ((icsLfe ics = false ∨ s.short c = false) →
            (s.short c = false → ¬ (s.ng c = 1 ∧ s.gl c 0 = 1) → fails { cause := .grouping, index := c }) ∧
            (s.short c = true → ¬ (1 ≤ s.ng c ∧ s.ng c ≤ 8 ∧ (∀ g < s.ng c, 1 ≤ s.gl c g) ∧
                ((List.range (s.ng c)).map (s.gl c)).sum = 8) →
              fails { cause := .grouping, index := c }) ∧
            ((s.short c = false → s.ng c = 1 ∧ s.gl c 0 = 1) →
              (s.short c = true → 1 ≤ s.ng c ∧ s.ng c ≤ 8 ∧ (∀ g < s.ng c, 1 ≤ s.gl c g) ∧
                ((List.range (s.ng c)).map (s.gl c)).sum = 8) →
              s.nsfbOf c < s.maxSfb c → fails { cause := .maxSfb, index := c, band := s.maxSfb c })))))

/-- The checks of MS_APPLY in order (R290): the slots, two different ones, the stages, and with a common window the
configurations and their match. -/
def Obligations.MsApplyChecksInOrder : Prop :=
  ∀ (s : State) (c1 c2 : Nat) (cw : Bool),
    let fails := fun e : Err => exec (.msApply c1 c2 cw) s = .next (s.raise e)
    (16 ≤ c1 → fails { cause := .chRange, index := c1 }) ∧
    (c1 < 16 → 16 ≤ c2 → fails { cause := .chRange, index := c2 }) ∧
    (c1 < 16 → c1 = c2 → fails { cause := .sameChannel, index := c1 }) ∧
    (c1 < 16 → c2 < 16 → c1 ≠ c2 → (s.ch c1).stage ≠ .decoded → fails { cause := .stage, index := c1 }) ∧
    (c1 < 16 → c2 < 16 → c1 ≠ c2 → (s.ch c1).stage = .decoded → (s.ch c2).stage ≠ .decoded →
      fails { cause := .stage, index := c2 }) ∧
    (c1 < 16 → c2 < 16 → c1 ≠ c2 → (s.ch c1).stage = .decoded → (s.ch c2).stage = .decoded → cw = true →
      (∀ e, chkCfg params s c1 = .error (.raise e) → fails e) ∧
      (CfgOk s c1 → ∀ e, chkCfg params s c2 = .error (.raise e) → fails e) ∧
      (CfgOk s c1 → CfgOk s c2 → (icsWinSeq (s.ch c1).ics ≠ icsWinSeq (s.ch c2).ics ∨ s.ng c1 ≠ s.ng c2 ∨
          (∃ g < s.ng c1, s.gl c1 g ≠ s.gl c2 g) ∨ s.maxSfb c1 ≠ s.maxSfb c2) →
        fails { cause := .cwMismatch, index := c1 }))

/-! ### MCT commands -/

/-- MCT_PARSE (R310 to R317) completes when every check passes: COEF, BOX_INFO and the latch of each box follow, the
other boxes become inactive, MCT_STATE is BOXES_PARSED, and nothing else changes. u is the state after the HRESET line,
h b the working history of band b (R312): HIST where the box has a history of this mode and block type, else the default;
p b what the symbol of band b is added to (R313). The coded bands and the width are those of R314. -/
def Obligations.MctParseReconstructsTheFrame : Prop :=
  (∀ (ctrl : Word) (mask : BitVec 64),
    boxWidth ctrl = (if ctrl.getLsbD 8 || ctrl.getLsbD 9 then (ctrl.extractLsb' 16 7).toNat else 1) ∧
    (ctrl.getLsbD 9 = false → codedBands ctrl mask = [0]) ∧
    (ctrl.getLsbD 9 = true → (codedBands ctrl mask).Pairwise (· < ·) ∧ ∀ b, b ∈ codedBands ctrl mask ↔
      b < (ctrl.extractLsb' 16 7).toNat ∧ (ctrl.getLsbD 8 = false ∨ mask.getLsbD b = true))) ∧
  ∀ (s u : State), (s.mctState = .idle ∨ s.mctState = .saved) → u = parseBase params s →
    ctlNumBoxes s.mctCtrl ≤ 16 →
    (1 ≤ ctlNumBoxes s.mctCtrl → 2 ≤ ctlNch s.mctCtrl ∧ ctlNch s.mctCtrl ≤ 16 ∧
      (∀ p < ctlNch s.mctCtrl, s.chMapAt p < 16) ∧
      ∀ q < ctlNch s.mctCtrl, ∀ p < q, s.chMapAt p ≠ s.chMapAt q) →
    ∀ (pi c1 c2 : Nat → Nat),
    (∀ i < ctlNumBoxes s.mctCtrl, BoxParses u (ctlKeepTree s.mctCtrl && !ctlIndep s.mctCtrl) (ctlMode s.mctCtrl)
      (ctlNch s.mctCtrl) i (pi i) (c1 i) (c2 i)) →
    ∃ t, exec .mctParse s = .next t ∧
      t = { u with boxes := t.boxes, lBox := t.lBox, lCtrl := s.mctCtrl, mctState := .boxesParsed, pending := none,
                   done := true } ∧
      (∀ i < ctlNumBoxes s.mctCtrl,
        let mode := ctlMode s.mctCtrl
        let ctrl := (s.box i).ctrl
        let mask := (s.box i).mask
        let sh := s.short (c1 i)
        let coded := codedBands ctrl mask
        let dflt : Int := if mode then 48 else 0
        let h := fun b : Nat => if (u.box i).histValid = true ∧ u.prevMode = (if mode then .angle else .alpha) ∧
            (u.box i).prevBoxShort = sh then (((u.box i).hist[b]?).getD 0).toInt else dflt
        let p := fun b : Nat => if boxDeltaTime ctrl then h b else dflt
        t.box i = { u.box i with coef := (t.box i).coef, info := (t.box i).info } ∧
        t.latch i = ⟨ctrl, mask, pi i, c1 i, c2 i, sh, boxWidth ctrl⟩ ∧
        ((t.box i).info.extractLsb' 0 8).toNat = c1 i ∧ ((t.box i).info.extractLsb' 8 8).toNat = c2 i ∧
        (t.box i).info.getLsbD 16 = sh ∧ (t.box i).info.getLsbD 17 = true ∧
        ((t.box i).info.extractLsb' 24 7).toNat = coded.length ∧ (t.box i).info.extractLsb' 18 6 = 0 ∧
        (t.box i).info.getLsbD 31 = false ∧
        (∀ j b, coded[j]? = some b → (t.box i).coef[b]? = some (BitVec.ofInt 32
          (if mode then (p b + ((s.box i).symAt j : Int)) % 65 else p b + ((s.box i).symAt j : Int) - 60))) ∧
        ∀ b < 64, b ∉ coded → (t.box i).coef[b]? = some (BitVec.ofInt 32
          (if b < boxWidth ctrl then h b else dflt))) ∧
      ∀ i < 16, ctlNumBoxes s.mctCtrl ≤ i → t.box i = { u.box i with info := 0 } ∧ t.latch i = u.latch i

/-- The HRESET of MCT_PARSE with INDEP = 1 stays when a check then fails, with every other change discarded; with
INDEP = 0 nothing stays (R300, R310, R402). -/
def Obligations.IndepResetSurvivesAFailedParse : Prop :=
  ∀ (s t : State), exec .mctParse s = .next t → s.err = false → t.err = true →
    (ctlIndep s.mctCtrl = false → t = { s with err := true, errCode := t.errCode, pending := none, done := true }) ∧
    (ctlIndep s.mctCtrl = true → (s.mctState = .idle ∨ s.mctState = .saved) → ∃ r, exec .mctReset s = .next r ∧
      t = { r with mctState := s.mctState, err := true, errCode := t.errCode })

/-- The frame checks of MCT_PARSE in order, before any box (R310). -/
def Obligations.MctParseFrameChecksInOrder : Prop :=
  ∀ s : State, (s.mctState = .idle ∨ s.mctState = .saved) →
    let u := parseBase params s
    let nb := ctlNumBoxes s.mctCtrl
    let n := ctlNch s.mctCtrl
    let fails := fun e : Err => exec .mctParse s = .next (u.raise e)
    (16 < nb → fails { cause := .boxCount, band := nb }) ∧
    (1 ≤ nb → nb ≤ 16 →
      (n < 2 ∨ 16 < n → fails { cause := .nchRange, band := n }) ∧
      (2 ≤ n → n ≤ 16 →
        (∀ p < n, 16 ≤ s.chMapAt p → (∀ p' < p, s.chMapAt p' < 16) → fails { cause := .chmapRange, band := p }) ∧
        ((∀ p < n, s.chMapAt p < 16) → ∀ q < n, (∃ p < q, s.chMapAt p = s.chMapAt q) →
          (∀ q' < q, ∀ p < q', s.chMapAt p ≠ s.chMapAt q') → fails { cause := .chmapDup, band := q })))

/-- The checks of one box of MCT_PARSE in order, on the state after the HRESET line (R310, R311), and that the first box
that fails gives the error of MCT_PARSE. -/
def Obligations.MctParseBoxChecksInOrder : Prop :=
  (∀ (s : State) (i : Nat) (e : Err), (s.mctState = .idle ∨ s.mctState = .saved) →
    ctlNumBoxes s.mctCtrl ≤ 16 → i < ctlNumBoxes s.mctCtrl → 2 ≤ ctlNch s.mctCtrl → ctlNch s.mctCtrl ≤ 16 →
    (∀ p < ctlNch s.mctCtrl, s.chMapAt p < 16) → (∀ q < ctlNch s.mctCtrl, ∀ p < q, s.chMapAt p ≠ s.chMapAt q) →
    let run := parseBox params (parseBase params s) (ctlKeepTree s.mctCtrl && !ctlIndep s.mctCtrl) (ctlMode s.mctCtrl)
      (ctlNch s.mctCtrl)
    (∀ j < i, ∃ x, run j = .ok x) → run i = .error (.raise e) →
    exec .mctParse s = .next ((parseBase params s).raise e)) ∧
  ∀ (u : State) (keep mode : Bool) (n i pi c1 c2 : Nat), n ≤ 16 →
    let fails := fun e : Err => parseBox params u keep mode n i = .error (.raise e)
    let ctrl := (u.box i).ctrl
    let coded := codedBands ctrl (u.box i).mask
    (keep = true → (u.box i).prevPairValid = false → fails { cause := .keepNoPrev, index := i }) ∧
    (pi = (if keep then (u.box i).prevPair.toNat else boxPairIdx ctrl) → (keep = true → (u.box i).prevPairValid = true) →
      (n * (n - 1) / 2 ≤ pi → fails { cause := .pairRange, index := i, band := pi }) ∧
      (∀ p1 p2, p1 < p2 → p2 < n → pi = p1 * (2 * n - p1 - 1) / 2 + (p2 - p1 - 1) → c1 = u.chMapAt p1 →
        c2 = u.chMapAt p2 →
        ((u.ch c1).stage ≠ .decoded → fails { cause := .stage, index := c1 }) ∧
        ((u.ch c1).stage = .decoded → (u.ch c2).stage ≠ .decoded → fails { cause := .stage, index := c2 }) ∧
        ((u.ch c1).stage = .decoded → (u.ch c2).stage = .decoded →
          (∀ e, chkCfg params u c1 = .error (.raise e) → fails e) ∧
          (CfgOk u c1 → ∀ e, chkCfg params u c2 = .error (.raise e) → fails e) ∧
          (CfgOk u c1 → CfgOk u c2 →
            (u.short c1 ≠ u.short c2 → fails { cause := .windowMismatch, index := i }) ∧
            (u.short c1 = u.short c2 →
              (icsIgfEn (u.ch c1).ics = true → icsIgfEn (u.ch c2).ics = true →
                fails { cause := .igfTiles, index := i }) ∧
              (icsIgfEn (u.ch c1).ics = false ∨ icsIgfEn (u.ch c2).ics = false →
                (boxFlagged ctrl = true → 64 < boxNumBands ctrl →
                  fails { cause := .maskWidth, index := i, band := boxNumBands ctrl }) ∧
                ((boxFlagged ctrl = true → boxNumBands ctrl ≤ 64) →
                  (boxDeltaTime ctrl = true → u.prevMode ≠ .none → u.prevMode ≠ PrevMode.ofMode mode →
                    fails { cause := .dtMode, index := i }) ∧
                  ((boxDeltaTime ctrl = true → u.prevMode = .none ∨ u.prevMode = PrevMode.ofMode mode) →
                    (∀ j < coded.length, (if mode then 65 else 121) ≤ (u.box i).symAt j →
                      (∀ j' < j, (u.box i).symAt j' < if mode then 65 else 121) →
                      fails { cause := .symRange, index := i, band := j }) ∧
                    ((∀ j < coded.length, (u.box i).symAt j < if mode then 65 else 121) → mode = true →
                      ∀ j b, coded[j]? = some b →
                        64 ≤ (predictor params u i true (u.short c1) b + ((u.box i).symAt j : Int)) % 65 →
                        (∀ j' b', j' < j → coded[j']? = some b' →
                          (predictor params u i true (u.short c1) b' + ((u.box i).symAt j' : Int)) % 65 < 64) →
                        fails { cause := .angleRange, index := i, band := b })))))))))

/-- MCT_APPLY (R320, R325, R330) completes when every latched box passes its re-check and what it reads is written: the
boxes act one after another in index order, each on what the earlier ones left, MCT_STATE is ROTATION_APPLIED, and
nothing else changes. A box acts on the bands of R320 in window and band order, with the lane functions of R216 and
R217. -/
def Obligations.MctApplyRunsTheBoxesInOrder : Prop :=
  (∀ s : State, s.mctState = .boxesParsed → (∀ i < ctlNumBoxes s.lCtrl, BoxReady s i) →
    ∃ (t : State) (f : Nat → State), exec .mctApply s = .next t ∧ f 0 = s ∧
      (∀ i < ctlNumBoxes s.lCtrl, BoxApplied (f i) i (f (i + 1))) ∧
      t = { f (ctlNumBoxes s.lCtrl) with mctState := .rotationApplied, pending := none, done := true }) ∧
  (∀ (s : State) (i : Nat), let l := s.latch i
    (boxBands s i).Pairwise (fun x y => x.1 < y.1 ∨ (x.1 = y.1 ∧ x.2 < y.2)) ∧
    ∀ w b, (w, b) ∈ boxBands s i ↔ w < (if l.sh then 8 else 1) ∧ b < max (s.maxSfb l.c1) (s.maxSfb l.c2) ∧
      ((l.ctrl.getLsbD 8 = false ∧ l.ctrl.getLsbD 9 = false) ∨
        (b < l.width ∧ (l.ctrl.getLsbD 8 = false ∨ l.mask.getLsbD b = true)))) ∧
  ∀ (s : State) (i b : Nat) (x y : Int), let l := s.latch i
    let v : Word := ((s.box i).coef[if l.ctrl.getLsbD 9 then b else 0]?).getD 0
    let r := params.rotTable v.toNat
    let side : Int := y + (if l.ctrl.getLsbD 10 then -1 else 1) * (params.alphaTable v.toInt * x / 2 ^ 28)
    s.coefAt i b = v ∧
    (s.lCtrl.getLsbD 2 = true →
      laneOf params s i b x y = ((r.1 * x - r.2 * y) / 2 ^ 30, (r.2 * x + r.1 * y) / 2 ^ 30)) ∧
    (s.lCtrl.getLsbD 2 = false → laneOf params s i b x y = (x + side, x - side))

/-- The re-check of MCT_APPLY (R325): the first box that fails it, and its first failing check, is the error. -/
def Obligations.MctApplyRechecksTheBoxes : Prop :=
  ∀ (s : State) (i : Nat), s.mctState = .boxesParsed → i < ctlNumBoxes s.lCtrl →
    (∀ j < i, recheckBox params s j = .ok ()) →
    let c1 := (s.latch i).c1
    let c2 := (s.latch i).c2
    let fails := fun e : Err => exec .mctApply s = .next (s.raise e)
    ((s.ch c1).stage ≠ .decoded → fails { cause := .stage, index := c1 }) ∧
    ((s.ch c1).stage = .decoded → (s.ch c2).stage ≠ .decoded → fails { cause := .stage, index := c2 }) ∧
    ((s.ch c1).stage = .decoded → (s.ch c2).stage = .decoded →
      (∀ e, chkCfg params s c1 = .error (.raise e) → fails e) ∧
      (CfgOk s c1 → ∀ e, chkCfg params s c2 = .error (.raise e) → fails e) ∧
      (CfgOk s c1 → CfgOk s c2 → (s.short c1 ≠ (s.latch i).sh ∨ s.short c2 ≠ (s.latch i).sh) →
        fails { cause := .windowMismatch, index := i }))

/-- MCT_CLOSE with ok = 0, or while ERR = 1, completes in every MCT_STATE: the saved spectra of every channel become 0,
MCT_STATE IDLE, ERR and ERR_CODE 0, and nothing else changes (R340, R342). -/
def Obligations.MctCloseFailureClearsTheSpectra : Prop :=
  ∀ (s : State) (ok : Bool), ok = false ∨ s.err = true →
    ∃ t, exec (.mctClose ok) s = .next t ∧
      t = { s with mem := t.mem, mctState := .idle, err := false, errCode := 0, pending := none, done := true } ∧
      (∀ c < 16, ∀ a, inSaved c a → readByte t.mem a = some 0) ∧
      ∀ a, (∀ c < 16, ¬ inSaved c a) → readByte t.mem a = readByte s.mem a

/-- MCT_CLOSE 1 of a good frame (R340, R341): each box's COEF becomes its history, each participating channel's spectrum
is saved, PREV_MODE and MCT_STATE move on, ERR and ERR_CODE are 0, and nothing else changes. -/
def Obligations.MctCloseCommitsTheFrame : Prop :=
  ∀ s : State, s.err = false → s.mctState = .rotationApplied →
    let inFrame := fun c : Nat => ∃ i < ctlNumBoxes s.lCtrl, (s.latch i).c1 = c ∨ (s.latch i).c2 = c
    (∀ c < 16, inFrame c → (∀ k < 1024, wordMarked s.mem .mant c k) ∧ ∀ j < 512, byteMarked s.mem .exp c j) →
    ∃ t, exec (.mctClose true) s = .next t ∧
      t = { s with boxes := t.boxes, chans := t.chans, mem := t.mem, mctState := .saved, err := false, errCode := 0,
                   prevMode := if ctlMode s.lCtrl then .angle else .alpha, pending := none, done := true } ∧
      (∀ i < 16, i < ctlNumBoxes s.lCtrl → t.box i = { s.box i with
        hist := (s.box i).coef, prevPair := BitVec.ofNat 8 (s.latch i).pair, prevPairValid := true,
        prevBoxShort := (s.latch i).sh, histValid := true }) ∧
      (∀ i < 16, ctlNumBoxes s.lCtrl ≤ i → t.box i = { s.box i with prevPairValid := false, histValid := false }) ∧
      (∀ c < 16, inFrame c →
        t.ch c = { s.ch c with prevShort := s.short c, prevPath := icsPath (s.ch c).ics } ∧
        (∀ k < 1024, readWord t.mem (cellAddr .pmant c k) = readWord s.mem (cellAddr .mant c k)) ∧
        ∀ j < 512, readByte t.mem (cellAddr .pexp c j) = readByte s.mem (cellAddr .exp c j)) ∧
      (∀ c < 16, ¬ inFrame c → t.ch c = s.ch c) ∧
      ∀ a, (∀ c < 16, inFrame c → ¬ inSaved c a) → readByte t.mem a = readByte s.mem a

/-! ### Numerics -/

/-- Alignment (R205): a floor shift by the exponent difference, capped at 31, where a 32-bit mantissa gives 0 or -1. -/
def Obligations.AlignmentIsAFloorShiftCappedAt31 : Prop :=
  ∀ m e E : Int, e ≤ E →
    (E - e ≤ 31 → align params m e E = m / 2 ^ (E - e).toNat) ∧ (31 ≤ E - e → align params m e E = m / 2 ^ 31) ∧
    (31 ≤ E - e → 0 ≤ m → m < 2 ^ 31 → align params m e E = 0) ∧
    (31 ≤ E - e → -2 ^ 31 ≤ m → m < 0 → align params m e E = -1)

/-- Renormalisation (R212): an all-zero result keeps the old exponent; otherwise the shift is the least that fits 32
bits, with saturation and OVF above exponent 127 and a further shift below -128. -/
def Obligations.RenormalisationUsesTheLeastShift : Prop :=
  ∀ (xs : List Int) (e0 eold : Int),
    ((∀ x ∈ xs, x = 0) → renorm xs e0 eold = (⟨xs, eold⟩, false)) ∧
    ((∃ x ∈ xs, x ≠ 0) → ∃ n : Nat, (∀ x ∈ xs, -2 ^ 31 ≤ x / 2 ^ n ∧ x / 2 ^ n ≤ 2 ^ 31 - 1) ∧
      (∀ m < n, ∃ x ∈ xs, ¬ (-2 ^ 31 ≤ x / 2 ^ m ∧ x / 2 ^ m ≤ 2 ^ 31 - 1)) ∧
      (127 < e0 + n → e0 ≤ 127 → renorm xs e0 eold =
        (⟨xs.map (fun x => min (max (x / 2 ^ (127 - e0).toNat) (-2 ^ 31)) (2 ^ 31 - 1)), 127⟩, true)) ∧
      (127 < e0 → renorm xs e0 eold =
        (⟨xs.map (fun x => min (max (x * 2 ^ (e0 - 127).toNat) (-2 ^ 31)) (2 ^ 31 - 1)), 127⟩, true)) ∧
      (e0 + n < -128 → renorm xs e0 eold = (⟨xs.map (fun x => x / 2 ^ (-128 - e0).toNat), -128⟩, false)) ∧
      (-128 ≤ e0 + n → e0 + n ≤ 127 → renorm xs e0 eold = (⟨xs.map (fun x => x / 2 ^ n), e0 + n⟩, false)))

/-- OP2 (R214), ADD1 (R218) and a half-sum (R219) renormalise their lanes at the shared exponent of R206, and leave bands
that are all 0. They set OVF (R44, R212) exactly when one of their renormalisations saturates, and a command that uses
none of them leaves it. -/
def Obligations.OvfRisesOnlyWithASaturation : Prop :=
  (∀ (xs : List Int) (e0 eold : Int), (renorm xs e0 eold).2 = true ↔ Saturates xs e0) ∧
  (∀ m s : Int, laneMs m s = (m + s, m - s)) ∧
  (∀ (f : Int → Int → Int × Int) (x y : Band), (x.isZero ∧ y.isZero → pairAfter f x y = (x, y)) ∧
    (¬ (x.isZero ∧ y.isZero) → pairAfter f x y =
      ((renorm ((pairLanes f x y).map (·.1)) (sharedExp x y) x.exp).1,
        (renorm ((pairLanes f x y).map (·.2)) (sharedExp x y) y.exp).1))) ∧
  (∀ (x : Band) (z : List Int) (ez : Int), (x.isZero ∧ (∀ v ∈ z, v = 0) → addAfter x z ez = x) ∧
    (¬ (x.isZero ∧ ∀ v ∈ z, v = 0) →
      addAfter x z ez = (renorm (sumLanes x ⟨z, ez⟩) (sharedExp x ⟨z, ez⟩) x.exp).1)) ∧
  (∀ x y : Band, (x.isZero ∧ y.isZero → (halfSum params x y).1 = ⟨x.mant.map (fun _ => 0), 0⟩) ∧
    (¬ (x.isZero ∧ y.isZero) → (halfSum params x y).1 = (renorm (sumLanes x y) (sharedExp x y - 1) 0).1)) ∧
  (∀ (s t : State) (f : Int → Int → Int × Int) (c1 c2 w b : Nat) (x y : Band), s.band params c1 w b = .ok x →
    s.band params c2 w b = .ok y →
    (s.op2At params f c1 c2 w b = .ok t → (t.ovf = true ↔ s.ovf = true ∨ PairSaturates f x y)) ∧
      (dmxBand params c1 c2 s (w, b) = .ok t → (t.ovf = true ↔ s.ovf = true ∨ HalfSaturates x y))) ∧
  (∀ (s t : State) (c w b : Nat) (x : Band) (z : List Int) (ez : Int), s.band params c w b = .ok x →
    s.add1At params c w b z ez = .ok t → (t.ovf = true ↔ s.ovf = true ∨ AddSaturates x z ez)) ∧
  ∀ (i : Instr) (s t : State), exec i s = .next t → (∀ c, i ≠ .noiseFill c) → (∀ c1 c2, i ≠ .msApply c1 c2 true) →
    i ≠ .mctApply → t.ovf = s.ovf

/-- setband then band gives the band back, and no other band or byte changes; band is the mantissas of the band's lines
and its exponent (R202). The lines, windows, groups and tables are those of R17, R50, R56 and R253. -/
def Obligations.StoredBandReadsBack : Prop :=
  (∀ (s : State) (c w b : Nat) (x : Band), c < 16 → w < 8 → b < 64 →
    s.lineLo params c w b + s.bandWidth c b ≤ 1024 → x.mant.length = s.bandWidth c b →
    (∀ m ∈ x.mant, -2 ^ 31 ≤ m ∧ m < 2 ^ 31) → -128 ≤ x.exp → x.exp ≤ 127 →
    (s.setBand params c w b x).band params c w b = .ok x ∧
      ∀ a, ¬ inCells .mant c (s.lineLo params c w b) (s.bandWidth c b) a → ¬ inCells .exp c (w * 64 + b) 1 a →
        readByte (s.setBand params c w b x).mem a = readByte s.mem a) ∧
  (∀ (s : State) (c w b : Nat) (x : Band), s.band params c w b = .ok x ↔ x.mant.length = s.bandWidth c b ∧
    (∀ k < s.bandWidth c b, ∃ v, readWord s.mem (cellAddr .mant c (s.lineLo params c w b + k)) = some v ∧
      x.mant[k]? = some v.toInt) ∧
    ∃ e, readByte s.mem (cellAddr .exp c (w * 64 + b)) = some e ∧ x.exp = e.toInt) ∧
  (∀ (P : Params) (s : State) (c w b : Nat), (s.short c = true ↔ (s.ch c).ics.extractLsb' 0 2 = 2) ∧
    s.nwin c = (if s.short c then 8 else 1) ∧ s.wlen P c = (if s.short c then P.nLong / 8 else P.nLong) ∧
    s.off c b = (((if s.short c then s.sfbOffShort else s.sfbOffLong)[b]?).getD 0).toNat ∧
    s.nsfbOf c = (if s.short c then s.nsfb.toNat / 2 ^ 8 else s.nsfb.toNat) % 2 ^ 7 ∧
    s.nfStartOf c = (if s.short c then s.nfStart.toNat / 2 ^ 16 else s.nfStart.toNat) % 2 ^ 11 ∧
    s.lineLo P c w b = w * s.wlen P c + s.off c b ∧ s.bandWidth c b = s.off c (b + 1) - s.off c b ∧
    s.gl c w = (s.ch c).groupLen.toNat / 16 ^ w % 16) ∧
  (∀ (s : State) (c : Nat), CfgOk s c → ∀ w < s.nwin c, s.grp c w < s.ng c ∧
    ((List.range (s.grp c w)).map (s.gl c)).sum ≤ w ∧ w < ((List.range (s.grp c w + 1)).map (s.gl c)).sum) ∧
  (∀ (s : State) (c g : Nat), (s.wins c g).Pairwise (· < ·) ∧ ∀ w, w ∈ s.wins c g ↔ w < s.nwin c ∧ s.grp c w = g) ∧
  ∀ cb : BitVec 4, params.transmitted cb = true ↔ 1 ≤ cb.toNat ∧ cb.toNat ≤ 11

/-- The default inverse quantiser (R220): the exponent and fraction of a scale factor, and the mantissa as the floored
twelfth root with the sign of q, which fits 32 bits for every legal q. -/
def Obligations.InverseQuantiserKernel : Prop :=
  (∀ sf : Byte, 4 * (((params.iqExp sf).1.toInt) - 19) + ((params.iqExp sf).2.toNat : Int) = (sf.toNat : Int) - 100 ∧
    -6 ≤ (params.iqExp sf).1.toInt ∧ (params.iqExp sf).1.toInt ≤ 57) ∧
  ∀ (q : Word) (r : BitVec 2), q.toInt.natAbs ≤ 8191 → ∃ y : Nat,
    y ^ 12 ≤ q.toInt.natAbs ^ 16 * 2 ^ (3 * r.toNat + 144) ∧ q.toInt.natAbs ^ 16 * 2 ^ (3 * r.toNat + 144) < (y + 1) ^ 12 ∧
    y < 2 ^ 31 ∧ (params.iqMant q r).toInt = q.toInt.sign * y

/-- The default noise kernel (R221) for a level of 1 to 7: the exponent and the root of the noise amplitude; the noise
generator (R222) and the lines it signs (R280); and the alpha table, rounded with ties up (R227). -/
def Obligations.NoiseKernelAmplitude : Prop :=
  (∀ (nl : BitVec 3) (off : BitVec 5) (sf : Byte), nl ≠ 0 →
    let t : Int := 4 * ((nl.toNat : Int) - 14) + 3 * ((sf.toNat : Int) + off.toNat - 16 - 100)
    let k := params.noiseKernel nl off sf
    k.2.toInt = t / 12 + 1 ∧ k.1.toNat ^ 12 ≤ 2 ^ ((t % 12).toNat + 360) ∧
      2 ^ ((t % 12).toNat + 360) < (k.1.toNat + 1) ^ 12 ∧ 2 ^ 30 ≤ k.1.toNat ∧ k.1.toNat < 2 ^ 31 ∧ 0 < k.1.toInt) ∧
  (∀ seed : Word, (params.noiseRng seed).2.toNat = (seed.toNat * 1664525 + 1013904223) % 2 ^ 32 ∧
    ((params.noiseRng seed).1 = true ↔ 2 ^ 31 ≤ (params.noiseRng seed).2.toNat)) ∧
  (∀ (nm : Int) (n : Nat) (seed : Word), (noiseLines params nm n seed).1.length = n ∧
    (noiseLines params nm n seed).2 = seedAfter n seed ∧ ∀ j < n, (noiseLines params nm n seed).1[j]? =
      some (if 2 ^ 31 ≤ (seedAfter (j + 1) seed).toNat then -nm else nm)) ∧
  ∀ v : Int, 10 * params.alphaTable v ≤ v * 2 ^ 28 + 5 ∧ v * 2 ^ 28 + 5 < 10 * (params.alphaTable v + 1)

/-- The stereo-filling gain (R230, R231), on exact rationals: 0 without energy or room, else the largest integer up to
the cap that keeps the band's energy within its target; the downmix it scales, and what is added. In every build whose
SFILL_GAIN_FRAC is the 16 that R230 writes (log 23). -/
def Obligations.StereoFillingGainIsTheLargestThatFits : Prop :=
  (∀ (P : Params) (d m : List Int) (ep er : Int) (sf : Byte), P.sfillGainFrac = 16 →
    -128 ≤ ep → ep ≤ 127 → -128 ≤ er → er ≤ 127 →
    let eDmx : ℚ := ((d.map (fun x => x * x)).sum : ℤ) * (2 : ℚ) ^ (2 * (ep - 31))
    let eRes : ℚ := ((m.map (fun x => x * x)).sum : ℤ) * (2 : ℚ) ^ (2 * (er - 31))
    let t2 : ℚ := (m.length : ℚ) ^ 2 * (2 : ℚ) ^ ((sf.toNat : ℤ) - P.sfOffset)
    let cap := P.sfillGainCap * 2 ^ 16
    let g := sfillGain P d ep m er sf
    (eDmx = 0 ∨ t2 ≤ eRes ^ 2 → g = 0) ∧
    (eDmx ≠ 0 → eRes ^ 2 < t2 → g ≤ cap ∧ ((g : ℚ) ^ 2 * eDmx + 2 ^ 32 * eRes) ^ 2 ≤ 2 ^ 64 * t2 ∧
      ∀ g' : Nat, g' ≤ cap → ((g' : ℚ) ^ 2 * eDmx + 2 ^ 32 * eRes) ^ 2 ≤ 2 ^ 64 * t2 → g' ≤ g)) ∧
  params.sfillGainFrac = 16 ∧ params.sfOffset = 100 ∧ params.sfillGainCap = 10 ∧
  (∀ (P : Params) (cs sn : Int) (p q : Band) (e : Int), downmix P cs sn p q e =
    List.zipWith (fun a b => (cs * align P a p.exp e + sn * align P b q.exp e) / 2 ^ 30) p.mant q.mant) ∧
  ∀ (P : Params) (g : Nat) (d : List Int), P.sfillGainFrac = 16 →
    sfillAdd P g d = d.map (fun x => (g : Int) * x / 2 ^ 16)

/-- The pair list (R307, R308): n(n-1)/2 entries, with (p1, p2) at index p1*(2n - p1 - 1)/2 + (p2 - p1 - 1). -/
def Obligations.PairListClosedForm : Prop :=
  ∀ n : Nat, (pairs n).length = n * (n - 1) / 2 ∧
    (∀ p1 p2, p1 < p2 → p2 < n → (pairs n)[p1 * (2 * n - p1 - 1) / 2 + (p2 - p1 - 1)]? = some (p1, p2)) ∧
    ∀ p ∈ pairs n, p.1 < p.2 ∧ p.2 < n

/-! ### Invariants that every step keeps -/

/-- Every step keeps the canonical form of the memory (the model's own, log 12). -/
def Obligations.StepKeepsMemoryCanonical : Prop :=
  ∀ s t : State, s.mem.wf → step s = .next t → t.mem.wf

/-- Every step keeps the written-marks that a stage stands for (R451). -/
def Obligations.StepKeepsMarksWithStage : Prop :=
  ∀ s t : State, MarksFollowStage s → step s = .next t → MarksFollowStage t

/-- Every step keeps the latch of an open frame in range, and every angle coefficient and angle history in 0..63
(R96, R204). -/
def Obligations.StepKeepsAnglesInRange : Prop :=
  ∀ s t : State, AngleInv s → step s = .next t → AngleInv t

/-- Every step keeps ERR_CODE 0 while ERR = 0 and naming an error while ERR = 1 (R45, R402). -/
def Obligations.StepKeepsErrCodeWithErr : Prop :=
  ∀ s t : State, ErrCodeFollowsErr s → step s = .next t → ErrCodeFollowsErr t

/-- Every step keeps the reserved bits of the writable registers 0 (R133, R134). -/
def Obligations.StepKeepsReservedBitsZero : Prop :=
  ∀ s t : State, ReservedBitsZero s → step s = .next t → ReservedBitsZero t

/-- The state after reset has every invariant that a step keeps. -/
def Obligations.ResetHasTheInvariants : Prop :=
  State.reset.mem.wf ∧ MarksFollowStage State.reset ∧ AngleInv State.reset ∧ ErrCodeFollowsErr State.reset ∧
    ReservedBitsZero State.reset
end

