-- ==== Sys2Proof/Laws/Memory.lean ====
section
/-! SUPPORT. The laws of the memory list: a splice writes exactly its range, every read outside it is unchanged, and
the canonical form is kept. No read law needs the canonical form. -/

namespace Sys2Proof.Machine

/-! ### Dropping entries below an address -/

theorem dropBelow_cons (a : Nat) (x : Host.Cell) (m : Memory) :
    dropBelow a (x :: m) = if x.1 < a then dropBelow a m else x :: m := by
  by_cases h : x.1 < a <;> simp [dropBelow, h]

@[simp] theorem dropBelow_nil (a : Nat) : dropBelow a [] = [] := rfl

theorem dropBelow_dropBelow {a b : Nat} (h : a ≤ b) (m : Memory) : dropBelow b (dropBelow a m) = dropBelow b m := by
  induction m with
  | nil => rfl
  | cons x m ih =>
    rw [dropBelow_cons a]
    split
    · rw [ih, dropBelow_cons b, if_pos (by omega)]
    · rfl

/-- The first entry left is at or above the address. -/
theorem le_of_dropBelow_eq_cons {a : Nat} {m m' : Memory} {x : Host.Cell} (h : dropBelow a m = x :: m') : a ≤ x.1 := by
  induction m with
  | nil => simp at h
  | cons y m ih =>
    rw [dropBelow_cons] at h
    split at h
    · exact ih h
    · cases h; omega

/-- Reading at or above `a` is not changed by dropping what lies below `a`. -/
@[simp] theorem readByte_dropBelow {a b : Nat} (h : a ≤ b) (m : Memory) : readByte (dropBelow a m) b = readByte m b := by
  simp only [readByte, dropBelow_dropBelow h]

theorem readWord_dropBelow {a b : Nat} (h : a ≤ b) (m : Memory) : readWord (dropBelow a m) b = readWord m b := by
  simp only [readWord, readByte_dropBelow h, readByte_dropBelow (show a ≤ b + 1 by omega),
    readByte_dropBelow (show a ≤ b + 2 by omega), readByte_dropBelow (show a ≤ b + 3 by omega)]

@[simp] theorem readByte_nil (a : Nat) : readByte [] a = unlisted a := rfl

/-- An entry's own address reads as the entry when nothing below the address precedes it. -/
theorem readByte_cons (x : Host.Cell) (m : Memory) (a : Nat) :
    readByte (x :: m) a = if x.1 < a then readByte m a else if x.1 = a then some x.2 else unlisted a := by
  by_cases h : x.1 < a <;> simp [readByte, dropBelow_cons, h]

/-- A list whose entries all lie above `a` says nothing about `a`. -/
theorem readByte_of_all_gt {m : Memory} {a : Nat} (h : ∀ x ∈ m, a < x.1) : readByte m a = unlisted a := by
  cases m with
  | nil => rfl
  | cons x m =>
    have := h x (by simp)
    rw [readByte_cons, if_neg (by omega), if_neg (by omega)]

/-- Entries below `a` at the front do not matter to `a`. -/
theorem readByte_append_of_all_lt {l m : Memory} {a : Nat} (h : ∀ x ∈ l, x.1 < a) :
    readByte (l ++ m) a = readByte m a := by
  induction l with
  | nil => rfl
  | cons x l ih =>
    rw [List.cons_append, readByte_cons, if_pos (h x (by simp)), ih (fun y hy => h y (by simp [hy]))]

/-! ### Splice -/

theorem lt_of_mem_takeWhile {lo : Nat} {m : Memory} {x : Host.Cell}
    (h : x ∈ m.takeWhile (fun y => decide (y.1 < lo))) : x.1 < lo := by
  simpa using List.mem_takeWhile_imp h

/-- What a splice replaces does not reach below its range. -/
theorem readByte_takeWhile_append {m r : Memory} {lo a : Nat} (ha : a < lo) (hr : ∀ x ∈ r, lo ≤ x.1) :
    readByte (m.takeWhile (fun x => decide (x.1 < lo)) ++ r) a = readByte m a := by
  induction m with
  | nil =>
    simp only [List.takeWhile_nil, List.nil_append]
    rw [readByte_of_all_gt (fun x hx => Nat.lt_of_lt_of_le ha (hr x hx))]; rfl
  | cons y m ih =>
    by_cases hy : y.1 < lo
    · rw [List.takeWhile_cons_of_pos (by simpa using hy), List.cons_append, readByte_cons, readByte_cons, ih]
    · rw [List.takeWhile_cons_of_neg (by simpa using hy), List.nil_append,
        readByte_of_all_gt (fun x hx => Nat.lt_of_lt_of_le ha (hr x hx)), readByte_cons, if_neg (by omega), if_neg (by omega)]

/-- The first entry of what is left above `hi`, as a bound on reads below it: only the head matters. -/
theorem readByte_dropBelow_of_lt {m : Memory} {hi a : Nat} (h : a < hi) : readByte (dropBelow hi m) a = unlisted a := by
  cases hm : dropBelow hi m with
  | nil => rfl
  | cons x m' =>
    have := le_of_dropBelow_eq_cons hm
    rw [readByte_cons, if_neg (by omega), if_neg (by omega)]

theorem readByte_append_dropBelow_of_lt {l m : Memory} {hi a : Nat} (h : a < hi) :
    readByte (l ++ dropBelow hi m) a = readByte l a := by
  induction l with
  | nil => simp [readByte_dropBelow_of_lt h]
  | cons x l ih => rw [List.cons_append, readByte_cons, readByte_cons, ih]

/-- Dropping the entries that say what an unlisted byte says changes no read. -/
theorem readByte_filter_default (l : List Host.Cell) (hs : l.Pairwise (fun x y => x.1 < y.1)) (a : Nat) :
    readByte (l.filter (fun x => decide (unlisted x.1 ≠ some x.2))) a = readByte l a := by
  induction l with
  | nil => rfl
  | cons x l ih =>
    rw [List.pairwise_cons] at hs
    by_cases hx : unlisted x.1 ≠ some x.2
    · rw [List.filter_cons_of_pos (by simpa using hx), readByte_cons, readByte_cons, ih hs.2]
    · rw [List.filter_cons_of_neg (by simpa using hx), ih hs.2, readByte_cons]
      split
      · rfl
      · have hgt : ∀ y ∈ l, a < y.1 := fun y hy => by have := hs.1 y hy; omega
        rw [readByte_of_all_gt hgt]
        split
        · rename_i h; rw [← h]; simpa using hx
        · rfl

/-- Below its range a splice changes nothing. -/
theorem readByte_splice_below {m : Memory} {lo hi : Nat} {cells : List Host.Cell} {a : Nat}
    (hc : ∀ x ∈ cells, lo ≤ x.1 ∧ x.1 < hi) (hlh : lo ≤ hi) (ha : a < lo) :
    readByte (splice m lo hi cells) a = readByte m a := by
  unfold splice
  rw [← List.append_assoc, readByte_append_dropBelow_of_lt (by omega : a < hi)]
  exact readByte_takeWhile_append ha (fun x hx => (hc x (List.mem_of_mem_filter hx)).1)

/-- Above its range a splice changes nothing. -/
theorem readByte_splice_above {m : Memory} {lo hi : Nat} {cells : List Host.Cell} {a : Nat}
    (hc : ∀ x ∈ cells, lo ≤ x.1 ∧ x.1 < hi) (hlh : lo ≤ hi) (ha : hi ≤ a) :
    readByte (splice m lo hi cells) a = readByte m a := by
  unfold splice
  rw [readByte_append_of_all_lt (fun x hx => by have := lt_of_mem_takeWhile hx; omega),
    readByte_append_of_all_lt (fun x hx => by have := hc x (List.mem_of_mem_filter hx); omega), readByte_dropBelow ha]

/-- Inside its range a splice reads as its cells alone. -/
theorem readByte_splice_inside {m : Memory} {lo hi : Nat} {cells : List Host.Cell} {a : Nat}
    (hs : cells.Pairwise (fun x y => x.1 < y.1)) (hlo : lo ≤ a) (hhi : a < hi) :
    readByte (splice m lo hi cells) a = readByte cells a := by
  unfold splice
  rw [readByte_append_of_all_lt (fun x hx => by have := lt_of_mem_takeWhile hx; omega),
    readByte_append_dropBelow_of_lt hhi, readByte_filter_default cells hs]

/-- Outside its range a splice changes nothing. -/
theorem readByte_splice_outside {m : Memory} {lo hi : Nat} {cells : List Host.Cell} {a : Nat}
    (hc : ∀ x ∈ cells, lo ≤ x.1 ∧ x.1 < hi) (hlh : lo ≤ hi) (ha : a < lo ∨ hi ≤ a) :
    readByte (splice m lo hi cells) a = readByte m a :=
  ha.elim (readByte_splice_below hc hlh) (readByte_splice_above hc hlh)

theorem dropBelow_sublist (a : Nat) (m : Memory) : (dropBelow a m).Sublist m := List.dropWhile_sublist _

/-- A splice of rising cells inside its range keeps the canonical form. -/
theorem splice_wf {m : Memory} {lo hi : Nat} {cells : List Host.Cell} (hm : m.wf)
    (hs : cells.Pairwise (fun x y => x.1 < y.1)) (hc : ∀ x ∈ cells, lo ≤ x.1 ∧ x.1 < hi) (hlh : lo ≤ hi) :
    (splice m lo hi cells).wf := by
  obtain ⟨hp, hd⟩ := hm
  have htake : ∀ x ∈ m.takeWhile (fun y => decide (y.1 < lo)), x.1 < lo := fun x => lt_of_mem_takeWhile
  have hdrop : ∀ x ∈ dropBelow hi m, hi ≤ x.1 := by
    cases hdm : dropBelow hi m with
    | nil => simp
    | cons y m' =>
      have hy := le_of_dropBelow_eq_cons hdm
      have hp' : (y :: m').Pairwise (fun x y => x.1 < y.1) := hdm ▸ hp.sublist (dropBelow_sublist hi m)
      intro x hx
      rcases List.mem_cons.1 hx with rfl | hx
      · exact hy
      · have := (List.pairwise_cons.1 hp').1 x hx; omega
  refine ⟨?_, ?_⟩
  · unfold splice
    rw [List.pairwise_append, List.pairwise_append]
    refine ⟨hp.sublist (List.takeWhile_sublist _), ⟨hs.sublist List.filter_sublist,
      hp.sublist (dropBelow_sublist hi m), ?_⟩, ?_⟩
    · intro x hx y hy
      have := hc x (List.mem_of_mem_filter hx); have := hdrop y hy; omega
    · intro x hx y hy
      have := htake x hx
      rcases List.mem_append.1 hy with hy | hy
      · have := hc y (List.mem_of_mem_filter hy); omega
      · have := hdrop y hy; omega
  · intro x hx
    unfold splice at hx
    rcases List.mem_append.1 hx with hx | hx
    · exact hd x ((List.takeWhile_sublist _).subset hx)
    · rcases List.mem_append.1 hx with hx | hx
      · simpa using (List.mem_filter.1 hx).2
      · exact hd x ((dropBelow_sublist hi m).subset hx)

/-! ### Cells of words and bytes -/

theorem wordCells_range (a : Nat) (ws : List Word) :
    ∀ x ∈ wordCells a ws, a ≤ x.1 ∧ x.1 < a + 4 * ws.length := by
  induction ws generalizing a with
  | nil => simp [wordCells]
  | cons w ws ih =>
    intro x hx
    simp only [wordCells, List.mem_cons, List.length_cons] at hx ⊢
    rcases hx with rfl | rfl | rfl | rfl | hx
    · exact ⟨by simp, by simp⟩
    · exact ⟨by simp, by simp; omega⟩
    · exact ⟨by simp, by simp; omega⟩
    · exact ⟨by simp, by simp; omega⟩
    · have := ih (a + 4) x hx; omega

theorem wordCells_rising (a : Nat) (ws : List Word) : (wordCells a ws).Pairwise (fun x y => x.1 < y.1) := by
  induction ws generalizing a with
  | nil => simp [wordCells]
  | cons w ws ih =>
    have hr := wordCells_range (a + 4) ws
    have h1 : ∀ k, k < 4 → ∀ x ∈ wordCells (a + 4) ws, a + k < x.1 := fun k hk x hx => by
      have := hr x hx; omega
    simp only [wordCells, List.pairwise_cons, List.mem_cons, forall_eq_or_imp]
    exact ⟨⟨by omega, by omega, by omega, h1 0 (by omega)⟩, ⟨by omega, by omega, h1 1 (by omega)⟩,
      ⟨by omega, h1 2 (by omega)⟩, h1 3 (by omega), ih (a + 4)⟩

theorem byteCells_range (a : Nat) (bs : List Byte) :
    ∀ x ∈ byteCells a bs, a ≤ x.1 ∧ x.1 < a + 4 * bs.length := by
  induction bs generalizing a with
  | nil => simp [byteCells]
  | cons b bs ih =>
    intro x hx
    simp only [byteCells, List.mem_cons, List.length_cons] at hx ⊢
    rcases hx with rfl | hx
    · exact ⟨by simp, by simp⟩
    · have := ih (a + 4) x hx; omega

theorem byteCells_rising (a : Nat) (bs : List Byte) : (byteCells a bs).Pairwise (fun x y => x.1 < y.1) := by
  induction bs generalizing a with
  | nil => simp [byteCells]
  | cons b bs ih =>
    simp only [byteCells, List.pairwise_cons]
    exact ⟨fun x hx => by have := byteCells_range (a + 4) bs x hx; show a < x.1; omega, ih (a + 4)⟩

/-- The word k of the stored words reads back. -/
theorem readWord_wordCells (a : Nat) (ws : List Word) (k : Nat) (hk : k < ws.length) :
    readWord (wordCells a ws) (a + 4 * k) = some ws[k] := by
  induction ws generalizing a k with
  | nil => simp at hk
  | cons w ws ih =>
    cases k with
    | zero =>
      have hb : ((w.extractLsb' 24 8 : BitVec 8) ++ (w.extractLsb' 16 8 : BitVec 8) ++ (w.extractLsb' 8 8 : BitVec 8) ++
          (w.extractLsb' 0 8 : BitVec 8) : BitVec 32) = w := by
        ext i hi
        simp only [BitVec.getElem_append, BitVec.getElem_extractLsb']
        split <;> [skip; split <;> [skip; split]] <;> simp only [← BitVec.getLsbD_eq_getElem] <;> congr 1 <;> omega
      simp only [readWord, wordCells, readByte_cons, Nat.mul_zero, Nat.add_zero, List.getElem_cons_zero]
      simp [hb]
    | succ k =>
      have hskip : ∀ j, j < 4 → readByte (wordCells a (w :: ws)) (a + 4 * (k + 1) + j) =
          readByte (wordCells (a + 4) ws) (a + 4 + 4 * k + j) := fun j hj => by
        have e : a + 4 * (k + 1) + j = a + 4 + 4 * k + j := by omega
        rw [e]
        simp only [wordCells, readByte_cons]
        rw [if_pos (by omega), if_pos (by omega), if_pos (by omega), if_pos (by omega)]
      have h0 := hskip 0 (by omega); have h1 := hskip 1 (by omega)
      have h2 := hskip 2 (by omega); have h3 := hskip 3 (by omega)
      have := ih (a + 4) k (by simpa using hk)
      simp only [readWord, Nat.add_zero] at h0 this ⊢
      rw [h0, h1, h2, h3, this]; rfl

/-- The byte cell k of the stored bytes reads back. -/
theorem readByte_byteCells (a : Nat) (bs : List Byte) (k : Nat) (hk : k < bs.length) :
    readByte (byteCells a bs) (a + 4 * k) = some bs[k] := by
  induction bs generalizing a k with
  | nil => simp at hk
  | cons b bs ih =>
    rw [byteCells, readByte_cons]
    cases k with
    | zero => simp
    | succ k =>
      have := ih (a + 4) k (by simpa using hk)
      rw [if_pos (by show a < _; omega), show a + 4 * (k + 1) = a + 4 + 4 * k by omega, this]; rfl

/-! ### putWords and putBytes -/

theorem cellAddr_add (M : ChMem) (c i n : Nat) : cellAddr M c (i + n) = cellAddr M c i + 4 * n := by
  unfold cellAddr; omega

/-- Writing words keeps the canonical form. -/
theorem putWords_wf {s : State} (h : s.mem.wf) (M : ChMem) (c i : Nat) (ws : List Word) : (s.putWords M c i ws).mem.wf :=
  splice_wf h (wordCells_rising _ _) (by rw [cellAddr_add]; exact wordCells_range _ _) (by rw [cellAddr_add]; omega)

/-- Writing byte cells keeps the canonical form. -/
theorem putBytes_wf {s : State} (h : s.mem.wf) (M : ChMem) (c i : Nat) (bs : List Byte) : (s.putBytes M c i bs).mem.wf :=
  splice_wf h (byteCells_rising _ _) (by rw [cellAddr_add]; exact byteCells_range _ _) (by rw [cellAddr_add]; omega)

/-- Clearing the saved spectrum of a channel keeps the canonical form. -/
theorem clearSaved_wf {s : State} (h : s.mem.wf) (n c : Nat) : (s.clearSaved n c).mem.wf := by
  refine splice_wf (splice_wf h .nil (by simp) ?_) .nil (by simp) ?_ <;> simp [cellAddr]

/-- Outside the cells written every byte reads as before. -/
theorem readByte_putWords_outside {s : State} {M : ChMem} {c i : Nat} {ws : List Word} {a : Nat}
    (ha : a < cellAddr M c i ∨ cellAddr M c i + 4 * ws.length ≤ a) :
    readByte (s.putWords M c i ws).mem a = readByte s.mem a :=
  readByte_splice_outside (by rw [cellAddr_add]; exact wordCells_range _ _) (by rw [cellAddr_add]; omega)
    (by rw [cellAddr_add]; exact ha)

/-- Outside the cells written every byte reads as before. -/
theorem readByte_putBytes_outside {s : State} {M : ChMem} {c i : Nat} {bs : List Byte} {a : Nat}
    (ha : a < cellAddr M c i ∨ cellAddr M c i + 4 * bs.length ≤ a) :
    readByte (s.putBytes M c i bs).mem a = readByte s.mem a :=
  readByte_splice_outside (by rw [cellAddr_add]; exact byteCells_range _ _) (by rw [cellAddr_add]; omega)
    (by rw [cellAddr_add]; exact ha)

/-- Outside the cells written every word reads as before. -/
theorem readWord_putWords_outside {s : State} {M : ChMem} {c i : Nat} {ws : List Word} {a : Nat}
    (ha : a + 4 ≤ cellAddr M c i ∨ cellAddr M c i + 4 * ws.length ≤ a) :
    readWord (s.putWords M c i ws).mem a = readWord s.mem a := by
  unfold readWord
  rw [readByte_putWords_outside (by omega), readByte_putWords_outside (by omega),
    readByte_putWords_outside (by omega), readByte_putWords_outside (by omega)]

/-- Outside the cells written every word reads as before. -/
theorem readWord_putBytes_outside {s : State} {M : ChMem} {c i : Nat} {bs : List Byte} {a : Nat}
    (ha : a + 4 ≤ cellAddr M c i ∨ cellAddr M c i + 4 * bs.length ≤ a) :
    readWord (s.putBytes M c i bs).mem a = readWord s.mem a := by
  unfold readWord
  rw [readByte_putBytes_outside (by omega), readByte_putBytes_outside (by omega),
    readByte_putBytes_outside (by omega), readByte_putBytes_outside (by omega)]

/-- A written word reads back. -/
theorem readWord_putWords {s : State} {M : ChMem} {c i : Nat} {ws : List Word} {k : Nat} (hk : k < ws.length) :
    readWord (s.putWords M c i ws).mem (cellAddr M c (i + k)) = some ws[k] := by
  have hin : ∀ j, j < 4 → readByte (s.putWords M c i ws).mem (cellAddr M c (i + k) + j) =
      readByte (wordCells (cellAddr M c i) ws) (cellAddr M c i + 4 * k + j) := fun j hj => by
    rw [cellAddr_add]
    exact readByte_splice_inside (wordCells_rising _ _) (by omega) (by rw [cellAddr_add]; omega)
  have h0 := hin 0 (by omega); have h1 := hin 1 (by omega)
  have h2 := hin 2 (by omega); have h3 := hin 3 (by omega)
  have := readWord_wordCells (cellAddr M c i) ws k hk
  simp only [readWord, Nat.add_zero] at h0 this ⊢
  rw [h0, h1, h2, h3, this]

/-- A written byte cell reads back. -/
theorem readByte_putBytes {s : State} {M : ChMem} {c i : Nat} {bs : List Byte} {k : Nat} (hk : k < bs.length) :
    readByte (s.putBytes M c i bs).mem (cellAddr M c (i + k)) = some bs[k] := by
  rw [cellAddr_add]
  exact (readByte_splice_inside (byteCells_rising _ _) (by omega) (by rw [cellAddr_add]; omega)).trans
    (readByte_byteCells _ _ _ hk)

/-- A cleared saved spectrum reads as unlisted, and every other byte as before. -/
theorem readByte_clearSaved (s : State) (n c a : Nat) :
    readByte (s.clearSaved n c).mem a =
      if (cellAddr .pmant c 0 ≤ a ∧ a < cellAddr .pmant c n) ∨ (cellAddr .pexp c 0 ≤ a ∧ a < cellAddr .pexp c 512) then
        unlisted a
      else readByte s.mem a := by
  have hle : cellAddr .pmant c 0 ≤ cellAddr .pmant c n := by unfold cellAddr; omega
  have hle' : cellAddr .pexp c 0 ≤ cellAddr .pexp c 512 := by unfold cellAddr; omega
  unfold State.clearSaved
  by_cases hb : cellAddr .pexp c 0 ≤ a ∧ a < cellAddr .pexp c 512
  · rw [if_pos (.inr hb)]
    exact readByte_splice_inside .nil hb.1 hb.2
  · have ho := readByte_splice_outside (m := splice s.mem (cellAddr .pmant c 0) (cellAddr .pmant c n) [])
      (cells := []) (by simp) hle' (a := a) (by omega)
    by_cases hw : cellAddr .pmant c 0 ≤ a ∧ a < cellAddr .pmant c n
    · rw [if_pos (.inl hw)]
      exact ho.trans (readByte_splice_inside .nil hw.1 hw.2)
    · rw [if_neg (by tauto)]
      exact ho.trans (readByte_splice_outside (by simp) hle (by omega))

/-! ### Walks -/

/-- Read 32-bit cells one by one, each through `f`: what `walkWords` computes in one pass. -/
theorem walkWords_eq {α : Type} (f : Word → Except Halt α) (n : Nat) (m : Memory) (a : Nat) :
    walkWords f n m a = (List.range n).mapM (fun k => getWordAt m (a + 4 * k) >>= f) := by
  have key : ∀ n a' m', (∀ b, a' ≤ b → readWord m' b = readWord m b) →
      walkWords f n m' a' = (List.range n).mapM (fun k => getWordAt m (a' + 4 * k) >>= f) := by
    intro n
    induction n with
    | zero => intros; rfl
    | succ n ih =>
      intro a' m' h
      have e : getWordAt (dropBelow a' m') a' = getWordAt m (a' + 4 * 0) := by
        simp only [getWordAt, readWord_dropBelow (Nat.le_refl a'), h a' (Nat.le_refl _)]; rfl
      have ht := ih (a' + 4) (dropBelow a' m')
        (fun b hb => (readWord_dropBelow (by omega) m').trans (h b (by omega)))
      have e2 : (fun k => getWordAt m (a' + 4 + 4 * k) >>= f) = (fun k => getWordAt m (a' + 4 * (k + 1)) >>= f) := by
        funext k; rw [show a' + 4 + 4 * k = a' + 4 * (k + 1) by omega]
      rw [e2] at ht
      rw [List.range_succ_eq_map, List.mapM_cons, walkWords, e, ht, List.mapM_map]
      simp only [bind_assoc]; rfl
  exact key n a m (fun _ _ => rfl)

/-- Read byte cells one by one: what `walkBytes` computes in one pass. -/
theorem walkBytes_eq (n : Nat) (m : Memory) (a : Nat) :
    walkBytes n m a = (List.range n).mapM (fun k => getByteAt m (a + 4 * k)) := by
  have key : ∀ n a' m', (∀ b, a' ≤ b → readByte m' b = readByte m b) →
      walkBytes n m' a' = (List.range n).mapM (fun k => getByteAt m (a' + 4 * k)) := by
    intro n
    induction n with
    | zero => intros; rfl
    | succ n ih =>
      intro a' m' h
      have e : getByteAt (dropBelow a' m') a' = getByteAt m (a' + 4 * 0) := by
        simp only [getByteAt, readByte_dropBelow (Nat.le_refl a'), h a' (Nat.le_refl _)]; rfl
      have ht := ih (a' + 4) (dropBelow a' m')
        (fun b hb => (readByte_dropBelow (by omega) m').trans (h b (by omega)))
      have e2 : (fun k => getByteAt m (a' + 4 + 4 * k)) = (fun k => getByteAt m (a' + 4 * (k + 1))) := by
        funext k; rw [show a' + 4 + 4 * k = a' + 4 * (k + 1) by omega]
      rw [e2] at ht
      rw [List.range_succ_eq_map, List.mapM_cons, walkBytes, e, ht, List.mapM_map]; rfl
  exact key n a m (fun _ _ => rfl)

end Sys2Proof.Machine
end

