-- ==== Sys2Proof/Laws/State.lean ====
section
/-! SUPPORT. One lemma for each field under each named update of State, so that no proof unfolds a record update,
and the reads of a register block after a write of one. -/

namespace Sys2Proof.Machine

/-! ### setCh -/

@[simp] theorem State.setCh_done (s : State) (c : Nat) (x : Channel) : (s.setCh c x).done = s.done := rfl
@[simp] theorem State.setCh_err (s : State) (c : Nat) (x : Channel) : (s.setCh c x).err = s.err := rfl
@[simp] theorem State.setCh_drop (s : State) (c : Nat) (x : Channel) : (s.setCh c x).drop = s.drop := rfl
@[simp] theorem State.setCh_haz (s : State) (c : Nat) (x : Channel) : (s.setCh c x).haz = s.haz := rfl
@[simp] theorem State.setCh_ovf (s : State) (c : Nat) (x : Channel) : (s.setCh c x).ovf = s.ovf := rfl
@[simp] theorem State.setCh_buserr (s : State) (c : Nat) (x : Channel) : (s.setCh c x).buserr = s.buserr := rfl
@[simp] theorem State.setCh_errCode (s : State) (c : Nat) (x : Channel) : (s.setCh c x).errCode = s.errCode := rfl
@[simp] theorem State.setCh_irqEn (s : State) (c : Nat) (x : Channel) : (s.setCh c x).irqEn = s.irqEn := rfl
@[simp] theorem State.setCh_cmdCount (s : State) (c : Nat) (x : Channel) : (s.setCh c x).cmdCount = s.cmdCount := rfl
@[simp] theorem State.setCh_nsfb (s : State) (c : Nat) (x : Channel) : (s.setCh c x).nsfb = s.nsfb := rfl
@[simp] theorem State.setCh_nfStart (s : State) (c : Nat) (x : Channel) : (s.setCh c x).nfStart = s.nfStart := rfl
@[simp] theorem State.setCh_sfbOffLong (s : State) (c : Nat) (x : Channel) : (s.setCh c x).sfbOffLong = s.sfbOffLong := rfl
@[simp] theorem State.setCh_sfbOffShort (s : State) (c : Nat) (x : Channel) : (s.setCh c x).sfbOffShort = s.sfbOffShort := rfl
@[simp] theorem State.setCh_chans (s : State) (c : Nat) (x : Channel) : (s.setCh c x).chans = s.chans.setIfInBounds c x := rfl
@[simp] theorem State.setCh_mem (s : State) (c : Nat) (x : Channel) : (s.setCh c x).mem = s.mem := rfl
@[simp] theorem State.setCh_mctCtrl (s : State) (c : Nat) (x : Channel) : (s.setCh c x).mctCtrl = s.mctCtrl := rfl
@[simp] theorem State.setCh_mctState (s : State) (c : Nat) (x : Channel) : (s.setCh c x).mctState = s.mctState := rfl
@[simp] theorem State.setCh_prevMode (s : State) (c : Nat) (x : Channel) : (s.setCh c x).prevMode = s.prevMode := rfl
@[simp] theorem State.setCh_chMap (s : State) (c : Nat) (x : Channel) : (s.setCh c x).chMap = s.chMap := rfl
@[simp] theorem State.setCh_boxes (s : State) (c : Nat) (x : Channel) : (s.setCh c x).boxes = s.boxes := rfl
@[simp] theorem State.setCh_lCtrl (s : State) (c : Nat) (x : Channel) : (s.setCh c x).lCtrl = s.lCtrl := rfl
@[simp] theorem State.setCh_lBox (s : State) (c : Nat) (x : Channel) : (s.setCh c x).lBox = s.lBox := rfl
@[simp] theorem State.setCh_pending (s : State) (c : Nat) (x : Channel) : (s.setCh c x).pending = s.pending := rfl
@[simp] theorem State.setCh_turns (s : State) (c : Nat) (x : Channel) : (s.setCh c x).turns = s.turns := rfl
@[simp] theorem State.setCh_resp (s : State) (c : Nat) (x : Channel) : (s.setCh c x).resp = s.resp := rfl
@[simp] theorem State.setCh_draws (s : State) (c : Nat) (x : Channel) : (s.setCh c x).draws = s.draws := rfl

/-! ### setBox -/

@[simp] theorem State.setBox_done (s : State) (i : Nat) (x : Box) : (s.setBox i x).done = s.done := rfl
@[simp] theorem State.setBox_err (s : State) (i : Nat) (x : Box) : (s.setBox i x).err = s.err := rfl
@[simp] theorem State.setBox_drop (s : State) (i : Nat) (x : Box) : (s.setBox i x).drop = s.drop := rfl
@[simp] theorem State.setBox_haz (s : State) (i : Nat) (x : Box) : (s.setBox i x).haz = s.haz := rfl
@[simp] theorem State.setBox_ovf (s : State) (i : Nat) (x : Box) : (s.setBox i x).ovf = s.ovf := rfl
@[simp] theorem State.setBox_buserr (s : State) (i : Nat) (x : Box) : (s.setBox i x).buserr = s.buserr := rfl
@[simp] theorem State.setBox_errCode (s : State) (i : Nat) (x : Box) : (s.setBox i x).errCode = s.errCode := rfl
@[simp] theorem State.setBox_irqEn (s : State) (i : Nat) (x : Box) : (s.setBox i x).irqEn = s.irqEn := rfl
@[simp] theorem State.setBox_cmdCount (s : State) (i : Nat) (x : Box) : (s.setBox i x).cmdCount = s.cmdCount := rfl
@[simp] theorem State.setBox_nsfb (s : State) (i : Nat) (x : Box) : (s.setBox i x).nsfb = s.nsfb := rfl
@[simp] theorem State.setBox_nfStart (s : State) (i : Nat) (x : Box) : (s.setBox i x).nfStart = s.nfStart := rfl
@[simp] theorem State.setBox_sfbOffLong (s : State) (i : Nat) (x : Box) : (s.setBox i x).sfbOffLong = s.sfbOffLong := rfl
@[simp] theorem State.setBox_sfbOffShort (s : State) (i : Nat) (x : Box) : (s.setBox i x).sfbOffShort = s.sfbOffShort := rfl
@[simp] theorem State.setBox_chans (s : State) (i : Nat) (x : Box) : (s.setBox i x).chans = s.chans := rfl
@[simp] theorem State.setBox_mem (s : State) (i : Nat) (x : Box) : (s.setBox i x).mem = s.mem := rfl
@[simp] theorem State.setBox_mctCtrl (s : State) (i : Nat) (x : Box) : (s.setBox i x).mctCtrl = s.mctCtrl := rfl
@[simp] theorem State.setBox_mctState (s : State) (i : Nat) (x : Box) : (s.setBox i x).mctState = s.mctState := rfl
@[simp] theorem State.setBox_prevMode (s : State) (i : Nat) (x : Box) : (s.setBox i x).prevMode = s.prevMode := rfl
@[simp] theorem State.setBox_chMap (s : State) (i : Nat) (x : Box) : (s.setBox i x).chMap = s.chMap := rfl
@[simp] theorem State.setBox_boxes (s : State) (i : Nat) (x : Box) : (s.setBox i x).boxes = s.boxes.setIfInBounds i x := rfl
@[simp] theorem State.setBox_lCtrl (s : State) (i : Nat) (x : Box) : (s.setBox i x).lCtrl = s.lCtrl := rfl
@[simp] theorem State.setBox_lBox (s : State) (i : Nat) (x : Box) : (s.setBox i x).lBox = s.lBox := rfl
@[simp] theorem State.setBox_pending (s : State) (i : Nat) (x : Box) : (s.setBox i x).pending = s.pending := rfl
@[simp] theorem State.setBox_turns (s : State) (i : Nat) (x : Box) : (s.setBox i x).turns = s.turns := rfl
@[simp] theorem State.setBox_resp (s : State) (i : Nat) (x : Box) : (s.setBox i x).resp = s.resp := rfl
@[simp] theorem State.setBox_draws (s : State) (i : Nat) (x : Box) : (s.setBox i x).draws = s.draws := rfl

/-! ### setStage -/

@[simp] theorem State.setStage_done (s : State) (c : Nat) (g : Stage) : (s.setStage c g).done = s.done := rfl
@[simp] theorem State.setStage_err (s : State) (c : Nat) (g : Stage) : (s.setStage c g).err = s.err := rfl
@[simp] theorem State.setStage_drop (s : State) (c : Nat) (g : Stage) : (s.setStage c g).drop = s.drop := rfl
@[simp] theorem State.setStage_haz (s : State) (c : Nat) (g : Stage) : (s.setStage c g).haz = s.haz := rfl
@[simp] theorem State.setStage_ovf (s : State) (c : Nat) (g : Stage) : (s.setStage c g).ovf = s.ovf := rfl
@[simp] theorem State.setStage_buserr (s : State) (c : Nat) (g : Stage) : (s.setStage c g).buserr = s.buserr := rfl
@[simp] theorem State.setStage_errCode (s : State) (c : Nat) (g : Stage) : (s.setStage c g).errCode = s.errCode := rfl
@[simp] theorem State.setStage_irqEn (s : State) (c : Nat) (g : Stage) : (s.setStage c g).irqEn = s.irqEn := rfl
@[simp] theorem State.setStage_cmdCount (s : State) (c : Nat) (g : Stage) : (s.setStage c g).cmdCount = s.cmdCount := rfl
@[simp] theorem State.setStage_nsfb (s : State) (c : Nat) (g : Stage) : (s.setStage c g).nsfb = s.nsfb := rfl
@[simp] theorem State.setStage_nfStart (s : State) (c : Nat) (g : Stage) : (s.setStage c g).nfStart = s.nfStart := rfl
@[simp] theorem State.setStage_sfbOffLong (s : State) (c : Nat) (g : Stage) : (s.setStage c g).sfbOffLong = s.sfbOffLong := rfl
@[simp] theorem State.setStage_sfbOffShort (s : State) (c : Nat) (g : Stage) : (s.setStage c g).sfbOffShort = s.sfbOffShort := rfl
@[simp] theorem State.setStage_chans (s : State) (c : Nat) (g : Stage) : (s.setStage c g).chans = s.chans.setIfInBounds c { s.ch c with stage := g } := rfl
@[simp] theorem State.setStage_mem (s : State) (c : Nat) (g : Stage) : (s.setStage c g).mem = s.mem := rfl
@[simp] theorem State.setStage_mctCtrl (s : State) (c : Nat) (g : Stage) : (s.setStage c g).mctCtrl = s.mctCtrl := rfl
@[simp] theorem State.setStage_mctState (s : State) (c : Nat) (g : Stage) : (s.setStage c g).mctState = s.mctState := rfl
@[simp] theorem State.setStage_prevMode (s : State) (c : Nat) (g : Stage) : (s.setStage c g).prevMode = s.prevMode := rfl
@[simp] theorem State.setStage_chMap (s : State) (c : Nat) (g : Stage) : (s.setStage c g).chMap = s.chMap := rfl
@[simp] theorem State.setStage_boxes (s : State) (c : Nat) (g : Stage) : (s.setStage c g).boxes = s.boxes := rfl
@[simp] theorem State.setStage_lCtrl (s : State) (c : Nat) (g : Stage) : (s.setStage c g).lCtrl = s.lCtrl := rfl
@[simp] theorem State.setStage_lBox (s : State) (c : Nat) (g : Stage) : (s.setStage c g).lBox = s.lBox := rfl
@[simp] theorem State.setStage_pending (s : State) (c : Nat) (g : Stage) : (s.setStage c g).pending = s.pending := rfl
@[simp] theorem State.setStage_turns (s : State) (c : Nat) (g : Stage) : (s.setStage c g).turns = s.turns := rfl
@[simp] theorem State.setStage_resp (s : State) (c : Nat) (g : Stage) : (s.setStage c g).resp = s.resp := rfl
@[simp] theorem State.setStage_draws (s : State) (c : Nat) (g : Stage) : (s.setStage c g).draws = s.draws := rfl

/-! ### setSeed -/

@[simp] theorem State.setSeed_done (s : State) (c : Nat) (v : Word) : (s.setSeed c v).done = s.done := rfl
@[simp] theorem State.setSeed_err (s : State) (c : Nat) (v : Word) : (s.setSeed c v).err = s.err := rfl
@[simp] theorem State.setSeed_drop (s : State) (c : Nat) (v : Word) : (s.setSeed c v).drop = s.drop := rfl
@[simp] theorem State.setSeed_haz (s : State) (c : Nat) (v : Word) : (s.setSeed c v).haz = s.haz := rfl
@[simp] theorem State.setSeed_ovf (s : State) (c : Nat) (v : Word) : (s.setSeed c v).ovf = s.ovf := rfl
@[simp] theorem State.setSeed_buserr (s : State) (c : Nat) (v : Word) : (s.setSeed c v).buserr = s.buserr := rfl
@[simp] theorem State.setSeed_errCode (s : State) (c : Nat) (v : Word) : (s.setSeed c v).errCode = s.errCode := rfl
@[simp] theorem State.setSeed_irqEn (s : State) (c : Nat) (v : Word) : (s.setSeed c v).irqEn = s.irqEn := rfl
@[simp] theorem State.setSeed_cmdCount (s : State) (c : Nat) (v : Word) : (s.setSeed c v).cmdCount = s.cmdCount := rfl
@[simp] theorem State.setSeed_nsfb (s : State) (c : Nat) (v : Word) : (s.setSeed c v).nsfb = s.nsfb := rfl
@[simp] theorem State.setSeed_nfStart (s : State) (c : Nat) (v : Word) : (s.setSeed c v).nfStart = s.nfStart := rfl
@[simp] theorem State.setSeed_sfbOffLong (s : State) (c : Nat) (v : Word) : (s.setSeed c v).sfbOffLong = s.sfbOffLong := rfl
@[simp] theorem State.setSeed_sfbOffShort (s : State) (c : Nat) (v : Word) : (s.setSeed c v).sfbOffShort = s.sfbOffShort := rfl
@[simp] theorem State.setSeed_chans (s : State) (c : Nat) (v : Word) : (s.setSeed c v).chans = s.chans.setIfInBounds c { s.ch c with nseed := v } := rfl
@[simp] theorem State.setSeed_mem (s : State) (c : Nat) (v : Word) : (s.setSeed c v).mem = s.mem := rfl
@[simp] theorem State.setSeed_mctCtrl (s : State) (c : Nat) (v : Word) : (s.setSeed c v).mctCtrl = s.mctCtrl := rfl
@[simp] theorem State.setSeed_mctState (s : State) (c : Nat) (v : Word) : (s.setSeed c v).mctState = s.mctState := rfl
@[simp] theorem State.setSeed_prevMode (s : State) (c : Nat) (v : Word) : (s.setSeed c v).prevMode = s.prevMode := rfl
@[simp] theorem State.setSeed_chMap (s : State) (c : Nat) (v : Word) : (s.setSeed c v).chMap = s.chMap := rfl
@[simp] theorem State.setSeed_boxes (s : State) (c : Nat) (v : Word) : (s.setSeed c v).boxes = s.boxes := rfl
@[simp] theorem State.setSeed_lCtrl (s : State) (c : Nat) (v : Word) : (s.setSeed c v).lCtrl = s.lCtrl := rfl
@[simp] theorem State.setSeed_lBox (s : State) (c : Nat) (v : Word) : (s.setSeed c v).lBox = s.lBox := rfl
@[simp] theorem State.setSeed_pending (s : State) (c : Nat) (v : Word) : (s.setSeed c v).pending = s.pending := rfl
@[simp] theorem State.setSeed_turns (s : State) (c : Nat) (v : Word) : (s.setSeed c v).turns = s.turns := rfl
@[simp] theorem State.setSeed_resp (s : State) (c : Nat) (v : Word) : (s.setSeed c v).resp = s.resp := rfl
@[simp] theorem State.setSeed_draws (s : State) (c : Nat) (v : Word) : (s.setSeed c v).draws = s.draws := rfl

/-! ### setFrac -/

@[simp] theorem State.setFrac_done (s : State) (c : Nat) (l : List (BitVec 2)) : (s.setFrac c l).done = s.done := rfl
@[simp] theorem State.setFrac_err (s : State) (c : Nat) (l : List (BitVec 2)) : (s.setFrac c l).err = s.err := rfl
@[simp] theorem State.setFrac_drop (s : State) (c : Nat) (l : List (BitVec 2)) : (s.setFrac c l).drop = s.drop := rfl
@[simp] theorem State.setFrac_haz (s : State) (c : Nat) (l : List (BitVec 2)) : (s.setFrac c l).haz = s.haz := rfl
@[simp] theorem State.setFrac_ovf (s : State) (c : Nat) (l : List (BitVec 2)) : (s.setFrac c l).ovf = s.ovf := rfl
@[simp] theorem State.setFrac_buserr (s : State) (c : Nat) (l : List (BitVec 2)) : (s.setFrac c l).buserr = s.buserr := rfl
@[simp] theorem State.setFrac_errCode (s : State) (c : Nat) (l : List (BitVec 2)) : (s.setFrac c l).errCode = s.errCode := rfl
@[simp] theorem State.setFrac_irqEn (s : State) (c : Nat) (l : List (BitVec 2)) : (s.setFrac c l).irqEn = s.irqEn := rfl
@[simp] theorem State.setFrac_cmdCount (s : State) (c : Nat) (l : List (BitVec 2)) : (s.setFrac c l).cmdCount = s.cmdCount := rfl
@[simp] theorem State.setFrac_nsfb (s : State) (c : Nat) (l : List (BitVec 2)) : (s.setFrac c l).nsfb = s.nsfb := rfl
@[simp] theorem State.setFrac_nfStart (s : State) (c : Nat) (l : List (BitVec 2)) : (s.setFrac c l).nfStart = s.nfStart := rfl
@[simp] theorem State.setFrac_sfbOffLong (s : State) (c : Nat) (l : List (BitVec 2)) : (s.setFrac c l).sfbOffLong = s.sfbOffLong := rfl
@[simp] theorem State.setFrac_sfbOffShort (s : State) (c : Nat) (l : List (BitVec 2)) : (s.setFrac c l).sfbOffShort = s.sfbOffShort := rfl
@[simp] theorem State.setFrac_chans (s : State) (c : Nat) (l : List (BitVec 2)) : (s.setFrac c l).chans = s.chans.setIfInBounds c { s.ch c with frac := vecOfList 512 l 0 } := rfl
@[simp] theorem State.setFrac_mem (s : State) (c : Nat) (l : List (BitVec 2)) : (s.setFrac c l).mem = s.mem := rfl
@[simp] theorem State.setFrac_mctCtrl (s : State) (c : Nat) (l : List (BitVec 2)) : (s.setFrac c l).mctCtrl = s.mctCtrl := rfl
@[simp] theorem State.setFrac_mctState (s : State) (c : Nat) (l : List (BitVec 2)) : (s.setFrac c l).mctState = s.mctState := rfl
@[simp] theorem State.setFrac_prevMode (s : State) (c : Nat) (l : List (BitVec 2)) : (s.setFrac c l).prevMode = s.prevMode := rfl
@[simp] theorem State.setFrac_chMap (s : State) (c : Nat) (l : List (BitVec 2)) : (s.setFrac c l).chMap = s.chMap := rfl
@[simp] theorem State.setFrac_boxes (s : State) (c : Nat) (l : List (BitVec 2)) : (s.setFrac c l).boxes = s.boxes := rfl
@[simp] theorem State.setFrac_lCtrl (s : State) (c : Nat) (l : List (BitVec 2)) : (s.setFrac c l).lCtrl = s.lCtrl := rfl
@[simp] theorem State.setFrac_lBox (s : State) (c : Nat) (l : List (BitVec 2)) : (s.setFrac c l).lBox = s.lBox := rfl
@[simp] theorem State.setFrac_pending (s : State) (c : Nat) (l : List (BitVec 2)) : (s.setFrac c l).pending = s.pending := rfl
@[simp] theorem State.setFrac_turns (s : State) (c : Nat) (l : List (BitVec 2)) : (s.setFrac c l).turns = s.turns := rfl
@[simp] theorem State.setFrac_resp (s : State) (c : Nat) (l : List (BitVec 2)) : (s.setFrac c l).resp = s.resp := rfl
@[simp] theorem State.setFrac_draws (s : State) (c : Nat) (l : List (BitVec 2)) : (s.setFrac c l).draws = s.draws := rfl

/-! ### orOvf -/

@[simp] theorem State.orOvf_done (s : State) (b : Bool) : (s.orOvf b).done = s.done := rfl
@[simp] theorem State.orOvf_err (s : State) (b : Bool) : (s.orOvf b).err = s.err := rfl
@[simp] theorem State.orOvf_drop (s : State) (b : Bool) : (s.orOvf b).drop = s.drop := rfl
@[simp] theorem State.orOvf_haz (s : State) (b : Bool) : (s.orOvf b).haz = s.haz := rfl
@[simp] theorem State.orOvf_ovf (s : State) (b : Bool) : (s.orOvf b).ovf = (s.ovf || b) := rfl
@[simp] theorem State.orOvf_buserr (s : State) (b : Bool) : (s.orOvf b).buserr = s.buserr := rfl
@[simp] theorem State.orOvf_errCode (s : State) (b : Bool) : (s.orOvf b).errCode = s.errCode := rfl
@[simp] theorem State.orOvf_irqEn (s : State) (b : Bool) : (s.orOvf b).irqEn = s.irqEn := rfl
@[simp] theorem State.orOvf_cmdCount (s : State) (b : Bool) : (s.orOvf b).cmdCount = s.cmdCount := rfl
@[simp] theorem State.orOvf_nsfb (s : State) (b : Bool) : (s.orOvf b).nsfb = s.nsfb := rfl
@[simp] theorem State.orOvf_nfStart (s : State) (b : Bool) : (s.orOvf b).nfStart = s.nfStart := rfl
@[simp] theorem State.orOvf_sfbOffLong (s : State) (b : Bool) : (s.orOvf b).sfbOffLong = s.sfbOffLong := rfl
@[simp] theorem State.orOvf_sfbOffShort (s : State) (b : Bool) : (s.orOvf b).sfbOffShort = s.sfbOffShort := rfl
@[simp] theorem State.orOvf_chans (s : State) (b : Bool) : (s.orOvf b).chans = s.chans := rfl
@[simp] theorem State.orOvf_mem (s : State) (b : Bool) : (s.orOvf b).mem = s.mem := rfl
@[simp] theorem State.orOvf_mctCtrl (s : State) (b : Bool) : (s.orOvf b).mctCtrl = s.mctCtrl := rfl
@[simp] theorem State.orOvf_mctState (s : State) (b : Bool) : (s.orOvf b).mctState = s.mctState := rfl
@[simp] theorem State.orOvf_prevMode (s : State) (b : Bool) : (s.orOvf b).prevMode = s.prevMode := rfl
@[simp] theorem State.orOvf_chMap (s : State) (b : Bool) : (s.orOvf b).chMap = s.chMap := rfl
@[simp] theorem State.orOvf_boxes (s : State) (b : Bool) : (s.orOvf b).boxes = s.boxes := rfl
@[simp] theorem State.orOvf_lCtrl (s : State) (b : Bool) : (s.orOvf b).lCtrl = s.lCtrl := rfl
@[simp] theorem State.orOvf_lBox (s : State) (b : Bool) : (s.orOvf b).lBox = s.lBox := rfl
@[simp] theorem State.orOvf_pending (s : State) (b : Bool) : (s.orOvf b).pending = s.pending := rfl
@[simp] theorem State.orOvf_turns (s : State) (b : Bool) : (s.orOvf b).turns = s.turns := rfl
@[simp] theorem State.orOvf_resp (s : State) (b : Bool) : (s.orOvf b).resp = s.resp := rfl
@[simp] theorem State.orOvf_draws (s : State) (b : Bool) : (s.orOvf b).draws = s.draws := rfl

/-! ### complete -/

@[simp] theorem State.complete_done (s : State)  : (s.complete).done = true := rfl
@[simp] theorem State.complete_err (s : State)  : (s.complete).err = s.err := rfl
@[simp] theorem State.complete_drop (s : State)  : (s.complete).drop = s.drop := rfl
@[simp] theorem State.complete_haz (s : State)  : (s.complete).haz = s.haz := rfl
@[simp] theorem State.complete_ovf (s : State)  : (s.complete).ovf = s.ovf := rfl
@[simp] theorem State.complete_buserr (s : State)  : (s.complete).buserr = s.buserr := rfl
@[simp] theorem State.complete_errCode (s : State)  : (s.complete).errCode = s.errCode := rfl
@[simp] theorem State.complete_irqEn (s : State)  : (s.complete).irqEn = s.irqEn := rfl
@[simp] theorem State.complete_cmdCount (s : State)  : (s.complete).cmdCount = s.cmdCount := rfl
@[simp] theorem State.complete_nsfb (s : State)  : (s.complete).nsfb = s.nsfb := rfl
@[simp] theorem State.complete_nfStart (s : State)  : (s.complete).nfStart = s.nfStart := rfl
@[simp] theorem State.complete_sfbOffLong (s : State)  : (s.complete).sfbOffLong = s.sfbOffLong := rfl
@[simp] theorem State.complete_sfbOffShort (s : State)  : (s.complete).sfbOffShort = s.sfbOffShort := rfl
@[simp] theorem State.complete_chans (s : State)  : (s.complete).chans = s.chans := rfl
@[simp] theorem State.complete_mem (s : State)  : (s.complete).mem = s.mem := rfl
@[simp] theorem State.complete_mctCtrl (s : State)  : (s.complete).mctCtrl = s.mctCtrl := rfl
@[simp] theorem State.complete_mctState (s : State)  : (s.complete).mctState = s.mctState := rfl
@[simp] theorem State.complete_prevMode (s : State)  : (s.complete).prevMode = s.prevMode := rfl
@[simp] theorem State.complete_chMap (s : State)  : (s.complete).chMap = s.chMap := rfl
@[simp] theorem State.complete_boxes (s : State)  : (s.complete).boxes = s.boxes := rfl
@[simp] theorem State.complete_lCtrl (s : State)  : (s.complete).lCtrl = s.lCtrl := rfl
@[simp] theorem State.complete_lBox (s : State)  : (s.complete).lBox = s.lBox := rfl
@[simp] theorem State.complete_pending (s : State)  : (s.complete).pending = none := rfl
@[simp] theorem State.complete_turns (s : State)  : (s.complete).turns = s.turns := rfl
@[simp] theorem State.complete_resp (s : State)  : (s.complete).resp = s.resp := rfl
@[simp] theorem State.complete_draws (s : State)  : (s.complete).draws = s.draws := rfl

/-! ### clearError -/

@[simp] theorem State.clearError_done (s : State)  : (s.clearError).done = s.done := rfl
@[simp] theorem State.clearError_err (s : State)  : (s.clearError).err = false := rfl
@[simp] theorem State.clearError_drop (s : State)  : (s.clearError).drop = s.drop := rfl
@[simp] theorem State.clearError_haz (s : State)  : (s.clearError).haz = s.haz := rfl
@[simp] theorem State.clearError_ovf (s : State)  : (s.clearError).ovf = s.ovf := rfl
@[simp] theorem State.clearError_buserr (s : State)  : (s.clearError).buserr = s.buserr := rfl
@[simp] theorem State.clearError_errCode (s : State)  : (s.clearError).errCode = 0 := rfl
@[simp] theorem State.clearError_irqEn (s : State)  : (s.clearError).irqEn = s.irqEn := rfl
@[simp] theorem State.clearError_cmdCount (s : State)  : (s.clearError).cmdCount = s.cmdCount := rfl
@[simp] theorem State.clearError_nsfb (s : State)  : (s.clearError).nsfb = s.nsfb := rfl
@[simp] theorem State.clearError_nfStart (s : State)  : (s.clearError).nfStart = s.nfStart := rfl
@[simp] theorem State.clearError_sfbOffLong (s : State)  : (s.clearError).sfbOffLong = s.sfbOffLong := rfl
@[simp] theorem State.clearError_sfbOffShort (s : State)  : (s.clearError).sfbOffShort = s.sfbOffShort := rfl
@[simp] theorem State.clearError_chans (s : State)  : (s.clearError).chans = s.chans := rfl
@[simp] theorem State.clearError_mem (s : State)  : (s.clearError).mem = s.mem := rfl
@[simp] theorem State.clearError_mctCtrl (s : State)  : (s.clearError).mctCtrl = s.mctCtrl := rfl
@[simp] theorem State.clearError_mctState (s : State)  : (s.clearError).mctState = s.mctState := rfl
@[simp] theorem State.clearError_prevMode (s : State)  : (s.clearError).prevMode = s.prevMode := rfl
@[simp] theorem State.clearError_chMap (s : State)  : (s.clearError).chMap = s.chMap := rfl
@[simp] theorem State.clearError_boxes (s : State)  : (s.clearError).boxes = s.boxes := rfl
@[simp] theorem State.clearError_lCtrl (s : State)  : (s.clearError).lCtrl = s.lCtrl := rfl
@[simp] theorem State.clearError_lBox (s : State)  : (s.clearError).lBox = s.lBox := rfl
@[simp] theorem State.clearError_pending (s : State)  : (s.clearError).pending = s.pending := rfl
@[simp] theorem State.clearError_turns (s : State)  : (s.clearError).turns = s.turns := rfl
@[simp] theorem State.clearError_resp (s : State)  : (s.clearError).resp = s.resp := rfl
@[simp] theorem State.clearError_draws (s : State)  : (s.clearError).draws = s.draws := rfl

/-! ### putWords -/

@[simp] theorem State.putWords_done (s : State) (M : ChMem) (c i : Nat) (ws : List Word) : (s.putWords M c i ws).done = s.done := rfl
@[simp] theorem State.putWords_err (s : State) (M : ChMem) (c i : Nat) (ws : List Word) : (s.putWords M c i ws).err = s.err := rfl
@[simp] theorem State.putWords_drop (s : State) (M : ChMem) (c i : Nat) (ws : List Word) : (s.putWords M c i ws).drop = s.drop := rfl
@[simp] theorem State.putWords_haz (s : State) (M : ChMem) (c i : Nat) (ws : List Word) : (s.putWords M c i ws).haz = s.haz := rfl
@[simp] theorem State.putWords_ovf (s : State) (M : ChMem) (c i : Nat) (ws : List Word) : (s.putWords M c i ws).ovf = s.ovf := rfl
@[simp] theorem State.putWords_buserr (s : State) (M : ChMem) (c i : Nat) (ws : List Word) : (s.putWords M c i ws).buserr = s.buserr := rfl
@[simp] theorem State.putWords_errCode (s : State) (M : ChMem) (c i : Nat) (ws : List Word) : (s.putWords M c i ws).errCode = s.errCode := rfl
@[simp] theorem State.putWords_irqEn (s : State) (M : ChMem) (c i : Nat) (ws : List Word) : (s.putWords M c i ws).irqEn = s.irqEn := rfl
@[simp] theorem State.putWords_cmdCount (s : State) (M : ChMem) (c i : Nat) (ws : List Word) : (s.putWords M c i ws).cmdCount = s.cmdCount := rfl
@[simp] theorem State.putWords_nsfb (s : State) (M : ChMem) (c i : Nat) (ws : List Word) : (s.putWords M c i ws).nsfb = s.nsfb := rfl
@[simp] theorem State.putWords_nfStart (s : State) (M : ChMem) (c i : Nat) (ws : List Word) : (s.putWords M c i ws).nfStart = s.nfStart := rfl
@[simp] theorem State.putWords_sfbOffLong (s : State) (M : ChMem) (c i : Nat) (ws : List Word) : (s.putWords M c i ws).sfbOffLong = s.sfbOffLong := rfl
@[simp] theorem State.putWords_sfbOffShort (s : State) (M : ChMem) (c i : Nat) (ws : List Word) : (s.putWords M c i ws).sfbOffShort = s.sfbOffShort := rfl
@[simp] theorem State.putWords_chans (s : State) (M : ChMem) (c i : Nat) (ws : List Word) : (s.putWords M c i ws).chans = s.chans := rfl
@[simp] theorem State.putWords_mctCtrl (s : State) (M : ChMem) (c i : Nat) (ws : List Word) : (s.putWords M c i ws).mctCtrl = s.mctCtrl := rfl
@[simp] theorem State.putWords_mctState (s : State) (M : ChMem) (c i : Nat) (ws : List Word) : (s.putWords M c i ws).mctState = s.mctState := rfl
@[simp] theorem State.putWords_prevMode (s : State) (M : ChMem) (c i : Nat) (ws : List Word) : (s.putWords M c i ws).prevMode = s.prevMode := rfl
@[simp] theorem State.putWords_chMap (s : State) (M : ChMem) (c i : Nat) (ws : List Word) : (s.putWords M c i ws).chMap = s.chMap := rfl
@[simp] theorem State.putWords_boxes (s : State) (M : ChMem) (c i : Nat) (ws : List Word) : (s.putWords M c i ws).boxes = s.boxes := rfl
@[simp] theorem State.putWords_lCtrl (s : State) (M : ChMem) (c i : Nat) (ws : List Word) : (s.putWords M c i ws).lCtrl = s.lCtrl := rfl
@[simp] theorem State.putWords_lBox (s : State) (M : ChMem) (c i : Nat) (ws : List Word) : (s.putWords M c i ws).lBox = s.lBox := rfl
@[simp] theorem State.putWords_pending (s : State) (M : ChMem) (c i : Nat) (ws : List Word) : (s.putWords M c i ws).pending = s.pending := rfl
@[simp] theorem State.putWords_turns (s : State) (M : ChMem) (c i : Nat) (ws : List Word) : (s.putWords M c i ws).turns = s.turns := rfl
@[simp] theorem State.putWords_resp (s : State) (M : ChMem) (c i : Nat) (ws : List Word) : (s.putWords M c i ws).resp = s.resp := rfl
@[simp] theorem State.putWords_draws (s : State) (M : ChMem) (c i : Nat) (ws : List Word) : (s.putWords M c i ws).draws = s.draws := rfl

/-! ### putBytes -/

@[simp] theorem State.putBytes_done (s : State) (M : ChMem) (c i : Nat) (bs : List Byte) : (s.putBytes M c i bs).done = s.done := rfl
@[simp] theorem State.putBytes_err (s : State) (M : ChMem) (c i : Nat) (bs : List Byte) : (s.putBytes M c i bs).err = s.err := rfl
@[simp] theorem State.putBytes_drop (s : State) (M : ChMem) (c i : Nat) (bs : List Byte) : (s.putBytes M c i bs).drop = s.drop := rfl
@[simp] theorem State.putBytes_haz (s : State) (M : ChMem) (c i : Nat) (bs : List Byte) : (s.putBytes M c i bs).haz = s.haz := rfl
@[simp] theorem State.putBytes_ovf (s : State) (M : ChMem) (c i : Nat) (bs : List Byte) : (s.putBytes M c i bs).ovf = s.ovf := rfl
@[simp] theorem State.putBytes_buserr (s : State) (M : ChMem) (c i : Nat) (bs : List Byte) : (s.putBytes M c i bs).buserr = s.buserr := rfl
@[simp] theorem State.putBytes_errCode (s : State) (M : ChMem) (c i : Nat) (bs : List Byte) : (s.putBytes M c i bs).errCode = s.errCode := rfl
@[simp] theorem State.putBytes_irqEn (s : State) (M : ChMem) (c i : Nat) (bs : List Byte) : (s.putBytes M c i bs).irqEn = s.irqEn := rfl
@[simp] theorem State.putBytes_cmdCount (s : State) (M : ChMem) (c i : Nat) (bs : List Byte) : (s.putBytes M c i bs).cmdCount = s.cmdCount := rfl
@[simp] theorem State.putBytes_nsfb (s : State) (M : ChMem) (c i : Nat) (bs : List Byte) : (s.putBytes M c i bs).nsfb = s.nsfb := rfl
@[simp] theorem State.putBytes_nfStart (s : State) (M : ChMem) (c i : Nat) (bs : List Byte) : (s.putBytes M c i bs).nfStart = s.nfStart := rfl
@[simp] theorem State.putBytes_sfbOffLong (s : State) (M : ChMem) (c i : Nat) (bs : List Byte) : (s.putBytes M c i bs).sfbOffLong = s.sfbOffLong := rfl
@[simp] theorem State.putBytes_sfbOffShort (s : State) (M : ChMem) (c i : Nat) (bs : List Byte) : (s.putBytes M c i bs).sfbOffShort = s.sfbOffShort := rfl
@[simp] theorem State.putBytes_chans (s : State) (M : ChMem) (c i : Nat) (bs : List Byte) : (s.putBytes M c i bs).chans = s.chans := rfl
@[simp] theorem State.putBytes_mctCtrl (s : State) (M : ChMem) (c i : Nat) (bs : List Byte) : (s.putBytes M c i bs).mctCtrl = s.mctCtrl := rfl
@[simp] theorem State.putBytes_mctState (s : State) (M : ChMem) (c i : Nat) (bs : List Byte) : (s.putBytes M c i bs).mctState = s.mctState := rfl
@[simp] theorem State.putBytes_prevMode (s : State) (M : ChMem) (c i : Nat) (bs : List Byte) : (s.putBytes M c i bs).prevMode = s.prevMode := rfl
@[simp] theorem State.putBytes_chMap (s : State) (M : ChMem) (c i : Nat) (bs : List Byte) : (s.putBytes M c i bs).chMap = s.chMap := rfl
@[simp] theorem State.putBytes_boxes (s : State) (M : ChMem) (c i : Nat) (bs : List Byte) : (s.putBytes M c i bs).boxes = s.boxes := rfl
@[simp] theorem State.putBytes_lCtrl (s : State) (M : ChMem) (c i : Nat) (bs : List Byte) : (s.putBytes M c i bs).lCtrl = s.lCtrl := rfl
@[simp] theorem State.putBytes_lBox (s : State) (M : ChMem) (c i : Nat) (bs : List Byte) : (s.putBytes M c i bs).lBox = s.lBox := rfl
@[simp] theorem State.putBytes_pending (s : State) (M : ChMem) (c i : Nat) (bs : List Byte) : (s.putBytes M c i bs).pending = s.pending := rfl
@[simp] theorem State.putBytes_turns (s : State) (M : ChMem) (c i : Nat) (bs : List Byte) : (s.putBytes M c i bs).turns = s.turns := rfl
@[simp] theorem State.putBytes_resp (s : State) (M : ChMem) (c i : Nat) (bs : List Byte) : (s.putBytes M c i bs).resp = s.resp := rfl
@[simp] theorem State.putBytes_draws (s : State) (M : ChMem) (c i : Nat) (bs : List Byte) : (s.putBytes M c i bs).draws = s.draws := rfl

/-! ### clearSaved -/

@[simp] theorem State.clearSaved_done (s : State) (n c : Nat) : (s.clearSaved n c).done = s.done := rfl
@[simp] theorem State.clearSaved_err (s : State) (n c : Nat) : (s.clearSaved n c).err = s.err := rfl
@[simp] theorem State.clearSaved_drop (s : State) (n c : Nat) : (s.clearSaved n c).drop = s.drop := rfl
@[simp] theorem State.clearSaved_haz (s : State) (n c : Nat) : (s.clearSaved n c).haz = s.haz := rfl
@[simp] theorem State.clearSaved_ovf (s : State) (n c : Nat) : (s.clearSaved n c).ovf = s.ovf := rfl
@[simp] theorem State.clearSaved_buserr (s : State) (n c : Nat) : (s.clearSaved n c).buserr = s.buserr := rfl
@[simp] theorem State.clearSaved_errCode (s : State) (n c : Nat) : (s.clearSaved n c).errCode = s.errCode := rfl
@[simp] theorem State.clearSaved_irqEn (s : State) (n c : Nat) : (s.clearSaved n c).irqEn = s.irqEn := rfl
@[simp] theorem State.clearSaved_cmdCount (s : State) (n c : Nat) : (s.clearSaved n c).cmdCount = s.cmdCount := rfl
@[simp] theorem State.clearSaved_nsfb (s : State) (n c : Nat) : (s.clearSaved n c).nsfb = s.nsfb := rfl
@[simp] theorem State.clearSaved_nfStart (s : State) (n c : Nat) : (s.clearSaved n c).nfStart = s.nfStart := rfl
@[simp] theorem State.clearSaved_sfbOffLong (s : State) (n c : Nat) : (s.clearSaved n c).sfbOffLong = s.sfbOffLong := rfl
@[simp] theorem State.clearSaved_sfbOffShort (s : State) (n c : Nat) : (s.clearSaved n c).sfbOffShort = s.sfbOffShort := rfl
@[simp] theorem State.clearSaved_chans (s : State) (n c : Nat) : (s.clearSaved n c).chans = s.chans := rfl
@[simp] theorem State.clearSaved_mctCtrl (s : State) (n c : Nat) : (s.clearSaved n c).mctCtrl = s.mctCtrl := rfl
@[simp] theorem State.clearSaved_mctState (s : State) (n c : Nat) : (s.clearSaved n c).mctState = s.mctState := rfl
@[simp] theorem State.clearSaved_prevMode (s : State) (n c : Nat) : (s.clearSaved n c).prevMode = s.prevMode := rfl
@[simp] theorem State.clearSaved_chMap (s : State) (n c : Nat) : (s.clearSaved n c).chMap = s.chMap := rfl
@[simp] theorem State.clearSaved_boxes (s : State) (n c : Nat) : (s.clearSaved n c).boxes = s.boxes := rfl
@[simp] theorem State.clearSaved_lCtrl (s : State) (n c : Nat) : (s.clearSaved n c).lCtrl = s.lCtrl := rfl
@[simp] theorem State.clearSaved_lBox (s : State) (n c : Nat) : (s.clearSaved n c).lBox = s.lBox := rfl
@[simp] theorem State.clearSaved_pending (s : State) (n c : Nat) : (s.clearSaved n c).pending = s.pending := rfl
@[simp] theorem State.clearSaved_turns (s : State) (n c : Nat) : (s.clearSaved n c).turns = s.turns := rfl
@[simp] theorem State.clearSaved_resp (s : State) (n c : Nat) : (s.clearSaved n c).resp = s.resp := rfl
@[simp] theorem State.clearSaved_draws (s : State) (n c : Nat) : (s.clearSaved n c).draws = s.draws := rfl

/-! ### take -/

@[simp] theorem State.take_done (s : State) (v : Word) : (s.take v).done = s.done := rfl
@[simp] theorem State.take_err (s : State) (v : Word) : (s.take v).err = s.err := rfl
@[simp] theorem State.take_drop (s : State) (v : Word) : (s.take v).drop = s.drop := rfl
@[simp] theorem State.take_haz (s : State) (v : Word) : (s.take v).haz = s.haz := rfl
@[simp] theorem State.take_ovf (s : State) (v : Word) : (s.take v).ovf = s.ovf := rfl
@[simp] theorem State.take_buserr (s : State) (v : Word) : (s.take v).buserr = s.buserr := rfl
@[simp] theorem State.take_errCode (s : State) (v : Word) : (s.take v).errCode = s.errCode := rfl
@[simp] theorem State.take_irqEn (s : State) (v : Word) : (s.take v).irqEn = s.irqEn := rfl
@[simp] theorem State.take_cmdCount (s : State) (v : Word) : (s.take v).cmdCount = s.cmdCount + 1 := rfl
@[simp] theorem State.take_nsfb (s : State) (v : Word) : (s.take v).nsfb = s.nsfb := rfl
@[simp] theorem State.take_nfStart (s : State) (v : Word) : (s.take v).nfStart = s.nfStart := rfl
@[simp] theorem State.take_sfbOffLong (s : State) (v : Word) : (s.take v).sfbOffLong = s.sfbOffLong := rfl
@[simp] theorem State.take_sfbOffShort (s : State) (v : Word) : (s.take v).sfbOffShort = s.sfbOffShort := rfl
@[simp] theorem State.take_chans (s : State) (v : Word) : (s.take v).chans = s.chans := rfl
@[simp] theorem State.take_mem (s : State) (v : Word) : (s.take v).mem = s.mem := rfl
@[simp] theorem State.take_mctCtrl (s : State) (v : Word) : (s.take v).mctCtrl = s.mctCtrl := rfl
@[simp] theorem State.take_mctState (s : State) (v : Word) : (s.take v).mctState = s.mctState := rfl
@[simp] theorem State.take_prevMode (s : State) (v : Word) : (s.take v).prevMode = s.prevMode := rfl
@[simp] theorem State.take_chMap (s : State) (v : Word) : (s.take v).chMap = s.chMap := rfl
@[simp] theorem State.take_boxes (s : State) (v : Word) : (s.take v).boxes = s.boxes := rfl
@[simp] theorem State.take_lCtrl (s : State) (v : Word) : (s.take v).lCtrl = s.lCtrl := rfl
@[simp] theorem State.take_lBox (s : State) (v : Word) : (s.take v).lBox = s.lBox := rfl
@[simp] theorem State.take_pending (s : State) (v : Word) : (s.take v).pending = some v := rfl
@[simp] theorem State.take_turns (s : State) (v : Word) : (s.take v).turns = s.turns := rfl
@[simp] theorem State.take_resp (s : State) (v : Word) : (s.take v).resp = s.resp := rfl
@[simp] theorem State.take_draws (s : State) (v : Word) : (s.take v).draws = s.draws := rfl

/-! ### respond -/

@[simp] theorem State.respond_done (s : State) (ok : Bool) (d : Word) : (s.respond ok d).done = s.done := rfl
@[simp] theorem State.respond_err (s : State) (ok : Bool) (d : Word) : (s.respond ok d).err = s.err := rfl
@[simp] theorem State.respond_drop (s : State) (ok : Bool) (d : Word) : (s.respond ok d).drop = s.drop := rfl
@[simp] theorem State.respond_haz (s : State) (ok : Bool) (d : Word) : (s.respond ok d).haz = s.haz := rfl
@[simp] theorem State.respond_ovf (s : State) (ok : Bool) (d : Word) : (s.respond ok d).ovf = s.ovf := rfl
@[simp] theorem State.respond_buserr (s : State) (ok : Bool) (d : Word) : (s.respond ok d).buserr = s.buserr := rfl
@[simp] theorem State.respond_errCode (s : State) (ok : Bool) (d : Word) : (s.respond ok d).errCode = s.errCode := rfl
@[simp] theorem State.respond_irqEn (s : State) (ok : Bool) (d : Word) : (s.respond ok d).irqEn = s.irqEn := rfl
@[simp] theorem State.respond_cmdCount (s : State) (ok : Bool) (d : Word) : (s.respond ok d).cmdCount = s.cmdCount := rfl
@[simp] theorem State.respond_nsfb (s : State) (ok : Bool) (d : Word) : (s.respond ok d).nsfb = s.nsfb := rfl
@[simp] theorem State.respond_nfStart (s : State) (ok : Bool) (d : Word) : (s.respond ok d).nfStart = s.nfStart := rfl
@[simp] theorem State.respond_sfbOffLong (s : State) (ok : Bool) (d : Word) : (s.respond ok d).sfbOffLong = s.sfbOffLong := rfl
@[simp] theorem State.respond_sfbOffShort (s : State) (ok : Bool) (d : Word) : (s.respond ok d).sfbOffShort = s.sfbOffShort := rfl
@[simp] theorem State.respond_chans (s : State) (ok : Bool) (d : Word) : (s.respond ok d).chans = s.chans := rfl
@[simp] theorem State.respond_mem (s : State) (ok : Bool) (d : Word) : (s.respond ok d).mem = s.mem := rfl
@[simp] theorem State.respond_mctCtrl (s : State) (ok : Bool) (d : Word) : (s.respond ok d).mctCtrl = s.mctCtrl := rfl
@[simp] theorem State.respond_mctState (s : State) (ok : Bool) (d : Word) : (s.respond ok d).mctState = s.mctState := rfl
@[simp] theorem State.respond_prevMode (s : State) (ok : Bool) (d : Word) : (s.respond ok d).prevMode = s.prevMode := rfl
@[simp] theorem State.respond_chMap (s : State) (ok : Bool) (d : Word) : (s.respond ok d).chMap = s.chMap := rfl
@[simp] theorem State.respond_boxes (s : State) (ok : Bool) (d : Word) : (s.respond ok d).boxes = s.boxes := rfl
@[simp] theorem State.respond_lCtrl (s : State) (ok : Bool) (d : Word) : (s.respond ok d).lCtrl = s.lCtrl := rfl
@[simp] theorem State.respond_lBox (s : State) (ok : Bool) (d : Word) : (s.respond ok d).lBox = s.lBox := rfl
@[simp] theorem State.respond_pending (s : State) (ok : Bool) (d : Word) : (s.respond ok d).pending = s.pending := rfl
@[simp] theorem State.respond_turns (s : State) (ok : Bool) (d : Word) : (s.respond ok d).turns = s.turns := rfl
@[simp] theorem State.respond_resp (s : State) (ok : Bool) (d : Word) : (s.respond ok d).resp = some ⟨ok, d⟩ := rfl
@[simp] theorem State.respond_draws (s : State) (ok : Bool) (d : Word) : (s.respond ok d).draws = s.draws := rfl

/-! ### respondFree -/

@[simp] theorem State.respondFree_done (s : State) (f : Word → Word) : (s.respondFree f).done = s.done := rfl
@[simp] theorem State.respondFree_err (s : State) (f : Word → Word) : (s.respondFree f).err = s.err := rfl
@[simp] theorem State.respondFree_drop (s : State) (f : Word → Word) : (s.respondFree f).drop = s.drop := rfl
@[simp] theorem State.respondFree_haz (s : State) (f : Word → Word) : (s.respondFree f).haz = s.haz := rfl
@[simp] theorem State.respondFree_ovf (s : State) (f : Word → Word) : (s.respondFree f).ovf = s.ovf := rfl
@[simp] theorem State.respondFree_buserr (s : State) (f : Word → Word) : (s.respondFree f).buserr = s.buserr := rfl
@[simp] theorem State.respondFree_errCode (s : State) (f : Word → Word) : (s.respondFree f).errCode = s.errCode := rfl
@[simp] theorem State.respondFree_irqEn (s : State) (f : Word → Word) : (s.respondFree f).irqEn = s.irqEn := rfl
@[simp] theorem State.respondFree_cmdCount (s : State) (f : Word → Word) : (s.respondFree f).cmdCount = s.cmdCount := rfl
@[simp] theorem State.respondFree_nsfb (s : State) (f : Word → Word) : (s.respondFree f).nsfb = s.nsfb := rfl
@[simp] theorem State.respondFree_nfStart (s : State) (f : Word → Word) : (s.respondFree f).nfStart = s.nfStart := rfl
@[simp] theorem State.respondFree_sfbOffLong (s : State) (f : Word → Word) : (s.respondFree f).sfbOffLong = s.sfbOffLong := rfl
@[simp] theorem State.respondFree_sfbOffShort (s : State) (f : Word → Word) : (s.respondFree f).sfbOffShort = s.sfbOffShort := rfl
@[simp] theorem State.respondFree_chans (s : State) (f : Word → Word) : (s.respondFree f).chans = s.chans := rfl
@[simp] theorem State.respondFree_mem (s : State) (f : Word → Word) : (s.respondFree f).mem = s.mem := rfl
@[simp] theorem State.respondFree_mctCtrl (s : State) (f : Word → Word) : (s.respondFree f).mctCtrl = s.mctCtrl := rfl
@[simp] theorem State.respondFree_mctState (s : State) (f : Word → Word) : (s.respondFree f).mctState = s.mctState := rfl
@[simp] theorem State.respondFree_prevMode (s : State) (f : Word → Word) : (s.respondFree f).prevMode = s.prevMode := rfl
@[simp] theorem State.respondFree_chMap (s : State) (f : Word → Word) : (s.respondFree f).chMap = s.chMap := rfl
@[simp] theorem State.respondFree_boxes (s : State) (f : Word → Word) : (s.respondFree f).boxes = s.boxes := rfl
@[simp] theorem State.respondFree_lCtrl (s : State) (f : Word → Word) : (s.respondFree f).lCtrl = s.lCtrl := rfl
@[simp] theorem State.respondFree_lBox (s : State) (f : Word → Word) : (s.respondFree f).lBox = s.lBox := rfl
@[simp] theorem State.respondFree_pending (s : State) (f : Word → Word) : (s.respondFree f).pending = s.pending := rfl
@[simp] theorem State.respondFree_turns (s : State) (f : Word → Word) : (s.respondFree f).turns = s.turns := rfl
@[simp] theorem State.respondFree_resp (s : State) (f : Word → Word) : (s.respondFree f).resp = some ⟨true, f (Config.freeWord s.draws)⟩ := rfl
@[simp] theorem State.respondFree_draws (s : State) (f : Word → Word) : (s.respondFree f).draws = s.draws + 1 := rfl

/-! ### busError -/

@[simp] theorem State.busError_done (s : State)  : (s.busError).done = s.done := rfl
@[simp] theorem State.busError_err (s : State)  : (s.busError).err = s.err := rfl
@[simp] theorem State.busError_drop (s : State)  : (s.busError).drop = s.drop := rfl
@[simp] theorem State.busError_haz (s : State)  : (s.busError).haz = s.haz := rfl
@[simp] theorem State.busError_ovf (s : State)  : (s.busError).ovf = s.ovf := rfl
@[simp] theorem State.busError_buserr (s : State)  : (s.busError).buserr = true := rfl
@[simp] theorem State.busError_errCode (s : State)  : (s.busError).errCode = s.errCode := rfl
@[simp] theorem State.busError_irqEn (s : State)  : (s.busError).irqEn = s.irqEn := rfl
@[simp] theorem State.busError_cmdCount (s : State)  : (s.busError).cmdCount = s.cmdCount := rfl
@[simp] theorem State.busError_nsfb (s : State)  : (s.busError).nsfb = s.nsfb := rfl
@[simp] theorem State.busError_nfStart (s : State)  : (s.busError).nfStart = s.nfStart := rfl
@[simp] theorem State.busError_sfbOffLong (s : State)  : (s.busError).sfbOffLong = s.sfbOffLong := rfl
@[simp] theorem State.busError_sfbOffShort (s : State)  : (s.busError).sfbOffShort = s.sfbOffShort := rfl
@[simp] theorem State.busError_chans (s : State)  : (s.busError).chans = s.chans := rfl
@[simp] theorem State.busError_mem (s : State)  : (s.busError).mem = s.mem := rfl
@[simp] theorem State.busError_mctCtrl (s : State)  : (s.busError).mctCtrl = s.mctCtrl := rfl
@[simp] theorem State.busError_mctState (s : State)  : (s.busError).mctState = s.mctState := rfl
@[simp] theorem State.busError_prevMode (s : State)  : (s.busError).prevMode = s.prevMode := rfl
@[simp] theorem State.busError_chMap (s : State)  : (s.busError).chMap = s.chMap := rfl
@[simp] theorem State.busError_boxes (s : State)  : (s.busError).boxes = s.boxes := rfl
@[simp] theorem State.busError_lCtrl (s : State)  : (s.busError).lCtrl = s.lCtrl := rfl
@[simp] theorem State.busError_lBox (s : State)  : (s.busError).lBox = s.lBox := rfl
@[simp] theorem State.busError_pending (s : State)  : (s.busError).pending = s.pending := rfl
@[simp] theorem State.busError_turns (s : State)  : (s.busError).turns = s.turns := rfl
@[simp] theorem State.busError_resp (s : State)  : (s.busError).resp = some ⟨false, 0⟩ := rfl
@[simp] theorem State.busError_draws (s : State)  : (s.busError).draws = s.draws := rfl

/-! ### writeStatus -/

@[simp] theorem State.writeStatus_done (s : State) (v : Word) : (s.writeStatus v).done = (s.done && !v.getLsbD 1) := rfl
@[simp] theorem State.writeStatus_err (s : State) (v : Word) : (s.writeStatus v).err = s.err := rfl
@[simp] theorem State.writeStatus_drop (s : State) (v : Word) : (s.writeStatus v).drop = (s.drop && !v.getLsbD 3) := rfl
@[simp] theorem State.writeStatus_haz (s : State) (v : Word) : (s.writeStatus v).haz = (s.haz && !v.getLsbD 4) := rfl
@[simp] theorem State.writeStatus_ovf (s : State) (v : Word) : (s.writeStatus v).ovf = (s.ovf && !v.getLsbD 5) := rfl
@[simp] theorem State.writeStatus_buserr (s : State) (v : Word) : (s.writeStatus v).buserr = (s.buserr && !v.getLsbD 6) := rfl
@[simp] theorem State.writeStatus_errCode (s : State) (v : Word) : (s.writeStatus v).errCode = s.errCode := rfl
@[simp] theorem State.writeStatus_irqEn (s : State) (v : Word) : (s.writeStatus v).irqEn = s.irqEn := rfl
@[simp] theorem State.writeStatus_cmdCount (s : State) (v : Word) : (s.writeStatus v).cmdCount = s.cmdCount := rfl
@[simp] theorem State.writeStatus_nsfb (s : State) (v : Word) : (s.writeStatus v).nsfb = s.nsfb := rfl
@[simp] theorem State.writeStatus_nfStart (s : State) (v : Word) : (s.writeStatus v).nfStart = s.nfStart := rfl
@[simp] theorem State.writeStatus_sfbOffLong (s : State) (v : Word) : (s.writeStatus v).sfbOffLong = s.sfbOffLong := rfl
@[simp] theorem State.writeStatus_sfbOffShort (s : State) (v : Word) : (s.writeStatus v).sfbOffShort = s.sfbOffShort := rfl
@[simp] theorem State.writeStatus_chans (s : State) (v : Word) : (s.writeStatus v).chans = s.chans := rfl
@[simp] theorem State.writeStatus_mem (s : State) (v : Word) : (s.writeStatus v).mem = s.mem := rfl
@[simp] theorem State.writeStatus_mctCtrl (s : State) (v : Word) : (s.writeStatus v).mctCtrl = s.mctCtrl := rfl
@[simp] theorem State.writeStatus_mctState (s : State) (v : Word) : (s.writeStatus v).mctState = s.mctState := rfl
@[simp] theorem State.writeStatus_prevMode (s : State) (v : Word) : (s.writeStatus v).prevMode = s.prevMode := rfl
@[simp] theorem State.writeStatus_chMap (s : State) (v : Word) : (s.writeStatus v).chMap = s.chMap := rfl
@[simp] theorem State.writeStatus_boxes (s : State) (v : Word) : (s.writeStatus v).boxes = s.boxes := rfl
@[simp] theorem State.writeStatus_lCtrl (s : State) (v : Word) : (s.writeStatus v).lCtrl = s.lCtrl := rfl
@[simp] theorem State.writeStatus_lBox (s : State) (v : Word) : (s.writeStatus v).lBox = s.lBox := rfl
@[simp] theorem State.writeStatus_pending (s : State) (v : Word) : (s.writeStatus v).pending = s.pending := rfl
@[simp] theorem State.writeStatus_turns (s : State) (v : Word) : (s.writeStatus v).turns = s.turns := rfl
@[simp] theorem State.writeStatus_resp (s : State) (v : Word) : (s.writeStatus v).resp = s.resp := rfl
@[simp] theorem State.writeStatus_draws (s : State) (v : Word) : (s.writeStatus v).draws = s.draws := rfl

/-! ### record and raise -/

theorem State.record_of_err {s : State} (h : s.err = true) (e : Err) : s.record e = s := by
  simp [State.record, h]

theorem State.record_of_not_err {s : State} (h : s.err = false) (e : Err) :
    s.record e = { s with err := true, errCode := e.word } := by
  simp [State.record, h]

/-- Recording an error changes ERR and ERR_CODE only (R402). -/
theorem State.record_frame (s : State) (e : Err) :
    s.record e = { s with err := true, errCode := (s.record e).errCode } := by
  cases h : s.err
  · rw [State.record_of_not_err h]
  · rw [State.record_of_err h, ← h]

/-- A raise changes ERR, ERR_CODE, PENDING and DONE only (R402). -/
theorem State.raise_frame (s : State) (e : Err) :
    s.raise e = { s with err := true, errCode := (s.raise e).errCode, pending := none, done := true } := by
  conv_lhs => rw [State.raise, State.record_frame]
  rfl

@[simp] theorem State.raise_drop (s : State) (e : Err) : (s.raise e).drop = s.drop := by rw [State.raise_frame]
@[simp] theorem State.raise_haz (s : State) (e : Err) : (s.raise e).haz = s.haz := by rw [State.raise_frame]
@[simp] theorem State.raise_ovf (s : State) (e : Err) : (s.raise e).ovf = s.ovf := by rw [State.raise_frame]
@[simp] theorem State.raise_buserr (s : State) (e : Err) : (s.raise e).buserr = s.buserr := by rw [State.raise_frame]
@[simp] theorem State.raise_irqEn (s : State) (e : Err) : (s.raise e).irqEn = s.irqEn := by rw [State.raise_frame]
@[simp] theorem State.raise_cmdCount (s : State) (e : Err) : (s.raise e).cmdCount = s.cmdCount := by rw [State.raise_frame]
@[simp] theorem State.raise_nsfb (s : State) (e : Err) : (s.raise e).nsfb = s.nsfb := by rw [State.raise_frame]
@[simp] theorem State.raise_nfStart (s : State) (e : Err) : (s.raise e).nfStart = s.nfStart := by rw [State.raise_frame]
@[simp] theorem State.raise_sfbOffLong (s : State) (e : Err) : (s.raise e).sfbOffLong = s.sfbOffLong := by rw [State.raise_frame]
@[simp] theorem State.raise_sfbOffShort (s : State) (e : Err) : (s.raise e).sfbOffShort = s.sfbOffShort := by rw [State.raise_frame]
@[simp] theorem State.raise_chans (s : State) (e : Err) : (s.raise e).chans = s.chans := by rw [State.raise_frame]
@[simp] theorem State.raise_mem (s : State) (e : Err) : (s.raise e).mem = s.mem := by rw [State.raise_frame]
@[simp] theorem State.raise_mctCtrl (s : State) (e : Err) : (s.raise e).mctCtrl = s.mctCtrl := by rw [State.raise_frame]
@[simp] theorem State.raise_mctState (s : State) (e : Err) : (s.raise e).mctState = s.mctState := by rw [State.raise_frame]
@[simp] theorem State.raise_prevMode (s : State) (e : Err) : (s.raise e).prevMode = s.prevMode := by rw [State.raise_frame]
@[simp] theorem State.raise_chMap (s : State) (e : Err) : (s.raise e).chMap = s.chMap := by rw [State.raise_frame]
@[simp] theorem State.raise_boxes (s : State) (e : Err) : (s.raise e).boxes = s.boxes := by rw [State.raise_frame]
@[simp] theorem State.raise_lCtrl (s : State) (e : Err) : (s.raise e).lCtrl = s.lCtrl := by rw [State.raise_frame]
@[simp] theorem State.raise_lBox (s : State) (e : Err) : (s.raise e).lBox = s.lBox := by rw [State.raise_frame]
@[simp] theorem State.raise_turns (s : State) (e : Err) : (s.raise e).turns = s.turns := by rw [State.raise_frame]
@[simp] theorem State.raise_resp (s : State) (e : Err) : (s.raise e).resp = s.resp := by rw [State.raise_frame]
@[simp] theorem State.raise_draws (s : State) (e : Err) : (s.raise e).draws = s.draws := by rw [State.raise_frame]
@[simp] theorem State.raise_err (s : State) (e : Err) : (s.raise e).err = true := by rw [State.raise_frame]
@[simp] theorem State.raise_pending (s : State) (e : Err) : (s.raise e).pending = none := rfl
@[simp] theorem State.raise_done (s : State) (e : Err) : (s.raise e).done = true := rfl

/-! ### hardReset -/

@[simp] theorem State.hardReset_turns (s : State) : s.hardReset.turns = s.turns := rfl
@[simp] theorem State.hardReset_draws (s : State) : s.hardReset.draws = s.draws := rfl
@[simp] theorem State.hardReset_mem (s : State) : s.hardReset.mem = [] := rfl

/-! ### Register blocks -/

@[simp] theorem State.ch_setCh_self {s : State} {c : Nat} (h : c < 16) (x : Channel) : (s.setCh c x).ch c = x := by
  simp [State.ch, h]

@[simp] theorem State.ch_setCh_ne {s : State} {c d : Nat} (h : c ≠ d) (x : Channel) : (s.setCh c x).ch d = s.ch d := by
  simp [State.ch, h]

/-- A register block read after a write of block c: any property both values have. -/
theorem State.ch_setCh_eq_or (s : State) (c d : Nat) (x : Channel) :
    (s.setCh c x).ch d = s.ch d ∨ (d = c ∧ (s.setCh c x).ch d = x) := by
  by_cases h : c = d
  · subst h
    by_cases hc : c < 16
    · exact .inr ⟨rfl, State.ch_setCh_self hc x⟩
    · exact .inl (by simp [State.ch, hc])
  · exact .inl (State.ch_setCh_ne h x)

@[simp] theorem State.box_setBox_self {s : State} {i : Nat} (h : i < 16) (x : Box) : (s.setBox i x).box i = x := by
  simp [State.box, h]

@[simp] theorem State.box_setBox_ne {s : State} {i j : Nat} (h : i ≠ j) (x : Box) : (s.setBox i x).box j = s.box j := by
  simp [State.box, h]

theorem State.box_setBox_eq_or (s : State) (i j : Nat) (x : Box) :
    (s.setBox i x).box j = s.box j ∨ (j = i ∧ (s.setBox i x).box j = x) := by
  by_cases h : i = j
  · subst h
    by_cases hc : i < 16
    · exact .inr ⟨rfl, State.box_setBox_self hc x⟩
    · exact .inl (by simp [State.box, hc])
  · exact .inl (State.box_setBox_ne h x)

/-- An entry of a padded vector: the list's, or the padding. -/
theorem getElem?_vecOfList {α : Type} (n : Nat) (l : List α) (d : α) (i : Nat) (h : i < n) :
    (vecOfList n l d)[i]? = some ((l[i]?).getD d) := by
  rw [Vector.getElem?_eq_getElem h]
  simp only [vecOfList, Vector.getElem_mk, List.getElem_toArray, List.getElem_take]
  by_cases hl : i < l.length
  · simp [List.getElem_append_left hl, hl]
  · simp [List.getElem_append_right (Nat.le_of_not_lt hl), hl]

/-! ### Reads of registers after a write of memory, OVF or completion -/

@[simp] theorem State.ch_orOvf (s : State) (b : Bool) (d : Nat) : (s.orOvf b).ch d = s.ch d := rfl
@[simp] theorem State.box_orOvf (s : State) (b : Bool) (j : Nat) : (s.orOvf b).box j = s.box j := rfl
@[simp] theorem State.latch_orOvf (s : State) (b : Bool) (j : Nat) : (s.orOvf b).latch j = s.latch j := rfl
@[simp] theorem State.chMapAt_orOvf (s : State) (b : Bool) (p : Nat) : (s.orOvf b).chMapAt p = s.chMapAt p := rfl
@[simp] theorem State.short_orOvf (s : State) (b : Bool) (d : Nat) : (s.orOvf b).short d = s.short d := rfl
@[simp] theorem State.nwin_orOvf (s : State) (b : Bool) (d : Nat) : (s.orOvf b).nwin d = s.nwin d := rfl
@[simp] theorem State.off_orOvf (s : State) (b : Bool) (d b' : Nat) : (s.orOvf b).off d b' = s.off d b' := rfl
@[simp] theorem State.nsfbOf_orOvf (s : State) (b : Bool) (d : Nat) : (s.orOvf b).nsfbOf d = s.nsfbOf d := rfl
@[simp] theorem State.nfStartOf_orOvf (s : State) (b : Bool) (d : Nat) : (s.orOvf b).nfStartOf d = s.nfStartOf d := rfl
@[simp] theorem State.maxSfb_orOvf (s : State) (b : Bool) (d : Nat) : (s.orOvf b).maxSfb d = s.maxSfb d := rfl
@[simp] theorem State.ng_orOvf (s : State) (b : Bool) (d : Nat) : (s.orOvf b).ng d = s.ng d := rfl
@[simp] theorem State.gl_orOvf (s : State) (b : Bool) (d g' : Nat) : (s.orOvf b).gl d g' = s.gl d g' := rfl
@[simp] theorem State.bandWidth_orOvf (s : State) (b : Bool) (d b' : Nat) : (s.orOvf b).bandWidth d b' = s.bandWidth d b' := rfl
@[simp] theorem State.groupLens_orOvf (s : State) (b : Bool) (d : Nat) : (s.orOvf b).groupLens d = s.groupLens d := rfl
@[simp] theorem State.grp_orOvf (s : State) (b : Bool) (d w' : Nat) : (s.orOvf b).grp d w' = s.grp d w' := rfl
@[simp] theorem State.wins_orOvf (s : State) (b : Bool) (d g' : Nat) : (s.orOvf b).wins d g' = s.wins d g' := rfl
@[simp] theorem State.msBit_orOvf (s : State) (b : Bool) (d g' b' : Nat) : (s.orOvf b).msBit d g' b' = s.msBit d g' b' := rfl
@[simp] theorem State.fracAt_orOvf (s : State) (b : Bool) (d w' b' : Nat) : (s.orOvf b).fracAt d w' b' = s.fracAt d w' b' := rfl
@[simp] theorem State.wlen_orOvf (P : Params) (s : State) (b : Bool) (d : Nat) : (s.orOvf b).wlen P d = s.wlen P d := rfl
@[simp] theorem State.lineLo_orOvf (P : Params) (s : State) (b : Bool) (d w' b' : Nat) : (s.orOvf b).lineLo P d w' b' = s.lineLo P d w' b' := rfl
@[simp] theorem State.ch_complete (s : State)  (d : Nat) : (s.complete).ch d = s.ch d := rfl
@[simp] theorem State.box_complete (s : State)  (j : Nat) : (s.complete).box j = s.box j := rfl
@[simp] theorem State.latch_complete (s : State)  (j : Nat) : (s.complete).latch j = s.latch j := rfl
@[simp] theorem State.chMapAt_complete (s : State)  (p : Nat) : (s.complete).chMapAt p = s.chMapAt p := rfl
@[simp] theorem State.short_complete (s : State)  (d : Nat) : (s.complete).short d = s.short d := rfl
@[simp] theorem State.nwin_complete (s : State)  (d : Nat) : (s.complete).nwin d = s.nwin d := rfl
@[simp] theorem State.off_complete (s : State)  (d b' : Nat) : (s.complete).off d b' = s.off d b' := rfl
@[simp] theorem State.nsfbOf_complete (s : State)  (d : Nat) : (s.complete).nsfbOf d = s.nsfbOf d := rfl
@[simp] theorem State.nfStartOf_complete (s : State)  (d : Nat) : (s.complete).nfStartOf d = s.nfStartOf d := rfl
@[simp] theorem State.maxSfb_complete (s : State)  (d : Nat) : (s.complete).maxSfb d = s.maxSfb d := rfl
@[simp] theorem State.ng_complete (s : State)  (d : Nat) : (s.complete).ng d = s.ng d := rfl
@[simp] theorem State.gl_complete (s : State)  (d g' : Nat) : (s.complete).gl d g' = s.gl d g' := rfl
@[simp] theorem State.bandWidth_complete (s : State)  (d b' : Nat) : (s.complete).bandWidth d b' = s.bandWidth d b' := rfl
@[simp] theorem State.groupLens_complete (s : State)  (d : Nat) : (s.complete).groupLens d = s.groupLens d := rfl
@[simp] theorem State.grp_complete (s : State)  (d w' : Nat) : (s.complete).grp d w' = s.grp d w' := rfl
@[simp] theorem State.wins_complete (s : State)  (d g' : Nat) : (s.complete).wins d g' = s.wins d g' := rfl
@[simp] theorem State.msBit_complete (s : State)  (d g' b' : Nat) : (s.complete).msBit d g' b' = s.msBit d g' b' := rfl
@[simp] theorem State.fracAt_complete (s : State)  (d w' b' : Nat) : (s.complete).fracAt d w' b' = s.fracAt d w' b' := rfl
@[simp] theorem State.wlen_complete (P : Params) (s : State)  (d : Nat) : (s.complete).wlen P d = s.wlen P d := rfl
@[simp] theorem State.lineLo_complete (P : Params) (s : State)  (d w' b' : Nat) : (s.complete).lineLo P d w' b' = s.lineLo P d w' b' := rfl
@[simp] theorem State.ch_putWords (s : State) (M : ChMem) (c i : Nat) (ws : List Word) (d : Nat) : (s.putWords M c i ws).ch d = s.ch d := rfl
@[simp] theorem State.box_putWords (s : State) (M : ChMem) (c i : Nat) (ws : List Word) (j : Nat) : (s.putWords M c i ws).box j = s.box j := rfl
@[simp] theorem State.latch_putWords (s : State) (M : ChMem) (c i : Nat) (ws : List Word) (j : Nat) : (s.putWords M c i ws).latch j = s.latch j := rfl
@[simp] theorem State.chMapAt_putWords (s : State) (M : ChMem) (c i : Nat) (ws : List Word) (p : Nat) : (s.putWords M c i ws).chMapAt p = s.chMapAt p := rfl
@[simp] theorem State.short_putWords (s : State) (M : ChMem) (c i : Nat) (ws : List Word) (d : Nat) : (s.putWords M c i ws).short d = s.short d := rfl
@[simp] theorem State.nwin_putWords (s : State) (M : ChMem) (c i : Nat) (ws : List Word) (d : Nat) : (s.putWords M c i ws).nwin d = s.nwin d := rfl
@[simp] theorem State.off_putWords (s : State) (M : ChMem) (c i : Nat) (ws : List Word) (d b' : Nat) : (s.putWords M c i ws).off d b' = s.off d b' := rfl
@[simp] theorem State.nsfbOf_putWords (s : State) (M : ChMem) (c i : Nat) (ws : List Word) (d : Nat) : (s.putWords M c i ws).nsfbOf d = s.nsfbOf d := rfl
@[simp] theorem State.nfStartOf_putWords (s : State) (M : ChMem) (c i : Nat) (ws : List Word) (d : Nat) : (s.putWords M c i ws).nfStartOf d = s.nfStartOf d := rfl
@[simp] theorem State.maxSfb_putWords (s : State) (M : ChMem) (c i : Nat) (ws : List Word) (d : Nat) : (s.putWords M c i ws).maxSfb d = s.maxSfb d := rfl
@[simp] theorem State.ng_putWords (s : State) (M : ChMem) (c i : Nat) (ws : List Word) (d : Nat) : (s.putWords M c i ws).ng d = s.ng d := rfl
@[simp] theorem State.gl_putWords (s : State) (M : ChMem) (c i : Nat) (ws : List Word) (d g' : Nat) : (s.putWords M c i ws).gl d g' = s.gl d g' := rfl
@[simp] theorem State.bandWidth_putWords (s : State) (M : ChMem) (c i : Nat) (ws : List Word) (d b' : Nat) : (s.putWords M c i ws).bandWidth d b' = s.bandWidth d b' := rfl
@[simp] theorem State.groupLens_putWords (s : State) (M : ChMem) (c i : Nat) (ws : List Word) (d : Nat) : (s.putWords M c i ws).groupLens d = s.groupLens d := rfl
@[simp] theorem State.grp_putWords (s : State) (M : ChMem) (c i : Nat) (ws : List Word) (d w' : Nat) : (s.putWords M c i ws).grp d w' = s.grp d w' := rfl
@[simp] theorem State.wins_putWords (s : State) (M : ChMem) (c i : Nat) (ws : List Word) (d g' : Nat) : (s.putWords M c i ws).wins d g' = s.wins d g' := rfl
@[simp] theorem State.msBit_putWords (s : State) (M : ChMem) (c i : Nat) (ws : List Word) (d g' b' : Nat) : (s.putWords M c i ws).msBit d g' b' = s.msBit d g' b' := rfl
@[simp] theorem State.fracAt_putWords (s : State) (M : ChMem) (c i : Nat) (ws : List Word) (d w' b' : Nat) : (s.putWords M c i ws).fracAt d w' b' = s.fracAt d w' b' := rfl
@[simp] theorem State.wlen_putWords (P : Params) (s : State) (M : ChMem) (c i : Nat) (ws : List Word) (d : Nat) : (s.putWords M c i ws).wlen P d = s.wlen P d := rfl
@[simp] theorem State.lineLo_putWords (P : Params) (s : State) (M : ChMem) (c i : Nat) (ws : List Word) (d w' b' : Nat) : (s.putWords M c i ws).lineLo P d w' b' = s.lineLo P d w' b' := rfl
@[simp] theorem State.ch_putBytes (s : State) (M : ChMem) (c i : Nat) (bs : List Byte) (d : Nat) : (s.putBytes M c i bs).ch d = s.ch d := rfl
@[simp] theorem State.box_putBytes (s : State) (M : ChMem) (c i : Nat) (bs : List Byte) (j : Nat) : (s.putBytes M c i bs).box j = s.box j := rfl
@[simp] theorem State.latch_putBytes (s : State) (M : ChMem) (c i : Nat) (bs : List Byte) (j : Nat) : (s.putBytes M c i bs).latch j = s.latch j := rfl
@[simp] theorem State.chMapAt_putBytes (s : State) (M : ChMem) (c i : Nat) (bs : List Byte) (p : Nat) : (s.putBytes M c i bs).chMapAt p = s.chMapAt p := rfl
@[simp] theorem State.short_putBytes (s : State) (M : ChMem) (c i : Nat) (bs : List Byte) (d : Nat) : (s.putBytes M c i bs).short d = s.short d := rfl
@[simp] theorem State.nwin_putBytes (s : State) (M : ChMem) (c i : Nat) (bs : List Byte) (d : Nat) : (s.putBytes M c i bs).nwin d = s.nwin d := rfl
@[simp] theorem State.off_putBytes (s : State) (M : ChMem) (c i : Nat) (bs : List Byte) (d b' : Nat) : (s.putBytes M c i bs).off d b' = s.off d b' := rfl
@[simp] theorem State.nsfbOf_putBytes (s : State) (M : ChMem) (c i : Nat) (bs : List Byte) (d : Nat) : (s.putBytes M c i bs).nsfbOf d = s.nsfbOf d := rfl
@[simp] theorem State.nfStartOf_putBytes (s : State) (M : ChMem) (c i : Nat) (bs : List Byte) (d : Nat) : (s.putBytes M c i bs).nfStartOf d = s.nfStartOf d := rfl
@[simp] theorem State.maxSfb_putBytes (s : State) (M : ChMem) (c i : Nat) (bs : List Byte) (d : Nat) : (s.putBytes M c i bs).maxSfb d = s.maxSfb d := rfl
@[simp] theorem State.ng_putBytes (s : State) (M : ChMem) (c i : Nat) (bs : List Byte) (d : Nat) : (s.putBytes M c i bs).ng d = s.ng d := rfl
@[simp] theorem State.gl_putBytes (s : State) (M : ChMem) (c i : Nat) (bs : List Byte) (d g' : Nat) : (s.putBytes M c i bs).gl d g' = s.gl d g' := rfl
@[simp] theorem State.bandWidth_putBytes (s : State) (M : ChMem) (c i : Nat) (bs : List Byte) (d b' : Nat) : (s.putBytes M c i bs).bandWidth d b' = s.bandWidth d b' := rfl
@[simp] theorem State.groupLens_putBytes (s : State) (M : ChMem) (c i : Nat) (bs : List Byte) (d : Nat) : (s.putBytes M c i bs).groupLens d = s.groupLens d := rfl
@[simp] theorem State.grp_putBytes (s : State) (M : ChMem) (c i : Nat) (bs : List Byte) (d w' : Nat) : (s.putBytes M c i bs).grp d w' = s.grp d w' := rfl
@[simp] theorem State.wins_putBytes (s : State) (M : ChMem) (c i : Nat) (bs : List Byte) (d g' : Nat) : (s.putBytes M c i bs).wins d g' = s.wins d g' := rfl
@[simp] theorem State.msBit_putBytes (s : State) (M : ChMem) (c i : Nat) (bs : List Byte) (d g' b' : Nat) : (s.putBytes M c i bs).msBit d g' b' = s.msBit d g' b' := rfl
@[simp] theorem State.fracAt_putBytes (s : State) (M : ChMem) (c i : Nat) (bs : List Byte) (d w' b' : Nat) : (s.putBytes M c i bs).fracAt d w' b' = s.fracAt d w' b' := rfl
@[simp] theorem State.wlen_putBytes (P : Params) (s : State) (M : ChMem) (c i : Nat) (bs : List Byte) (d : Nat) : (s.putBytes M c i bs).wlen P d = s.wlen P d := rfl
@[simp] theorem State.lineLo_putBytes (P : Params) (s : State) (M : ChMem) (c i : Nat) (bs : List Byte) (d w' b' : Nat) : (s.putBytes M c i bs).lineLo P d w' b' = s.lineLo P d w' b' := rfl
@[simp] theorem State.ch_clearSaved (s : State) (n c : Nat) (d : Nat) : (s.clearSaved n c).ch d = s.ch d := rfl
@[simp] theorem State.box_clearSaved (s : State) (n c : Nat) (j : Nat) : (s.clearSaved n c).box j = s.box j := rfl
@[simp] theorem State.latch_clearSaved (s : State) (n c : Nat) (j : Nat) : (s.clearSaved n c).latch j = s.latch j := rfl
@[simp] theorem State.chMapAt_clearSaved (s : State) (n c : Nat) (p : Nat) : (s.clearSaved n c).chMapAt p = s.chMapAt p := rfl
@[simp] theorem State.short_clearSaved (s : State) (n c : Nat) (d : Nat) : (s.clearSaved n c).short d = s.short d := rfl
@[simp] theorem State.nwin_clearSaved (s : State) (n c : Nat) (d : Nat) : (s.clearSaved n c).nwin d = s.nwin d := rfl
@[simp] theorem State.off_clearSaved (s : State) (n c : Nat) (d b' : Nat) : (s.clearSaved n c).off d b' = s.off d b' := rfl
@[simp] theorem State.nsfbOf_clearSaved (s : State) (n c : Nat) (d : Nat) : (s.clearSaved n c).nsfbOf d = s.nsfbOf d := rfl
@[simp] theorem State.nfStartOf_clearSaved (s : State) (n c : Nat) (d : Nat) : (s.clearSaved n c).nfStartOf d = s.nfStartOf d := rfl
@[simp] theorem State.maxSfb_clearSaved (s : State) (n c : Nat) (d : Nat) : (s.clearSaved n c).maxSfb d = s.maxSfb d := rfl
@[simp] theorem State.ng_clearSaved (s : State) (n c : Nat) (d : Nat) : (s.clearSaved n c).ng d = s.ng d := rfl
@[simp] theorem State.gl_clearSaved (s : State) (n c : Nat) (d g' : Nat) : (s.clearSaved n c).gl d g' = s.gl d g' := rfl
@[simp] theorem State.bandWidth_clearSaved (s : State) (n c : Nat) (d b' : Nat) : (s.clearSaved n c).bandWidth d b' = s.bandWidth d b' := rfl
@[simp] theorem State.groupLens_clearSaved (s : State) (n c : Nat) (d : Nat) : (s.clearSaved n c).groupLens d = s.groupLens d := rfl
@[simp] theorem State.grp_clearSaved (s : State) (n c : Nat) (d w' : Nat) : (s.clearSaved n c).grp d w' = s.grp d w' := rfl
@[simp] theorem State.wins_clearSaved (s : State) (n c : Nat) (d g' : Nat) : (s.clearSaved n c).wins d g' = s.wins d g' := rfl
@[simp] theorem State.msBit_clearSaved (s : State) (n c : Nat) (d g' b' : Nat) : (s.clearSaved n c).msBit d g' b' = s.msBit d g' b' := rfl
@[simp] theorem State.fracAt_clearSaved (s : State) (n c : Nat) (d w' b' : Nat) : (s.clearSaved n c).fracAt d w' b' = s.fracAt d w' b' := rfl
@[simp] theorem State.wlen_clearSaved (P : Params) (s : State) (n c : Nat) (d : Nat) : (s.clearSaved n c).wlen P d = s.wlen P d := rfl
@[simp] theorem State.lineLo_clearSaved (P : Params) (s : State) (n c : Nat) (d w' b' : Nat) : (s.clearSaved n c).lineLo P d w' b' = s.lineLo P d w' b' := rfl

end Sys2Proof.Machine
end

