-- ==== Sys2Proof/Laws/Runs.lean ====
section
/-! SUPPORT. How a command's run goes: the inversion of sequencing, checks, readers, folds and `finish`. -/

namespace Sys2Proof.Machine

/-! ### Sequencing -/

/-- A sequence succeeds exactly when both parts do. -/
theorem bind_ok {α β : Type} {x : Except Halt α} {f : α → Except Halt β} {b : β} :
    (x >>= f) = .ok b ↔ ∃ a, x = .ok a ∧ f a = .ok b := by
  cases x <;> simp [bind, Except.bind]

/-- A sequence stops where its first part stops, or where the rest does. -/
theorem bind_error {α β : Type} {x : Except Halt α} {f : α → Except Halt β} {h : Halt} :
    (x >>= f) = .error h ↔ x = .error h ∨ ∃ a, x = .ok a ∧ f a = .error h := by
  cases x <;> simp [bind, Except.bind]

@[simp] theorem ok_bind {α β : Type} (a : α) (f : α → Except Halt β) :
    (Except.ok a >>= f : Except Halt β) = f a := rfl

@[simp] theorem error_bind {α β : Type} (h : Halt) (f : α → Except Halt β) :
    (Except.error h >>= f : Except Halt β) = .error h := rfl

@[simp] theorem raiseIf_ok {bad : Bool} {e : Err} {u : Unit} : raiseIf bad e = .ok u ↔ bad = false := by
  cases bad <;> simp [raiseIf]

@[simp] theorem raiseIf_error {bad : Bool} {e : Err} {h : Halt} :
    raiseIf bad e = .error h ↔ bad = true ∧ h = .raise e := by
  cases bad <;> simp [raiseIf, eq_comm]

@[simp] theorem raiseIf_false (e : Err) : raiseIf false e = .ok () := rfl

@[simp] theorem raiseIf_true (e : Err) : raiseIf true e = .error (.raise e) := rfl

@[simp] theorem chkCh_ok {P : Params} {c : Nat} {u : Unit} : chkCh P c = .ok u ↔ c < P.maxCh := by
  simp [chkCh]

@[simp] theorem chkStage_ok {s : State} {c : Nat} {g : Stage} {u : Unit} :
    chkStage s c g = .ok u ↔ (s.ch c).stage = g := by
  simp [chkStage]

theorem chkCfg_ok {P : Params} {s : State} {c : Nat} {u : Unit} :
    chkCfg P s c = .ok u ↔ chkBt P s c = .ok () ∧ chkIcs P s c = .ok () := by
  unfold chkCfg
  rw [bind_ok]
  exact ⟨fun ⟨_, h, h'⟩ => ⟨h, h'⟩, fun ⟨h, h'⟩ => ⟨_, h, h'⟩⟩

/-- CHK_BT passes exactly when R262 finds nothing wrong. -/
theorem chkBt_ok {P : Params} {s : State} {c : Nat} {u : Unit} :
    chkBt P s c = .ok u ↔ s.nsfbOf c ≤ 64 ∧ (∀ b < s.nsfbOf c, s.off c b < s.off c (b + 1)) ∧
      s.off c (s.nsfbOf c) ≤ s.wlen P c := by
  unfold chkBt
  rw [bind_ok]
  constructor
  · rintro ⟨_, h1, h2⟩
    cases hb : s.badBand c with
    | some b => rw [hb] at h2; cases h2
    | none =>
      rw [hb] at h2
      simp only [State.badBand, List.find?_eq_none, List.mem_range, decide_eq_true_eq, Nat.not_le] at hb
      simp only [raiseIf_ok, decide_eq_false_iff_not, Nat.not_lt] at h1 h2
      exact ⟨h1, hb, h2⟩
  · rintro ⟨h1, h2, h3⟩
    have hb : s.badBand c = none := by
      simp only [State.badBand, List.find?_eq_none, List.mem_range, decide_eq_true_eq, Nat.not_le]
      exact h2
    refine ⟨(), raiseIf_ok.2 (decide_eq_false (Nat.not_lt.2 h1)), ?_⟩
    rw [hb]
    simpa using h3

/-- CHK_ICS passes exactly when R263 finds nothing wrong. -/
theorem chkIcs_ok {P : Params} {s : State} {c : Nat} {u : Unit} :
    chkIcs P s c = .ok u ↔ (icsLtp (s.ch c).ics = true → P.profileLtp = true) ∧ icsGainCtrl (s.ch c).ics = false ∧
      icsErPayload (s.ch c).ics = false ∧ (icsLfe (s.ch c).ics = true → s.short c = false) ∧
      s.groupingOk c = true ∧ s.maxSfb c ≤ s.nsfbOf c := by
  simp [chkIcs, bind_ok]

/-! ### Readers -/

@[simp] theorem getWordAt_ok {m : Memory} {a : Nat} {w : Word} : getWordAt m a = .ok w ↔ readWord m a = some w := by
  unfold getWordAt; split <;> simp_all

@[simp] theorem getByteAt_ok {m : Memory} {a : Nat} {b : Byte} : getByteAt m a = .ok b ↔ readByte m a = some b := by
  unfold getByteAt; split <;> simp_all

/-- A reader of a cell never raises: it answers, or the model faults. -/
theorem getWordAt_error {m : Memory} {a : Nat} {h : Halt} :
    getWordAt m a = .error h ↔ readWord m a = none ∧ h = .fault (.unwrittenCell a) := by
  unfold getWordAt; cases readWord m a <;> simp [eq_comm]

theorem getByteAt_error {m : Memory} {a : Nat} {h : Halt} :
    getByteAt m a = .error h ↔ readByte m a = none ∧ h = .fault (.unwrittenCell a) := by
  unfold getByteAt; cases readByte m a <;> simp [eq_comm]

/-- A pass over a list answers exactly when every element does, and gives the answers in order. -/
theorem mapM_ok {α β : Type} {f : α → Except Halt β} {l : List α} {r : List β} :
    l.mapM f = .ok r ↔ List.Forall₂ (fun a b => f a = .ok b) l r := by
  induction l generalizing r with
  | nil => simp [pure, Except.pure, eq_comm]
  | cons a l ih =>
    rw [List.mapM_cons, bind_ok]
    constructor
    · rintro ⟨b, hb, h⟩
      obtain ⟨bs, hbs, h⟩ := bind_ok.1 h
      cases h
      exact .cons hb (ih.1 hbs)
    · rintro (_ | ⟨hb, h⟩)
      exact ⟨_, hb, bind_ok.2 ⟨_, ih.2 h, rfl⟩⟩

/-- n words are read exactly when each has a value (R451). -/
theorem getWords_ok {s : State} {M : ChMem} {c i n : Nat} {ws : List Word} :
    s.getWords M c i n = .ok ws ↔
      ws.length = n ∧ ∀ k (h : k < ws.length), readWord s.mem (cellAddr M c (i + k)) = some ws[k] := by
  unfold State.getWords
  rw [walkWords_eq, mapM_ok, List.forall₂_iff_get]
  simp only [List.length_range, List.get_eq_getElem, List.getElem_range, bind_ok, getWordAt_ok, cellAddr_add]
  constructor
  · rintro ⟨hl, h⟩
    refine ⟨hl.symm, fun k hk => ?_⟩
    obtain ⟨a, h1, h2⟩ := h k (by omega) hk
    cases h2
    exact h1
  · rintro ⟨hl, h⟩
    exact ⟨hl.symm, fun k _ hk => ⟨_, h k hk, rfl⟩⟩

/-- n byte cells are read exactly when each has a value (R451). -/
theorem getBytes_ok {s : State} {M : ChMem} {c i n : Nat} {bs : List Byte} :
    s.getBytes M c i n = .ok bs ↔
      bs.length = n ∧ ∀ k (h : k < bs.length), readByte s.mem (cellAddr M c (i + k)) = some bs[k] := by
  unfold State.getBytes
  rw [walkBytes_eq, mapM_ok, List.forall₂_iff_get]
  simp only [List.length_range, List.get_eq_getElem, List.getElem_range, getByteAt_ok, cellAddr_add]
  exact ⟨fun ⟨hl, h⟩ => ⟨hl.symm, fun k hk => h k (by omega) hk⟩,
    fun ⟨hl, h⟩ => ⟨hl.symm, fun k _ hk => h k hk⟩⟩

@[simp] theorem getByte_ok {s : State} {M : ChMem} {c i : Nat} {b : Byte} :
    s.getByte M c i = .ok b ↔ readByte s.mem (cellAddr M c i) = some b := getByteAt_ok

/-- The test for zero answers whether every word is 0 when each has a value. -/
theorem walkAllZero_ok {n : Nat} {m : Memory} {a : Nat} (h : ∀ k < n, (readWord m (a + 4 * k)).isSome) :
    walkAllZero n m a = .ok (decide (∀ k < n, readWord m (a + 4 * k) = some 0)) := by
  have key : ∀ n a' m', (∀ b, a' ≤ b → readWord m' b = readWord m b) → (∀ k < n, (readWord m (a' + 4 * k)).isSome) →
      walkAllZero n m' a' = .ok (decide (∀ k < n, readWord m (a' + 4 * k) = some 0)) := by
    intro n
    induction n with
    | zero => intros; simp [walkAllZero]
    | succ n ih =>
      intro a' m' hm hs
      obtain ⟨w, hw⟩ := Option.isSome_iff_exists.1 (hs 0 (by omega))
      have hw' : getWordAt (dropBelow a' m') a' = .ok w := by
        rw [getWordAt_ok, readWord_dropBelow (Nat.le_refl _), hm a' (Nat.le_refl _)]; exact hw
      have ht := ih (a' + 4) (dropBelow a' m')
        (fun b hb => (readWord_dropBelow (by omega) m').trans (hm b (by omega)))
        (fun k hk => by rw [show a' + 4 + 4 * k = a' + 4 * (k + 1) by omega]; exact hs (k + 1) (by omega))
      simp only [walkAllZero]
      rw [hw', ok_bind]
      by_cases h0 : w = 0
      · subst h0
        rw [if_pos rfl, ht]
        congr 2
        simp only [eq_iff_iff]
        constructor
        · intro h k hk
          cases k with
          | zero => exact hw
          | succ k =>
            have := h k (by omega)
            rwa [show a' + 4 + 4 * k = a' + 4 * (k + 1) by omega] at this
        · intro h k hk
          have := h (k + 1) (by omega)
          rwa [show a' + 4 * (k + 1) = a' + 4 + 4 * k by omega] at this
      · rw [if_neg h0]
        congr 1
        symm
        rw [decide_eq_false_iff_not]
        intro h
        have := h 0 (by omega)
        rw [hw] at this
        exact h0 (by simpa using this)
  exact key n a m (fun _ _ => rfl) h

/-! ### Folds -/

/-- What every round of a fold keeps, the fold keeps. -/
theorem foldlM_keeps {α σ : Type} {f : σ → α → Except Halt σ} {R : σ → σ → Prop} (hr : ∀ s, R s s)
    (ht : ∀ s t u, R s t → R t u → R s u) (hf : ∀ s x t, f s x = .ok t → R s t) {l : List α} {s t : σ}
    (h : l.foldlM f s = .ok t) : R s t := by
  induction l generalizing s with
  | nil => cases h; exact hr _
  | cons x l ih =>
    rw [List.foldlM_cons, bind_ok] at h
    obtain ⟨u, h1, h2⟩ := h
    exact ht s u t (hf s x u h1) (ih h2)

/-- A fold of rounds that each answer under an invariant answers and keeps the invariant. -/
theorem foldlM_total {α σ : Type} {f : σ → α → Except Halt σ} {I : σ → Prop} {l : List α}
    (hf : ∀ s, I s → ∀ x ∈ l, ∃ t, f s x = .ok t ∧ I t) {s : σ} (h : I s) : ∃ t, l.foldlM f s = .ok t ∧ I t := by
  induction l generalizing s with
  | nil => exact ⟨s, rfl, h⟩
  | cons x l ih =>
    obtain ⟨u, h1, h2⟩ := hf s h x (by simp)
    obtain ⟨t, h3, h4⟩ := ih (fun s hs y hy => hf s hs y (by simp [hy])) h2
    exact ⟨t, by rw [List.foldlM_cons, bind_ok]; exact ⟨u, h1, h3⟩, h4⟩

/-- What every round of a pure fold keeps, the fold keeps. -/
theorem foldl_keeps {α σ : Type} {f : σ → α → σ} {R : σ → σ → Prop} (hr : ∀ s, R s s)
    (ht : ∀ s t u, R s t → R t u → R s u) (hf : ∀ s x, R s (f s x)) (l : List α) (s : σ) : R s (l.foldl f s) := by
  induction l generalizing s with
  | nil => exact hr s
  | cons x l ih => exact ht _ _ _ (hf s x) (ih (f s x))

@[simp] theorem mem_pairList {nx nb : Nat} {p : Nat × Nat} : p ∈ pairList nx nb ↔ p.1 < nx ∧ p.2 < nb := by
  obtain ⟨x, b⟩ := p
  simp only [pairList, List.mem_flatMap, List.mem_range, List.mem_map, Prod.mk.injEq]
  constructor
  · rintro ⟨_, hx, _, hb, rfl, rfl⟩; exact ⟨hx, hb⟩
  · rintro ⟨hx, hb⟩; exact ⟨x, hx, b, hb, rfl, rfl⟩

/-! ### The outcome of a command -/

/-- Everything `finish` can do. -/
theorem finish_cases (base : State) (r : Except Halt State) :
    (∃ t, r = .ok t ∧ finish base r = .next t.complete) ∨
      (∃ e, r = .error (.raise e) ∧ finish base r = .next (base.raise e)) ∨
      ∃ f, r = .error (.fault f) ∧ finish base r = .fault f := by
  rcases r with (e | f) | t
  · exact .inr (.inl ⟨e, rfl, rfl⟩)
  · exact .inr (.inr ⟨f, rfl, rfl⟩)
  · exact .inl ⟨t, rfl, rfl⟩

/-- A command that answers completed its rule, or raised an error. -/
theorem finish_next {base : State} {r : Except Halt State} {t : State} (h : finish base r = .next t) :
    (∃ u, r = .ok u ∧ t = u.complete) ∨ ∃ e, r = .error (.raise e) ∧ t = base.raise e := by
  rcases r with (e | f) | u <;> simp only [finish, Host.Outcome.next.injEq, reduceCtorEq] at h
  · exact .inr ⟨e, rfl, h.symm⟩
  · exact .inl ⟨u, rfl, h.symm⟩

@[simp] theorem finish_ok (base t : State) : finish base (.ok t) = .next t.complete := rfl

@[simp] theorem finish_raise (base : State) (e : Err) : finish base (.error (.raise e)) = .next (base.raise e) := rfl

@[simp] theorem finish_fault (base : State) (f : Fault) : finish base (.error (.fault f)) = .fault f := rfl

/-- No command is refused. -/
theorem finish_not_refused (base : State) (r : Except Halt State) (q : Refusal) : finish base r ≠ .refused q := by
  rcases r with (e | f) | u <;> simp [finish]

end Sys2Proof.Machine
end

