-- ==== Sys2Proof/Laws/Bands.lean ====
section
/-! SUPPORT. What the band operators can do to a state: they write MANT, EXP and OVF, and nothing else. -/

namespace Sys2Proof.Machine

/-- Reading a band: its words and its exponent (R202). -/
theorem bandOf_ok {P : Params} {s : State} {mm em : ChMem} {c w b : Nat} {x : Band} :
    s.bandOf P mm em c w b = .ok x ↔ ∃ ws e, s.getWords mm c (s.lineLo P c w b) (s.bandWidth c b) = .ok ws ∧
      readByte s.mem (cellAddr em c (w * 64 + b)) = some e ∧ x = ⟨ws.map BitVec.toInt, e.toInt⟩ := by
  simp only [State.bandOf, bind_ok, getByte_ok, Except.ok.injEq]
  exact ⟨fun ⟨ws, h1, e, h2, h3⟩ => ⟨ws, e, h1, h2, h3.symm⟩, fun ⟨ws, e, h1, h2, h3⟩ => ⟨ws, h1, e, h2, h3.symm⟩⟩

/-- A band has as many lines as the table says (R203). -/
theorem bandOf_length {P : Params} {s : State} {mm em : ChMem} {c w b : Nat} {x : Band}
    (h : s.bandOf P mm em c w b = .ok x) : x.mant.length = s.bandWidth c b := by
  obtain ⟨ws, e, h1, _, rfl⟩ := bandOf_ok.1 h
  simpa using (getWords_ok.1 h1).1

/-- setband writes memory only (R202). -/
theorem setBandOf_frame (P : Params) (s : State) (mm em : ChMem) (c w b : Nat) (x : Band) :
    s.setBandOf P mm em c w b x = { s with mem := (s.setBandOf P mm em c w b x).mem } := rfl

theorem setBandOf_wf {s : State} (h : s.mem.wf) (P : Params) (mm em : ChMem) (c w b : Nat) (x : Band) :
    (s.setBandOf P mm em c w b x).mem.wf := putBytes_wf (putWords_wf h _ _ _ _) _ _ _ _

/-- Outside the lines and the exponent cell of the band, setband changes no byte. -/
theorem readByte_setBandOf_outside {P : Params} {s : State} {mm em : ChMem} {c w b : Nat} {x : Band} {a : Nat}
    (hm : a < cellAddr mm c (s.lineLo P c w b) ∨ cellAddr mm c (s.lineLo P c w b) + 4 * x.mant.length ≤ a)
    (he : a < cellAddr em c (w * 64 + b) ∨ cellAddr em c (w * 64 + b) + 4 ≤ a) :
    readByte (s.setBandOf P mm em c w b x).mem a = readByte s.mem a := by
  unfold State.setBandOf
  rw [readByte_putBytes_outside (by simpa using he), readByte_putWords_outside (by simpa using hm)]

/-! ### Writes never clear a mark -/

theorem readByte_wordCells_isSome (a : Nat) (ws : List Word) (b : Nat) (h1 : a ≤ b) (h2 : b < a + 4 * ws.length) :
    (readByte (wordCells a ws) b).isSome = true := by
  induction ws generalizing a with
  | nil => simp at h2; omega
  | cons w ws ih =>
    by_cases h : a + 4 ≤ b
    · simp only [wordCells, readByte_cons]
      rw [if_pos (by omega), if_pos (by omega), if_pos (by omega), if_pos (by omega)]
      exact ih (a + 4) h (by simp at h2; omega)
    · have : b = a ∨ b = a + 1 ∨ b = a + 2 ∨ b = a + 3 := by omega
      rcases this with rfl | rfl | rfl | rfl <;> simp [wordCells, readByte_cons]

/-- Writing words leaves every byte that had a value with one. -/
theorem readByte_putWords_isSome {s : State} {a : Nat} (h : (readByte s.mem a).isSome = true) (M : ChMem) (c i : Nat)
    (ws : List Word) : (readByte (s.putWords M c i ws).mem a).isSome = true := by
  by_cases ha : a < cellAddr M c i ∨ cellAddr M c i + 4 * ws.length ≤ a
  · rw [readByte_putWords_outside ha]; exact h
  · have hin : readByte (s.putWords M c i ws).mem a = readByte (wordCells (cellAddr M c i) ws) a :=
      readByte_splice_inside (wordCells_rising _ _) (by omega) (by rw [cellAddr_add]; omega)
    rw [hin]
    exact readByte_wordCells_isSome _ _ _ (by omega) (by omega)

/-- Writing words leaves every word that had a value with one. -/
theorem readWord_putWords_isSome {s : State} {a : Nat} (h : (readWord s.mem a).isSome = true) (M : ChMem) (c i : Nat)
    (ws : List Word) : (readWord (s.putWords M c i ws).mem a).isSome = true := by
  have split4 : ∀ m : Memory, (readWord m a).isSome = true ↔ (readByte m a).isSome = true ∧
      (readByte m (a + 1)).isSome = true ∧ (readByte m (a + 2)).isSome = true ∧ (readByte m (a + 3)).isSome = true := by
    intro m
    unfold readWord
    cases readByte m a <;> cases readByte m (a + 1) <;> cases readByte m (a + 2) <;> cases readByte m (a + 3) <;> simp
  rw [split4] at h ⊢
  exact ⟨readByte_putWords_isSome h.1 _ _ _ _, readByte_putWords_isSome h.2.1 _ _ _ _,
    readByte_putWords_isSome h.2.2.1 _ _ _ _, readByte_putWords_isSome h.2.2.2 _ _ _ _⟩

theorem cellAddr_mod (M : ChMem) (c i : Nat) : cellAddr M c i % 4 = 0 := by
  cases M <;> simp only [cellAddr, ChMem.offset] <;> omega

/-- Writing byte cells leaves every byte cell that had a value with one. -/
theorem readByte_putBytes_isSome {s : State} {a : Nat} (ha4 : a % 4 = 0) (h : (readByte s.mem a).isSome = true)
    (M : ChMem) (c i : Nat) (bs : List Byte) : (readByte (s.putBytes M c i bs).mem a).isSome = true := by
  by_cases ha : a < cellAddr M c i ∨ cellAddr M c i + 4 * bs.length ≤ a
  · rw [readByte_putBytes_outside ha]; exact h
  · have hm := cellAddr_mod M c i
    obtain ⟨k, rfl⟩ : ∃ k, a = cellAddr M c (i + k) :=
      ⟨(a - cellAddr M c i) / 4, by rw [cellAddr_add]; omega⟩
    rw [cellAddr_add] at ha
    rw [readByte_putBytes (by omega)]; rfl

/-! ### OP2, ADD1 and stereo filling -/

/-- Everything OP2 can do (R214): skip two all-zero bands, or store both results and OVF. -/
theorem op2At_ok {P : Params} {f : Int → Int → Int × Int} {c1 c2 w b : Nat} {s t : State} :
    s.op2At P f c1 c2 w b = .ok t ↔ ∃ x y, s.band P c1 w b = .ok x ∧ s.band P c2 w b = .ok y ∧
      ((op2 P f x y = none ∧ t = s) ∨
        ∃ r, op2 P f x y = some r ∧ t = ((s.setBand P c1 w b r.fst).setBand P c2 w b r.snd).orOvf r.ovf) := by
  simp only [State.op2At, bind_ok]
  constructor
  · rintro ⟨x, hx, y, hy, h⟩
    refine ⟨x, y, hx, hy, ?_⟩
    cases ho : op2 P f x y with
    | none => rw [ho] at h; cases h; exact .inl ⟨rfl, rfl⟩
    | some r => rw [ho] at h; cases h; exact .inr ⟨r, rfl, rfl⟩
  · rintro ⟨x, y, hx, hy, ⟨ho, rfl⟩ | ⟨r, ho, rfl⟩⟩
    · exact ⟨x, hx, y, hy, by rw [ho]⟩
    · exact ⟨x, hx, y, hy, by rw [ho]⟩

@[simp] theorem orOvf_mem (s : State) (b : Bool) : (s.orOvf b).mem = s.mem := rfl

theorem setBand_wf {s : State} (h : s.mem.wf) (P : Params) (c w b : Nat) (x : Band) :
    (s.setBand P c w b x).mem.wf := setBandOf_wf h _ _ _ _ _ _ _

/-- A frame of memory and OVF is kept by setband. -/
theorem setBand_frame {s u : State} (h : u = { s with mem := u.mem, ovf := u.ovf }) (P : Params) (c w b : Nat)
    (x : Band) : u.setBand P c w b x = { s with mem := (u.setBand P c w b x).mem, ovf := (u.setBand P c w b x).ovf } := by
  generalize hm : (u.setBand P c w b x).mem = m
  have e : u.setBand P c w b x = { u with mem := m } := by rw [← hm]; rfl
  rw [e, h]

/-- A frame of memory and OVF is kept by OR-ing OVF. -/
theorem orOvf_frame {s u : State} (h : u = { s with mem := u.mem, ovf := u.ovf }) (v : Bool) :
    u.orOvf v = { s with mem := (u.orOvf v).mem, ovf := (u.orOvf v).ovf } := by
  rw [h]; rfl

/-- OP2 writes memory and OVF only. -/
theorem op2At_frame {P : Params} {f : Int → Int → Int × Int} {c1 c2 w b : Nat} {s t : State}
    (h : s.op2At P f c1 c2 w b = .ok t) : t = { s with mem := t.mem, ovf := t.ovf } := by
  obtain ⟨x, y, _, _, ⟨_, rfl⟩ | ⟨r, _, rfl⟩⟩ := op2At_ok.1 h
  · rfl
  · exact orOvf_frame (setBand_frame (setBand_frame rfl _ _ _ _ _) _ _ _ _ _) _

theorem op2At_wf {P : Params} {f : Int → Int → Int × Int} {c1 c2 w b : Nat} {s t : State}
    (h : s.op2At P f c1 c2 w b = .ok t) (hs : s.mem.wf) : t.mem.wf := by
  obtain ⟨x, y, _, _, ⟨_, rfl⟩ | ⟨r, _, rfl⟩⟩ := op2At_ok.1 h
  · exact hs
  · rw [orOvf_mem]; exact setBand_wf (setBand_wf hs _ _ _ _ _) _ _ _ _ _

/-- Everything ADD1 can do (R218). -/
theorem add1At_ok {P : Params} {c w b : Nat} {z : List Int} {ez : Int} {s t : State} :
    s.add1At P c w b z ez = .ok t ↔ ∃ x, s.band P c w b = .ok x ∧
      ((add1 P x z ez = none ∧ t = s) ∨ ∃ r, add1 P x z ez = some r ∧ t = (s.setBand P c w b r.1).orOvf r.2) := by
  simp only [State.add1At, bind_ok]
  constructor
  · rintro ⟨x, hx, h⟩
    refine ⟨x, hx, ?_⟩
    cases ho : add1 P x z ez with
    | none => rw [ho] at h; cases h; exact .inl ⟨rfl, rfl⟩
    | some r => rw [ho] at h; cases h; exact .inr ⟨r, rfl, rfl⟩
  · rintro ⟨x, hx, ⟨ho, rfl⟩ | ⟨r, ho, rfl⟩⟩
    · exact ⟨x, hx, by rw [ho]⟩
    · exact ⟨x, hx, by rw [ho]⟩

/-- ADD1 writes memory and OVF only. -/
theorem add1At_frame {P : Params} {c w b : Nat} {z : List Int} {ez : Int} {s t : State}
    (h : s.add1At P c w b z ez = .ok t) : t = { s with mem := t.mem, ovf := t.ovf } := by
  obtain ⟨x, _, ⟨_, rfl⟩ | ⟨r, _, rfl⟩⟩ := add1At_ok.1 h
  · rfl
  · exact orOvf_frame (setBand_frame rfl _ _ _ _ _) _

theorem add1At_wf {P : Params} {c w b : Nat} {z : List Int} {ez : Int} {s t : State}
    (h : s.add1At P c w b z ez = .ok t) (hs : s.mem.wf) : t.mem.wf := by
  obtain ⟨x, _, ⟨_, rfl⟩ | ⟨r, _, rfl⟩⟩ := add1At_ok.1 h
  · exact hs
  · rw [orOvf_mem]; exact setBand_wf hs _ _ _ _ _

/-- Stereo filling either leaves the state or is one ADD1 into the residual band (R230). -/
theorem sfill_ok {P : Params} {c1 c2 b i : Nat} {s t : State} (h : s.sfill P c1 c2 b i = .ok t) :
    t = s ∨ ∃ z ez, s.add1At P c2 0 b z ez = .ok t := by
  simp only [State.sfill, bind_ok] at h
  obtain ⟨p1, _, p2, _, h⟩ := h
  cases hc : common p1 p2 with
  | none => rw [hc] at h; cases h; exact .inl rfl
  | some ep =>
    rw [hc] at h
    simp only [bind_ok] at h
    obtain ⟨x, _, sf, _, h⟩ := h
    split at h
    · cases h; exact .inl rfl
    · exact .inr ⟨_, _, h⟩

theorem sfill_frame {P : Params} {c1 c2 b i : Nat} {s t : State} (h : s.sfill P c1 c2 b i = .ok t) :
    t = { s with mem := t.mem, ovf := t.ovf } := by
  rcases sfill_ok h with rfl | ⟨z, ez, h⟩
  · rfl
  · exact add1At_frame h

theorem sfill_wf {P : Params} {c1 c2 b i : Nat} {s t : State} (h : s.sfill P c1 c2 b i = .ok t) (hs : s.mem.wf) :
    t.mem.wf := by
  rcases sfill_ok h with rfl | ⟨z, ez, h⟩
  · exact hs
  · exact add1At_wf h hs

end Sys2Proof.Machine
end

