-- ==== Sys2Proof/Laws/Commands.lean ====
section
/-! SUPPORT. What each command's rule can do when it answers: the checks that passed and the state it reaches, the
fields it can change, and that it keeps the memory in canonical form. -/

namespace Sys2Proof.Machine

/-! ### CH_BEGIN, IQ_SCALE, IQ_DEQUANT -/

theorem chBegin_ok {P : Params} {c : Nat} {s t : State} : chBegin P c s = .ok t ↔ c < P.maxCh ∧
    t = ((s.putBytes .cb c 0 (List.replicate 512 (P.escHcb.setWidth 8))).putBytes .nflag c 0
      (List.replicate 512 0)).setStage c .begun := by
  simp only [chBegin, bind_ok, chkCh_ok, Except.ok.injEq]
  exact ⟨fun ⟨_, h1, h2⟩ => ⟨h1, h2.symm⟩, fun ⟨h1, h2⟩ => ⟨(), h1, h2.symm⟩⟩

theorem iqScale_ok {P : Params} {c : Nat} {s t : State} : iqScale P c s = .ok t ↔ c < P.maxCh ∧
    (s.ch c).stage = .begun ∧ chkCfg P s c = .ok () ∧ ∃ cells, (pairList 8 64).mapM (scaleCell P s c) = .ok cells ∧
      t = ((s.putBytes .exp c 0 (cells.map (·.1))).setFrac c (cells.map (·.2))).setStage c .scaled := by
  simp only [iqScale, bind_ok, chkCh_ok, chkStage_ok, Except.ok.injEq]
  exact ⟨fun ⟨_, h1, _, h2, _, h3, cells, h4, h5⟩ => ⟨h1, h2, h3, cells, h4, h5.symm⟩,
    fun ⟨h1, h2, h3, cells, h4, h5⟩ => ⟨(), h1, (), h2, (), h3, cells, h4, h5.symm⟩⟩

theorem iqDequant_ok {P : Params} {c : Nat} {s t : State} : iqDequant P c s = .ok t ↔ c < P.maxCh ∧
    (s.ch c).stage = .scaled ∧ chkCfg P s c = .ok () ∧ ∃ bands qs,
      filterRun (isTransmitted P s c) (pairList (s.nwin c) (s.maxSfb c)) = .ok bands ∧
      bands.mapM (readQuant P s c) = .ok qs ∧
      t = (qs.foldl (putDequant P c) (s.putWords .mant c 0 (List.replicate P.nLong 0))).setStage c .decoded := by
  simp only [iqDequant, bind_ok, chkCh_ok, chkStage_ok, Except.ok.injEq]
  exact ⟨fun ⟨_, h1, _, h2, _, h3, bands, h4, qs, h5, h6⟩ => ⟨h1, h2, h3, bands, qs, h4, h5, h6.symm⟩,
    fun ⟨h1, h2, h3, bands, qs, h4, h5, h6⟩ => ⟨(), h1, (), h2, (), h3, bands, h4, qs, h5, h6.symm⟩⟩

theorem setCh_frame (s : State) (c : Nat) (x : Channel) : s.setCh c x = { s with chans := (s.setCh c x).chans } := rfl

theorem setBox_frame (s : State) (i : Nat) (x : Box) : s.setBox i x = { s with boxes := (s.setBox i x).boxes } := rfl

/-- CH_BEGIN writes memory and its channel's registers only. -/
theorem chBegin_frame {P : Params} {c : Nat} {s t : State} (h : chBegin P c s = .ok t) :
    t = { s with mem := t.mem, chans := t.chans } := by
  obtain ⟨_, rfl⟩ := chBegin_ok.1 h
  rfl

/-- IQ_SCALE writes memory and its channel's registers only. -/
theorem iqScale_frame {P : Params} {c : Nat} {s t : State} (h : iqScale P c s = .ok t) :
    t = { s with mem := t.mem, chans := t.chans } := by
  obtain ⟨_, _, _, _, _, rfl⟩ := iqScale_ok.1 h
  rfl

/-- The mantissa writes of IQ_DEQUANT touch memory only. -/
theorem putDequants_frame (P : Params) (c : Nat) (qs : List ((Nat × Nat) × List Word)) (s : State) :
    qs.foldl (putDequant P c) s = { s with mem := (qs.foldl (putDequant P c) s).mem } := by
  refine foldl_keeps (f := putDequant P c) (R := fun s t : State => t = { s with mem := t.mem }) (fun _ => rfl) ?_
    (fun _ _ => rfl) qs s
  intro s t u h1 h2
  rw [h2, h1]

/-- IQ_DEQUANT writes memory and its channel's registers only. -/
theorem iqDequant_frame {P : Params} {c : Nat} {s t : State} (h : iqDequant P c s = .ok t) :
    t = { s with mem := t.mem, chans := t.chans } := by
  obtain ⟨_, _, _, bands, qs, _, _, rfl⟩ := iqDequant_ok.1 h
  generalize hu : qs.foldl (putDequant P c) (s.putWords .mant c 0 (List.replicate P.nLong 0)) = u
  have e : u = { s with mem := u.mem } := by
    rw [← hu]
    exact (putDequants_frame P c qs _).trans rfl
  rw [e]
  rfl

theorem chBegin_wf {P : Params} {c : Nat} {s t : State} (h : chBegin P c s = .ok t) (hs : s.mem.wf) : t.mem.wf := by
  obtain ⟨_, rfl⟩ := chBegin_ok.1 h
  exact putBytes_wf (putBytes_wf hs _ _ _ _) _ _ _ _

theorem iqScale_wf {P : Params} {c : Nat} {s t : State} (h : iqScale P c s = .ok t) (hs : s.mem.wf) : t.mem.wf := by
  obtain ⟨_, _, _, _, _, rfl⟩ := iqScale_ok.1 h
  exact putBytes_wf hs _ _ _ _

theorem iqDequant_wf {P : Params} {c : Nat} {s t : State} (h : iqDequant P c s = .ok t) (hs : s.mem.wf) :
    t.mem.wf := by
  obtain ⟨_, _, _, bands, qs, _, _, rfl⟩ := iqDequant_ok.1 h
  exact foldl_keeps (R := fun s t : State => s.mem.wf → t.mem.wf) (fun _ h => h) (fun _ _ _ h1 h2 h => h2 (h1 h))
    (fun _ _ h => putWords_wf h _ _ _ _) qs _ (putWords_wf hs _ _ _ _)

/-! ### NOISE_FILL -/

/-- A round of NOISE_FILL keeps everything but memory and OVF. -/
theorem fillWindow_frame {P : Params} {c b : Nat} {nm ne : Int} {acc acc' : State × Word} {w : Nat}
    (h : fillWindow P c b nm ne acc w = .ok acc') :
    acc'.1 = { acc.1 with mem := acc'.1.mem, ovf := acc'.1.ovf } ∧ (acc.1.mem.wf → acc'.1.mem.wf) := by
  simp only [fillWindow, bind_ok] at h
  obtain ⟨u, hu, h⟩ := h
  cases h
  have e := add1At_frame hu
  refine ⟨?_, fun hs => putBytes_wf (add1At_wf hu hs) _ _ _ _⟩
  generalize hm : (u.putBytes ChMem.nflag c (w * 64 + b) [1]).mem = m
  have e' : u.putBytes ChMem.nflag c (w * 64 + b) [1] = { u with mem := m } := by rw [← hm]; rfl
  rw [e', e]

theorem fillBand_frame {P : Params} {c : Nat} {acc acc' : State × Word} {gb : Nat × Nat}
    (h : fillBand P c acc gb = .ok acc') :
    acc'.1 = { acc.1 with mem := acc'.1.mem, ovf := acc'.1.ovf } ∧ (acc.1.mem.wf → acc'.1.mem.wf) := by
  simp only [fillBand, bind_ok] at h
  obtain ⟨v, _, h⟩ := h
  cases v with
  | false => cases h; exact ⟨rfl, id⟩
  | true =>
    simp only [if_true, bind_ok] at h
    obtain ⟨sf, _, h⟩ := h
    refine foldlM_keeps (R := fun a a' : State × Word =>
      a'.1 = { a.1 with mem := a'.1.mem, ovf := a'.1.ovf } ∧ (a.1.mem.wf → a'.1.mem.wf)) (fun _ => ⟨rfl, id⟩) ?_
      (fun _ _ _ h => fillWindow_frame h) h
    rintro a a' a'' ⟨h1, k1⟩ ⟨h2, k2⟩
    exact ⟨by rw [h2, h1], fun x => k2 (k1 x)⟩

/-- Everything NOISE_FILL can do: nothing, or the loop over the bands and the new seed. -/
theorem noiseFill_ok {P : Params} {c : Nat} {s t : State} (h : noiseFill P c s = .ok t) : c < P.maxCh ∧
    (s.ch c).stage = .decoded ∧ chkCfg P s c = .ok () ∧ (t = s ∨ ∃ u seed,
      (pairList (s.ng c) (s.maxSfb c)).foldlM (fillBand P c) (s, (s.ch c).nseed) = .ok (u, seed) ∧
      u = { s with mem := u.mem, ovf := u.ovf } ∧ (s.mem.wf → u.mem.wf) ∧ t = u.setSeed c seed) := by
  simp only [noiseFill, bind_ok, chkCh_ok, chkStage_ok] at h
  obtain ⟨_, h1, _, h2, u, h3, h⟩ := h
  refine ⟨h1, h2, h3, ?_⟩
  split at h
  · cases h; exact .inl rfl
  · simp only [bind_ok] at h
    obtain ⟨r, hr, h⟩ := h
    cases h
    have k := foldlM_keeps (R := fun a a' : State × Word =>
      a'.1 = { a.1 with mem := a'.1.mem, ovf := a'.1.ovf } ∧ (a.1.mem.wf → a'.1.mem.wf)) (fun _ => ⟨rfl, id⟩)
      (by
        rintro a a' a'' ⟨h1, k1⟩ ⟨h2, k2⟩
        exact ⟨by rw [h2, h1], fun x => k2 (k1 x)⟩)
      (fun _ _ _ h => fillBand_frame h) hr
    exact .inr ⟨r.1, r.2, hr, k.1, k.2, rfl⟩

/-- NOISE_FILL writes memory, OVF and its channel's registers only. -/
theorem noiseFill_frame {P : Params} {c : Nat} {s t : State} (h : noiseFill P c s = .ok t) :
    t = { s with mem := t.mem, ovf := t.ovf, chans := t.chans } := by
  obtain ⟨_, _, _, rfl | ⟨u, seed, _, hu, _, rfl⟩⟩ := noiseFill_ok h
  · rfl
  · rw [hu]; rfl

theorem noiseFill_wf {P : Params} {c : Nat} {s t : State} (h : noiseFill P c s = .ok t) (hs : s.mem.wf) : t.mem.wf := by
  obtain ⟨_, _, _, rfl | ⟨u, seed, _, _, hw, rfl⟩⟩ := noiseFill_ok h
  · exact hs
  · exact hw hs

/-! ### MS_APPLY -/

/-- What a run that writes memory and OVF keeps. -/
def MemOnly (s t : State) : Prop := t = { s with mem := t.mem, ovf := t.ovf } ∧ (s.mem.wf → t.mem.wf)

theorem MemOnly.refl (s : State) : MemOnly s s := ⟨rfl, id⟩

theorem MemOnly.trans {s t u : State} (h1 : MemOnly s t) (h2 : MemOnly t u) : MemOnly s u :=
  ⟨by rw [h2.1, h1.1], fun h => h2.2 (h1.2 h)⟩

theorem op2At_memOnly {P : Params} {f : Int → Int → Int × Int} {c1 c2 w b : Nat} {s t : State}
    (h : s.op2At P f c1 c2 w b = .ok t) : MemOnly s t := ⟨op2At_frame h, op2At_wf h⟩

theorem sfill_memOnly {P : Params} {c1 c2 b i : Nat} {s t : State} (h : s.sfill P c1 c2 b i = .ok t) : MemOnly s t :=
  ⟨sfill_frame h, sfill_wf h⟩

theorem putWords_memOnly (s : State) (M : ChMem) (c i : Nat) (ws : List Word) : MemOnly s (s.putWords M c i ws) :=
  ⟨rfl, fun h => putWords_wf h _ _ _ _⟩

theorem putBytes_memOnly (s : State) (M : ChMem) (c i : Nat) (bs : List Byte) : MemOnly s (s.putBytes M c i bs) :=
  ⟨rfl, fun h => putBytes_wf h _ _ _ _⟩

theorem orOvf_memOnly (s : State) (b : Bool) : MemOnly s (s.orOvf b) := ⟨rfl, id⟩

theorem msBand_memOnly {P : Params} {c1 c2 : Nat} {s t : State} {wb : Nat × Nat} (h : msBand P c1 c2 s wb = .ok t) :
    MemOnly s t := by
  unfold msBand at h
  split at h
  · exact op2At_memOnly h
  · cases h; exact .refl _

theorem dmxBand_memOnly {P : Params} {c1 c2 : Nat} {s t : State} {wb : Nat × Nat} (h : dmxBand P c1 c2 s wb = .ok t) :
    MemOnly s t := by
  simp only [dmxBand, bind_ok] at h
  obtain ⟨x, _, y, _, h⟩ := h
  cases h
  exact ((putWords_memOnly _ _ _ _ _).trans (putBytes_memOnly _ _ _ _ _)).trans (orOvf_memOnly _ _)

theorem dmxUpdate_memOnly {P : Params} {c1 c2 : Nat} {s t : State} (h : dmxUpdate P c1 c2 s = .ok t) : MemOnly s t :=
  ((putWords_memOnly _ _ _ _ _).trans (putBytes_memOnly _ _ _ _ _)).trans
    (foldlM_keeps (R := MemOnly) .refl (fun _ _ _ => .trans) (fun _ _ _ => dmxBand_memOnly) h)

/-- Everything MS_APPLY can do: nothing without a common window, else M/S, the downmix and PREV_INFO. -/
theorem msApply_ok {P : Params} {c1 c2 : Nat} {cw : Bool} {s t : State} (h : msApply P c1 c2 cw s = .ok t) :
    c1 < P.maxCh ∧ c2 < P.maxCh ∧ c1 ≠ c2 ∧ (s.ch c1).stage = .decoded ∧ (s.ch c2).stage = .decoded ∧
    ((cw = false ∧ t = s) ∨ cw = true ∧ chkCfg P s c1 = .ok () ∧ chkCfg P s c2 = .ok () ∧ cwMismatch s c1 c2 = false ∧
      ∃ s1 s2, (pairList (s.nwin c1) (s.maxSfb c1)).foldlM (msBand P c1 c2) s = .ok s1 ∧ MemOnly s s1 ∧
        dmxUpdate P c1 c2 s1 = .ok s2 ∧ MemOnly s s2 ∧ t = savePrevWin c1 s2) := by
  simp only [msApply, bind_ok, chkCh_ok, chkStage_ok, raiseIf_ok, decide_eq_false_iff_not] at h
  obtain ⟨_, h1, _, h2, _, h3, _, h4, _, h5, h⟩ := h
  refine ⟨h1, h2, h3, h4, h5, ?_⟩
  cases cw with
  | false => cases h; exact .inl ⟨rfl, rfl⟩
  | true =>
    simp only [if_true, bind_ok, raiseIf_ok] at h
    obtain ⟨_, h6, _, h7, _, h8, s1, h9, s2, h10, h⟩ := h
    cases h
    have k := foldlM_keeps (R := MemOnly) .refl (fun _ _ _ => .trans) (fun _ _ _ => msBand_memOnly) h9
    exact .inr ⟨rfl, h6, h7, h8, s1, s2, h9, k, h10, k.trans (dmxUpdate_memOnly h10), rfl⟩

/-- MS_APPLY writes memory, OVF and its first channel's registers only. -/
theorem msApply_frame {P : Params} {c1 c2 : Nat} {cw : Bool} {s t : State} (h : msApply P c1 c2 cw s = .ok t) :
    t = { s with mem := t.mem, ovf := t.ovf, chans := t.chans } := by
  obtain ⟨_, _, _, _, _, ⟨_, rfl⟩ | ⟨_, _, _, _, s1, s2, _, _, _, k, rfl⟩⟩ := msApply_ok h
  · rfl
  · rw [k.1]; rfl

theorem msApply_wf {P : Params} {c1 c2 : Nat} {cw : Bool} {s t : State} (h : msApply P c1 c2 cw s = .ok t)
    (hs : s.mem.wf) : t.mem.wf := by
  obtain ⟨_, _, _, _, _, ⟨_, rfl⟩ | ⟨_, _, _, _, s1, s2, _, _, _, k, rfl⟩⟩ := msApply_ok h
  · exact hs
  · exact k.2 hs

/-! ### History reset and MCT_RESET -/

theorem forgetBoxes_frame (l : List Nat) (s : State) :
    l.foldl (fun t i => t.setBox i (t.box i).forget) s =
      { s with boxes := (l.foldl (fun t i => t.setBox i (t.box i).forget) s).boxes } := by
  refine foldl_keeps (R := fun s t : State => t = { s with boxes := t.boxes }) (fun _ => rfl) ?_ (fun _ _ => rfl) l s
  intro s t u h1 h2
  rw [h2, h1]

theorem forgetChannels_frame (P : Params) (l : List Nat) (s : State) :
    let t := l.foldl (fun t c => (t.clearSaved P.nLong c).setCh c (t.ch c).forget) s
    t = { s with mem := t.mem, chans := t.chans } ∧ (s.mem.wf → t.mem.wf) := by
  intro t
  refine foldl_keeps (f := fun t c => (t.clearSaved P.nLong c).setCh c (t.ch c).forget) (R := fun s t : State => t = { s with mem := t.mem, chans := t.chans } ∧ (s.mem.wf → t.mem.wf))
    (fun _ => ⟨rfl, id⟩) ?_ (fun s c => ⟨rfl, fun h => clearSaved_wf h _ _⟩) l s
  rintro s t u ⟨h1, k1⟩ ⟨h2, k2⟩
  exact ⟨by rw [h2, h1], fun h => k2 (k1 h)⟩

/-- HRESET writes memory, box and channel registers and PREV_MODE only, and PREV_MODE becomes NONE (R305). -/
theorem hreset_frame (P : Params) (s : State) :
    hreset P s = { s with mem := (hreset P s).mem, chans := (hreset P s).chans, boxes := (hreset P s).boxes,
                          prevMode := .none } := by
  unfold hreset
  generalize hu : (List.range P.maxBoxes).foldl (fun t i => t.setBox i (t.box i).forget) s = u
  have e1 : u = { s with boxes := u.boxes } := by
    rw [← hu]
    exact forgetBoxes_frame _ _
  have e2 := (forgetChannels_frame P (List.range P.maxCh) { u with prevMode := .none }).1
  rw [e2, e1]

theorem hreset_wf {P : Params} {s : State} (h : s.mem.wf) : (hreset P s).mem.wf := by
  unfold hreset
  refine (forgetChannels_frame P (List.range P.maxCh) _).2 ?_
  rw [forgetBoxes_frame]
  exact h

/-! ### MCT_PARSE -/

/-- The staged writes of MCT_PARSE touch the boxes and the latch only. -/
theorem commitParse_frame (P : Params) (s : State) (ps : List ParsedBox) :
    commitParse P s ps = { s with boxes := (commitParse P s ps).boxes, lBox := (commitParse P s ps).lBox,
                                  lCtrl := s.mctCtrl, mctState := .boxesParsed } := by
  unfold commitParse
  generalize hu : ps.zipIdx.foldl (fun t x => t.commitBox x.2 x.1) s = u
  have e1 : u = { s with boxes := u.boxes, lBox := u.lBox } := by
    rw [← hu]
    refine foldl_keeps (R := fun s t : State => t = { s with boxes := t.boxes, lBox := t.lBox }) (fun _ => rfl) ?_
      (fun _ _ => rfl) _ s
    intro s t u h1 h2
    rw [h2, h1]
  have e2 : ∀ (f : State → Nat → Box) (l : List Nat) (v : State), l.foldl (fun t i => t.setBox i (f t i)) v =
      { v with boxes := (l.foldl (fun t i => t.setBox i (f t i)) v).boxes } := by
    intro f l v
    refine foldl_keeps (R := fun s t : State => t = { s with boxes := t.boxes }) (fun _ => rfl) ?_ (fun _ _ => rfl) l v
    intro s t u h1 h2
    rw [h2, h1]
  simp only
  rw [e2 (fun t i => { t.box i with info := 0 }), e1]

/-- Everything MCT_PARSE can do: its checks pass on the state after the HRESET line, and it commits the boxes. -/
theorem mctParse_ok {P : Params} {s t : State} (h : mctParse P s = .ok t) : parseAllowed s = true ∧
    ctlNumBoxes s.mctCtrl ≤ P.maxBoxes ∧ ∃ ps, (List.range (ctlNumBoxes s.mctCtrl)).mapM
      (parseBox P (parseBase P s) (ctlKeepTree s.mctCtrl && !ctlIndep s.mctCtrl) (ctlMode s.mctCtrl) (ctlNch s.mctCtrl)) =
        .ok ps ∧ t = commitParse P (parseBase P s) ps := by
  have hc : (parseBase P s).mctCtrl = s.mctCtrl := by
    unfold parseBase
    split
    · rw [hreset_frame]
    · rfl
  have finish : ∀ {ps t}, (.ok (commitParse P (parseBase P s) ps) : Except Halt State) = .ok t →
      t = commitParse P (parseBase P s) ps := fun h => by cases h; rfl
  simp only [mctParse, parseFrame, bind_ok, raiseIf_ok, hc] at h
  obtain ⟨_, h1, _, h2, h⟩ := h
  refine ⟨by simpa using h1, by simpa using h2, ?_⟩
  split at h
  · simp only [bind_ok] at h
    obtain ⟨_, _, ps, h4, h⟩ := h
    exact ⟨ps, h4, finish h⟩
  · simp only [bind_ok] at h
    obtain ⟨_, _, ps, h4, h⟩ := h
    exact ⟨ps, h4, finish h⟩

/-! ### MCT_APPLY -/

theorem fillStereo_memOnly {P : Params} {i b : Nat} {s t : State} (h : fillStereo P i b s = .ok t) : MemOnly s t := by
  unfold fillStereo at h
  split at h
  · rw [bind_ok] at h
    obtain ⟨f, _, h⟩ := h
    split at h
    · exact sfill_memOnly h
    · cases h; exact .refl _
  · cases h; exact .refl _

theorem applyBand_memOnly {P : Params} {i : Nat} {s t : State} {wb : Nat × Nat} (h : applyBand P i s wb = .ok t) :
    MemOnly s t := by
  simp only [applyBand, bind_ok] at h
  obtain ⟨u, hu, h⟩ := h
  exact (fillStereo_memOnly hu).trans (op2At_memOnly h)

theorem applyBox_memOnly {P : Params} {s t : State} {i : Nat} (h : applyBox P s i = .ok t) : MemOnly s t :=
  foldlM_keeps (R := MemOnly) .refl (fun _ _ _ => .trans) (fun _ _ _ => applyBand_memOnly) h

/-- Everything MCT_APPLY can do: the boxes pass the re-check and run in order, and MCT_STATE moves on. -/
theorem mctApply_ok {P : Params} {s t : State} (h : mctApply P s = .ok t) : s.mctState = .boxesParsed ∧
    (List.range (ctlNumBoxes s.lCtrl)).forM (recheckBox P s) = .ok () ∧ ∃ u,
      (List.range (ctlNumBoxes s.lCtrl)).foldlM (applyBox P) s = .ok u ∧ MemOnly s u ∧
      t = { u with mctState := .rotationApplied } := by
  simp only [mctApply, bind_ok, raiseIf_ok, decide_eq_false_iff_not, not_not] at h
  obtain ⟨_, h1, _, h2, u, h3, h⟩ := h
  cases h
  exact ⟨h1, h2, u, h3, foldlM_keeps (R := MemOnly) .refl (fun _ _ _ => .trans) (fun _ _ _ => applyBox_memOnly) h3, rfl⟩

/-! ### MCT_CLOSE -/

/-- FAILCLOSE writes memory only (R342). -/
theorem failClose_frame (P : Params) (s : State) :
    failClose P s = { s with mem := (failClose P s).mem } ∧ (s.mem.wf → (failClose P s).mem.wf) := by
  refine foldl_keeps (R := fun s t : State => t = { s with mem := t.mem } ∧ (s.mem.wf → t.mem.wf))
    (fun _ => ⟨rfl, id⟩) ?_ (fun s c => ⟨rfl, fun h => clearSaved_wf h _ _⟩) _ s
  rintro s t u ⟨h1, k1⟩ ⟨h2, k2⟩
  exact ⟨by rw [h2, h1], fun h => k2 (k1 h)⟩

/-- The box part of COMMIT writes the boxes only (R341). -/
theorem commitBoxes_frame (P : Params) (s : State) : commitBoxes P s = { s with boxes := (commitBoxes P s).boxes } := by
  unfold commitBoxes
  have e : ∀ (f : State → Nat → Box) (l : List Nat) (v : State), l.foldl (fun t i => t.setBox i (f t i)) v =
      { v with boxes := (l.foldl (fun t i => t.setBox i (f t i)) v).boxes } := by
    intro f l v
    refine foldl_keeps (R := fun s t : State => t = { s with boxes := t.boxes }) (fun _ => rfl) ?_ (fun _ _ => rfl) l v
    intro s t u h1 h2
    rw [h2, h1]
  simp only
  rw [e (fun t i => (t.box i).drop), e (fun t i => (t.box i).commit (t.latch i))]

theorem saveChannel_frame {P : Params} {s t : State} {c : Nat} (h : saveChannel P s c = .ok t) :
    t = { s with mem := t.mem, chans := t.chans } ∧ (s.mem.wf → t.mem.wf) := by
  simp only [saveChannel, bind_ok] at h
  obtain ⟨ms, _, es, _, h⟩ := h
  cases h
  exact ⟨rfl, fun h => putBytes_wf (putWords_wf h _ _ _ _) _ _ _ _⟩

/-- Everything MCT_CLOSE can do: the failure path, or the commit of a rotated frame. -/
theorem mctClose_ok {P : Params} {ok : Bool} {s t : State} (h : mctClose P ok s = .ok t) :
    ((ok && !s.err) = false ∧ t = { failClose P s with mctState := .idle }.clearError) ∨
    ((ok && !s.err) = true ∧ s.mctState = .rotationApplied ∧ ∃ u, commitFrame P s = .ok u ∧
      u = { s with mem := u.mem, chans := u.chans, boxes := (commitBoxes P s).boxes,
                   prevMode := PrevMode.ofMode (ctlMode s.lCtrl) } ∧ (s.mem.wf → u.mem.wf) ∧
      t = { u with mctState := .saved }.clearError) := by
  unfold mctClose at h
  cases hk : ok && !s.err with
  | false => rw [hk] at h; cases h; exact .inl ⟨rfl, rfl⟩
  | true =>
    rw [hk] at h
    simp only [if_true, bind_ok, raiseIf_ok, decide_eq_false_iff_not, not_not] at h
    obtain ⟨_, h1, u, h2, h⟩ := h
    cases h
    have k := foldlM_keeps (R := fun s t : State => t = { s with mem := t.mem, chans := t.chans } ∧
      (s.mem.wf → t.mem.wf)) (fun _ => ⟨rfl, id⟩)
      (by
        rintro s t u ⟨h1, k1⟩ ⟨h2, k2⟩
        exact ⟨by rw [h2, h1], fun h => k2 (k1 h)⟩)
      (fun _ _ _ h => saveChannel_frame h) h2
    have e := commitBoxes_frame P s
    refine .inr ⟨rfl, h1, u, h2, ?_, ?_, rfl⟩
    · rw [k.1]
      rw [e]
    · intro hs
      refine k.2 ?_
      rw [e]
      exact hs

end Sys2Proof.Machine
end

