-- ==== Sys2Proof/Laws/Config.lean ====
section
/-! SUPPORT. The default build is legal (R10), and the configuration checks of a channel pass exactly when its
configuration is legal (R262 to R264). -/

namespace Sys2Proof.Machine

/-- A word of the open rotation table is held to its range (R226). -/
theorem q30_range (w : Word) : -1073741824 ≤ q30 w ∧ q30 w ≤ 1073741824 := by
  unfold q30
  omega

/-- The defaults of R10 are legal, whatever the rotation table holds. -/
theorem params_legal : params.Legal where
  maxCh := by decide
  maxBoxes := by decide
  nLong := by decide
  qMax := by decide
  iqHeadroom := by decide +kernel
  angles := by decide
  rotTable := fun _ _ => ⟨(q30_range _).1, (q30_range _).2, (q30_range _).1, (q30_range _).2⟩

/-- The check of R262 passes exactly when the band table is legal. -/
theorem bandTableOk_iff {s : State} {c : Nat} : BandTableOk s c ↔ chkBt params s c = .ok () := by
  rw [chkBt_ok]
  exact ⟨fun h => ⟨h.count, h.rising, h.last⟩, fun ⟨h1, h2, h3⟩ => ⟨h1, h2, h3⟩⟩

/-- The grouping test of R263 says what IcsOk says of the groups. -/
theorem groupingOk_iff {s : State} {c : Nat} : s.groupingOk c = true ↔
    (s.short c = false → s.ng c = 1 ∧ s.gl c 0 = 1) ∧
      (s.short c = true → 1 ≤ s.ng c ∧ s.ng c ≤ 8 ∧ (∀ g < s.ng c, 1 ≤ s.gl c g) ∧
        ((List.range (s.ng c)).map (s.gl c)).sum = 8) := by
  unfold State.groupingOk State.groupLens
  cases hs : s.short c <;> simp [and_assoc]

/-- The check of R263 passes exactly when the ICS is legal. -/
theorem icsOk_iff {s : State} {c : Nat} : IcsOk s c ↔ chkIcs params s c = .ok () := by
  rw [chkIcs_ok, groupingOk_iff]
  have hp : params.profileLtp = false := rfl
  rw [hp]
  constructor
  · rintro ⟨h1, h2, h3, h4, h5, h6, h7⟩
    exact ⟨by simp [h1], h2, h3, h4, ⟨h5, h6⟩, h7⟩
  · rintro ⟨h1, h2, h3, h4, ⟨h5, h6⟩, h7⟩
    exact ⟨by simpa using h1, h2, h3, h4, h5, h6, h7⟩

/-- CHK_CFG passes exactly when the configuration is legal (R264). -/
theorem cfgOk_iff {s : State} {c : Nat} : CfgOk s c ↔ chkCfg params s c = .ok () := by
  rw [chkCfg_ok, CfgOk, bandTableOk_iff, icsOk_iff]

/-- A legal configuration keeps every band inside its window and its channel (R262, R263). -/
theorem band_inside {s : State} {c w b : Nat} (h : CfgOk s c) (hw : w < s.nwin c) (hb : b < s.maxSfb c) :
    s.lineLo params c w b + s.bandWidth c b ≤ 1024 ∧ b < 64 ∧ w < 8 := by
  have hm := h.2.maxSfb
  have mono : ∀ n, n ≤ s.nsfbOf c → ∀ j ≤ n, s.off c j ≤ s.off c n := by
    intro n
    induction n with
    | zero => intro _ j hj; rw [Nat.le_zero.1 hj]
    | succ n ih =>
      intro hn j hj
      rcases Nat.lt_or_ge j (n + 1) with h' | h'
      · exact Nat.le_trans (ih (by omega) j (by omega)) (Nat.le_of_lt (h.1.rising n (by omega)))
      · rw [Nat.le_antisymm hj h']
  have h1 := mono _ (Nat.le_refl _) (b + 1) (by omega)
  have h2 := h.1.rising b (by omega)
  have h3 := h.1.last
  have h4 := h.1.count
  have hw8 : w * s.wlen params c + s.wlen params c ≤ 1024 ∧ w < 8 := by
    unfold State.nwin at hw
    unfold State.wlen
    cases hs : s.short c <;> simp only [hs, Config.nWinShort, params] at hw ⊢ <;> simp at hw ⊢ <;> omega
  unfold State.lineLo State.bandWidth
  omega

end Sys2Proof.Machine
end

