-- ==== Sys2Proof/Laws/Numerics.lean ====
section
/-! SUPPORT. What the integer search finds, and the shapes of the numeric operations' results. -/

namespace Sys2Proof.Machine

/-- The search finds the greatest value in reach that satisfies a predicate true below a bound and false above. -/
theorem greatestBits_spec {p : Nat → Bool} (hp : ∀ a b, a ≤ b → p b = true → p a = true) (n acc : Nat)
    (h : p acc = true) : p (greatestBits p n acc) = true ∧ acc ≤ greatestBits p n acc ∧
      ∀ y < acc + 2 ^ n, p y = true → y ≤ greatestBits p n acc := by
  induction n generalizing acc with
  | zero => exact ⟨h, Nat.le_refl _, fun y hy _ => by simp only [Nat.pow_zero] at hy; simp only [greatestBits]; omega⟩
  | succ n ih =>
    unfold greatestBits
    split
    · next hq =>
      obtain ⟨h1, h2, h3⟩ := ih (acc + 2 ^ n) hq
      have := Nat.two_pow_pos n
      exact ⟨h1, Nat.le_trans (Nat.le_add_right _ _) h2, fun y hy hpy => h3 y (by rw [Nat.pow_succ] at hy; omega) hpy⟩
    · next hq =>
      obtain ⟨h1, h2, h3⟩ := ih acc h
      refine ⟨h1, h2, fun y hy hpy => ?_⟩
      by_cases hy' : y < acc + 2 ^ n
      · exact h3 y hy' hpy
      · exact absurd (hp _ _ (by omega) hpy) hq

/-- Renormalisation keeps the number of lines (R212). -/
theorem renorm_length (xs : List Int) (e0 eold : Int) : (renorm xs e0 eold).1.mant.length = xs.length := by
  unfold renorm
  simp only
  split
  · rfl
  · split
    · simp
    · split <;> simp

/-- OP2 keeps the number of lines of two bands of one width (R214). -/
theorem op2_length {P : Params} {f : Int → Int → Int × Int} {x y : Band} {r : Op2Result} (h : op2 P f x y = some r)
    (hl : x.mant.length = y.mant.length) : r.fst.mant.length = x.mant.length ∧ r.snd.mant.length = y.mant.length := by
  unfold op2 at h
  split at h
  · cases h
  · cases h
    simp [renorm_length, hl]

/-- ADD1 keeps the number of lines (R218). -/
theorem add1_length {P : Params} {x : Band} {z : List Int} {ez : Int} {r : Band × Bool} (h : add1 P x z ez = some r)
    (hl : z.length = x.mant.length) : r.1.mant.length = x.mant.length := by
  unfold add1 at h
  split at h
  · cases h
  · cases h
    simp [renorm_length, hl]

/-- HALFSUM keeps the number of lines of two bands of one width (R219). -/
theorem halfSum_length {P : Params} {x y : Band} (hl : x.mant.length = y.mant.length) :
    (halfSum P x y).1.mant.length = x.mant.length := by
  unfold halfSum
  split <;> simp [renorm_length, hl]

/-- Every exponent an operator works at is an operand's (R207). -/
theorem common_cases {x y : Band} {e : Int} (h : common x y = some e) : e = x.exp ∨ e = y.exp := by
  unfold common at h
  split at h <;> simp only [Option.some.injEq, reduceCtorEq] at h
  · exact .inr h.symm
  · exact .inl h.symm
  · omega

/-- A value fits 32 bits after a floor shift by n exactly when n is at least its excess bits (R212). -/
theorem magBits_sub_le_iff (x : Int) (n : Nat) :
    magBits x - 31 ≤ n ↔ -2 ^ 31 ≤ x / 2 ^ n ∧ x / 2 ^ n < 2 ^ 31 := by
  have hp : (0 : Int) < 2 ^ n := by positivity
  have bits : ∀ m : Nat, (if m = 0 then 0 else m.log2 + 1) - 31 ≤ n ↔ m < 2 ^ (31 + n) := by
    intro m
    by_cases h : m = 0
    · subst h; simp
    · rw [if_neg h, ← Nat.log2_lt h]
      omega
  rw [Int.le_ediv_iff_mul_le hp, Int.ediv_lt_iff_lt_mul hp]
  have e : (2 : Int) ^ 31 * 2 ^ n = ((2 ^ (31 + n) : Nat) : Int) := by
    rw [Nat.pow_add, Nat.cast_mul, Nat.cast_pow, Nat.cast_pow, Nat.cast_ofNat]
  rw [neg_mul, e]
  cases x with
  | ofNat m =>
    rw [magBits, bits]
    simp only [Int.ofNat_eq_natCast]
    omega
  | negSucc m =>
    rw [magBits, bits]
    omega

/-- leastShift is the least shift after which every value fits 32 bits (R212). -/
theorem leastShift_le_iff (xs : List Int) (n : Nat) :
    leastShift xs ≤ n ↔ ∀ x ∈ xs, -2 ^ 31 ≤ x / 2 ^ n ∧ x / 2 ^ n < 2 ^ 31 := by
  induction xs with
  | nil => simp [leastShift]
  | cons x xs ih => simp only [leastShift, Nat.max_le, magBits_sub_le_iff, ih, List.forall_mem_cons]

/-- A list that is not all 0 has a nonzero member. -/
theorem allZero_eq_true_iff (xs : List Int) : allZero xs = true ↔ ∀ x ∈ xs, x = 0 := by simp [allZero]

/-- Two bands have no common exponent exactly when both are zero, and else the shared one (R206). -/
theorem common_eq_none_iff (x y : Band) : common x y = none ↔ x.isZero ∧ y.isZero := by
  unfold common Band.isZero
  cases hx : allZero x.mant <;> cases hy : allZero y.mant <;> simp [← allZero_eq_true_iff, hx, hy]

theorem common_eq_sharedExp {x y : Band} (h : ¬ (x.isZero ∧ y.isZero)) : common x y = some (sharedExp x y) := by
  revert h
  unfold common sharedExp Band.isZero
  cases hx : allZero x.mant <;> cases hy : allZero y.mant <;> simp [← allZero_eq_true_iff, hx, hy]

end Sys2Proof.Machine
end

