-- ==== Sys2Proof/Laws/PerInstr.lean ====
section
/-! SUPPORT. One law for each command: F[7:1] of its encoding, bits [31:25], are always 0 (R161). -/

namespace Sys2Proof.Laws

/-- The top seven bits of a packed word are 0. -/
theorem packWord_top (op : Byte) (a b : Nat) (f : Bool) : (packWord op a b f).extractLsb' 25 7 = 0 := by
  refine BitVec.eq_of_getLsbD_eq fun i hi => ?_
  have h : (BitVec.ofNat 7 0 ++ BitVec.ofBool f ++ BitVec.ofNat 8 b ++ BitVec.ofNat 8 a ++ op).getLsbD (25 + i) =
      false := by
    rw [BitVec.getLsbD_append, if_neg (by omega), BitVec.getLsbD_append, if_neg (by omega), BitVec.getLsbD_append,
      if_neg (by omega), BitVec.getLsbD_append, if_neg (by omega)]
    simp
  rw [BitVec.getLsbD_extractLsb']
  change (decide (i < 7) && (BitVec.ofNat 7 0 ++ BitVec.ofBool f ++ BitVec.ofNat 8 b ++ BitVec.ofNat 8 a ++ op).getLsbD (25 + i)) = _
  rw [h, Bool.and_false]
  exact (BitVec.getLsbD_zero).symm

/-- F[7:1] of the encoding is 0 (R161). -/
def ReservedFlagBits.Statement (i : Instr) : Prop := (encode i).extractLsb' 25 7 = 0

theorem ReservedFlagBits.nop : ReservedFlagBits.Statement .nop := packWord_top _ _ _ _

theorem ReservedFlagBits.chBegin (c : Nat) : ReservedFlagBits.Statement (.chBegin c) := packWord_top _ _ _ _

theorem ReservedFlagBits.iqScale (c : Nat) : ReservedFlagBits.Statement (.iqScale c) := packWord_top _ _ _ _

theorem ReservedFlagBits.iqDequant (c : Nat) : ReservedFlagBits.Statement (.iqDequant c) := packWord_top _ _ _ _

theorem ReservedFlagBits.noiseFill (c : Nat) : ReservedFlagBits.Statement (.noiseFill c) := packWord_top _ _ _ _

theorem ReservedFlagBits.msApply (c1 c2 : Nat) (cw : Bool) : ReservedFlagBits.Statement (.msApply c1 c2 cw) :=
  packWord_top _ _ _ _

theorem ReservedFlagBits.mctParse : ReservedFlagBits.Statement .mctParse := packWord_top _ _ _ _

theorem ReservedFlagBits.mctApply : ReservedFlagBits.Statement .mctApply := packWord_top _ _ _ _

theorem ReservedFlagBits.mctClose (ok : Bool) : ReservedFlagBits.Statement (.mctClose ok) := packWord_top _ _ _ _

theorem ReservedFlagBits.mctReset : ReservedFlagBits.Statement .mctReset := packWord_top _ _ _ _

theorem ReservedFlagBits.clearErr : ReservedFlagBits.Statement .clearErr := packWord_top _ _ _ _

end Sys2Proof.Laws
end

