-- ==== Sys2Proof/Laws/Step.lean ====
section
/-! SUPPORT. Everything a bus access, a block turn and a step can do, said once. -/

namespace Sys2Proof.Machine

/-! ### Bus accesses (R132) -/

/-- Everything a host read can do: an error response, a free value, or the cell's view. -/
theorem busRead_cases (P : Params) (s : State) (a : Word) (n : Nat) :
    (accessCell P a n = none ∧ busRead P s a n = s.busError) ∨
    ∃ x, accessCell P a n = some x ∧
      ((s.busy = true ∧ x.alwaysRead = false ∧ busRead P s a n = s.respondFree (fun v => v)) ∨
        ((s.busy = false ∨ x.alwaysRead = true) ∧
          ((∃ v, readView P s x = some v ∧ busRead P s a n = s.respond true v) ∨
            (readView P s x = none ∧ busRead P s a n = s.respondFree x.freeView)))) := by
  unfold busRead
  cases accessCell P a n with
  | none => exact .inl ⟨rfl, rfl⟩
  | some x =>
    refine .inr ⟨x, rfl, ?_⟩
    cases hb : s.busy <;> cases ha : x.alwaysRead <;> cases hv : readView P s x <;> simp [ha, hv]

/-- Everything a host write can do: an error response, a drop with HAZ, or the cell's write view. -/
theorem busWrite_cases (P : Params) (s : State) (a : Word) (n : Nat) (v : Word) :
    (accessCell P a n = none ∧ busWrite P s a n v = s.busError) ∨
    ∃ x, accessCell P a n = some x ∧
      ((s.busy = true ∧ x.alwaysWrite = false ∧ busWrite P s a n v = ({ s with haz := true }).respond true 0) ∨
        ((s.busy = false ∨ x.alwaysWrite = true) ∧ busWrite P s a n v = (writeView s v x).respond true 0)) := by
  unfold busWrite
  cases accessCell P a n with
  | none => exact .inl ⟨rfl, rfl⟩
  | some x =>
    refine .inr ⟨x, rfl, ?_⟩
    cases hb : s.busy <;> cases ha : x.alwaysWrite <;> simp [ha]

/-- A host write of a memory cell keeps the canonical form. -/
theorem writeMem_wf {s : State} (h : s.mem.wf) (c : Nat) (M : ChMem) (i : Nat) (v : Word) : (s.writeMem c M i v).mem.wf := by
  cases M <;> first | exact putWords_wf h _ _ _ _ | exact putBytes_wf h _ _ _ _ | exact h

/-- A host write leaves the memory, replaces cells of it, or resets it; each keeps the canonical form. -/
theorem writeView_wf {s : State} (h : s.mem.wf) (v : Word) (x : BusCell) : (writeView s v x).mem.wf := by
  cases x with
  | mem c M i => exact writeMem_wf h c M i v
  | ctrl =>
    simp only [writeView]
    split
    · exact ⟨List.Pairwise.nil, fun x hx => by cases hx⟩
    · exact h
  | _ => exact h

/-! ### Turns -/

/-- Everything the block's turn can do with a pending word (R160). -/
theorem runWord_cases (run : Runner) (s : State) (v : Word) :
    (s.err = true ∧ runsUnderErr v = false ∧ runWord run s v = .next { s with drop := true }.complete) ∨
    ((s.err = false ∨ runsUnderErr v = true) ∧
      ((∃ e, decode v = .error e ∧ runWord run s v = .next (s.raise (illegalErr e))) ∨
        ∃ i, decode v = .ok i ∧ runWord run s v = run i s)) := by
  unfold runWord
  cases s.err <;> cases runsUnderErr v <;> cases decode v <;> simp

/-- Everything a turn can do: a host access, a reset, an idle turn, or a run of the pending word. -/
theorem nextTurn_cases (P : Params) (run : Runner) (s : State) :
    (∃ x ts, s.turns = .host x :: ts ∧ nextTurn P run s = .next (busAccess P { s with turns := ts } x)) ∨
    (∃ ts, s.turns = .rst :: ts ∧ nextTurn P run s = .next ({ s with turns := ts } : State).hardReset) ∨
    ∃ u : State, u = { s with turns := u.turns } ∧
      ((u.pending = none ∧ nextTurn P run s = .next u) ∨
        ∃ v, u.pending = some v ∧ nextTurn P run s = runWord run u v) := by
  unfold nextTurn
  cases ht : s.turns with
  | nil =>
    refine .inr (.inr ⟨s, rfl, ?_⟩)
    unfold blockTurn
    cases hp : s.pending <;> simp
  | cons t ts =>
    cases t with
    | host x => exact .inl ⟨x, ts, rfl, rfl⟩
    | rst => exact .inr (.inl ⟨ts, rfl, rfl⟩)
    | block =>
      refine .inr (.inr ⟨{ s with turns := ts }, rfl, ?_⟩)
      simp only [takeTurn, blockTurn]
      cases hp : s.pending <;> simp

/-- Everything a step can do. -/
theorem step_cases (s : State) :
    (∃ x ts, s.turns = .host x :: ts ∧ step s = .next (busAccess params { s with turns := ts } x)) ∨
    (∃ ts, s.turns = .rst :: ts ∧ step s = .next ({ s with turns := ts } : State).hardReset) ∨
    ∃ u : State, u = { s with turns := u.turns } ∧
      ((u.pending = none ∧ step s = .next u) ∨ ∃ v, u.pending = some v ∧ step s = runWord exec u v) :=
  nextTurn_cases params exec s

/-- exec is the command of the default build. -/
theorem execWith_params (i : Instr) (s : State) : execWith params i s = exec i s := by cases i <;> rfl

/-- step is the step of the default build. -/
theorem stepWith_params (s : State) : stepWith params s = step s :=
  congrArg (fun run => nextTurn params run s) (funext fun i => funext fun s => execWith_params i s)

end Sys2Proof.Machine
end

