-- ==== Sys2Proof/Tests/Slice0.lean ====
section
/-! SUPPORT. Tests whose expected values come from spec/ (95_test_vectors.md unless said otherwise), and for every
statement with hypotheses a state and operands that meet them. -/

namespace Sys2Proof.Tests

open Sys2Proof Sys2Proof.Machine

-- The kernel evaluates these theorems one at a time: each thread of Lean takes memory for its own stack.
set_option Elab.async false

/-! ### Helpers -/

/-- The next state of an outcome. -/
def after (o : Host.Outcome State Fault Refusal) : State :=
  match o with
  | .next t => t
  | .fault _ => State.reset
  | .refused _ => State.reset

/-- Whether an outcome is a next state. -/
def isNext (o : Host.Outcome State Fault Refusal) : Bool :=
  match o with
  | .next _ => true
  | .fault _ => false
  | .refused _ => false

theorem exists_next {o : Host.Outcome State Fault Refusal} (h : isNext o = true) : ∃ t, o = .next t := by
  cases o with
  | next t => exact ⟨t, rfl⟩
  | fault f => cases h
  | refused r => cases h

/-- Whether a reader answers. -/
def answers {α : Type} (x : Except Halt α) : Bool :=
  match x with
  | .ok _ => true
  | .error _ => false

theorem exists_ok {α : Type} {x : Except Halt α} (h : answers x = true) : ∃ a, x = .ok a := by
  cases x with
  | ok a => exact ⟨a, rfl⟩
  | error e => cases h

/-- A configuration is legal when its check answers. -/
theorem cfg_of {s : State} {c : Nat} (h : answers (chkCfg params s c) = true) : CfgOk s c :=
  cfgOk_iff.2 (exists_ok h).choose_spec

/-- The band table of section 2.4 with one long band of four lines and one short band of two. -/
def tab : State :=
  { State.reset with
    nsfb := 0x00000101, sfbOffLong := vecOfList 65 [0, 4] 0, sfbOffShort := vecOfList 65 [0, 2] 0 }

/-- Set a channel's ICS, GROUP_LEN and STAGE. -/
def chan (s : State) (c : Nat) (ics gl : Word) (g : Stage) : State :=
  s.setCh c { s.ch c with ics := ics, groupLen := gl, stage := g }

/-- A long channel with noise filling and MAX_SFB 1, its CB and SF cells of band 0 written. -/
def oneBand (g : Stage) : State := ((chan tab 0 0x01010080 1 g).putBytes .sf 0 0 [100]).putBytes .cb 0 0 [11]

/-- Two decoded long channels whose band 0 holds [4096, 0, 0, 0] at 19, no box parsed. -/
def pair : State :=
  ((((chan (chan tab 0 0x01010000 1 .decoded) 1 0x01010000 1 .decoded).putWords .mant 0 0 [4096, 0, 0, 0]).putBytes
    .exp 0 0 [19]).putWords .mant 1 0 [4096, 0, 0, 0]).putBytes .exp 1 0 [19]

/-- The pair of channels with one MCT box loaded: angle, independent frame (S_R of section 2.5). -/
def loaded : State := { pair with mctCtrl := 0x00020105, chMap := vecOfList 16 [0, 1] 0 }

/-- The pair of channels with one latched full-band box in the given mode and coefficient. -/
def parsed (ctl coef : Word) : State :=
  { pair.setBox 0 { Box.reset with coef := vecOfList 64 [coef] 0 } with
    mctState := .boxesParsed, lCtrl := ctl, lBox := vecOfList 16 [⟨0, 0, 0, 0, 1, false, 1⟩] LBox.reset }

/-- A state whose block turn runs the word v. -/
def pend (s : State) (v : Word) : State := { s with pending := some v }

/-- A state whose next turn is the host's. -/
def turn (s : State) (x : Access) : State := { s with turns := [.host x] }

/-- The parameters with four entries of REF_ROT (R226). -/
def refParams : Params :=
  { params with
    rotTable := fun i =>
      if i = 48 then (759250125, 759250125) else if i = 32 then (1073741824, 0)
      else if i = 16 then (759250125, -759250125) else (0, -1073741824) }

/-- A build with eight channels, three boxes, 960 lines and another scale-factor offset and noise biases (R10). -/
def smallBuild : Params :=
  defaultKernels { params with
    maxCh := 8, maxBoxes := 3, nLong := 960, sfOffset := 96, noiseLevelBias := 13, noiseOffsetBias := 15 }

theorem smallBuild_legal : smallBuild.Legal where
  maxCh := by decide
  maxBoxes := by decide
  nLong := by decide
  qMax := by decide
  iqHeadroom := params_legal.iqHeadroom
  angles := by decide
  rotTable := params_legal.rotTable

/-! ### Well-formedness: one ill-formed command for each check -/

theorem test_wf_refuses_ch_begin : (Instr.chBegin 256).wf = false := by decide
theorem test_wf_refuses_iq_scale : (Instr.iqScale 256).wf = false := by decide
theorem test_wf_refuses_iq_dequant : (Instr.iqDequant 256).wf = false := by decide
theorem test_wf_refuses_noise_fill : (Instr.noiseFill 256).wf = false := by decide
theorem test_wf_refuses_ms_first : (Instr.msApply 256 0 true).wf = false := by decide
theorem test_wf_refuses_ms_second : (Instr.msApply 0 256 true).wf = false := by decide

/-! ### Decoding: words written out from R161 and R178 -/

theorem test_decode_nop : decodeTableWord 32 0x00000000 = some .nop := by decide
theorem test_decode_ch_begin : decodeTableWord 32 0x0000FF01 = some (.chBegin 255) := by decide
theorem test_decode_iq_scale : decodeTableWord 32 0x00000302 = some (.iqScale 3) := by decide
theorem test_decode_iq_dequant : decodeTableWord 32 0x00000F03 = some (.iqDequant 15) := by decide
theorem test_decode_noise_fill : decodeTableWord 32 0x00000104 = some (.noiseFill 1) := by decide
theorem test_decode_ms_apply : decodeTableWord 32 0x01010005 = some (.msApply 0 1 true) := by decide
theorem test_decode_ms_apply_order : decodeTableWord 32 0x00050205 = some (.msApply 2 5 false) := by decide
theorem test_decode_mct_parse : decodeTableWord 32 0x00000010 = some .mctParse := by decide
theorem test_decode_mct_apply : decodeTableWord 32 0x00000011 = some .mctApply := by decide
theorem test_decode_mct_commit : decodeTableWord 32 0x01000012 = some (.mctClose true) := by decide
theorem test_decode_mct_abort : decodeTableWord 32 0x00000012 = some (.mctClose false) := by decide
theorem test_decode_mct_reset : decodeTableWord 32 0x00000013 = some .mctReset := by decide
theorem test_decode_clear_err : decodeTableWord 32 0x00000020 = some .clearErr := by decide
theorem test_encode_ms_apply : encode (.msApply 2 5 false) = 0x00050205 := by decide
theorem test_decode_refuses_reserved_opcodes :
    [0x06, 0x0F, 0x14, 0x1F, 0x21, 0xFF].all (fun v => decodeTableWord 32 v = none) = true := by decide
theorem test_decode_refuses_reserved_fields :
    [0x02010005, 0x00010001, 0x80000000, 0x00000112, 0x00010002, 0x02000012, 0x00000100].all
      (fun v => decodeTableWord 32 v = none) = true := by decide

/-! ### Other builds than the default one (R10, R47) -/

theorem test_default_kernels : defaultKernels params = params := rfl
theorem test_zero_codebook : params.transmitted params.zeroHcb = false ∧ params.transmitted params.escHcb = true := by
  decide
theorem test_small_build_sizes :
    (after (stepWith smallBuild (turn State.reset (.read 0x1C 4)))).resp = some ⟨true, 0x00400308⟩ ∧
      (after (stepWith smallBuild (turn State.reset (.read 0x20 4)))).resp = some ⟨true, 0x000803C0⟩ := by decide +kernel
theorem test_small_build_ends : (after (stepWith smallBuild (pend tab 0x801))).errCode = 0xFF081006 ∧
    (after (stepWith smallBuild (turn tab (.read 0x100F00 4)))).buserr = true ∧
    (after (stepWith params (turn tab (.read 0x100F00 4)))).buserr = false := by decide +kernel
theorem test_small_build_exponent :
    readByte (after (execWith smallBuild (.iqScale 0) (oneBand .begun))).mem (cellAddr .exp 0 0) = some 20 := by
  decide +kernel

/-! ### Numerics -/

theorem test_align_b1_to_b6 : [align params (-1) 0 5, align params (-5) 0 1, align params (2 ^ 30) 0 31,
    align params (-2 ^ 30) 0 40, align params (2 ^ 31 - 1) (-128) 127, align params 12345 3 3] =
    [-1, -3, 0, -1, 0, 12345] := by decide
theorem test_renorm_b13 : renorm [-2 ^ 31 - 1] 4 9 = (⟨[-1073741825], 5⟩, false) := by decide +kernel
theorem test_renorm_b18_saturates : renorm [2 ^ 32] 126 0 = (⟨[2147483647], 127⟩, true) := by decide +kernel
theorem test_renorm_b24_low : renorm [2 ^ 31] (-130) 0 = (⟨[536870912], -128⟩, false) := by decide +kernel
theorem test_ms_b33 : pairAfter laneMs ⟨[4096], 19⟩ ⟨[4096], 17⟩ = (⟨[5120], 19⟩, ⟨[3072], 19⟩) := by decide +kernel
theorem test_rot_b45 : (op2 refParams (laneRot 759250125 759250125) ⟨[4096, 0], 19⟩ ⟨[0, 4096], 19⟩).map
    (fun r => (r.fst, r.snd)) = some (⟨[2896, -2897], 19⟩, ⟨[2896, 2896], 19⟩) := by decide +kernel
theorem test_pred_b53 : pairAfter (lanePred (params.alphaTable (-5)) false) ⟨[4096, -4096], 19⟩ ⟨[100, 100], 19⟩ =
    (⟨[2148, -1948], 19⟩, ⟨[6044, -6244], 19⟩) := by decide +kernel
theorem test_add_b61 : addAfter ⟨[4096], 19⟩ [1704458900] (-2) = ⟨[4908], 19⟩ := by decide +kernel
theorem test_half_sum_b69 : (halfSum params ⟨[0], 7⟩ ⟨[6], -128⟩).1 = ⟨[3], -128⟩ := by decide +kernel
theorem test_iq_mant : [params.iqMant 1 3, params.iqMant (-2) 0, params.iqMant 8 0, params.iqMant 8191 3] =
    [6888, -10321, 65536, 1137404684] := by decide +kernel
theorem test_noise_kernel_k3 : params.noiseKernel 7 16 101 = (2026954652, -2) := by decide +kernel
theorem test_noise_kernel_k8 : params.noiseKernel 7 31 255 = (1205234447, 41) := by decide +kernel
theorem test_noise_rng : params.noiseRng 0xD1CCF6E9 = (true, 0xAAF95334) := by decide +kernel
theorem test_alpha_table : [params.alphaTable (-60), params.alphaTable (-1), params.alphaTable 1] =
    [-1610612736, -26843546, 26843546] := by decide +kernel
theorem test_gain_k30 : sfillGain params [1073741824, 0] 0 [0, 0] 0 100 = 185363 := by decide +kernel
theorem test_gain_k31_cap : sfillGain params [1, 0] 0 [0, 0] 0 100 = 655360 := by decide +kernel
theorem test_gain_k32_no_room : sfillGain params [1073741824, 0] 31 [1073741824, 1073741824] 31 100 = 0 := by
  decide +kernel
/-- T2 = 2^-700 and E_dmx = 2^-318, so G^4 * 2^-636 <= 2^64 * 2^-700 holds up to G = 1. -/
theorem test_gain_large_offset : sfillGain { params with sfOffset := 700 } [1] (-128) [0] 0 0 = 1 := by decide +kernel
theorem test_pairs_4 : pairs 4 = [(0, 1), (0, 2), (0, 3), (1, 2), (1, 3), (2, 3)] := by decide

/-! ### One step of each command -/

theorem test_nop_t1 : (after (step (State.reset.withFetchWord 32 0))).statusWord = 2 ∧
    (after (step (State.reset.withFetchWord 32 0))).cmdCount = 1 := by decide +kernel

theorem test_clear_err : (after (exec .clearErr { State.reset with err := true, errCode := 0xFF101006 })).errCode = 0 ∧
    (after (exec .clearErr { State.reset with err := true, drop := true })).statusWord = 0x0A := by decide +kernel

theorem test_ch_begin_c1 : readByte (after (exec (.chBegin 15) tab)).mem (cellAddr .cb 15 511) = some 11 ∧
    readByte (after (exec (.chBegin 15) tab)).mem (cellAddr .nflag 15 0) = some 0 := by decide +kernel

theorem test_ch_begin_x1 : (after (exec (.chBegin 16) tab)).errCode = 0xFF101006 := by decide +kernel

theorem test_iq_scale_c2 : readByte (after (exec (.iqScale 0) (oneBand .begun))).mem (cellAddr .exp 0 0) = some 19 ∧
    ((after (exec (.iqScale 0) (oneBand .begun))).ch 0).stage = .scaled := by decide +kernel

theorem test_iq_scale_x2 : (after (exec (.iqScale 0) (oneBand .decoded))).errCode = 0xFF002005 := by decide +kernel

theorem test_iq_dequant_c3 :
    readWord (after (exec (.iqDequant 0) ((oneBand .scaled).putWords .qin 0 0 [1, -2, 0, 3]))).mem (cellAddr .mant 0 1) =
      some (-10321) := by decide +kernel

theorem test_iq_dequant_c5 :
    (after (exec (.iqDequant 0) ((oneBand .scaled).putWords .qin 0 0 [8192, 0, 0, 0]))).errCode = 0x00005003 := by
  decide +kernel

/-- A decoded channel with an empty band, level 7 and offset 16 (program P1's band). -/
def emptyBand : State :=
  let s := ((((oneBand .decoded).putWords .qin 0 0 [0, 0, 0, 0]).putBytes .nflag 0 0 [0]).putWords .mant 0 0
    [0, 0, 0, 0]).putBytes .exp 0 0 [19]
  s.setCh 0 { s.ch 0 with noise := 0x00001007 }

theorem test_noise_fill_b60 : readWord (after (exec (.noiseFill 0) emptyBand)).mem (cellAddr .mant 0 2) =
    some (-1704458900) ∧ ((after (exec (.noiseFill 0) emptyBand)).ch 0).nseed = 0xAAF95334 := by decide +kernel

theorem test_noise_fill_flags : readByte (after (exec (.noiseFill 0) emptyBand)).mem (cellAddr .nflag 0 0) = some 1 ∧
    readByte (after (exec (.noiseFill 0) emptyBand)).mem (cellAddr .exp 0 0) = some (-2) := by decide +kernel

/-- The pair with the mid/side mask bit of band 0 set. -/
def msPair : State := pair.setCh 0 { pair.ch 0 with msMaskLo := vecOfList 8 [1] 0 }

theorem test_ms_apply_c10 : readWord (after (exec (.msApply 0 1 true) msPair)).mem (cellAddr .mant 0 0) = some 8192 ∧
    readByte (after (exec (.msApply 0 1 true) msPair)).mem (cellAddr .dmxe 0 0) = some 18 := by decide +kernel

theorem test_ms_apply_x3 : (after (exec (.msApply 0 0 true) msPair)).errCode = 0xFF001106 := by decide +kernel

theorem test_mct_parse_m6 : ((after (exec .mctParse loaded)).box 0).coef[63]? = some 48 ∧
    ((after (exec .mctParse loaded)).box 0).info = 0x01020100 := by decide +kernel

theorem test_mct_parse_x17 : (after (exec .mctParse { loaded with mctCtrl := 0x00010105 })).errCode = 0x01FF1306 := by
  decide +kernel

theorem test_mct_apply_alpha_m13 :
    readWord (after (exec .mctApply (parsed 0x00020101 0))).mem (cellAddr .mant 0 0) = some 8192 := by decide +kernel

theorem test_mct_apply_angle_b41 :
    readWord (after (finish State.reset (mctApply refParams (parsed 0x00020105 48)))).mem (cellAddr .mant 1 0) =
      some 5792 := by decide +kernel

theorem test_mct_close_abort_x10 : (after (exec (.mctClose false) { tab with err := true, errCode := 1 })).errCode = 0 ∧
    (after (exec (.mctClose false) { tab with mctState := .saved })).mctState = .idle := by decide +kernel

/-- The commit of an empty angle frame (R340, corner case: NUM_BOXES = 0). -/
theorem test_mct_close_commit_empty :
    (after (exec (.mctClose true) { tab with mctState := .rotationApplied, lCtrl := 4 })).prevMode = .angle := by
  decide +kernel

theorem test_mct_reset_m17 : (after (exec .mctReset { parsed 0x00020105 48 with prevMode := .angle })).prevMode = .none ∧
    ((after (exec .mctReset (parsed 0x00020105 48))).box 0).coef[0]? = some 48 := by decide +kernel

/-! ### Bus and reset -/

theorem test_bus_id : (busRead params State.reset 0 4).resp = some ⟨true, 0x4D504831⟩ := by decide +kernel
theorem test_bus_param : (busRead params State.reset 0x1C 4).resp = some ⟨true, 0x00401010⟩ := by decide +kernel
theorem test_bus_exp_sign_extends :
    (busRead params (busWrite params State.reset 0x102004 4 0x180) 0x102004 4).resp = some ⟨true, 0xFFFFFF80⟩ := by
  decide +kernel
theorem test_bus_reserved_bits_drop :
    (busRead params (busWrite params State.reset 0x1000 4 0xFFFFFFFF) 0x1000 4).resp = some ⟨true, 0x0F7F03FF⟩ := by
  decide +kernel
theorem test_bus_misaligned_errors : (busRead params State.reset 0x102 4).resp = some ⟨false, 0⟩ ∧
    (busRead params State.reset 0x102 4).buserr = true := by decide +kernel
theorem test_memory_canonical_after_write :
    (busWrite params { State.reset with mem := [(0x100000, 7)] } 0x100000 4 9).mem =
      [(0x100000, 9), (0x100001, 0), (0x100002, 0), (0x100003, 0)] := by decide +kernel

/-! ### Witnesses: for each statement with hypotheses, a state and operands that meet them -/

theorem witness_DecodeAndEncodeAgree :
    (Instr.msApply 255 255 true).wf = true ∧ decode 0x01FFFF05 = .ok (.msApply 255 255 true) := by decide

theorem witness_RefusedWordRaisesIllegal :
    ((pend tab 0x21).turns = [] ∧ (pend tab 0x21).pending = some 0x21 ∧ (pend tab 0x21).err = false ∧
      decode 0x21 = .error .illegalOpcode) ∧
    ((pend tab 0x00010002).pending = some 0x00010002 ∧ decode 0x00010002 = .error .reservedField) := by decide +kernel

theorem witness_StepRunsTheDecodedCommand :
    ((pend tab 0x13).pending = some 0x13 ∧ decode 0x13 = .ok .mctReset ∧ cmdOp 0x13 ∈ [0x00, 0x12, 0x13, 0x20] ∧
      (pend tab 0x13).turns = []) ∧
    ({ pend tab 0x13 with turns := [.block] }.turns = [.block]) ∧
    (tab.err = false ∧ decodeTableWord 32 0x01010005 = some (.msApply 0 1 true)) := by decide +kernel

theorem witness_WritingCmdTakesACommand :
    ((turn tab (.write 4 4 0x10)).turns = [.host (.write 0x004 4 0x10)] ∧ (turn tab (.write 4 4 0x10)).pending = none) ∧
    (turn (pend tab 0x10) (.write 4 4 0)).pending ≠ none ∧ (turn tab (.read 4 4)).turns = [.host (.read 0x004 4)] := by
  decide +kernel

theorem witness_CommandsAreDroppedUnderErr :
    (turn { tab with err := true } (.write 4 4 0x21)).pending = none ∧
      (turn { tab with err := true } (.write 4 4 0x21)).err = true ∧ cmdOp 0x21 ∉ [0x00, 0x12, 0x13, 0x20] ∧
      (turn { tab with err := true } (.write 4 4 0x21)).turns = [.host (.write 0x004 4 0x21)] := by decide +kernel

theorem witness_ErrorsArePreciseAndRecordedOnce :
    (∃ t, exec (.chBegin 16) tab = .next t ∧ tab.err = false ∧ t.err = true) ∧
    ((pend { tab with err := true } 0x120).turns = [] ∧ cmdOp 0x120 ∈ [0x00, 0x12, 0x13, 0x20] ∧
      decode 0x120 = .error .reservedField) :=
  ⟨⟨_, rfl, by decide +kernel, by decide +kernel⟩, by decide +kernel⟩

/-- The model's fault on an unwritten QIN cell (R451). -/
theorem witness_FaultNamesAnUnwrittenCell :
    exec (.iqDequant 0) (oneBand .scaled) = .fault (.unwrittenCell (cellAddr .qin 0 0)) := by
  have h : (match exec (.iqDequant 0) (oneBand .scaled) with
      | .fault f => decide (f = .unwrittenCell (cellAddr .qin 0 0))
      | _ => false) = true := by decide +kernel
  split at h
  · next f hf => rw [hf]; simpa using h
  · cases h

theorem witness_AddressesNameDifferentCells :
    params.Legal ∧ smallBuild.Legal ∧ decodeAddr params 0x17EFFC = some (.mem 15 .dmxm 1023) ∧
    decodeAddr params 0xBFFC = some (.box 15 (.hist 63)) ∧ (7 < smallBuild.maxCh ∧ smallBuild.maxCh ≤ 8 ∧ 959 < smallBuild.nLong) ∧
    smallBuild.maxBoxes ≤ 3 := by
  exact ⟨params_legal, smallBuild_legal, by decide +kernel, by decide +kernel, by decide, by decide⟩

theorem witness_BadAccessesGetBusError :
    ((turn tab (.read 0x1004 2)).turns = [.host (.read 0x1004 2)] ∧ (0x1004 : Nat) % 4 = 0 ∧ (2 : Nat) ≠ 4) ∧
    ((0x103 : Word).toNat % 4 ≠ 0 ∧ (turn tab (.write 0x103 4 1)).turns = [.host (.write 0x103 4 1)]) ∧
    decodeAddr params (0x17FFFC : Word).toNat = none ∧ (0x1018 : Nat) % 0x80 = 0x18 := by decide +kernel

theorem witness_HostReadsHaveNoSideEffect :
    (turn tab (.read 0x100000 4)).turns = [.host (.read 0x100000 4)] ∧
      (decodeAddr params (0x100000 : Word).toNat).isSome = true ∧ tab.pending = none ∧
      decodeAddr params (0x2004 : Word).toNat = some .mctState ∧ readView params tab .mctState = some 0 := by
  decide +kernel

theorem witness_AccessesUnderBusy :
    (pend tab 0).pending ≠ none ∧
    (decodeAddr params (0x1000 : Word).toNat = some (.chan 0 .ics) ∧
      (turn (pend tab 0) (.read 0x1000 4)).turns = [.host (.read 0x1000 4)] ∧
      BusCell.chan 0 .ics ∉ [.id, .status, .errCode, .irqEn, .ctrl, .cmdCount, .param, .param2]) ∧
    ((turn (pend tab 0) (.write 0x1000 4 1)).turns = [.host (.write 0x1000 4 1)] ∧
      BusCell.chan 0 .ics ∉ [.status, .irqEn, .ctrl]) ∧
    (decodeAddr params (0x020 : Word).toNat = some .param2 ∧
      (turn (pend tab 0) (.read 0x020 4)).turns = [.host (.read 0x020 4)]) ∧
    (decodeAddr params (0x014 : Word).toNat = some .ctrl ∧
      (turn (pend tab 0) (.write 0x014 4 1)).turns = [.host (.write 0x014 4 1)]) := by decide +kernel

theorem witness_ReadOnlyWordsIgnoreWrites :
    (turn tab (.write 0x103800 4 1)).pending = none ∧
      (turn tab (.write 0x103800 4 1)).turns = [.host (.write 0x103800 4 1)] ∧
      decodeAddr params (0x103800 : Word).toNat = some (.mem 0 .nflag 0) ∧ (BusCell.mem 0 .nflag 0).readOnly = true := by
  decide +kernel

theorem witness_WrittenWordsReadBack :
    (turn tab (.write 0x17AFFC 4 7)).pending = none ∧
      (turn tab (.write 0x17AFFC 4 0x80)).turns = [.host (.write 0x17AFFC 4 0x80)] ∧
      decodeAddr params (0x17AFFC : Word).toNat = some (.mem 15 .sf 511) ∧
      (BusCell.mem 15 .sf 511).stored 0x180 = some 0x80 ∧
      decodeAddr params (0x17B000 : Word).toNat = some (.mem 15 .cb 0) := by decide +kernel

theorem witness_StatusReadAndClear :
    (turn tab (.read 0x008 4)).turns = [.host (.read 0x008 4)] ∧
      (turn tab (.write 0x008 4 0x7A)).turns = [.host (.write 0x008 4 0x7A)] := by decide +kernel

theorem witness_ResetPutsEverythingBack :
    { tab with turns := [.rst] }.turns = [.rst] ∧ (turn tab (.write 0x014 4 1)).turns = [.host (.write 0x014 4 1)] ∧
      (1 : Word).getLsbD 0 = true ∧ (turn tab (.write 0x014 4 2)).turns = [.host (.write 0x014 4 2)] ∧
      (2 : Word).getLsbD 0 = false := by decide +kernel

theorem witness_WhatResetLeaves :
    decodeAddr params (0x8FC : Word).toNat = some (.rotCos 63) ∧
      decodeAddr params (0x1057FC : Word).toNat = some (.mem 0 .pexp 511) := by decide +kernel

theorem witness_InterruptFollowsDoneAndErr :
    ∃ t, exec .nop { tab with irqEn := 1 } = .next t ∧ { tab with irqEn := 1 }.irqEn.getLsbD 0 = true :=
  ⟨_, rfl, by decide⟩

/-- A command that answers, for the statements about every command. -/
theorem witness_CommandsLeaveHostFieldsAlone : ∃ t, exec .mctParse loaded = .next t :=
  exists_next (by decide +kernel)

theorem witness_OnlyNoiseFillMovesTheSeed :
    (∃ t, exec (.noiseFill 0) emptyBand = .next t) ∧ Instr.noiseFill 0 ≠ .noiseFill 15 ∧ 15 < 16 :=
  ⟨exists_next (by decide +kernel), by decide, by decide⟩

theorem witness_StageMoves :
    ∃ t, exec (.chBegin 15) tab = .next t ∧ 15 < 16 ∧ (t.ch 15).stage ≠ (tab.ch 15).stage :=
  ⟨_, rfl, by decide, by decide +kernel⟩

theorem witness_MctStateMoves :
    (∃ t, exec .mctParse loaded = .next t ∧ loaded.err = false ∧ t.err = false) ∧
    (∃ t, exec .mctApply tab = .next t ∧ tab.err = false ∧ t.err = true) ∧
    ({ tab with mctState := .boxesParsed }.mctState ≠ .idle ∧ { tab with mctState := .boxesParsed }.mctState ≠ .saved) ∧
    (tab.mctState ≠ .boxesParsed ∧ tab.mctState ≠ .rotationApplied ∧ tab.err = false) ∧
    ∃ t, { tab with err := true }.err = true ∧ exec (.mctClose true) { tab with err := true } = .next t := by
  refine ⟨?_, ⟨_, rfl, by decide +kernel, by decide +kernel⟩, by decide +kernel, by decide +kernel, ⟨_, by decide, rfl⟩⟩
  obtain ⟨t, ht⟩ := exists_next (o := exec .mctParse loaded) (by decide +kernel)
  have h : (after (exec .mctParse loaded)).err = false := by decide +kernel
  rw [ht] at h
  exact ⟨t, ht, by decide +kernel, h⟩

theorem witness_NopCompletes : (pend tab 0x80000000).turns = [] ∧ (pend tab 0x80000000).pending = some 0x80000000 ∧
    cmdOp 0x80000000 = 0 ∧ (0x80000000 : Word) ≠ 0 ∧ (pend tab 0x80000000).err = false := by decide +kernel

theorem witness_ClearErrEndsTheError : (pend tab 0x120).turns = [] ∧ (pend tab 0x120).pending = some 0x120 ∧
    cmdOp 0x120 = 0x20 ∧ (0x120 : Word) ≠ 0x20 ∧ (pend tab 0x120).err = false ∧
    (pend { tab with err := true } 0x120).err = true := by decide +kernel

/-- Both slots at their bounds, and the first slot that does not exist. -/
theorem witness_ChBeginStartsTheFrame : (0 : Nat) < 16 ∧ (15 : Nat) < 16 ∧ (16 : Nat) ≤ 16 := by decide

theorem oneBand_cfg (g : Stage) : CfgOk (oneBand g) 0 := cfg_of (by cases g <;> decide +kernel)

theorem witness_IqScaleSetsTheExponents :
    0 < 16 ∧ ((oneBand .begun).ch 0).stage = .begun ∧ CfgOk (oneBand .begun) 0 ∧
    (∀ w < (oneBand .begun).nwin 0, ∀ b < (oneBand .begun).maxSfb 0,
      byteMarked (oneBand .begun).mem .cb 0 ((oneBand .begun).grp 0 w * 64 + b) ∧
      (isCoded (oneBand .begun) 0 ((oneBand .begun).grp 0 w) b = true →
        byteMarked (oneBand .begun).mem .sf 0 ((oneBand .begun).grp 0 w * 64 + b))) := by
  refine ⟨by decide, by decide +kernel, oneBand_cfg _, ?_⟩
  unfold byteMarked
  decide +kernel

/-- IQ_DEQUANT's channel: one band of four lines, the last at -QMAX. -/
def quantised (q : Word) : State := (oneBand .scaled).putWords .qin 0 0 [1, -2, 0, q]

theorem quantised_inT (q : Word) {w b : Nat} (h : inT (quantised q) 0 w b) : w = 0 ∧ b = 0 := by
  obtain ⟨h1, h2, _⟩ := h
  have e1 : (quantised q).nwin 0 = 1 := by
    change (oneBand .scaled).nwin 0 = 1
    decide +kernel
  have e2 : (quantised q).maxSfb 0 = 1 := by
    change (oneBand .scaled).maxSfb 0 = 1
    decide +kernel
  omega

theorem witness_IqDequantWritesTheMantissas :
    0 < 16 ∧ ((quantised (-8191)).ch 0).stage = .scaled ∧ CfgOk (quantised (-8191)) 0 ∧
    (∀ w < (quantised (-8191)).nwin 0, ∀ b < (quantised (-8191)).maxSfb 0,
      byteMarked (quantised (-8191)).mem .cb 0 ((quantised (-8191)).grp 0 w * 64 + b)) ∧
    (∀ w b k, inT (quantised (-8191)) 0 w b → k < (quantised (-8191)).bandWidth 0 b → ∃ q : Word,
      readWord (quantised (-8191)).mem (cellAddr .qin 0 ((quantised (-8191)).lineLo params 0 w b + k)) = some q ∧
        q.toInt.natAbs ≤ 8191) ∧ inT (quantised (-8191)) 0 0 0 := by
  refine ⟨by decide, by decide +kernel, cfg_of (by decide +kernel), ?_, ?_, by unfold inT; decide +kernel⟩
  · unfold byteMarked
    decide +kernel
  · intro w b k h hk
    obtain ⟨rfl, rfl⟩ := quantised_inT _ h
    have e : (quantised (-8191)).bandWidth 0 0 = 4 := by decide +kernel
    have hk' : k = 0 ∨ k = 1 ∨ k = 2 ∨ k = 3 := by omega
    rcases hk' with rfl | rfl | rfl | rfl
    · exact ⟨1, by decide +kernel, by decide⟩
    · exact ⟨-2, by decide +kernel, by decide⟩
    · exact ⟨0, by decide +kernel, by decide⟩
    · exact ⟨-8191, by decide +kernel, by decide⟩

theorem witness_IqDequantRangeError :
    0 < 16 ∧ ((quantised 8192).ch 0).stage = .scaled ∧ CfgOk (quantised 8192) 0 ∧
    (∀ w < (quantised 8192).nwin 0, ∀ b < (quantised 8192).maxSfb 0,
      byteMarked (quantised 8192).mem .cb 0 ((quantised 8192).grp 0 w * 64 + b)) ∧ inT (quantised 8192) 0 0 0 ∧
    3 < (quantised 8192).bandWidth 0 0 ∧
    readWord (quantised 8192).mem (cellAddr .qin 0 ((quantised 8192).lineLo params 0 0 0 + 3)) = some 8192 ∧
    8191 < (8192 : Word).toInt.natAbs ∧
    (∀ w' b' k', inT (quantised 8192) 0 w' b' → k' < (quantised 8192).bandWidth 0 b' →
      (w' < 0 ∨ (w' = 0 ∧ (b' < 0 ∨ (b' = 0 ∧ k' < 3)))) → ∃ q' : Word,
        readWord (quantised 8192).mem (cellAddr .qin 0 ((quantised 8192).lineLo params 0 w' b' + k')) = some q' ∧
          q'.toInt.natAbs ≤ 8191) := by
  refine ⟨by decide, by decide +kernel, cfg_of (by decide +kernel), ?_, by unfold inT; decide +kernel, by decide +kernel,
    by decide +kernel, by decide, ?_⟩
  · unfold byteMarked
    decide +kernel
  · intro w b k h hk hl
    obtain ⟨rfl, rfl⟩ := quantised_inT _ h
    have hk' : k = 0 ∨ k = 1 ∨ k = 2 := by omega
    rcases hk' with rfl | rfl | rfl
    · exact ⟨1, by decide +kernel, by decide⟩
    · exact ⟨-2, by decide +kernel, by decide⟩
    · exact ⟨0, by decide +kernel, by decide⟩

theorem emptyBand_cfg : CfgOk emptyBand 0 := cfg_of (by decide +kernel)

/-- Both cases of NOISE_FILL: level 0, and one candidate band that is filled. -/
theorem witness_NoiseFillFillsTheCandidates :
    (0 < 16 ∧ (emptyBand.ch 0).stage = .decoded ∧ CfgOk emptyBand 0) ∧
    noiseLevel ((oneBand .decoded).ch 0).noise = 0 ∧
    (icsNoiseEn (emptyBand.ch 0).ics = true ∧ noiseLevel (emptyBand.ch 0).noise ≠ 0 ∧ NoiseReadable emptyBand 0) ∧
    noiseFills emptyBand 0 = [(0, 0, 0)] := by
  refine ⟨⟨by decide, by decide +kernel, emptyBand_cfg⟩, by decide +kernel,
    ⟨by decide +kernel, by decide +kernel, ⟨?_, ?_, ?_, ?_⟩⟩, by decide +kernel⟩
  · unfold byteMarked
    decide +kernel
  · unfold wordMarked
    decide +kernel
  · unfold byteMarked
    decide +kernel
  · have h : noiseFills emptyBand 0 = [(0, 0, 0)] := by decide +kernel
    intro x hx
    rw [h, List.mem_singleton] at hx
    subst hx
    exact ⟨by unfold byteMarked; decide +kernel, exists_ok (by decide +kernel)⟩

theorem witness_NoiseFillTwiceAddsNothing : 0 < 256 ∧ ∃ t, exec (.noiseFill 0) emptyBand = .next t :=
  ⟨by decide, exists_next (by decide +kernel)⟩

theorem witness_MsApplyWithoutCommonWindow :
    0 < 16 ∧ 1 < 16 ∧ (0 : Nat) ≠ 1 ∧ (msPair.ch 0).stage = .decoded ∧ (msPair.ch 1).stage = .decoded := by decide +kernel

theorem msPair_cfg (c : Nat) (h : c < 2) : CfgOk msPair c := by
  have e : ∀ c < 2, answers (chkCfg params msPair c) = true := by decide +kernel
  exact cfg_of (e c h)

theorem witness_MsApplyCombinesTheMaskedBands :
    ((msPair.ch 0).stage = .decoded ∧ (msPair.ch 1).stage = .decoded ∧ CfgOk msPair 0 ∧ CfgOk msPair 1) ∧
    (icsWinSeq (msPair.ch 0).ics = icsWinSeq (msPair.ch 1).ics ∧ msPair.ng 0 = msPair.ng 1 ∧
      (∀ g < msPair.ng 0, msPair.gl 0 g = msPair.gl 1 g) ∧ msPair.maxSfb 0 = msPair.maxSfb 1) ∧
    (∀ w < msPair.nwin 0, ∀ b < msPair.maxSfb 0,
      (∃ x, msPair.band params 0 w b = .ok x) ∧ ∃ y, msPair.band params 1 w b = .ok y) ∧
    msPair.msBit 0 (msPair.grp 0 0) 0 = true := by
  refine ⟨⟨by decide +kernel, by decide +kernel, msPair_cfg 0 (by decide), msPair_cfg 1 (by decide)⟩, by decide +kernel,
    fun w hw b hb => ?_, by decide +kernel⟩
  have h : ∀ w < msPair.nwin 0, ∀ b < msPair.maxSfb 0,
      answers (msPair.band params 0 w b) = true ∧ answers (msPair.band params 1 w b) = true := by decide +kernel
  exact ⟨exists_ok (h w hw b hb).1, exists_ok (h w hw b hb).2⟩

/-- Every cell that decoding writes, of channels 0 and 1. -/
def writeBoth (s : State) : State :=
  let bytes := fun (u : State) (c : Nat) =>
    ((u.putBytes .cb c 0 (List.replicate 512 11)).putBytes .nflag c 0 (List.replicate 512 0)).putBytes .exp c 0
      (List.replicate 512 0)
  ((bytes (bytes s 0) 1).putWords .mant 0 0 (List.replicate 1024 0)).putWords .mant 1 0 (List.replicate 1024 0)

theorem marked_putWords {s : State} {M : ChMem} {c i : Nat} (h : byteMarked s.mem M c i) (N : ChMem) (d j : Nat)
    (ws : List Word) : byteMarked (s.putWords N d j ws).mem M c i := readByte_putWords_isSome h _ _ _ _

theorem marked_putBytes {s : State} {M : ChMem} {c i : Nat} (h : byteMarked s.mem M c i) (N : ChMem) (d j : Nat)
    (bs : List Byte) : byteMarked (s.putBytes N d j bs).mem M c i :=
  readByte_putBytes_isSome (cellAddr_mod _ _ _) h _ _ _ _

theorem marked_new (s : State) (M : ChMem) (c : Nat) (v : Byte) {i : Nat} (h : i < 512) :
    byteMarked (s.putBytes M c 0 (List.replicate 512 v)).mem M c i := by
  have e := readByte_putBytes (s := s) (M := M) (c := c) (i := 0) (bs := List.replicate 512 v) (k := i)
    (by rw [List.length_replicate]; exact h)
  rw [Nat.zero_add] at e
  unfold byteMarked
  rw [e]
  rfl

theorem word_marked_new (s : State) (M : ChMem) (c : Nat) (v : Word) {k : Nat} (h : k < 1024) :
    wordMarked (s.putWords M c 0 (List.replicate 1024 v)).mem M c k := by
  have e := readWord_putWords (s := s) (M := M) (c := c) (i := 0) (ws := List.replicate 1024 v) (k := k)
    (by rw [List.length_replicate]; exact h)
  rw [Nat.zero_add] at e
  unfold wordMarked
  rw [e]
  rfl

/-- After writeBoth every mark of channels 0 and 1 is there. -/
theorem marks_writeBoth (s : State) (c : Nat) (h : c < 2) : ChannelMarks (writeBoth s) c := by
  have h' : c = 0 ∨ c = 1 := by omega
  rcases h' with rfl | rfl
  · exact ⟨fun _ i hi => marked_putWords (marked_putWords (marked_putBytes (marked_putBytes (marked_putBytes
        (marked_putBytes (marked_putBytes (marked_new _ _ _ _ hi) _ _ _ _) _ _ _ _) _ _ _ _) _ _ _ _) _ _ _ _) _ _ _ _) _ _ _ _,
      fun _ i hi => marked_putWords (marked_putWords (marked_putBytes (marked_putBytes (marked_putBytes
        (marked_putBytes (marked_new _ _ _ _ hi) _ _ _ _) _ _ _ _) _ _ _ _) _ _ _ _) _ _ _ _) _ _ _ _,
      fun _ i hi => marked_putWords (marked_putWords (marked_putBytes (marked_putBytes (marked_putBytes
        (marked_new _ _ _ _ hi) _ _ _ _) _ _ _ _) _ _ _ _) _ _ _ _) _ _ _ _,
      fun _ k hk => readWord_putWords_isSome (word_marked_new _ _ _ _ hk) _ _ _ _⟩
  · exact ⟨fun _ i hi => marked_putWords (marked_putWords (marked_putBytes (marked_putBytes
        (marked_new _ _ _ _ hi) _ _ _ _) _ _ _ _) _ _ _ _) _ _ _ _,
      fun _ i hi => marked_putWords (marked_putWords (marked_putBytes (marked_new _ _ _ _ hi) _ _ _ _) _ _ _ _) _ _ _ _,
      fun _ i hi => marked_putWords (marked_putWords (marked_new _ _ _ _ hi) _ _ _ _) _ _ _ _,
      fun _ k hk => word_marked_new _ _ _ _ hk⟩

/-- Channels 0 and 1 decoded, every cell of theirs written, every other channel idle. -/
theorem witness_MsApplyNeverFaultsOnDecodedChannels :
    MarksFollowStage (writeBoth pair) ∧ ((writeBoth pair).ch 0).stage = .decoded ∧
      ((writeBoth pair).ch 1).stage = .decoded := by
  have idle : ∀ c < 16, 2 ≤ c → ((writeBoth pair).ch c).stage = .idle := by
    change ∀ c < 16, 2 ≤ c → (pair.ch c).stage = .idle
    decide +kernel
  refine ⟨fun c hc => ?_, ?_, ?_⟩
  · by_cases h : c < 2
    · exact marks_writeBoth _ _ h
    · have e := idle c hc (by omega)
      exact ⟨fun h' => absurd e h', fun h' => absurd e h', fun h' => by simp [e] at h', fun h' => by simp [e] at h'⟩
  · change (pair.ch 0).stage = .decoded
    decide +kernel
  · change (pair.ch 1).stage = .decoded
    decide +kernel

/-- One state for each end of the check chain: the stage, each band-table check, and each ICS check. -/
theorem witness_ChannelChecksInOrder :
    (Instr.noiseFill 0, Stage.decoded) ∈
      [(Instr.iqScale 0, Stage.begun), (Instr.iqDequant 0, Stage.scaled), (Instr.noiseFill 0, Stage.decoded)] ∧
    (tab.ch 15).stage ≠ .begun ∧ 64 < { tab with nsfb := 0x41 }.nsfbOf 0 ∧
    ({ tab with nsfb := 0x40 }.nsfbOf 0 ≤ 64 ∧ { tab with nsfb := 0x40 }.off 0 2 ≤ { tab with nsfb := 0x40 }.off 0 1 ∧
      ∀ b' < 1, { tab with nsfb := 0x40 }.off 0 b' < { tab with nsfb := 0x40 }.off 0 (b' + 1)) ∧
    ((∀ b < { tab with sfbOffLong := vecOfList 65 [0, 1025] 0 }.nsfbOf 0,
        { tab with sfbOffLong := vecOfList 65 [0, 1025] 0 }.off 0 b <
          { tab with sfbOffLong := vecOfList 65 [0, 1025] 0 }.off 0 (b + 1)) ∧
      { tab with sfbOffLong := vecOfList 65 [0, 1025] 0 }.wlen params 0 <
        { tab with sfbOffLong := vecOfList 65 [0, 1025] 0 }.off 0 1) ∧
    (icsLtp 0x10 = true ∧ icsLtp 0x20 = false ∧ icsGainCtrl 0x20 = true ∧ icsGainCtrl 0x40 = false ∧
      icsErPayload 0x40 = true) ∧
    (icsLfe 0x0A = true ∧ (chan tab 0 0x0A 0 .begun).short 0 = true) ∧
    ((chan tab 0 0x01000000 2 .begun).short 0 = false ∧ (chan tab 0 0x01000000 2 .begun).gl 0 0 ≠ 1) ∧
    ((chan tab 0 0x02000002 0x71 .begun).ng 0 = 2 ∧
      ((List.range ((chan tab 0 0x02000002 0x71 .begun).ng 0)).map ((chan tab 0 0x02000002 0x71 .begun).gl 0)).sum = 8 ∧
      ((List.range 9).map ((chan tab 0 0x09000002 0x11111111 .begun).gl 0)).sum = 8) ∧
    (chan tab 0 0x01020000 1 .begun).nsfbOf 0 < (chan tab 0 0x01020000 1 .begun).maxSfb 0 := by decide +kernel

theorem witness_MsApplyChecksInOrder :
    ((tab.ch 0).stage ≠ .decoded ∧ (pair.ch 1).stage = .decoded ∧ (pair.ch 2).stage ≠ .decoded) ∧
    CfgOk msPair 0 ∧ CfgOk msPair 1 ∧
    (∃ e, chkCfg params (chan pair 0 0x01020000 1 .decoded) 0 = .error (.raise e)) ∧
    icsMaxSfb 0x01000000 ≠ icsMaxSfb 0x01010000 := by
  refine ⟨by decide +kernel, msPair_cfg 0 (by decide), msPair_cfg 1 (by decide), ⟨_, rfl⟩, by decide +kernel⟩

/-- A box that carries a masked, band-wise delta-time coefficient of two bands, in an alpha frame that keeps the tree. -/
def keptBox : State :=
  { pair.setBox 0 { Box.reset with
      ctrl := 0x00020B05, maskLo := 2, sym := vecOfList 64 [120] 0, prevPairValid := true, histValid := true } with
    mctCtrl := 0x00020108, chMap := vecOfList 16 [0, 1] 0, mctState := .saved, prevMode := .alpha }

theorem keptBox_parses : BoxParses (parseBase params keptBox)
    (ctlKeepTree keptBox.mctCtrl && !ctlIndep keptBox.mctCtrl) (ctlMode keptBox.mctCtrl) (ctlNch keptBox.mctCtrl)
    0 0 0 1 where
  pair := by decide +kernel
  slots := ⟨0, 1, by decide, by decide +kernel, by decide +kernel, by decide +kernel, by decide +kernel⟩
  stages := by decide +kernel
  configs := ⟨cfg_of (by decide +kernel), cfg_of (by decide +kernel)⟩
  windows := by decide +kernel
  igf := by decide +kernel
  width := by decide +kernel
  deltaTime := by decide +kernel
  symbols := by decide +kernel
  angles := fun h => absurd h (by decide +kernel)

theorem witness_MctParseReconstructsTheFrame :
    keptBox.mctState = .saved ∧ ctlNumBoxes keptBox.mctCtrl = 1 ∧
    (2 ≤ ctlNch keptBox.mctCtrl ∧ ctlNch keptBox.mctCtrl ≤ 16 ∧ (∀ p < ctlNch keptBox.mctCtrl, keptBox.chMapAt p < 16) ∧
      ∀ q < ctlNch keptBox.mctCtrl, ∀ p < q, keptBox.chMapAt p ≠ keptBox.chMapAt q) ∧
    (∀ i < ctlNumBoxes keptBox.mctCtrl, BoxParses (parseBase params keptBox)
      (ctlKeepTree keptBox.mctCtrl && !ctlIndep keptBox.mctCtrl) (ctlMode keptBox.mctCtrl) (ctlNch keptBox.mctCtrl)
      i 0 0 1) := by
  refine ⟨by decide +kernel, by decide +kernel, by decide +kernel, fun i hi => ?_⟩
  have e : ctlNumBoxes keptBox.mctCtrl = 1 := by decide +kernel
  obtain rfl : i = 0 := by omega
  exact keptBox_parses

theorem witness_IndepResetSurvivesAFailedParse :
    (∃ t, exec .mctParse { loaded with mctCtrl := 0x00011101 } = .next t ∧ loaded.err = false ∧ t.err = true ∧
      ctlIndep 0x00011101 = true ∧ loaded.mctState = .idle) ∧
    ∃ t, exec .mctParse { loaded with mctCtrl := 0x00011100 } = .next t ∧ t.err = true ∧ ctlIndep 0x00011100 = false :=
  ⟨⟨_, rfl, by decide +kernel, by decide +kernel, by decide +kernel, by decide +kernel⟩,
    ⟨_, rfl, by decide +kernel, by decide +kernel⟩⟩

theorem witness_MctParseFrameChecksInOrder :
    loaded.mctState = .idle ∧ 16 < ctlNumBoxes 0x00021105 ∧
    (1 ≤ ctlNumBoxes 0x00010105 ∧ ctlNumBoxes 0x00021005 ≤ 16 ∧ ctlNch 0x00010105 < 2 ∧ 16 < ctlNch 0x00110105) ∧
    (16 ≤ { loaded with chMap := vecOfList 16 [0, 16] 0 }.chMapAt 1 ∧
      ∀ p' < 1, { loaded with chMap := vecOfList 16 [0, 16] 0 }.chMapAt p' < 16) ∧
    (∃ p < 1, { loaded with chMap := vecOfList 16 [15, 15] 0 }.chMapAt p =
      { loaded with chMap := vecOfList 16 [15, 15] 0 }.chMapAt 1) := by decide +kernel

/-- A box whose symbol is out of range, and one for each other end of its check chain. -/
theorem witness_MctParseBoxChecksInOrder :
    (loaded.mctState = .idle ∧ 0 < ctlNumBoxes loaded.mctCtrl ∧
      parseBox params (parseBase params { loaded with chMap := vecOfList 16 [0, 2] 0 })
        (ctlKeepTree loaded.mctCtrl && !ctlIndep loaded.mctCtrl) (ctlMode loaded.mctCtrl) (ctlNch loaded.mctCtrl) 0 =
        .error (.raise { cause := .stage, index := 2 })) ∧
    ((loaded.box 0).prevPairValid = false ∧ 2 * (2 - 1) / 2 ≤ boxPairIdx 1 ∧ boxPairIdx 0 = 0 * (2 * 2 - 0 - 1) / 2 + (1 - 0 - 1)) ∧
    (∃ e, chkCfg params (chan pair 0 0x01020000 1 .decoded) 0 = .error (.raise e)) ∧
    ((chan pair 0 0x08000002 0x11111111 .decoded).short 0 ≠ (chan pair 0 0x08000002 0x11111111 .decoded).short 1) ∧
    icsIgfEn 0x100 = true ∧ (boxFlagged 0x00410100 = true ∧ 64 < boxNumBands 0x00410100 ∧ boxNumBands 0x00400100 ≤ 64) ∧
    (boxDeltaTime 0x800 = true ∧ keptBox.prevMode ≠ .none ∧ keptBox.prevMode ≠ PrevMode.ofMode true) ∧
    121 ≤ ({ keptBox.box 0 with sym := vecOfList 64 [121] 0 } : Box).symAt 0 ∧
    64 ≤ (predictor params loaded 0 true false 0 + 16) % 65 := by
  refine ⟨⟨by decide +kernel, by decide +kernel, rfl⟩, by decide +kernel, ⟨_, rfl⟩, by decide +kernel, by decide +kernel,
    by decide +kernel, by decide +kernel, by decide +kernel, by decide +kernel⟩

/-- An angle frame with stereo filling on, whose band is flagged and whose scale factor is written. -/
def filledFrame : State :=
  let s := ((parsed 0x00020106 48).putBytes .sf 1 0 [100]).putBytes .nflag 1 0 [1]
  { s with lBox := vecOfList 16 [⟨0x1000, 0, 0, 0, 1, false, 1⟩] LBox.reset }

theorem filledFrame_ready : BoxReady filledFrame 0 where
  slots := by decide +kernel
  stages := by decide +kernel
  configs := ⟨cfg_of (by decide +kernel), cfg_of (by decide +kernel)⟩
  windows := by decide +kernel
  bands := by
    intro w b h
    have e : ∀ x ∈ boxBands filledFrame 0, answers (filledFrame.band params (filledFrame.latch 0).c1 x.1 x.2) = true ∧
        answers (filledFrame.band params (filledFrame.latch 0).c2 x.1 x.2) = true := by decide +kernel
    exact ⟨exists_ok (e _ h).1, exists_ok (e _ h).2⟩
  flags := by
    unfold byteMarked
    decide +kernel
  factors := by
    unfold byteMarked
    decide +kernel

theorem witness_MctApplyRunsTheBoxesInOrder :
    filledFrame.mctState = .boxesParsed ∧ (∀ i < ctlNumBoxes filledFrame.lCtrl, BoxReady filledFrame i) ∧
      (0, 0) ∈ boxBands filledFrame 0 ∧ stereoFills filledFrame 0 0 = true := by
  refine ⟨by decide +kernel, fun i hi => ?_, by decide +kernel, by decide +kernel⟩
  have e : ctlNumBoxes filledFrame.lCtrl = 1 := by decide +kernel
  obtain rfl : i = 0 := by omega
  exact filledFrame_ready

theorem witness_MctApplyRechecksTheBoxes :
    (filledFrame.mctState = .boxesParsed ∧ 0 < ctlNumBoxes filledFrame.lCtrl) ∧
    ((chan filledFrame 0 0x01010000 1 .begun).ch 0).stage ≠ .decoded ∧
    ((chan filledFrame 1 0x01010000 1 .begun).ch 1).stage ≠ .decoded ∧
    (∃ e, chkCfg params (chan pair 0 0x01020000 1 .decoded) 0 = .error (.raise e)) ∧
    CfgOk filledFrame 0 ∧ CfgOk filledFrame 1 ∧ (parsed 0x00020106 48).short 0 ≠ true :=
  ⟨by decide +kernel, by decide +kernel, by decide +kernel, ⟨_, rfl⟩, cfg_of (by decide +kernel),
    cfg_of (by decide +kernel), by decide +kernel⟩

theorem witness_MctCloseFailureClearsTheSpectra : ({ tab with err := true }).err = true ∧ inSaved 15 0x17D7FC := by
  refine ⟨by decide, Or.inr ⟨by decide, by decide⟩⟩

/-- A rotated frame of one box over channels 0 and 1, both written in full. -/
def rotated : State := { writeBoth (parsed 0x00020105 48) with mctState := .rotationApplied }

theorem witness_MctCloseCommitsTheFrame :
    rotated.err = false ∧ rotated.mctState = .rotationApplied ∧ ctlNumBoxes rotated.lCtrl = 1 ∧
    (∀ c < 16, (∃ i < ctlNumBoxes rotated.lCtrl, (rotated.latch i).c1 = c ∨ (rotated.latch i).c2 = c) →
      (∀ k < 1024, wordMarked rotated.mem .mant c k) ∧ ∀ j < 512, byteMarked rotated.mem .exp c j) := by
  have e : ctlNumBoxes rotated.lCtrl = 1 := by
    change ctlNumBoxes (parsed 0x00020105 48).lCtrl = 1
    decide +kernel
  have l : (rotated.latch 0).c1 = 0 ∧ (rotated.latch 0).c2 = 1 := by
    change ((parsed 0x00020105 48).latch 0).c1 = 0 ∧ ((parsed 0x00020105 48).latch 0).c2 = 1
    decide +kernel
  have d : ∀ c < 2, ((writeBoth (parsed 0x00020105 48)).ch c).stage = .decoded := by
    change ∀ c < 2, ((parsed 0x00020105 48).ch c).stage = .decoded
    decide +kernel
  refine ⟨rfl, rfl, e, fun c _ ⟨i, hi, h⟩ => ?_⟩
  obtain rfl : i = 0 := by omega
  have hc : c < 2 := by omega
  have m := marks_writeBoth (parsed 0x00020105 48) c hc
  exact ⟨m.mant (d c hc), m.exp (.inr (d c hc))⟩

theorem witness_AlignmentIsAFloorShiftCappedAt31 :
    (0 : Int) ≤ 31 ∧ (31 : Int) - 0 ≤ 31 ∧ 31 ≤ (31 : Int) - 0 ∧ (0 : Int) ≤ 2 ^ 31 - 1 ∧ (-2 ^ 31 : Int) < 0 := by decide

theorem witness_RenormalisationUsesTheLeastShift :
    (∀ x ∈ ([0, 0] : List Int), x = 0) ∧ (∃ x ∈ ([2 ^ 32, 0] : List Int), x ≠ 0) := by decide +kernel

/-- Bands whose M/S and sum saturate at exponent 127, and a command that leaves OVF. -/
def loud : State := pair.setBand params 0 0 0 ⟨[2 ^ 31 - 1, 0, 0, 0], 127⟩

theorem witness_OvfRisesOnlyWithASaturation :
    (∃ x y t, loud.band params 0 0 0 = .ok x ∧ loud.band params 0 0 0 = .ok y ∧
      loud.op2At params laneMs 0 0 0 0 = .ok t ∧ loud.ovf = false ∧ t.ovf = true) ∧
    (∃ x t, loud.band params 0 0 0 = .ok x ∧ loud.add1At params 0 0 0 [1, 0, 0, 0] 127 = .ok t ∧ t.ovf = true) ∧
    (∃ t, dmxBand params 0 1 loud (0, 0) = .ok t ∧ t.ovf = false) ∧ (∃ t, exec .mctReset loud = .next t) ∧
    Band.isZero ⟨[0, 0], 7⟩ ∧ ¬ Band.isZero ⟨[0, 1], 7⟩ :=
  ⟨⟨_, _, _, rfl, rfl, rfl, by decide +kernel, by decide +kernel⟩, ⟨_, _, rfl, rfl, by decide +kernel⟩,
    ⟨_, rfl, by decide +kernel⟩, ⟨_, rfl⟩, by unfold Band.isZero; decide, by unfold Band.isZero; decide⟩

theorem witness_StoredBandReadsBack :
    0 < 16 ∧ 0 < 8 ∧ 0 < 64 ∧ pair.lineLo params 0 0 0 + pair.bandWidth 0 0 ≤ 1024 ∧
    ([-2 ^ 31, 2 ^ 31 - 1, 0, 1] : List Int).length = pair.bandWidth 0 0 ∧
    (∀ m ∈ ([-2 ^ 31, 2 ^ 31 - 1, 0, 1] : List Int), -2 ^ 31 ≤ m ∧ m < 2 ^ 31) ∧ (-128 : Int) ≤ 127 ∧
    CfgOk msPair 1 ∧ 0 < msPair.nwin 1 :=
  ⟨by decide, by decide, by decide, by decide +kernel, by decide +kernel, by decide +kernel, by decide,
    msPair_cfg 1 (by decide), by decide +kernel⟩

theorem witness_InverseQuantiserKernel : (-8191 : Word).toInt.natAbs ≤ 8191 := by decide

theorem witness_NoiseKernelAmplitude : (1 : BitVec 3) ≠ 0 := by decide

theorem witness_StereoFillingGainIsTheLargestThatFits :
    params.sfillGainFrac = 16 ∧ smallBuild.sfillGainFrac = 16 ∧ (-128 : Int) ≤ 127 ∧ sfillGain params [1073741824, 0] 0 [0, 0] 0 100 = 185363 := by decide +kernel

theorem witness_PairListClosedForm : (14 : Nat) < 15 ∧ (15 : Nat) < 16 ∧ (14, 15) ∈ pairs 16 := by decide +kernel

/-- One step that answers, and the invariants before it. -/
theorem witness_StepKeepsMemoryCanonical :
    Memory.wf [(0x100000, 1), (0x104000, 1)] ∧
      ∃ t, step ({ tab with mem := [(0x100000, 1), (0x104000, 1)] }.withFetchWord 32 0x13) = .next t :=
  ⟨by decide, ⟨_, rfl⟩⟩

theorem witness_StepKeepsMarksWithStage :
    MarksFollowStage (writeBoth pair) ∧ ∃ t, step { writeBoth pair with turns := [.rst] } = .next t :=
  ⟨witness_MsApplyNeverFaultsOnDecodedChannels.1, ⟨_, rfl⟩⟩

theorem witness_StepKeepsAnglesInRange :
    AngleInv (parsed 0x00020105 48) ∧ ∃ t, step { parsed 0x00020105 48 with turns := [.block] } = .next t := by
  refine ⟨⟨?_, ?_, ?_⟩, ⟨_, rfl⟩⟩
  · intro _
    decide +kernel
  · intro _ hm
    have h : ∀ i < ctlNumBoxes (parsed 0x00020105 48).lCtrl, ∀ b < 64,
        0 ≤ ((((parsed 0x00020105 48).box i).coef[b]?).getD 0).toInt ∧
          ((((parsed 0x00020105 48).box i).coef[b]?).getD 0).toInt < 64 := by decide +kernel
    exact h
  · intro h
    exact absurd h (by decide +kernel)

theorem witness_StepKeepsErrCodeWithErr :
    ErrCodeFollowsErr { tab with err := true, errCode := 0xFF101006 } ∧
      ∃ t, step ({ tab with err := true, errCode := 0xFF101006 }.withFetchWord 32 0x20) = .next t :=
  ⟨⟨by decide, by decide⟩, ⟨_, rfl⟩⟩

theorem witness_StepKeepsReservedBitsZero :
    ReservedBitsZero { tab with irqEn := 3, mctCtrl := 0x001F1F0F } ∧
      ∃ t, step (turn { tab with irqEn := 3, mctCtrl := 0x001F1F0F } (.write 0x1000 4 0xFFFFFFFF)) = .next t := by
  refine ⟨?_, ⟨_, rfl⟩⟩
  unfold ReservedBitsZero
  decide +kernel

end Sys2Proof.Tests
end

section
/-! The rules of 00_scope.md: a step runs the decoded command (R10, R160, R405), and the band terms and band access of
R17, R50, R56, R202 and R253. -/

namespace Sys2Proof.Proofs

open Sys2Proof Sys2Proof.Machine

/-! ### The block's turn runs the decoded command -/

/-- The opcodes that run while ERR = 1 are those R405 lists. -/
theorem runsUnderErr_iff (v : Word) : runsUnderErr v = true ↔ cmdOp v ∈ [0x00, 0x12, 0x13, 0x20] := by
  simp [runsUnderErr, or_assoc]

/-- The block's turn with a word that decodes and is not dropped is the command, in every build (R160, R405). -/
theorem blockTurn_decoded (run : Runner) {s : State} {v : Word} {i : Instr} (hp : s.pending = some v)
    (hd : decode v = .ok i) (hr : s.err = false ∨ cmdOp v ∈ [0x00, 0x12, 0x13, 0x20]) :
    blockTurn run s = run i s := by
  rw [← runsUnderErr_iff] at hr
  simp only [blockTurn, hp]
  rcases runWord_cases run s v with ⟨he, hv, _⟩ | ⟨_, ⟨_, hd', _⟩ | ⟨j, hd', h⟩⟩
  · simp [he, hv] at hr
  · simp [hd] at hd'
  · rw [h, Except.ok.inj (hd.symm.trans hd')]

theorem nextTurn_nil (P : Params) (run : Runner) {s : State} (h : s.turns = []) :
    nextTurn P run s = blockTurn run s := by
  simp only [nextTurn, h]

theorem nextTurn_block (P : Params) (run : Runner) {s : State} {ts : List Turn} (h : s.turns = .block :: ts) :
    nextTurn P run s = blockTurn run { s with turns := ts } := by
  simp only [nextTurn, h, takeTurn]

/-- A placed word is the next thing to run, and the turns listed before it stay to come (log 6). -/
theorem nextTurn_placeWord (P : Params) (run : Runner) (s : State) (v : Word) :
    nextTurn P run (placeWord s v) = blockTurn run (s.take v) := by
  cases h : s.turns with
  | nil =>
    have hs : placeWord s v = s.take v := by simp only [placeWord, State.take, h, blockFirst]
    rw [hs, nextTurn_nil P run (State.take_turns s v ▸ h)]
  | cons t ts =>
    rw [nextTurn_block P run (ts := t :: ts) (by simp [placeWord, h, blockFirst])]
    simp only [placeWord, State.take, h]

theorem decodeTableWord_eq_some {nbits w : Nat} {i : Instr} (h : decodeTableWord nbits w = some i) :
    decode (tableWord nbits w) = .ok i := by
  unfold decodeTableWord at h
  cases hd : decode (tableWord nbits w) with
  | error e => simp [hd, Except.toOption] at h
  | ok j => simpa [hd, Except.toOption] using h

/-- Settles O5: each clause is the block's turn with a word that decodes. -/
theorem stepRunsTheDecodedCommand : Obligations.StepRunsTheDecodedCommand := by
  refine ⟨fun s v i hp hd hr => ⟨fun ht => ?_, fun ts ht => ?_⟩, fun s nbits w i he hd => ?_,
    fun P s v i ht hp hd hr => ?_, stepWith_params, execWith_params⟩
  · exact (nextTurn_nil params exec ht).trans (blockTurn_decoded exec hp hd hr)
  · exact (nextTurn_block params exec ht).trans (blockTurn_decoded exec (s := { s with turns := ts }) hp hd hr)
  · exact (nextTurn_placeWord params exec s _).trans
      (blockTurn_decoded exec (State.take_pending s _) (decodeTableWord_eq_some hd) (.inl he))
  · exact (nextTurn_nil P (execWith P) ht).trans (blockTurn_decoded (execWith P) hp hd hr)

/-! ### Reading and storing a band (R202) -/

/-- Words are the signed values listed exactly when each is. -/
theorem map_toInt_eq_iff {m : List Int} {ws : List Word} :
    m = ws.map BitVec.toInt ↔ m.length = ws.length ∧ ∀ k (h : k < ws.length), m[k]? = some ws[k].toInt := by
  constructor
  · rintro rfl
    exact ⟨by simp, fun k h => by simp [h]⟩
  · rintro ⟨hl, h⟩
    refine List.ext_getElem (by simpa using hl) fun k hk hk' => ?_
    have := h k (by omega)
    simpa [hk] using this

/-- A band is read exactly when its lines and its exponent are written, and is what they hold. -/
theorem band_ok_iff {P : Params} {s : State} {c w b : Nat} {x : Band} :
    s.band P c w b = .ok x ↔ x.mant.length = s.bandWidth c b ∧
      (∀ k < s.bandWidth c b, ∃ v, readWord s.mem (cellAddr .mant c (s.lineLo P c w b + k)) = some v ∧
        x.mant[k]? = some v.toInt) ∧
      ∃ e, readByte s.mem (cellAddr .exp c (w * 64 + b)) = some e ∧ x.exp = e.toInt := by
  obtain ⟨m, ex⟩ := x
  unfold State.band
  rw [bandOf_ok]
  simp only [getWords_ok, Band.mk.injEq]
  constructor
  · rintro ⟨ws, e, ⟨hl, hw⟩, he, hm, rfl⟩
    obtain ⟨hlm, hmk⟩ := map_toInt_eq_iff.1 hm
    exact ⟨hlm.trans hl, fun k hk => ⟨_, hw k (hl ▸ hk), hmk k (hl ▸ hk)⟩, e, he, rfl⟩
  · rintro ⟨hl, hw, e, he, rfl⟩
    have hk : ∀ k (h : k < (m.map (BitVec.ofInt 32)).length),
        readWord s.mem (cellAddr .mant c (s.lineLo P c w b + k)) = some (m.map (BitVec.ofInt 32))[k] ∧
          m[k]? = some (m.map (BitVec.ofInt 32))[k].toInt := by
      intro k h
      have hkm : k < m.length := by simpa using h
      obtain ⟨v, hv, hm⟩ := hw k (hl ▸ hkm)
      have hmv : m[k] = v.toInt := by simpa [hkm] using hm
      have hg : (m.map (BitVec.ofInt 32))[k] = v := by simp [hmv]
      rw [hg]
      exact ⟨hv, hm⟩
    exact ⟨_, e, ⟨by simpa using hl, fun k h => (hk k h).1⟩, he,
      map_toInt_eq_iff.2 ⟨by simp, fun k h => (hk k h).2⟩, rfl⟩

@[simp] theorem lineLo_setBand (P : Params) (s : State) (c w b : Nat) (x : Band) (d w' b' : Nat) :
    (s.setBand P c w b x).lineLo P d w' b' = s.lineLo P d w' b' := rfl

@[simp] theorem bandWidth_setBand (P : Params) (s : State) (c w b : Nat) (x : Band) (d b' : Nat) :
    (s.setBand P c w b x).bandWidth d b' = s.bandWidth d b' := rfl

/-- The exponent cell of a stored band reads as its exponent. -/
theorem readByte_setBand_exp (P : Params) (s : State) (c w b : Nat) (x : Band) :
    readByte (s.setBand P c w b x).mem (cellAddr .exp c (w * 64 + b)) = some (BitVec.ofInt 8 x.exp) :=
  readByte_putBytes (bs := [BitVec.ofInt 8 x.exp]) (k := 0) (by simp)

/-- The lines of a stored band read as its mantissas: MANT lies below EXP in the channel's block (R128). -/
theorem readWord_setBand_mant {P : Params} {s : State} {c w b : Nat} {x : Band}
    (hin : s.lineLo P c w b + x.mant.length ≤ 1024) {k : Nat} (hk : k < x.mant.length) :
    readWord (s.setBand P c w b x).mem (cellAddr .mant c (s.lineLo P c w b + k)) =
      some (BitVec.ofInt 32 x.mant[k]) := by
  have hbelow : cellAddr .mant c (s.lineLo P c w b + k) + 4 ≤ cellAddr .exp c (w * 64 + b) := by
    simp only [cellAddr, ChMem.offset]
    omega
  unfold State.setBand State.setBandOf
  rw [readWord_putBytes_outside (.inl hbelow), readWord_putWords (by simpa using hk)]
  simp

/-- A stored band reads back when its lines are lines of the channel and its values fit their cells. -/
theorem band_setBand {P : Params} {s : State} {c w b : Nat} {x : Band}
    (hin : s.lineLo P c w b + s.bandWidth c b ≤ 1024) (hl : x.mant.length = s.bandWidth c b)
    (hm : ∀ m ∈ x.mant, -2 ^ 31 ≤ m ∧ m < 2 ^ 31) (hlo : -128 ≤ x.exp) (hhi : x.exp ≤ 127) :
    (s.setBand P c w b x).band P c w b = .ok x := by
  rw [band_ok_iff, bandWidth_setBand, lineLo_setBand]
  refine ⟨hl, fun k hk => ?_, _, readByte_setBand_exp P s c w b x, ?_⟩
  · rw [← hl] at hk
    obtain ⟨hmlo, hmhi⟩ := hm x.mant[k] (List.getElem_mem hk)
    refine ⟨_, readWord_setBand_mant (hl ▸ hin) hk, ?_⟩
    rw [BitVec.toInt_ofInt_eq_self (by decide) (by simpa using hmlo) (by simpa using hmhi)]
    exact List.getElem?_eq_getElem hk
  · exact (BitVec.toInt_ofInt_eq_self (by decide) (by simpa using hlo) (by simp; omega)).symm

/-- Storing a band changes no byte outside its lines and its exponent. -/
theorem readByte_setBand_outside {P : Params} {s : State} {c w b : Nat} {x : Band} {a : Nat}
    (hm : ¬ inCells .mant c (s.lineLo P c w b) x.mant.length a) (he : ¬ inCells .exp c (w * 64 + b) 1 a) :
    readByte (s.setBand P c w b x).mem a = readByte s.mem a := by
  rw [inCells, cellAddr_add _ _ _ x.mant.length] at hm
  rw [inCells, cellAddr_add _ _ _ 1] at he
  exact readByte_setBandOf_outside (by omega) (by omega)

/-! ### Band terms (R17, R50, R56, R253) -/

theorem short_iff (s : State) (c : Nat) : s.short c = true ↔ (s.ch c).ics.extractLsb' 0 2 = 2 :=
  decide_eq_true_iff

/-- OFF is the entry of the table the window length selects. -/
theorem off_eq (s : State) (c b : Nat) :
    s.off c b = (((if s.short c then s.sfbOffShort else s.sfbOffLong)[b]?).getD 0).toNat := by
  unfold State.off
  split <;> rfl

theorem nsfbOf_eq (s : State) (c : Nat) :
    s.nsfbOf c = (if s.short c then s.nsfb.toNat / 2 ^ 8 else s.nsfb.toNat) % 2 ^ 7 := by
  unfold State.nsfbOf
  split <;> simp [Nat.shiftRight_eq_div_pow]

theorem nfStartOf_eq (s : State) (c : Nat) :
    s.nfStartOf c = (if s.short c then s.nfStart.toNat / 2 ^ 16 else s.nfStart.toNat) % 2 ^ 11 := by
  unfold State.nfStartOf
  split <;> simp [Nat.shiftRight_eq_div_pow]

/-- GROUP_LEN is read in nibbles. -/
theorem gl_eq (s : State) (c g : Nat) : s.gl c g = (s.ch c).groupLen.toNat / 16 ^ g % 16 := by
  simp [State.gl, Nat.shiftRight_eq_div_pow, Nat.pow_mul]

/-! ### Groups and windows (R17, R253) -/

/-- A window below the total of the lengths falls in a listed group, between the totals up to it and past it. -/
theorem groupOf_spec {ls : List Nat} {w : Nat} (h : w < ls.sum) :
    groupOf ls w < ls.length ∧ (ls.take (groupOf ls w)).sum ≤ w ∧ w < (ls.take (groupOf ls w + 1)).sum := by
  induction ls generalizing w with
  | nil => simp at h
  | cons l ls ih =>
    unfold groupOf
    split
    case isTrue hw => simpa using hw
    case isFalse hw =>
      obtain ⟨hlen, hlo, hhi⟩ := ih (w := w - l) (by rw [List.sum_cons] at h; omega)
      rw [Nat.add_comm 1]
      simp only [List.length_cons, List.take_succ_cons, List.sum_cons]
      omega

theorem take_groupLens (s : State) {c n : Nat} (h : n ≤ s.ng c) :
    (s.groupLens c).take n = (List.range n).map (s.gl c) := by
  rw [State.groupLens, ← List.map_take, List.take_range, Nat.min_eq_left h]

/-- The groups of a legal configuration have as many windows as the channel (R263). -/
theorem sum_groupLens {s : State} {c : Nat} (h : IcsOk s c) : (s.groupLens c).sum = s.nwin c := by
  unfold State.groupLens State.nwin
  cases hs : s.short c with
  | false =>
    obtain ⟨hng, hgl⟩ := h.long hs
    simp [hng, hgl]
  | true =>
    obtain ⟨_, _, _, hsum⟩ := h.shortGroups hs
    simpa [Config.nWinShort] using hsum

/-- grp is the group of R17. -/
theorem grp_spec {s : State} {c w : Nat} (h : IcsOk s c) (hw : w < s.nwin c) :
    s.grp c w < s.ng c ∧ ((List.range (s.grp c w)).map (s.gl c)).sum ≤ w ∧
      w < ((List.range (s.grp c w + 1)).map (s.gl c)).sum := by
  obtain ⟨hlen, hlo, hhi⟩ := groupOf_spec ((sum_groupLens h).symm ▸ hw)
  have hng : s.grp c w < s.ng c := by simpa [State.grp, State.groupLens] using hlen
  rw [← take_groupLens s (Nat.le_of_lt hng), ← take_groupLens s hng]
  exact ⟨hng, hlo, hhi⟩

theorem mem_wins (s : State) (c g w : Nat) : w ∈ s.wins c g ↔ w < s.nwin c ∧ s.grp c w = g := by
  simp [State.wins]

theorem wins_rising (s : State) (c g : Nat) : (s.wins c g).Pairwise (· < ·) :=
  List.pairwise_lt_range.filter _

/-- The transmitted codebooks of the default build (R253). -/
theorem transmitted_iff (cb : BitVec 4) : params.transmitted cb = true ↔ 1 ≤ cb.toNat ∧ cb.toNat ≤ 11 := by
  simp [params]

/-- Settles O50: band after setband, the frame of setband, and the band terms rule by rule. -/
theorem storedBandReadsBack : Obligations.StoredBandReadsBack := by
  refine ⟨fun s c w b x _ _ _ hin hl hm hlo hhi => ⟨band_setBand hin hl hm hlo hhi, fun a ha he => ?_⟩,
    fun s c w b x => band_ok_iff, fun P s c w b => ?_, fun s c h w hw => grp_spec h.2 hw,
    fun s c g => ⟨wins_rising s c g, mem_wins s c g⟩, transmitted_iff⟩
  · exact readByte_setBand_outside (hl ▸ ha) he
  · exact ⟨short_iff s c, rfl, rfl, off_eq s c b, nsfbOf_eq s c, nfStartOf_eq s c, rfl, rfl, gl_eq s c w⟩

end Sys2Proof.Proofs
end

section
/-! What a mapped address reaches (R121 to R128), a command as one rule (R160), and the induction over what a step
can do (R139). -/

namespace Sys2Proof.Proofs

open Sys2Proof Sys2Proof.Machine

/-! ### The cells of the default build -/

/-- How many cells a memory has for one channel (R70 to R77). -/
def memSize (M : ChMem) : Nat := if M.isWord then 1024 else 512

/-- The index of a channel register is one the block has (R125). -/
def ChRegInRange : ChReg → Prop
  | .msMaskLo g | .msMaskHi g => g < 8
  | _ => True

/-- The index of a box register is one the block has (R127). -/
def BoxRegInRange : BoxReg → Prop
  | .sym j | .coef j | .hist j => j < 64
  | _ => True

/-- The indices of a cell are those of the default build (R122 to R128). -/
def InRange : BusCell → Prop
  | .sfbOffLong b | .sfbOffShort b => b < 65
  | .rotCos i | .rotSin i => i < 64
  | .chan c r => c < 16 ∧ ChRegInRange r
  | .chMap p => p < 16
  | .box i r => i < 16 ∧ BoxRegInRange r
  | .mem c M i => c < 16 ∧ i < memSize M
  | _ => True

section
variable {α : Type} {Q : α → Prop}

/-- What holds of the answers of both branches holds of the answer of a test. -/
theorem forall_mem_ite {p : Prop} [Decidable p] {o o' : Option α} (ho : p → ∀ x ∈ o, Q x) (ho' : ∀ x ∈ o', Q x) :
    ∀ x ∈ (if p then o else o'), Q x := by
  split
  · exact ho ‹p›
  · exact ho'

theorem forall_mem_some {a : α} (h : Q a) : ∀ x ∈ some a, Q x := fun _ hx => Option.mem_some_iff.1 hx ▸ h

theorem forall_mem_none : ∀ x ∈ (none : Option α), Q x := fun _ hx => nomatch hx

end

theorem decodeGlobal_inRange (a : Nat) : ∀ x ∈ decodeGlobal a, InRange x := by
  unfold decodeGlobal
  iterate 11 refine forall_mem_ite (fun _ => forall_mem_some trivial) ?_
  iterate 4 refine forall_mem_ite (fun h => forall_mem_some (by simp only [InRange]; omega)) ?_
  exact forall_mem_none

theorem decodeMct_inRange (a : Nat) : ∀ x ∈ decodeMct a, InRange x := by
  unfold decodeMct
  iterate 3 refine forall_mem_ite (fun _ => forall_mem_some trivial) ?_
  exact forall_mem_ite (fun h => forall_mem_some (by simp only [InRange]; omega)) forall_mem_none

theorem decodeChReg_inRange (o : Nat) : ∀ r ∈ decodeChReg o, ChRegInRange r := by
  unfold decodeChReg
  iterate 6 refine forall_mem_ite (fun _ => forall_mem_some trivial) ?_
  refine forall_mem_ite (fun h => forall_mem_some ?_) forall_mem_none
  split <;> simp only [ChRegInRange] <;> omega

theorem decodeBoxReg_inRange (o : Nat) : ∀ r ∈ decodeBoxReg o, BoxRegInRange r := by
  unfold decodeBoxReg
  iterate 5 refine forall_mem_ite (fun _ => forall_mem_some trivial) ?_
  iterate 3 refine forall_mem_ite (fun h => forall_mem_some (by simp only [BoxRegInRange]; omega)) ?_
  exact forall_mem_none

theorem lineCell_inRange {c i : Nat} {M : ChMem} (hc : c < 16) (hM : memSize M = 1024) :
    ∀ x ∈ lineCell params c M i, InRange x :=
  forall_mem_ite (fun hi => forall_mem_some ⟨hc, hM ▸ hi⟩) forall_mem_none

theorem decodeChMem_inRange {c : Nat} (hc : c < 16) (o : Nat) : ∀ x ∈ decodeChMem params c o, InRange x := by
  have bytes : ∀ {M i}, memSize M = 512 → i < 512 → ∀ x ∈ some (BusCell.mem c M i), InRange x :=
    fun hM hi => forall_mem_some ⟨hc, hM ▸ hi⟩
  unfold decodeChMem
  iterate 2 refine forall_mem_ite (fun _ => lineCell_inRange hc rfl) ?_
  iterate 4 refine forall_mem_ite (fun h => bytes rfl (by omega)) ?_
  refine forall_mem_ite (fun _ => lineCell_inRange hc rfl) ?_
  iterate 2 refine forall_mem_ite (fun h => bytes rfl (by omega)) ?_
  exact forall_mem_ite (fun _ => lineCell_inRange hc rfl) forall_mem_none

/-- A mapped address of the default build names a cell that the block has (R121 to R128). -/
theorem decodeAddr_inRange {a : Nat} {x : BusCell} (h : decodeAddr params a = some x) : InRange x := by
  have blocks : ∀ {β} {o : Option β} {f : β → BusCell}, (∀ r ∈ o, InRange (f r)) → ∀ y ∈ o.map f, InRange y :=
    fun hr y hy => by obtain ⟨r, hro, rfl⟩ := Option.map_eq_some_iff.1 hy; exact hr r hro
  refine (?_ : ∀ y ∈ decodeAddr params a, InRange y) x h
  unfold decodeAddr
  refine forall_mem_ite (fun _ => forall_mem_none) ?_
  refine forall_mem_ite (fun _ => decodeGlobal_inRange a) ?_
  refine forall_mem_ite (fun _ => forall_mem_ite (fun hc => blocks ?_) forall_mem_none) ?_
  · exact fun r hr => ⟨hc, decodeChReg_inRange _ r hr⟩
  refine forall_mem_ite (fun _ => decodeMct_inRange a) ?_
  refine forall_mem_ite (fun _ => forall_mem_ite (fun hi => blocks ?_) forall_mem_none) ?_
  · exact fun r hr => ⟨hi, decodeBoxReg_inRange _ r hr⟩
  exact forall_mem_ite (fun _ => forall_mem_ite (fun hc => decodeChMem_inRange hc _) forall_mem_none) forall_mem_none

theorem accessCell_inRange {a : Word} {n : Nat} {x : BusCell} (h : accessCell params a n = some x) : InRange x := by
  unfold accessCell at h
  split at h
  · exact decodeAddr_inRange h
  · cases h

/-! ### A command as one rule -/

/-- The rule of a command in the default build: the state it reaches at `done`, or how it ends early. -/
def commandRule (i : Instr) (s : State) : Except Halt State :=
  match i with
  | .nop => .ok s
  | .chBegin c => chBegin params c s
  | .iqScale c => iqScale params c s
  | .iqDequant c => iqDequant params c s
  | .noiseFill c => noiseFill params c s
  | .msApply c1 c2 cw => msApply params c1 c2 cw s
  | .mctParse => mctParse params s
  | .mctApply => mctApply params s
  | .mctClose ok => mctClose params ok s
  | .mctReset => .ok (mctReset params s)
  | .clearErr => .ok s.clearError

/-- What a raise of the command leaves of its changes: the HRESET line of MCT_PARSE, else none (R310, R402). -/
def raiseBase (i : Instr) (s : State) : State :=
  match i with
  | .mctParse => parseBase params s
  | _ => s

theorem exec_eq_finish (i : Instr) (s : State) : exec i s = finish (raiseBase i s) (commandRule i s) := by
  cases i <;> rfl

/-- A command that answers completed its rule, or recorded an error. -/
theorem exec_next {i : Instr} {s t : State} (h : exec i s = .next t) :
    (∃ u, commandRule i s = .ok u ∧ t = u.complete) ∨
      ∃ e, commandRule i s = .error (.raise e) ∧ t = (raiseBase i s).raise e :=
  finish_next (exec_eq_finish i s ▸ h)

/-- What a raise keeps is all of the state, or all of it after HRESET in a frame that is not open (R310). -/
theorem raiseBase_cases (i : Instr) (s : State) :
    raiseBase i s = s ∨ (parseAllowed s = true ∧ raiseBase i s = hreset params s) := by
  cases i with
  | mctParse =>
    simp only [raiseBase, parseBase, Bool.and_eq_true]
    split
    · exact .inr ⟨by simp_all, rfl⟩
    · exact .inl rfl
  | _ => exact .inl rfl

/-! ### What every step keeps -/

/-- t differs from s at most in STATUS without ERR, CMD_COUNT, PENDING, and the model's own fields. -/
def SameBlock (s t : State) : Prop :=
  t = { s with done := t.done, drop := t.drop, haz := t.haz, ovf := t.ovf, buserr := t.buserr, cmdCount := t.cmdCount,
               pending := t.pending, turns := t.turns, resp := t.resp, draws := t.draws }

/-- A property that no turn of any kind can end: it does not rest on the fields of SameBlock, and it is kept by the
host's writes of mapped cells, by recording an error, and by every command's rule. -/
structure TurnInvariant (I : State → Prop) : Prop where
  frame : ∀ {s t : State}, SameBlock s t → I s → I t
  write : ∀ {s : State} {x : BusCell} (v : Word), InRange x → I s → I (writeView s v x)
  record : ∀ {s : State} (e : Err), I s → I (s.record e)
  base : ∀ {s : State} (i : Instr), I s → I (raiseBase i s)
  rule : ∀ {i : Instr} {s t : State}, commandRule i s = .ok t → I s → I t

section
variable {I : State → Prop} (hI : TurnInvariant I)
include hI

theorem TurnInvariant.complete {s : State} (h : I s) : I s.complete := hI.frame rfl h

theorem TurnInvariant.raise {s : State} (e : Err) (h : I s) : I (s.raise e) := hI.complete (hI.record e h)

theorem TurnInvariant.exec_keeps {i : Instr} {s t : State} (h : I s) (ht : exec i s = .next t) : I t := by
  rcases exec_next ht with ⟨u, hu, rfl⟩ | ⟨e, _, rfl⟩
  · exact hI.complete (hI.rule hu h)
  · exact hI.raise e (hI.base i h)

theorem TurnInvariant.runWord_keeps {s t : State} {v : Word} (h : I s) (ht : runWord exec s v = .next t) : I t := by
  rcases runWord_cases exec s v with ⟨_, _, hr⟩ | ⟨_, ⟨e, _, hr⟩ | ⟨i, _, hr⟩⟩
  · cases hr.symm.trans ht
    exact hI.frame (s := s) rfl h
  · cases hr.symm.trans ht
    exact hI.raise _ h
  · exact hI.exec_keeps h (hr.symm.trans ht)

theorem TurnInvariant.busRead_keeps {s : State} (h : I s) (a : Word) (n : Nat) : I (busRead params s a n) := by
  rcases busRead_cases params s a n with ⟨_, hr⟩ | ⟨x, _, ⟨_, _, hr⟩ | ⟨_, ⟨v, _, hr⟩ | ⟨_, hr⟩⟩⟩
  all_goals rw [hr]; exact hI.frame (s := s) rfl h

theorem TurnInvariant.busWrite_keeps {s : State} (h : I s) (a : Word) (n : Nat) (v : Word) :
    I (busWrite params s a n v) := by
  rcases busWrite_cases params s a n v with ⟨_, hr⟩ | ⟨x, hx, ⟨_, _, hr⟩ | ⟨_, hr⟩⟩
  · rw [hr]; exact hI.frame (s := s) rfl h
  · rw [hr]; exact hI.frame (s := s) rfl h
  · rw [hr]; exact hI.frame rfl (hI.write v (accessCell_inRange hx) h)

/-- What every turn keeps, every step keeps. -/
theorem TurnInvariant.step_keeps {s t : State} (h : I s) (ht : step s = .next t) : I t := by
  rcases step_cases s with ⟨x, ts, _, hs⟩ | ⟨ts, _, hs⟩ | ⟨u, hu, hs⟩
  · cases hs.symm.trans ht
    have hts : I { s with turns := ts } := hI.frame (s := s) rfl h
    cases x with
    | read a n => exact hI.busRead_keeps hts a n
    | write a n v => exact hI.busWrite_keeps hts a n v
  · cases hs.symm.trans ht
    exact hI.write (x := .ctrl) 1 trivial (hI.frame (s := s) (t := { s with turns := ts }) rfl h)
  · have hIu : I u := hI.frame (show SameBlock s u by rw [hu]; rfl) h
    rcases hs with ⟨_, hs⟩ | ⟨v, _, hs⟩
    · cases hs.symm.trans ht
      exact hIu
    · exact hI.runWord_keeps hIu (hs.symm.trans ht)

end

end Sys2Proof.Proofs
end

section
/-! The canonical form of memory (log 12) and ERR_CODE with ERR (R45, R402) are kept by every turn. -/

namespace Sys2Proof.Proofs

open Sys2Proof Sys2Proof.Machine

/-! ### The canonical form of memory -/

/-- A command's rule keeps the canonical form. -/
theorem commandRule_wf {i : Instr} {s t : State} (h : commandRule i s = .ok t) (hs : s.mem.wf) : t.mem.wf := by
  have hbase : (parseBase params s).mem.wf := by
    unfold parseBase
    split
    · exact hreset_wf hs
    · exact hs
  cases i with
  | nop => cases h; exact hs
  | chBegin c => exact chBegin_wf h hs
  | iqScale c => exact iqScale_wf h hs
  | iqDequant c => exact iqDequant_wf h hs
  | noiseFill c => exact noiseFill_wf h hs
  | msApply c1 c2 cw => exact msApply_wf h hs
  | mctParse =>
    obtain ⟨_, _, ps, _, rfl⟩ := mctParse_ok h
    rw [commitParse_frame]
    exact hbase
  | mctApply =>
    obtain ⟨_, _, u, _, hu, rfl⟩ := mctApply_ok h
    exact hu.2 hs
  | mctClose ok =>
    rcases mctClose_ok h with ⟨_, rfl⟩ | ⟨_, _, u, _, _, hu, rfl⟩
    · exact (failClose_frame params s).2 hs
    · exact hu hs
  | mctReset => cases h; exact hreset_wf hs
  | clearErr => cases h; exact hs

theorem turnInvariant_wf : TurnInvariant (fun s => s.mem.wf) where
  frame h hs := by rw [h]; exact hs
  write v _ hs := writeView_wf hs v _
  record e hs := by rw [State.record_frame]; exact hs
  base i hs := by
    rcases raiseBase_cases i _ with h | ⟨_, h⟩ <;> rw [h]
    · exact hs
    · exact hreset_wf hs
  rule h hs := commandRule_wf h hs

/-- Settles O55: no turn leaves the canonical form. -/
theorem stepKeepsMemoryCanonical : Obligations.StepKeepsMemoryCanonical :=
  fun _ _ hs ht => turnInvariant_wf.step_keeps hs ht

/-! ### What a rule changes -/

/-- MCT_PARSE works on the state itself, or on it after HRESET. -/
theorem parseBase_frame (s : State) : parseBase params s =
    { s with mem := (parseBase params s).mem, chans := (parseBase params s).chans,
             boxes := (parseBase params s).boxes, prevMode := (parseBase params s).prevMode } := by
  unfold parseBase
  split
  · rw [hreset_frame]
  · rfl

/-- No rule writes a field that only the host, the bus or the outcome of a command writes (R142). -/
theorem commandRule_frame {i : Instr} {s t : State} (h : commandRule i s = .ok t) :
    t = { s with err := t.err, errCode := t.errCode, ovf := t.ovf, mem := t.mem, chans := t.chans, boxes := t.boxes,
                 mctState := t.mctState, prevMode := t.prevMode, lCtrl := t.lCtrl, lBox := t.lBox } := by
  cases i with
  | nop => cases h; rfl
  | chBegin c => rw [chBegin_frame h]
  | iqScale c => rw [iqScale_frame h]
  | iqDequant c => rw [iqDequant_frame h]
  | noiseFill c => rw [noiseFill_frame h]
  | msApply c1 c2 cw => rw [msApply_frame h]
  | mctParse =>
    obtain ⟨_, _, ps, _, rfl⟩ := mctParse_ok h
    rw [commitParse_frame, parseBase_frame]
  | mctApply =>
    obtain ⟨_, _, u, _, hu, rfl⟩ := mctApply_ok h
    rw [hu.1]
  | mctClose ok =>
    rcases mctClose_ok h with ⟨_, rfl⟩ | ⟨_, _, u, _, hu, _, rfl⟩
    · rw [(failClose_frame params s).1]; rfl
    · rw [hu]; rfl
  | mctReset => cases h; rw [mctReset, hreset_frame]
  | clearErr => cases h; rfl

/-- Only MCT_CLOSE and CLEAR_ERR touch the error record, and they clear it (R340, R385). -/
theorem commandRule_err {i : Instr} {s t : State} (h : commandRule i s = .ok t) :
    (t.err = s.err ∧ t.errCode = s.errCode) ∨ (t.err = false ∧ t.errCode = 0) := by
  cases i with
  | nop => cases h; exact .inl ⟨rfl, rfl⟩
  | chBegin c => rw [chBegin_frame h]; exact .inl ⟨rfl, rfl⟩
  | iqScale c => rw [iqScale_frame h]; exact .inl ⟨rfl, rfl⟩
  | iqDequant c => rw [iqDequant_frame h]; exact .inl ⟨rfl, rfl⟩
  | noiseFill c => rw [noiseFill_frame h]; exact .inl ⟨rfl, rfl⟩
  | msApply c1 c2 cw => rw [msApply_frame h]; exact .inl ⟨rfl, rfl⟩
  | mctParse =>
    obtain ⟨_, _, ps, _, rfl⟩ := mctParse_ok h
    rw [commitParse_frame, parseBase_frame]
    exact .inl ⟨rfl, rfl⟩
  | mctApply =>
    obtain ⟨_, _, u, _, hu, rfl⟩ := mctApply_ok h
    rw [hu.1]
    exact .inl ⟨rfl, rfl⟩
  | mctClose ok => rcases mctClose_ok h with ⟨_, rfl⟩ | ⟨_, _, u, _, _, _, rfl⟩ <;> exact .inr ⟨rfl, rfl⟩
  | mctReset => cases h; rw [mctReset, hreset_frame]; exact .inl ⟨rfl, rfl⟩
  | clearErr => cases h; exact .inr ⟨rfl, rfl⟩

/-- A host write leaves the error record, or resets the block (R134). -/
theorem writeView_err (s : State) (v : Word) (x : BusCell) :
    ((writeView s v x).err = s.err ∧ (writeView s v x).errCode = s.errCode) ∨
      ((writeView s v x).err = false ∧ (writeView s v x).errCode = 0) := by
  cases x with
  | ctrl =>
    simp only [writeView]
    split
    · exact .inr ⟨rfl, rfl⟩
    · exact .inl ⟨rfl, rfl⟩
  | mem c M i => cases M <;> exact .inl ⟨rfl, rfl⟩
  | _ => exact .inl ⟨rfl, rfl⟩

/-! ### ERR_CODE -/

/-- The low four bits of a recorded error are its CODE (R45). -/
theorem errWord_code (e : Err) : e.word.extractLsb' 0 4 = e.cause.kind.code := by
  unfold Err.word
  exact BitVec.extractLsb'_append_eq_right

theorem errKind_code_ne_zero (k : ErrKind) : k.code ≠ 0 := by
  cases k <;> decide

/-- The property rests on ERR and ERR_CODE alone, and holds where both are 0. -/
theorem errCodeFollowsErr_of {s t : State} (hs : ErrCodeFollowsErr s)
    (h : (t.err = s.err ∧ t.errCode = s.errCode) ∨ (t.err = false ∧ t.errCode = 0)) : ErrCodeFollowsErr t := by
  unfold ErrCodeFollowsErr at hs ⊢
  rcases h with ⟨he, hc⟩ | ⟨he, hc⟩
  · rw [he, hc]; exact hs
  · rw [he, hc]; exact ⟨fun _ => rfl, fun h => nomatch h⟩

theorem turnInvariant_errCode : TurnInvariant ErrCodeFollowsErr where
  frame h hs := errCodeFollowsErr_of hs (.inl (by rw [h]; exact ⟨rfl, rfl⟩))
  write v _ hs := errCodeFollowsErr_of hs (writeView_err _ v _)
  record {s} e hs := by
    cases he : s.err with
    | true => rw [State.record_of_err he]; exact hs
    | false =>
      rw [State.record_of_not_err he]
      exact ⟨fun h => absurd h (by simp), fun _ => errWord_code e ▸ errKind_code_ne_zero e.cause.kind⟩
  base {s} i hs := by
    rcases raiseBase_cases i s with h | ⟨_, h⟩ <;> rw [h]
    · exact hs
    · exact errCodeFollowsErr_of hs (.inl (by rw [hreset_frame]; exact ⟨rfl, rfl⟩))
  rule h hs := errCodeFollowsErr_of hs (commandRule_err h)

/-- Settles O58: an error is recorded with a code that is not 0, and its ending clears both. -/
theorem stepKeepsErrCodeWithErr : Obligations.StepKeepsErrCodeWithErr :=
  fun _ _ hs ht => turnInvariant_errCode.step_keeps hs ht

/-! ### The reset state -/

@[simp] theorem reset_ch (c : Nat) : State.reset.ch c = Channel.reset := by
  simp only [State.ch, State.reset, Vector.getElem?_replicate]
  split <;> rfl

@[simp] theorem reset_box (i : Nat) : State.reset.box i = Box.reset := by
  simp only [State.box, State.reset, Vector.getElem?_replicate]
  split <;> rfl

@[simp] theorem hardReset_ch (s : State) (c : Nat) : s.hardReset.ch c = Channel.reset := reset_ch c

theorem mem_nil_wf : Memory.wf [] := ⟨.nil, by simp⟩

/-- At STAGE IDLE no cell need be written. -/
theorem channelMarks_of_idle {s : State} {c : Nat} (h : (s.ch c).stage = .idle) : ChannelMarks s c where
  cb hc := absurd h hc
  nflag hc := absurd h hc
  exp hc := by simp [h] at hc
  mant hc := by simp [h] at hc

/-- With no frame open and none committed as angle no coefficient need be an angle. -/
theorem angleInv_of_closed {s : State} (ho : ¬ frameOpen s) (hp : s.prevMode ≠ .angle) : AngleInv s :=
  ⟨fun h => absurd h ho, fun h => absurd h ho, fun h => absurd h hp⟩

/-- The reset state has its reserved bits 0 (R100). -/
theorem reset_reservedBitsZero : ReservedBitsZero State.reset := by
  refine ⟨by decide, by decide, by decide, by decide, fun c _ => ?_, fun i _ => ?_⟩
  · rw [reset_ch]; decide
  · rw [reset_box]; decide

/-- Settles O60: reset lists no byte, leaves every stage and the frame IDLE, PREV_MODE NONE and every register 0. -/
theorem resetHasTheInvariants : Obligations.ResetHasTheInvariants :=
  ⟨mem_nil_wf, fun c _ => channelMarks_of_idle (by rw [reset_ch]; rfl),
    angleInv_of_closed (by simp [frameOpen, State.reset]) (by simp [State.reset]),
    ⟨fun _ => rfl, fun h => nomatch h⟩, reset_reservedBitsZero⟩

end Sys2Proof.Proofs
end

section
/-! The written-marks of R98 and the sticky OVF (R212): what the band operators, and the commands built on them, keep
of the marks; and that every turn keeps the marks that a stage stands for (R451). -/

namespace Sys2Proof.Proofs

open Sys2Proof Sys2Proof.Machine

/-! ### Folds under an invariant -/

/-- An invariant that every round on an element of the list keeps, the fold keeps. -/
theorem foldlM_invariant {α σ : Type} {f : σ → α → Except Halt σ} {I : σ → Prop} {l : List α}
    (hf : ∀ s, I s → ∀ x ∈ l, ∀ t, f s x = .ok t → I t) {s t : σ} (hs : I s) (h : l.foldlM f s = .ok t) : I t := by
  induction l generalizing s with
  | nil => cases h; exact hs
  | cons x l ih =>
    rw [List.foldlM_cons, bind_ok] at h
    obtain ⟨u, hu, h⟩ := h
    exact ih (fun s hs y hy => hf s hs y (List.mem_cons_of_mem x hy)) (hf s hs x List.mem_cons_self u hu) h

/-- A check before the rest answers exactly when both do. -/
theorem check_bind_ok {β : Type} {x : Except Halt Unit} {f : Unit → Except Halt β} {b : β} :
    (x >>= f) = .ok b ↔ x = .ok () ∧ f () = .ok b := by
  rw [bind_ok]
  exact ⟨fun ⟨(), h, h'⟩ => ⟨h, h'⟩, fun ⟨h, h'⟩ => ⟨(), h, h'⟩⟩

/-- A pass of checks answers exactly when each check does. -/
theorem forM_ok {α : Type} {f : α → Except Halt Unit} {l : List α} :
    l.forM f = .ok () ↔ ∀ x ∈ l, f x = .ok () := by
  induction l with
  | nil => simp [pure, Except.pure]
  | cons x l ih => rw [List.forM, check_bind_ok, List.forall_mem_cons, ih]

/-! ### Marks -/

/-- Every cell of a channel memory that has a value in m has one in m' (R98). -/
def MarksKept (m m' : Memory) : Prop :=
  ∀ M c k, k < memSize M → (cellBits m M c k).isSome = true → (cellBits m' M c k).isSome = true

theorem MarksKept.refl (m : Memory) : MarksKept m m := fun _ _ _ _ h => h

theorem MarksKept.trans {m m' m'' : Memory} (h : MarksKept m m') (h' : MarksKept m' m'') : MarksKept m m'' :=
  fun M c k hk hm => h' M c k hk (h M c k hk hm)

theorem cellBits_word {M : ChMem} (hM : M.isWord = true) (m : Memory) (c k : Nat) :
    cellBits m M c k = readWord m (cellAddr M c k) := by simp [cellBits, hM]

theorem cellBits_byte {M : ChMem} (hM : M.isWord = false) (m : Memory) (c k : Nat) :
    cellBits m M c k = (readByte m (cellAddr M c k)).map (fun b => b.setWidth 32) := by simp [cellBits, hM]

theorem memSize_word {M : ChMem} (hM : M.isWord = true) : memSize M = 1024 := by simp [memSize, hM]

theorem memSize_byte {M : ChMem} (hM : M.isWord = false) : memSize M = 512 := by simp [memSize, hM]

/-- A word has a value exactly when its four bytes have. -/
theorem readWord_isSome_iff (m : Memory) (a : Nat) :
    (readWord m a).isSome = true ↔ ∀ j < 4, (readByte m (a + j)).isSome = true := by
  have h4 : (∀ j < 4, (readByte m (a + j)).isSome = true) ↔ (readByte m a).isSome = true ∧
      (readByte m (a + 1)).isSome = true ∧ (readByte m (a + 2)).isSome = true ∧ (readByte m (a + 3)).isSome = true :=
    ⟨fun h => ⟨h 0 (by omega), h 1 (by omega), h 2 (by omega), h 3 (by omega)⟩, fun ⟨h0, h1, h2, h3⟩ j hj => by
      interval_cases j <;> assumption⟩
  rw [h4, readWord]
  cases readByte m a <;> cases readByte m (a + 1) <;> cases readByte m (a + 2) <;> cases readByte m (a + 3) <;> simp

/-- What leaves every byte that has a value with one keeps the marks. -/
theorem marksKept_of_bytes {m m' : Memory}
    (h : ∀ a, (readByte m a).isSome = true → (readByte m' a).isSome = true) : MarksKept m m' := by
  intro M c k _ hm
  cases hM : M.isWord with
  | true =>
    rw [cellBits_word hM, readWord_isSome_iff] at hm ⊢
    exact fun j hj => h _ (hm j hj)
  | false =>
    rw [cellBits_byte hM, Option.isSome_map] at hm ⊢
    exact h _ hm

theorem marksKept_putWords (s : State) (M : ChMem) (c i : Nat) (ws : List Word) :
    MarksKept s.mem (s.putWords M c i ws).mem :=
  marksKept_of_bytes fun _ h => readByte_putWords_isSome h M c i ws

/-- The lines of a word memory and the cells of a byte memory lie apart (R128). -/
theorem word_apart_from_bytes {M M' : ChMem} (hM : M.isWord = true) (hM' : M'.isWord = false) {c c' k i n : Nat}
    (hk : k < 1024) (hi : i + n ≤ 512) :
    cellAddr M c k + 4 ≤ cellAddr M' c' i ∨ cellAddr M' c' i + 4 * n ≤ cellAddr M c k := by
  cases M <;> cases hM <;> cases M' <;> cases hM' <;> simp only [cellAddr, ChMem.offset] <;> omega

theorem marksKept_putBytes (s : State) {M : ChMem} (hM : M.isWord = false) (c : Nat) {i : Nat} {bs : List Byte}
    (hi : i + bs.length ≤ 512) : MarksKept s.mem (s.putBytes M c i bs).mem := by
  intro M' c' k hk hm
  cases hM' : M'.isWord with
  | true =>
    rw [memSize_word hM'] at hk
    rwa [cellBits_word hM', readWord_putBytes_outside (word_apart_from_bytes hM' hM hk hi), ← cellBits_word hM']
  | false =>
    rw [cellBits_byte hM', Option.isSome_map] at hm ⊢
    exact readByte_putBytes_isSome (cellAddr_mod M' c' k) hm M c i bs

/-- The saved spectrum reads 0 where it is not listed (R100), so clearing it leaves every cell of it with a value. -/
theorem marksKept_clearSaved (s : State) {n : Nat} (hn : n ≤ 1024) (c : Nat) :
    MarksKept s.mem (s.clearSaved n c).mem := by
  refine marksKept_of_bytes fun a h => ?_
  rw [readByte_clearSaved]
  split
  case isTrue ha =>
    have hu : unlisted a = some 0 := by
      unfold unlisted
      refine if_pos ?_
      simp only [cellAddr, ChMem.offset] at ha
      omega
    rw [hu]; rfl
  case isFalse => exact h

/-! ### What the band operators keep -/

/-- A run of band operators: it writes memory and OVF only, clears no mark and never clears OVF. -/
structure BandRun (s t : State) : Prop where
  frame : t = { s with mem := t.mem, ovf := t.ovf }
  marks : MarksKept s.mem t.mem
  ovf : s.ovf = true → t.ovf = true

theorem BandRun.refl (s : State) : BandRun s s := ⟨rfl, .refl _, id⟩

theorem BandRun.trans {s t u : State} (h : BandRun s t) (h' : BandRun t u) : BandRun s u :=
  ⟨by rw [h'.frame, h.frame], h.marks.trans h'.marks, fun ho => h'.ovf (h.ovf ho)⟩

theorem bandRun_putWords (s : State) (M : ChMem) (c i : Nat) (ws : List Word) : BandRun s (s.putWords M c i ws) :=
  ⟨rfl, marksKept_putWords s M c i ws, id⟩

theorem bandRun_putBytes (s : State) {M : ChMem} (hM : M.isWord = false) (c : Nat) {i : Nat} {bs : List Byte}
    (hi : i + bs.length ≤ 512) : BandRun s (s.putBytes M c i bs) :=
  ⟨rfl, marksKept_putBytes s hM c hi, id⟩

theorem bandRun_orOvf (s : State) (b : Bool) : BandRun s (s.orOvf b) :=
  ⟨rfl, .refl _, fun h => by simp [State.orOvf, h]⟩

section
variable {P : Params} {c c1 c2 w b : Nat} (hw : w < 8) (hb : b < 64)
include hw hb

theorem bandRun_setBandOf (s : State) (mm : ChMem) {em : ChMem} (hem : em.isWord = false) (c : Nat) (x : Band) :
    BandRun s (s.setBandOf P mm em c w b x) :=
  (bandRun_putWords _ _ _ _ _).trans (bandRun_putBytes _ hem _ (by simp; omega))

theorem op2At_bandRun {f : Int → Int → Int × Int} {s t : State} (h : s.op2At P f c1 c2 w b = .ok t) :
    BandRun s t := by
  obtain ⟨x, y, _, _, ⟨_, rfl⟩ | ⟨r, _, rfl⟩⟩ := op2At_ok.1 h
  · exact .refl _
  · exact ((bandRun_setBandOf hw hb s .mant rfl c1 _).trans (bandRun_setBandOf hw hb _ .mant rfl c2 _)).trans
      (bandRun_orOvf _ _)

theorem add1At_bandRun {z : List Int} {ez : Int} {s t : State} (h : s.add1At P c w b z ez = .ok t) : BandRun s t := by
  obtain ⟨x, _, ⟨_, rfl⟩ | ⟨r, _, rfl⟩⟩ := add1At_ok.1 h
  · exact .refl _
  · exact (bandRun_setBandOf hw hb s .mant rfl c _).trans (bandRun_orOvf _ _)

theorem fillWindow_bandRun {nm ne : Int} {acc acc' : State × Word} (h : fillWindow P c b nm ne acc w = .ok acc') :
    BandRun acc.1 acc'.1 := by
  simp only [fillWindow, bind_ok] at h
  obtain ⟨u, hu, h⟩ := h
  cases h
  exact (add1At_bandRun hw hb hu).trans (bandRun_putBytes u rfl c (by simp; omega))

theorem msBand_bandRun {s t : State} (h : msBand P c1 c2 s (w, b) = .ok t) : BandRun s t := by
  unfold msBand at h
  split at h
  · exact op2At_bandRun hw hb h
  · cases h; exact .refl _

theorem dmxBand_bandRun {s t : State} (h : dmxBand P c1 c2 s (w, b) = .ok t) : BandRun s t := by
  simp only [dmxBand, bind_ok] at h
  obtain ⟨x, _, y, _, h⟩ := h
  cases h
  exact (bandRun_setBandOf hw hb s .dmxm rfl c1 _).trans (bandRun_orOvf _ _)

end

theorem sfill_bandRun {P : Params} {c1 c2 b i : Nat} (hb : b < 64) {s t : State} (h : s.sfill P c1 c2 b i = .ok t) :
    BandRun s t := by
  rcases sfill_ok h with rfl | ⟨z, ez, h⟩
  · exact .refl _
  · exact add1At_bandRun (by omega) hb h

/-! ### What the commands built on them keep -/

theorem nwin_le (s : State) (c : Nat) : s.nwin c ≤ 8 := by
  unfold State.nwin
  split <;> simp [Config.nWinShort]

/-- A checked channel has at most 64 bands (R262, R263). -/
theorem maxSfb_le {P : Params} {s : State} {c : Nat} (h : chkCfg P s c = .ok ()) : s.maxSfb c ≤ 64 := by
  obtain ⟨hbt, hics⟩ := chkCfg_ok.1 h
  obtain ⟨hcount, _, _⟩ := chkBt_ok.1 hbt
  obtain ⟨_, _, _, _, _, hmax⟩ := chkIcs_ok.1 hics
  omega

theorem wins_lt {s : State} {c g w : Nat} (h : w ∈ s.wins c g) : w < 8 :=
  Nat.lt_of_lt_of_le ((mem_wins s c g w).1 h).1 (nwin_le s c)

theorem fillBand_bandRun {P : Params} {c : Nat} {acc acc' : State × Word} {gb : Nat × Nat} (hb : gb.2 < 64)
    (h : fillBand P c acc gb = .ok acc') : BandRun acc.1 acc'.1 := by
  simp only [fillBand, bind_ok] at h
  obtain ⟨v, _, h⟩ := h
  cases v with
  | false => cases h; exact .refl _
  | true =>
    simp only [if_true, bind_ok] at h
    obtain ⟨sf, _, h⟩ := h
    exact foldlM_invariant (I := fun a : State × Word => BandRun acc.1 a.1)
      (fun a ha w hw a' h' => ha.trans (fillWindow_bandRun (wins_lt hw) hb h')) (.refl _) h

/-- NOISE_FILL does nothing, or runs the band operators and sets the seed. -/
theorem noiseFill_bandRun {P : Params} {c : Nat} {s t : State} (h : noiseFill P c s = .ok t) :
    t = s ∨ ∃ u seed, BandRun s u ∧ t = u.setSeed c seed := by
  obtain ⟨_, _, hcfg, rfl | ⟨u, seed, hfold, _, _, rfl⟩⟩ := noiseFill_ok h
  · exact .inl rfl
  · refine .inr ⟨u, seed, ?_, rfl⟩
    exact foldlM_invariant (I := fun a : State × Word => BandRun s a.1) (fun a ha gb hgb a' h' =>
      ha.trans (fillBand_bandRun (Nat.lt_of_lt_of_le (mem_pairList.1 hgb).2 (maxSfb_le hcfg)) h')) (.refl _) hfold

theorem dmxUpdate_bandRun {c1 c2 : Nat} {s t : State} (hmax : s.maxSfb c1 ≤ 64)
    (h : dmxUpdate params c1 c2 s = .ok t) : BandRun s t := by
  unfold dmxUpdate at h
  refine foldlM_invariant (I := BandRun s) (fun u hu wb hwb t ht => hu.trans ?_) ?_ h
  · obtain ⟨hw, hb⟩ := mem_pairList.1 hwb
    exact dmxBand_bandRun (Nat.lt_of_lt_of_le hw (nwin_le s c1)) (Nat.lt_of_lt_of_le hb hmax) ht
  · exact (bandRun_putWords _ _ _ _ _).trans (bandRun_putBytes _ rfl _ (by rw [List.length_replicate]))

/-- The configuration is not in what the band operators write. -/
theorem BandRun.maxSfb {s t : State} (h : BandRun s t) (c : Nat) : t.maxSfb c = s.maxSfb c := by
  rw [h.frame]; rfl

/-- MS_APPLY does nothing, or runs the band operators and records PREV_INFO. -/
theorem msApply_bandRun {c1 c2 : Nat} {cw : Bool} {s t : State} (h : msApply params c1 c2 cw s = .ok t) :
    t = s ∨ ∃ u, BandRun s u ∧ t = savePrevWin c1 u := by
  obtain ⟨_, _, _, _, _, ⟨_, rfl⟩ | ⟨_, hcfg, _, _, s1, s2, hms, _, hdmx, _, rfl⟩⟩ := msApply_ok h
  · exact .inl rfl
  · have h1 : BandRun s s1 := foldlM_invariant (I := BandRun s) (fun u hu wb hwb t ht => hu.trans
      (msBand_bandRun (Nat.lt_of_lt_of_le (mem_pairList.1 hwb).1 (nwin_le s c1))
        (Nat.lt_of_lt_of_le (mem_pairList.1 hwb).2 (maxSfb_le hcfg)) ht)) (.refl s) hms
    exact .inr ⟨s2, h1.trans (dmxUpdate_bandRun (h1.maxSfb c1 ▸ maxSfb_le hcfg) hdmx), rfl⟩

theorem recheckBox_ok {P : Params} {s : State} {i : Nat} : recheckBox P s i = .ok () ↔
    (s.ch (s.latch i).c1).stage = .decoded ∧ (s.ch (s.latch i).c2).stage = .decoded ∧
      chkCfg P s (s.latch i).c1 = .ok () ∧ chkCfg P s (s.latch i).c2 = .ok () ∧
      s.short (s.latch i).c1 = (s.latch i).sh ∧ s.short (s.latch i).c2 = (s.latch i).sh := by
  simp [recheckBox, check_bind_ok]

theorem mem_boxBands {s : State} {i : Nat} {wb : Nat × Nat} : wb ∈ boxBands s i ↔
    wb.1 < (if (s.latch i).sh then Config.nWinShort else 1) ∧ wb.2 ∈ covered s (s.latch i) := by
  obtain ⟨w, b⟩ := wb
  simp [boxBands]

theorem covered_lt {s : State} {x : LBox} {b : Nat} (h : b ∈ covered s x) : b < max (s.maxSfb x.c1) (s.maxSfb x.c2) := by
  unfold covered at h
  simp only at h
  split at h
  · have := List.mem_range.1 (List.mem_of_mem_filter h)
    omega
  · exact List.mem_range.1 h

/-- The bands of a box that passes the re-check are in the 8 windows and 64 bands of EXP. -/
theorem boxBands_lt {P : Params} {s : State} {i : Nat} (h : recheckBox P s i = .ok ()) {wb : Nat × Nat}
    (hwb : wb ∈ boxBands s i) : wb.1 < 8 ∧ wb.2 < 64 := by
  obtain ⟨hw, hb⟩ := mem_boxBands.1 hwb
  obtain ⟨_, _, hcfg1, hcfg2, _, _⟩ := recheckBox_ok.1 h
  have := covered_lt hb
  have := maxSfb_le hcfg1
  have := maxSfb_le hcfg2
  refine ⟨?_, by omega⟩
  exact Nat.lt_of_lt_of_le hw (by unfold Config.nWinShort; split <;> omega)

theorem fillStereo_bandRun {P : Params} {i b : Nat} (hb : b < 64) {s t : State} (h : fillStereo P i b s = .ok t) :
    BandRun s t := by
  unfold fillStereo at h
  split at h
  · obtain ⟨f, _, h⟩ := bind_ok.1 h
    split at h
    · exact sfill_bandRun hb h
    · cases h; exact .refl _
  · cases h; exact .refl _

theorem applyBand_bandRun {P : Params} {i : Nat} {wb : Nat × Nat} (hw : wb.1 < 8) (hb : wb.2 < 64) {s t : State}
    (h : applyBand P i s wb = .ok t) : BandRun s t := by
  obtain ⟨u, hu, h⟩ := bind_ok.1 h
  exact (fillStereo_bandRun hb hu).trans (op2At_bandRun hw hb h)

/-- The latch, the boxes and the configuration are not in what the band operators write. -/
theorem BandRun.boxBands {s t : State} (h : BandRun s t) (i : Nat) : boxBands t i = boxBands s i := by
  rw [h.frame]; rfl

theorem applyBox_bandRun {P : Params} {i : Nat} {s t : State} (hlt : ∀ wb ∈ boxBands s i, wb.1 < 8 ∧ wb.2 < 64)
    (h : applyBox P s i = .ok t) : BandRun s t :=
  foldlM_invariant (I := BandRun s) (fun _ hu wb hwb _ ht =>
    hu.trans (applyBand_bandRun (hlt wb hwb).1 (hlt wb hwb).2 ht)) (.refl s) h

/-- MCT_APPLY runs the band operators and moves MCT_STATE on. -/
theorem mctApply_bandRun {P : Params} {s t : State} (h : mctApply P s = .ok t) :
    ∃ u, BandRun s u ∧ t = { u with mctState := .rotationApplied } := by
  obtain ⟨_, hre, u, hfold, _, rfl⟩ := mctApply_ok h
  rw [forM_ok] at hre
  refine ⟨u, foldlM_invariant (I := BandRun s) (fun v hv i hi t ht => hv.trans (applyBox_bandRun ?_ ht)) (.refl s) hfold,
    rfl⟩
  rw [hv.boxBands]
  exact fun wb hwb => boxBands_lt (hre i hi) hwb

end Sys2Proof.Proofs
end

section
/-! What a command can do to the registers of a channel and of a box (R55 to R61, R85 to R91): the fields that only the
host writes stay, NSEED moves with NOISE_FILL only (R58), STAGE with the three commands of R251 only. -/

namespace Sys2Proof.Proofs

open Sys2Proof Sys2Proof.Machine

/-! ### Channel registers -/

/-- What command i can make of the registers x of channel c. -/
structure ChannelStep (i : Instr) (c : Nat) (x y : Channel) : Prop where
  host : y = { x with nseed := y.nseed, stage := y.stage, prevShort := y.prevShort, prevPath := y.prevPath,
                      prevWinSeq := y.prevWinSeq, prevWinShape := y.prevWinShape, frac := y.frac }
  seed : i ≠ .noiseFill c → y.nseed = x.nseed
  stage : i ≠ .chBegin c → i ≠ .iqScale c → i ≠ .iqDequant c → y.stage = x.stage

theorem ChannelStep.refl (i : Instr) (c : Nat) (x : Channel) : ChannelStep i c x x :=
  ⟨rfl, fun _ => rfl, fun _ _ _ => rfl⟩

theorem ChannelStep.trans {i : Instr} {c : Nat} {x y z : Channel} (h : ChannelStep i c x y) (h' : ChannelStep i c y z) :
    ChannelStep i c x z :=
  ⟨by rw [h'.host, h.host], fun hi => (h'.seed hi).trans (h.seed hi),
    fun h1 h2 h3 => (h'.stage h1 h2 h3).trans (h.stage h1 h2 h3)⟩

/-- What command i can make of the channel registers of a state. -/
def ChannelsStep (i : Instr) (s t : State) : Prop := ∀ c, ChannelStep i c (s.ch c) (t.ch c)

theorem ChannelsStep.refl (i : Instr) (s : State) : ChannelsStep i s s := fun _ => .refl _ _ _

theorem ChannelsStep.trans {i : Instr} {s t u : State} (h : ChannelsStep i s t) (h' : ChannelsStep i t u) :
    ChannelsStep i s u := fun c => (h c).trans (h' c)

theorem channelsStep_of_chans {i : Instr} {s t : State} (h : t.chans = s.chans) : ChannelsStep i s t := by
  intro c
  rw [State.ch, State.ch, h]
  exact .refl _ _ _

theorem channelsStep_setCh {i : Instr} {s : State} {c : Nat} {x : Channel} (h : ChannelStep i c (s.ch c) x) :
    ChannelsStep i s (s.setCh c x) := by
  intro d
  rcases State.ch_setCh_eq_or s c d x with hd | ⟨rfl, hd⟩ <;> rw [hd]
  · exact .refl _ _ _
  · exact h

/-- Writing the previous-frame flags of a channel. -/
theorem channelsStep_setCh_prev (i : Instr) (s : State) (c : Nat) (a b : Bool) :
    ChannelsStep i s (s.setCh c { s.ch c with prevShort := a, prevPath := b }) :=
  channelsStep_setCh ⟨rfl, fun _ => rfl, fun _ _ _ => rfl⟩

theorem BandRun.channelsStep {s t : State} (h : BandRun s t) (i : Instr) : ChannelsStep i s t :=
  channelsStep_of_chans (by rw [h.frame])

theorem hreset_channelsStep (i : Instr) (P : Params) (s : State) : ChannelsStep i s (hreset P s) := by
  unfold hreset
  refine ChannelsStep.trans (t := { (List.range P.maxBoxes).foldl (fun t i => t.setBox i (t.box i).forget) s with
    prevMode := .none }) (channelsStep_of_chans (by rw [forgetBoxes_frame])) ?_
  exact foldl_keeps (R := ChannelsStep i) (.refl i) (fun _ _ _ => .trans)
    (fun u c => channelsStep_setCh_prev i (u.clearSaved P.nLong c) c false false) _ _

theorem parseBase_channelsStep (i : Instr) (s : State) : ChannelsStep i s (parseBase params s) := by
  unfold parseBase
  split
  · exact hreset_channelsStep i params s
  · exact .refl i s

theorem saveChannel_channelsStep (i : Instr) {P : Params} {c : Nat} {s t : State} (h : saveChannel P s c = .ok t) :
    ChannelsStep i s t := by
  simp only [saveChannel, bind_ok] at h
  obtain ⟨ms, _, es, _, h⟩ := h
  cases h
  exact channelsStep_setCh_prev i ((s.putWords .pmant c 0 ms).putBytes .pexp c 0 es) c _ _

theorem commitFrame_channelsStep (i : Instr) {s t : State} (h : commitFrame params s = .ok t) : ChannelsStep i s t := by
  refine ChannelsStep.trans (t := { commitBoxes params s with prevMode := PrevMode.ofMode (ctlMode s.lCtrl) })
    (channelsStep_of_chans (by rw [commitBoxes_frame])) ?_
  exact foldlM_keeps (R := ChannelsStep i) (.refl i) (fun _ _ _ => .trans)
    (fun _ _ _ h => saveChannel_channelsStep i h) h

/-- Everything a command's rule can do to the channel registers. -/
theorem commandRule_channelsStep {i : Instr} {s t : State} (h : commandRule i s = .ok t) : ChannelsStep i s t := by
  cases i with
  | nop => cases h; exact .refl _ _
  | chBegin c =>
    obtain ⟨_, rfl⟩ := chBegin_ok.1 h
    exact channelsStep_setCh (s := (s.putBytes .cb c 0 _).putBytes .nflag c 0 _) ⟨rfl, fun _ => rfl, fun h => absurd rfl h⟩
  | iqScale c =>
    obtain ⟨_, _, _, cells, _, rfl⟩ := iqScale_ok.1 h
    refine ChannelsStep.trans (t := (s.putBytes .exp c 0 (cells.map (·.1))).setFrac c (cells.map (·.2))) ?_ ?_
    · exact channelsStep_setCh (s := s.putBytes .exp c 0 _) ⟨rfl, fun _ => rfl, fun _ _ _ => rfl⟩
    · exact channelsStep_setCh ⟨rfl, fun _ => rfl, fun _ h => absurd rfl h⟩
  | iqDequant c =>
    obtain ⟨_, _, _, bands, qs, _, _, rfl⟩ := iqDequant_ok.1 h
    refine ChannelsStep.trans (t := qs.foldl (putDequant params c) (s.putWords .mant c 0 (List.replicate params.nLong 0)))
      (channelsStep_of_chans (by rw [putDequants_frame]; rfl)) ?_
    exact channelsStep_setCh ⟨rfl, fun _ => rfl, fun _ _ h => absurd rfl h⟩
  | noiseFill c =>
    rcases noiseFill_bandRun h with rfl | ⟨u, seed, hu, rfl⟩
    · exact .refl _ _
    · exact (hu.channelsStep _).trans (channelsStep_setCh ⟨rfl, fun h => absurd rfl h, fun _ _ _ => rfl⟩)
  | msApply c1 c2 cw =>
    rcases msApply_bandRun h with rfl | ⟨u, hu, rfl⟩
    · exact .refl _ _
    · exact (hu.channelsStep _).trans (channelsStep_setCh ⟨rfl, fun _ => rfl, fun _ _ _ => rfl⟩)
  | mctParse =>
    obtain ⟨_, _, ps, _, rfl⟩ := mctParse_ok h
    exact (parseBase_channelsStep _ s).trans (channelsStep_of_chans (by rw [commitParse_frame]))
  | mctApply =>
    obtain ⟨u, hu, rfl⟩ := mctApply_bandRun h
    exact hu.channelsStep _
  | mctClose ok =>
    rcases mctClose_ok h with ⟨_, rfl⟩ | ⟨_, _, u, hu, _, _, rfl⟩
    · exact channelsStep_of_chans (by rw [(failClose_frame params s).1]; rfl)
    · exact (commitFrame_channelsStep _ hu).trans (channelsStep_of_chans rfl)
  | mctReset =>
    cases h
    exact (hreset_channelsStep _ params s).trans (channelsStep_of_chans (by rw [mctReset]))
  | clearErr => cases h; exact .refl _ _

theorem raiseBase_channelsStep (i : Instr) (s : State) : ChannelsStep i s (raiseBase i s) := by
  rcases raiseBase_cases i s with h | ⟨_, h⟩ <;> rw [h]
  · exact .refl i s
  · exact hreset_channelsStep i params s

/-- Everything a command that answers can have done to the channel registers. -/
theorem exec_channelsStep {i : Instr} {s t : State} (h : exec i s = .next t) : ChannelsStep i s t := by
  rcases exec_next h with ⟨u, hu, rfl⟩ | ⟨e, _, rfl⟩
  · exact (commandRule_channelsStep hu).trans (channelsStep_of_chans rfl)
  · exact (raiseBase_channelsStep i s).trans (channelsStep_of_chans (State.raise_chans _ e))

/-- Settles O22: NSEED is one of the registers a command can write, and only NOISE_FILL of the channel does. -/
theorem onlyNoiseFillMovesTheSeed : Obligations.OnlyNoiseFillMovesTheSeed :=
  fun _ _ _ c h _ hi => (exec_channelsStep h c).seed hi

/-! ### Box registers -/

/-- The registers of a box that only the host writes (R85 to R87). -/
def BoxHostKept (x y : Box) : Prop :=
  y.ctrl = x.ctrl ∧ y.maskLo = x.maskLo ∧ y.maskHi = x.maskHi ∧ y.sym = x.sym

def BoxesHostKept (s t : State) : Prop := ∀ i, BoxHostKept (s.box i) (t.box i)

theorem BoxesHostKept.refl (s : State) : BoxesHostKept s s := fun _ => ⟨rfl, rfl, rfl, rfl⟩

theorem BoxesHostKept.trans {s t u : State} (h : BoxesHostKept s t) (h' : BoxesHostKept t u) : BoxesHostKept s u := by
  intro i
  obtain ⟨h1, h2, h3, h4⟩ := h i
  obtain ⟨k1, k2, k3, k4⟩ := h' i
  exact ⟨k1.trans h1, k2.trans h2, k3.trans h3, k4.trans h4⟩

theorem boxesHostKept_of_boxes {s t : State} (h : t.boxes = s.boxes) : BoxesHostKept s t := by
  intro i
  rw [State.box, State.box, h]
  exact ⟨rfl, rfl, rfl, rfl⟩

theorem boxesHostKept_setBox {s : State} {i : Nat} {x : Box} (h : BoxHostKept (s.box i) x) :
    BoxesHostKept s (s.setBox i x) := by
  intro j
  rcases State.box_setBox_eq_or s i j x with hj | ⟨rfl, hj⟩ <;> rw [hj]
  · exact ⟨rfl, rfl, rfl, rfl⟩
  · exact h

/-- A pass over boxes whose every round keeps the host's registers of its box keeps them all. -/
theorem boxesHostKept_foldl {f : State → Nat → Box} (hf : ∀ s i, BoxHostKept (s.box i) (f s i)) (l : List Nat)
    (s : State) : BoxesHostKept s (l.foldl (fun t i => t.setBox i (f t i)) s) :=
  foldl_keeps (R := BoxesHostKept) .refl (fun _ _ _ => .trans) (fun u i => boxesHostKept_setBox (hf u i)) l s

theorem hreset_boxesHostKept (P : Params) (s : State) : BoxesHostKept s (hreset P s) := by
  unfold hreset
  refine BoxesHostKept.trans (boxesHostKept_foldl (f := fun t i => (t.box i).forget) ?_ (List.range P.maxBoxes) s) ?_
  · exact fun _ _ => ⟨rfl, rfl, rfl, rfl⟩
  · exact boxesHostKept_of_boxes (by rw [(forgetChannels_frame P (List.range P.maxCh) _).1])

theorem parseBase_boxesHostKept (s : State) : BoxesHostKept s (parseBase params s) := by
  unfold parseBase
  split
  · exact hreset_boxesHostKept params s
  · exact .refl s

theorem commitParse_boxesHostKept (P : Params) (s : State) (ps : List ParsedBox) :
    BoxesHostKept s (commitParse P s ps) := by
  unfold commitParse
  refine BoxesHostKept.trans (t := ps.zipIdx.foldl (fun t x => t.commitBox x.2 x.1) s) ?_ ?_
  · refine foldl_keeps (R := BoxesHostKept) .refl (fun _ _ _ => .trans) (fun u x => ?_) _ s
    exact BoxesHostKept.trans (boxesHostKept_setBox (i := x.2) (x := { u.box x.2 with coef := x.1.coef, info := x.1.info })
      ⟨rfl, rfl, rfl, rfl⟩) (boxesHostKept_of_boxes rfl)
  · refine BoxesHostKept.trans (boxesHostKept_foldl (f := fun t i => { t.box i with info := 0 }) ?_ _ _)
      (boxesHostKept_of_boxes rfl)
    exact fun _ _ => ⟨rfl, rfl, rfl, rfl⟩

theorem commitBoxes_boxesHostKept (P : Params) (s : State) : BoxesHostKept s (commitBoxes P s) := by
  unfold commitBoxes
  refine BoxesHostKept.trans (boxesHostKept_foldl (f := fun t i => (t.box i).commit (t.latch i)) ?_ _ s)
    (boxesHostKept_foldl (f := fun t i => (t.box i).drop) ?_ _ _)
  all_goals exact fun _ _ => ⟨rfl, rfl, rfl, rfl⟩

/-- No command's rule writes a box register of the host's. -/
theorem commandRule_boxesHostKept {i : Instr} {s t : State} (h : commandRule i s = .ok t) : BoxesHostKept s t := by
  cases i with
  | nop => cases h; exact .refl _
  | chBegin c => exact boxesHostKept_of_boxes (by rw [chBegin_frame h])
  | iqScale c => exact boxesHostKept_of_boxes (by rw [iqScale_frame h])
  | iqDequant c => exact boxesHostKept_of_boxes (by rw [iqDequant_frame h])
  | noiseFill c => exact boxesHostKept_of_boxes (by rw [noiseFill_frame h])
  | msApply c1 c2 cw => exact boxesHostKept_of_boxes (by rw [msApply_frame h])
  | mctParse =>
    obtain ⟨_, _, ps, _, rfl⟩ := mctParse_ok h
    exact (parseBase_boxesHostKept s).trans (commitParse_boxesHostKept _ _ _)
  | mctApply =>
    obtain ⟨u, hu, rfl⟩ := mctApply_bandRun h
    exact boxesHostKept_of_boxes (by rw [hu.frame])
  | mctClose ok =>
    rcases mctClose_ok h with ⟨_, rfl⟩ | ⟨_, _, u, _, hu, _, rfl⟩
    · exact boxesHostKept_of_boxes (by rw [(failClose_frame params s).1]; rfl)
    · exact (commitBoxes_boxesHostKept params s).trans (boxesHostKept_of_boxes (by rw [hu]; rfl))
  | mctReset =>
    cases h
    exact (hreset_boxesHostKept params s).trans (boxesHostKept_of_boxes (by rw [mctReset]))
  | clearErr => cases h; exact .refl _

theorem raiseBase_boxesHostKept (i : Instr) (s : State) : BoxesHostKept s (raiseBase i s) := by
  rcases raiseBase_cases i s with h | ⟨_, h⟩ <;> rw [h]
  · exact .refl s
  · exact hreset_boxesHostKept params s

/-! ### The host's fields -/

/-- OVF is sticky: no command's rule clears it (R212). -/
theorem commandRule_ovf_sticky {i : Instr} {s t : State} (h : commandRule i s = .ok t) (ho : s.ovf = true) :
    t.ovf = true := by
  cases i with
  | nop => cases h; exact ho
  | chBegin c => rw [chBegin_frame h]; exact ho
  | iqScale c => rw [iqScale_frame h]; exact ho
  | iqDequant c => rw [iqDequant_frame h]; exact ho
  | noiseFill c =>
    rcases noiseFill_bandRun h with rfl | ⟨u, seed, hu, rfl⟩
    · exact ho
    · exact hu.ovf ho
  | msApply c1 c2 cw =>
    rcases msApply_bandRun h with rfl | ⟨u, hu, rfl⟩
    · exact ho
    · exact hu.ovf ho
  | mctParse =>
    obtain ⟨_, _, ps, _, rfl⟩ := mctParse_ok h
    rw [commitParse_frame, parseBase_frame]
    exact ho
  | mctApply =>
    obtain ⟨u, hu, rfl⟩ := mctApply_bandRun h
    exact hu.ovf ho
  | mctClose ok =>
    rcases mctClose_ok h with ⟨_, rfl⟩ | ⟨_, _, u, _, hu, _, rfl⟩
    · rw [(failClose_frame params s).1]; exact ho
    · rw [hu]; exact ho
  | mctReset => cases h; rw [mctReset, hreset_frame]; exact ho
  | clearErr => cases h; exact ho

/-- The host's fields are kept where the registers go as a command takes them and no other field of the host's moves. -/
theorem hostFieldsKept_of {i : Instr} {s t : State}
    (h : t = { s with done := t.done, err := t.err, errCode := t.errCode, ovf := t.ovf, mem := t.mem, chans := t.chans,
                      boxes := t.boxes, mctState := t.mctState, prevMode := t.prevMode, lCtrl := t.lCtrl,
                      lBox := t.lBox, pending := t.pending })
    (hc : ChannelsStep i s t) (hb : BoxesHostKept s t) : HostFieldsKept s t where
  flags := by rw [h]; exact ⟨rfl, rfl, rfl⟩
  counters := by rw [h]; exact ⟨rfl, rfl⟩
  tables := by rw [h]; exact ⟨rfl, rfl, rfl, rfl⟩
  mct := by rw [h]; exact ⟨rfl, rfl⟩
  chans c _ := by rw [(hc c).host]; exact ⟨rfl, rfl, rfl, rfl, rfl⟩
  boxes i _ := hb i
  inputs := by rw [h]; exact ⟨rfl, rfl, rfl⟩

theorem raiseBase_frame (i : Instr) (s : State) : raiseBase i s =
    { s with mem := (raiseBase i s).mem, chans := (raiseBase i s).chans, boxes := (raiseBase i s).boxes,
             prevMode := (raiseBase i s).prevMode } := by
  rcases raiseBase_cases i s with h | ⟨_, h⟩ <;> rw [h]
  rw [hreset_frame]

/-- Settles O21: the outcome completes, and neither a rule nor what a raise leaves writes a field of the host's. -/
theorem commandsLeaveHostFieldsAlone : Obligations.CommandsLeaveHostFieldsAlone := by
  intro i s t h
  have hc := exec_channelsStep h
  rcases exec_next h with ⟨u, hu, rfl⟩ | ⟨e, _, rfl⟩
  · have hovf : s.ovf = true → u.ovf = true := commandRule_ovf_sticky hu
    refine ⟨rfl, rfl, hovf, hostFieldsKept_of ?_ hc
      ((commandRule_boxesHostKept hu).trans (boxesHostKept_of_boxes rfl))⟩
    rw [commandRule_frame hu]
    rfl
  · have hb := (raiseBase_boxesHostKept i s).trans (boxesHostKept_of_boxes (State.raise_boxes (raiseBase i s) e))
    refine ⟨rfl, rfl, fun ho => ?_, hostFieldsKept_of ?_ hc hb⟩
    · rw [State.raise_ovf, raiseBase_frame]; exact ho
    · rw [State.raise_frame, raiseBase_frame]

end Sys2Proof.Proofs
end

section
/-! The written-marks that a stage stands for (R98, R251, R451) are kept by every turn. -/

namespace Sys2Proof.Proofs

open Sys2Proof Sys2Proof.Machine

/-! ### Marks under a command's rule -/

theorem hreset_marksKept {P : Params} (hP : P.nLong ≤ 1024) (s : State) : MarksKept s.mem (hreset P s).mem := by
  unfold hreset
  generalize hu : (List.range P.maxBoxes).foldl (fun t i => t.setBox i (t.box i).forget) s = u
  have hmem : u.mem = s.mem := by rw [← hu, forgetBoxes_frame]
  rw [← hmem]
  exact foldl_keeps (f := fun t c => (t.clearSaved P.nLong c).setCh c (t.ch c).forget)
    (R := fun s t : State => MarksKept s.mem t.mem) (fun _ => .refl _) (fun _ _ _ => .trans)
    (fun u c => marksKept_clearSaved u hP c) (List.range P.maxCh) { u with prevMode := .none }

theorem params_nLong : params.nLong = 1024 := rfl

theorem parseBase_marksKept (s : State) : MarksKept s.mem (parseBase params s).mem := by
  unfold parseBase
  split
  · exact hreset_marksKept params_nLong.le s
  · exact .refl _

theorem failClose_marksKept {P : Params} (hP : P.nLong ≤ 1024) (s : State) : MarksKept s.mem (failClose P s).mem :=
  foldl_keeps (f := fun t c => t.clearSaved P.nLong c) (R := fun s t : State => MarksKept s.mem t.mem)
    (fun _ => .refl _) (fun _ _ _ => .trans) (fun u c => marksKept_clearSaved u hP c) _ _

theorem saveChannel_marksKept {P : Params} {c : Nat} {s t : State} (h : saveChannel P s c = .ok t) :
    MarksKept s.mem t.mem := by
  simp only [saveChannel, bind_ok] at h
  obtain ⟨ms, _, es, hes, h⟩ := h
  cases h
  have hlen : es.length = 512 := (getBytes_ok.1 hes).1
  exact (marksKept_putWords s .pmant c 0 ms).trans (marksKept_putBytes _ rfl c (by omega))

theorem commitFrame_marksKept {s t : State} (h : commitFrame params s = .ok t) : MarksKept s.mem t.mem := by
  have hfold := foldlM_keeps (R := fun s t : State => MarksKept s.mem t.mem) (fun _ => .refl _) (fun _ _ _ => .trans)
    (fun _ _ _ h => saveChannel_marksKept h) h
  exact MarksKept.trans (by rw [commitBoxes_frame]; exact .refl _) hfold

theorem putDequants_marksKept (c : Nat) (qs : List ((Nat × Nat) × List Word)) (s : State) :
    MarksKept s.mem (qs.foldl (putDequant params c) s).mem :=
  foldl_keeps (R := fun s t : State => MarksKept s.mem t.mem) (fun _ => .refl _) (fun _ _ _ => .trans)
    (fun u _ => marksKept_putWords u _ _ _ _) qs s

/-- CH_BEGIN writes all 512 cells of CB and of NFLAG (R255). -/
theorem chBegin_writes {P : Params} {c : Nat} {s t : State} (h : chBegin P c s = .ok t) :
    ∃ cbs nfs : List Byte, cbs.length = 512 ∧ nfs.length = 512 ∧
      t = ((s.putBytes .cb c 0 cbs).putBytes .nflag c 0 nfs).setStage c .begun := by
  obtain ⟨_, rfl⟩ := chBegin_ok.1 h
  exact ⟨_, _, List.length_replicate, List.length_replicate, rfl⟩

theorem length_pairList (nx nb : Nat) : (pairList nx nb).length = nx * nb := by
  simp [pairList, List.length_flatMap]

/-- IQ_SCALE writes all 512 cells of EXP (R265). -/
theorem iqScale_writes {P : Params} {c : Nat} {s t : State} (h : iqScale P c s = .ok t) :
    (s.ch c).stage = .begun ∧ ∃ (exps : List Byte) (fracs : List (BitVec 2)), exps.length = 512 ∧
      t = ((s.putBytes .exp c 0 exps).setFrac c fracs).setStage c .scaled := by
  obtain ⟨_, hst, _, cells, hcells, rfl⟩ := iqScale_ok.1 h
  refine ⟨hst, _, _, ?_, rfl⟩
  rw [List.length_map, ← (mapM_ok.1 hcells).length_eq, length_pairList]

/-- IQ_DEQUANT writes all lines of MANT, and then those of the transmitted bands (R272). -/
theorem iqDequant_writes {P : Params} {c : Nat} {s t : State} (h : iqDequant P c s = .ok t) :
    (s.ch c).stage = .scaled ∧ ∃ (zeros : List Word) (qs : List ((Nat × Nat) × List Word)), zeros.length = P.nLong ∧
      t = (qs.foldl (putDequant P c) (s.putWords .mant c 0 zeros)).setStage c .decoded := by
  obtain ⟨_, hst, _, bands, qs, _, _, rfl⟩ := iqDequant_ok.1 h
  exact ⟨hst, _, qs, List.length_replicate, rfl⟩

/-- No command's rule clears a mark (R98). -/
theorem commandRule_marksKept {i : Instr} {s t : State} (h : commandRule i s = .ok t) : MarksKept s.mem t.mem := by
  cases i with
  | nop => cases h; exact .refl _
  | chBegin c =>
    obtain ⟨cbs, nfs, hcbs, hnfs, rfl⟩ := chBegin_writes h
    exact (marksKept_putBytes s rfl c (by omega)).trans (marksKept_putBytes _ rfl c (by omega))
  | iqScale c =>
    obtain ⟨_, exps, fracs, hexps, rfl⟩ := iqScale_writes h
    exact marksKept_putBytes s rfl c (by omega)
  | iqDequant c =>
    obtain ⟨_, zeros, qs, _, rfl⟩ := iqDequant_writes h
    exact (marksKept_putWords s _ _ _ _).trans (putDequants_marksKept c qs _)
  | noiseFill c =>
    rcases noiseFill_bandRun h with rfl | ⟨u, seed, hu, rfl⟩
    · exact .refl _
    · exact hu.marks
  | msApply c1 c2 cw =>
    rcases msApply_bandRun h with rfl | ⟨u, hu, rfl⟩
    · exact .refl _
    · exact hu.marks
  | mctParse =>
    obtain ⟨_, _, ps, _, rfl⟩ := mctParse_ok h
    rw [commitParse_frame]
    exact parseBase_marksKept s
  | mctApply =>
    obtain ⟨u, hu, rfl⟩ := mctApply_bandRun h
    exact hu.marks
  | mctClose ok =>
    rcases mctClose_ok h with ⟨_, rfl⟩ | ⟨_, _, u, hu, _, _, rfl⟩
    · exact failClose_marksKept params_nLong.le s
    · exact (commitFrame_marksKept hu).trans (.refl _)
  | mctReset => cases h; exact hreset_marksKept params_nLong.le s
  | clearErr => cases h; exact .refl _

/-! ### The marks of a stage -/

theorem byteMarked_iff {M : ChMem} (hM : M.isWord = false) (m : Memory) (c k : Nat) :
    byteMarked m M c k ↔ (cellBits m M c k).isSome = true := by
  rw [cellBits_byte hM, Option.isSome_map]; rfl

theorem wordMarked_iff {M : ChMem} (hM : M.isWord = true) (m : Memory) (c k : Nat) :
    wordMarked m M c k ↔ (cellBits m M c k).isSome = true := by
  rw [cellBits_word hM]; rfl

theorem MarksKept.byte {m m' : Memory} (h : MarksKept m m') {M : ChMem} (hM : M.isWord = false) {c k : Nat}
    (hk : k < 512) (hm : byteMarked m M c k) : byteMarked m' M c k :=
  (byteMarked_iff hM m' c k).2 (h M c k (memSize_byte hM ▸ hk) ((byteMarked_iff hM m c k).1 hm))

theorem MarksKept.word {m m' : Memory} (h : MarksKept m m') {M : ChMem} (hM : M.isWord = true) {c k : Nat}
    (hk : k < 1024) (hm : wordMarked m M c k) : wordMarked m' M c k :=
  (wordMarked_iff hM m' c k).2 (h M c k (memSize_word hM ▸ hk) ((wordMarked_iff hM m c k).1 hm))

/-- Where no mark is cleared and the stage stays, so does what the stage says. -/
theorem channelMarks_mono {s t : State} {c : Nat} (hs : ChannelMarks s c) (hm : MarksKept s.mem t.mem)
    (hst : (t.ch c).stage = (s.ch c).stage) : ChannelMarks t c where
  cb h i hi := hm.byte rfl hi (hs.cb (hst ▸ h) i hi)
  nflag h i hi := hm.byte rfl hi (hs.nflag (hst ▸ h) i hi)
  exp h i hi := hm.byte rfl hi (hs.exp (hst ▸ h) i hi)
  mant h k hk := hm.word rfl hk (hs.mant (hst ▸ h) k hk)

theorem byteMarked_putBytes (s : State) (M : ChMem) (c : Nat) {bs : List Byte} {k : Nat} (hk : k < bs.length) :
    byteMarked (s.putBytes M c 0 bs).mem M c k := by
  have h := readByte_putBytes (s := s) (M := M) (c := c) (i := 0) hk
  rw [Nat.zero_add] at h
  rw [byteMarked, h]
  rfl

theorem wordMarked_putWords (s : State) (M : ChMem) (c : Nat) {ws : List Word} {k : Nat} (hk : k < ws.length) :
    wordMarked (s.putWords M c 0 ws).mem M c k := by
  have h := readWord_putWords (s := s) (M := M) (c := c) (i := 0) hk
  rw [Nat.zero_add] at h
  rw [wordMarked, h]
  rfl

@[simp] theorem stage_setStage {s : State} {c : Nat} (hc : c < 16) (g : Stage) : ((s.setStage c g).ch c).stage = g := by
  rw [State.setStage, State.ch_setCh_self hc]

/-- CH_BEGIN writes what BEGUN stands for: CB and NFLAG in full (R255). -/
theorem chBegin_marks {c : Nat} {s t : State} (hc : c < 16) (h : chBegin params c s = .ok t) : ChannelMarks t c := by
  obtain ⟨cbs, nfs, hcbs, hnfs, rfl⟩ := chBegin_writes h
  have hst := stage_setStage (s := (s.putBytes .cb c 0 cbs).putBytes .nflag c 0 nfs) hc .begun
  exact
    { cb := fun _ i hi => (marksKept_putBytes _ rfl c (by omega)).byte rfl hi (byteMarked_putBytes s .cb c (by omega))
      nflag := fun _ i hi => byteMarked_putBytes _ .nflag c (by omega)
      exp := fun h => by simp [hst] at h
      mant := fun h => by simp [hst] at h }

/-- IQ_SCALE adds what SCALED stands for: EXP in full (R265). -/
theorem iqScale_marks {c : Nat} {s t : State} (hc : c < 16) (h : iqScale params c s = .ok t) (hs : ChannelMarks s c) :
    ChannelMarks t c := by
  have hkept : MarksKept s.mem t.mem := commandRule_marksKept (i := .iqScale c) h
  obtain ⟨hbegun, exps, fracs, hexps, rfl⟩ := iqScale_writes h
  have hidle : (s.ch c).stage ≠ .idle := by simp [hbegun]
  have hst := stage_setStage (s := (s.putBytes .exp c 0 exps).setFrac c fracs) hc .scaled
  exact
    { cb := fun _ i hi => hkept.byte rfl hi (hs.cb hidle i hi)
      nflag := fun _ i hi => hkept.byte rfl hi (hs.nflag hidle i hi)
      exp := fun _ i hi => byteMarked_putBytes s .exp c (by omega)
      mant := fun h => by simp [hst] at h }

/-- IQ_DEQUANT adds what DECODED stands for: MANT in full (R272). -/
theorem iqDequant_marks {c : Nat} {s t : State} (h : iqDequant params c s = .ok t) (hs : ChannelMarks s c) :
    ChannelMarks t c := by
  have hkept : MarksKept s.mem t.mem := commandRule_marksKept (i := .iqDequant c) h
  obtain ⟨hscaled, zeros, qs, hzeros, rfl⟩ := iqDequant_writes h
  have hidle : (s.ch c).stage ≠ .idle := by simp [hscaled]
  rw [params_nLong] at hzeros
  exact
    { cb := fun _ i hi => hkept.byte rfl hi (hs.cb hidle i hi)
      nflag := fun _ i hi => hkept.byte rfl hi (hs.nflag hidle i hi)
      exp := fun _ i hi => hkept.byte rfl hi (hs.exp (.inl hscaled) i hi)
      mant := fun _ k hk => (putDequants_marksKept c qs _).word rfl hk (wordMarked_putWords s .mant c (by omega)) }

/-- Every command's rule keeps the marks of every channel: it moves the stage of a channel only with the writes that the
new stage stands for. -/
theorem commandRule_marks {i : Instr} {s t : State} (h : commandRule i s = .ok t) (hs : MarksFollowStage s) :
    MarksFollowStage t := by
  intro c hc
  by_cases h1 : i = .chBegin c
  · subst h1; exact chBegin_marks hc h
  by_cases h2 : i = .iqScale c
  · subst h2; exact iqScale_marks hc h (hs c hc)
  by_cases h3 : i = .iqDequant c
  · subst h3; exact iqDequant_marks h (hs c hc)
  exact channelMarks_mono (hs c hc) (commandRule_marksKept h) ((commandRule_channelsStep h c).stage h1 h2 h3)

/-! ### Marks under a host write -/

theorem writeMem_marksKept (s : State) {c i : Nat} {M : ChMem} (hi : i < memSize M) (v : Word) :
    MarksKept s.mem (s.writeMem c M i v).mem := by
  cases M with
  | mant => exact marksKept_putWords _ _ _ _ _
  | qin => exact marksKept_putWords _ _ _ _ _
  | exp => exact marksKept_putBytes s rfl c hi
  | sf => exact marksKept_putBytes s rfl c hi
  | cb => exact marksKept_putBytes s rfl c hi
  | _ => exact .refl _

/-- STAGE is read-only to the host (R134). -/
theorem channel_write_stage (x : Channel) (v : Word) (r : ChReg) : (x.write v r).stage = x.stage := by
  cases r <;> rfl

/-- A host write clears no mark and moves no stage, or it resets the block. -/
theorem writeView_marks {s : State} {x : BusCell} (v : Word) (hx : InRange x) :
    (MarksKept s.mem (writeView s v x).mem ∧ ∀ c, ((writeView s v x).ch c).stage = (s.ch c).stage) ∨
      writeView s v x = s.hardReset := by
  cases x with
  | ctrl =>
    simp only [writeView]
    split
    · exact .inr rfl
    · exact .inl ⟨.refl _, fun _ => rfl⟩
  | chan d r =>
    refine .inl ⟨.refl _, fun c => ?_⟩
    rcases State.ch_setCh_eq_or s d c ((s.ch d).write v r) with h | ⟨rfl, h⟩ <;> rw [writeView, h]
    exact channel_write_stage _ v r
  | mem c M i => exact .inl ⟨writeMem_marksKept s hx.2 v, fun d => by cases M <;> rfl⟩
  | _ => exact .inl ⟨.refl _, fun _ => rfl⟩

theorem marksFollowStage_mono {s t : State} (hs : MarksFollowStage s) (hm : MarksKept s.mem t.mem)
    (hst : ∀ c, (t.ch c).stage = (s.ch c).stage) : MarksFollowStage t :=
  fun c hc => channelMarks_mono (hs c hc) hm (hst c)

theorem turnInvariant_marks : TurnInvariant MarksFollowStage where
  frame h hs := marksFollowStage_mono hs (by rw [h]; exact .refl _) (fun _ => by rw [h]; rfl)
  write {s x} v hx hs := by
    rcases writeView_marks v hx with ⟨hm, hst⟩ | h
    · exact marksFollowStage_mono hs hm hst
    · rw [h]
      exact fun c _ => channelMarks_of_idle (by rw [hardReset_ch]; rfl)
  record e hs := marksFollowStage_mono hs (by rw [State.record_frame]; exact .refl _)
    (fun _ => by rw [State.record_frame]; rfl)
  base {s} i hs := by
    rcases raiseBase_cases i s with h | ⟨_, h⟩ <;> rw [h]
    · exact hs
    · exact marksFollowStage_mono hs (hreset_marksKept params_nLong.le s)
        (fun c => (hreset_channelsStep .nop params s c).stage nofun nofun nofun)
  rule h hs := commandRule_marks h hs

/-- Settles O56: no turn clears a mark but a reset, and a stage moves on only with the writes it stands for. -/
theorem stepKeepsMarksWithStage : Obligations.StepKeepsMarksWithStage :=
  fun _ _ hs ht => turnInvariant_marks.step_keeps hs ht

end Sys2Proof.Proofs
end

section
/-! The latch of an open frame and the angles (R96, R204, R317, R341): what MCT_PARSE stages is in range, MCT_CLOSE
makes a history of valid angles of it, and every turn keeps both. -/

namespace Sys2Proof.Proofs

open Sys2Proof Sys2Proof.Machine

/-! ### Passes over the boxes -/

/-- A pass that replaces each listed box by a function of it and its latch entry. -/
theorem box_foldl_setBox (g : Box → LBox → Box) {l : List Nat} (hl : l.Nodup) (s : State) {i : Nat} (hi : i < 16) :
    (l.foldl (fun t j => t.setBox j (g (t.box j) (t.latch j))) s).box i =
      if i ∈ l then g (s.box i) (s.latch i) else s.box i := by
  induction l generalizing s with
  | nil => simp
  | cons j l ih =>
    obtain ⟨hj, hl⟩ := List.nodup_cons.1 hl
    rw [List.foldl_cons, ih hl]
    by_cases hij : i = j
    · subst hij
      simp [hj, State.box_setBox_self hi]
    · have hlatch : (s.setBox j (g (s.box j) (s.latch j))).latch i = s.latch i := rfl
      simp [hij, State.box_setBox_ne (Ne.symm hij), hlatch]

/-- COMMIT makes a history of each box of the frame and drops the history of the others (R341). -/
theorem box_commitBoxes (P : Params) (s : State) {i : Nat} (hi : i < 16) (hP : i < P.maxBoxes) :
    (commitBoxes P s).box i =
      if i < ctlNumBoxes s.lCtrl then (s.box i).commit (s.latch i) else (s.box i).drop := by
  unfold commitBoxes
  simp only
  rw [box_foldl_setBox (fun x _ => x.drop) List.nodup_range' _ hi, box_foldl_setBox Box.commit List.nodup_range _ hi]
  simp only [List.mem_range, List.mem_range'_1]
  by_cases h : i < ctlNumBoxes s.lCtrl
  · rw [if_neg (by omega), if_pos h, if_pos h]
  · rw [if_pos (by omega), if_neg h, if_neg h]

/-! ### What MCT_PARSE stages -/

theorem latch_commitBox_self {s : State} {i : Nat} (hi : i < 16) (x : ParsedBox) :
    (s.commitBox i x).latch i = x.latch := by
  simp [State.latch, State.commitBox, hi]

theorem latch_commitBox_ne {s : State} {i j : Nat} (h : i ≠ j) (x : ParsedBox) :
    (s.commitBox i x).latch j = s.latch j := by
  simp [State.latch, State.commitBox, h]

theorem box_commitBox (s : State) (i j : Nat) (x : ParsedBox) :
    (s.commitBox i x).box j = (s.setBox i { s.box i with coef := x.coef, info := x.info }).box j := rfl

/-- Staging the boxes from n on leaves the boxes below n. -/
theorem foldl_commitBox_below (ps : List ParsedBox) {n j : Nat} (hj : j < n) (s : State) :
    ((ps.zipIdx n).foldl (fun t x => t.commitBox x.2 x.1) s).latch j = s.latch j ∧
      (((ps.zipIdx n).foldl (fun t x => t.commitBox x.2 x.1) s).box j).coef = (s.box j).coef := by
  induction ps generalizing n s with
  | nil => exact ⟨rfl, rfl⟩
  | cons x ps ih =>
    rw [List.zipIdx_cons, List.foldl_cons]
    obtain ⟨hlatch, hcoef⟩ := ih (n := n + 1) (by omega) (s.commitBox n x)
    rw [hlatch, hcoef, latch_commitBox_ne (by omega), box_commitBox, State.box_setBox_ne (by omega)]
    exact ⟨rfl, rfl⟩

/-- Staging the boxes from n on stages each in its place. -/
theorem foldl_commitBox_staged (ps : List ParsedBox) {n j : Nat} {x : ParsedBox} (hj : j < 16) (hn : n ≤ j)
    (hx : ps[j - n]? = some x) (s : State) :
    ((ps.zipIdx n).foldl (fun t x => t.commitBox x.2 x.1) s).latch j = x.latch ∧
      (((ps.zipIdx n).foldl (fun t x => t.commitBox x.2 x.1) s).box j).coef = x.coef := by
  induction ps generalizing n s with
  | nil => simp at hx
  | cons y ps ih =>
    rw [List.zipIdx_cons, List.foldl_cons]
    by_cases hjn : j = n
    · subst hjn
      obtain rfl : y = x := by simpa using hx
      obtain ⟨hlatch, hcoef⟩ := foldl_commitBox_below ps (Nat.lt_succ_self j) (s.commitBox j y)
      rw [hlatch, hcoef, latch_commitBox_self hj, box_commitBox, State.box_setBox_self hj]
      exact ⟨rfl, rfl⟩
    · refine ih (n := n + 1) (by omega) ?_ _
      rw [show j - n = j - (n + 1) + 1 by omega, List.getElem?_cons_succ] at hx
      exact hx

/-- The part of a box that only MCT_PARSE and MCT_CLOSE write: what it keeps of the frames. -/
def BoxFramesKept (x y : Box) : Prop := y.coef = x.coef ∧ y.hist = x.hist ∧ y.histValid = x.histValid

/-- The committed histories stay. -/
def HistoriesKept (s t : State) : Prop := ∀ i, (t.box i).hist = (s.box i).hist ∧ (t.box i).histValid = (s.box i).histValid

theorem HistoriesKept.refl (s : State) : HistoriesKept s s := fun _ => ⟨rfl, rfl⟩

theorem HistoriesKept.trans {s t u : State} (h : HistoriesKept s t) (h' : HistoriesKept t u) : HistoriesKept s u :=
  fun i => ⟨(h' i).1.trans (h i).1, (h' i).2.trans (h i).2⟩

theorem historiesKept_setBox {s : State} {i : Nat} (x : Box) (hh : x.hist = (s.box i).hist)
    (hv : x.histValid = (s.box i).histValid) : HistoriesKept s (s.setBox i x) := by
  intro j
  rcases State.box_setBox_eq_or s i j x with h | ⟨rfl, h⟩ <;> rw [h]
  · exact ⟨rfl, rfl⟩
  · exact ⟨hh, hv⟩

theorem commitParse_historiesKept (P : Params) (s : State) (ps : List ParsedBox) :
    HistoriesKept s (commitParse P s ps) := by
  have hstage : HistoriesKept s (ps.zipIdx.foldl (fun t x => t.commitBox x.2 x.1) s) :=
    foldl_keeps (R := HistoriesKept) .refl (fun _ _ _ => .trans) (fun u x i => by
      rw [box_commitBox]
      exact historiesKept_setBox { u.box x.2 with coef := x.1.coef, info := x.1.info } rfl rfl i) _ s
  exact hstage.trans (foldl_keeps (f := fun t i => t.setBox i { t.box i with info := 0 }) (R := HistoriesKept) .refl
    (fun _ _ _ => .trans) (fun u i => historiesKept_setBox { u.box i with info := 0 } rfl rfl) _ _)

/-- MCT_PARSE stages box j's latch entry and coefficients (R310). -/
theorem commitParse_staged {P : Params} {s : State} {ps : List ParsedBox} {j : Nat} {x : ParsedBox} (hj : j < 16)
    (hx : ps[j]? = some x) :
    (commitParse P s ps).latch j = x.latch ∧ ((commitParse P s ps).box j).coef = x.coef := by
  have hlt : j < ps.length := (List.getElem?_eq_some_iff.1 hx).1
  obtain ⟨hlatch, hcoef⟩ := foldl_commitBox_staged ps hj (Nat.zero_le j) hx s
  unfold commitParse
  generalize ps.zipIdx.foldl (fun t x => t.commitBox x.2 x.1) s = u at hlatch hcoef
  simp only
  have hrest := box_foldl_setBox (fun y _ => { y with info := 0 })
    (List.nodup_range' (s := ps.length) (n := P.maxBoxes - ps.length)) u hj
  rw [if_neg (by simp only [List.mem_range'_1]; omega)] at hrest
  refine ⟨?_, (congrArg Box.coef hrest).trans hcoef⟩
  refine Eq.trans ?_ hlatch
  exact foldl_keeps (f := fun t i => t.setBox i { t.box i with info := 0 })
    (R := fun s t : State => t.latch j = s.latch j) (fun _ => rfl) (fun _ _ _ h h' => h'.trans h) (fun _ _ => rfl) _ u

/-! ### What MCT_PARSE checks of a box -/

theorem mem_pairs {n : Nat} {p : Nat × Nat} (h : p ∈ pairs n) : p.1 < p.2 ∧ p.2 < n := by
  obtain ⟨p1, h1, h⟩ := List.mem_flatMap.1 h
  obtain ⟨p2, h2, rfl⟩ := List.mem_map.1 h
  rw [List.mem_range] at h1
  rw [List.mem_range'_1] at h2
  exact ⟨by omega, by omega⟩

theorem pairSlots_ok {s : State} {n i pi : Nat} {c : Nat × Nat} (h : pairSlots s n i pi = .ok c) :
    ∃ p1 p2, p1 < p2 ∧ p2 < n ∧ c = (s.chMapAt p1, s.chMapAt p2) := by
  unfold pairSlots at h
  split at h
  · cases h
  · next p hp =>
    cases h
    obtain ⟨h1, h2⟩ := mem_pairs (List.mem_of_getElem? hp)
    exact ⟨p.1, p.2, h1, h2, rfl⟩

/-- The group's channel list passes its checks exactly when it names different existing slots (R310). -/
theorem groupChecks_ok {P : Params} {s : State} {n : Nat} : groupChecks P s n = .ok () ↔
    (2 ≤ n ∧ n ≤ P.maxCh) ∧ (∀ p < n, s.chMapAt p < P.maxCh) ∧ ∀ q < n, ∀ p < q, s.chMapAt p ≠ s.chMapAt q := by
  unfold groupChecks
  rw [check_bind_ok, raiseIf_ok]
  refine and_congr (by simp [Nat.succ_le_iff]) ?_
  cases hr : badMapRange P s n with
  | some p =>
    simp only [badMapRange, List.find?_range_eq_some, decide_eq_true_eq, List.mem_range] at hr
    simp only [reduceCtorEq, false_iff, not_and]
    intro h
    exact absurd (h p hr.2.1) (by omega)
  | none =>
    simp only [badMapRange, List.find?_eq_none, List.mem_range, decide_eq_true_eq, Nat.not_le] at hr
    cases hd : badMapDup s n with
    | some q =>
      have hq := List.find?_some hd
      have hqn := List.mem_range.1 (List.mem_of_find?_eq_some hd)
      simp only [List.any_eq_true, List.mem_range, decide_eq_true_eq] at hq
      obtain ⟨p, hpq, he⟩ := hq
      simp only [reduceCtorEq, false_iff, not_and]
      exact fun _ h => h q hqn p hpq he
    | none =>
      simp only [badMapDup, List.find?_eq_none, List.mem_range, List.any_eq_true, decide_eq_true_eq] at hd
      exact ⟨fun _ => ⟨hr, fun q hq p hp he => hd q hq ⟨p, hp, he⟩⟩, fun _ => rfl⟩

/-- Everything MCT_PARSE can stage for a box (R310). -/
theorem parseBox_ok {P : Params} {s : State} {keep mode : Bool} {n i : Nat} {x : ParsedBox}
    (h : parseBox P s keep mode n i = .ok x) : ∃ pi c1 c2 vals, pairSlots s n i pi = .ok (c1, c2) ∧
      boxFields P s mode i = .ok () ∧
      codedValues P s i mode (s.short c1) (codedBands (s.box i).ctrl (s.box i).mask).zipIdx = .ok vals ∧
      x.coef = vecOfList 64 ((List.range 64).map
        (newCoef P s i mode (s.short c1) (boxWidth (s.box i).ctrl) vals)) 0 ∧
      x.latch = ⟨(s.box i).ctrl, (s.box i).mask, pi, c1, c2, s.short c1, boxWidth (s.box i).ctrl⟩ := by
  unfold parseBox at h
  obtain ⟨pi, _, h⟩ := bind_ok.1 h
  obtain ⟨⟨c1, c2⟩, hslots, h⟩ := bind_ok.1 h
  obtain ⟨_, h⟩ := check_bind_ok.1 h
  obtain ⟨hfields, h⟩ := check_bind_ok.1 h
  obtain ⟨vals, hvals, h⟩ := bind_ok.1 h
  cases h
  exact ⟨pi, c1, c2, vals, hslots, hfields, hvals, rfl, rfl⟩

/-- A box that passes its checks is at most 64 bands wide (R310, R314). -/
theorem boxWidth_le {P : Params} {s : State} {mode : Bool} {i : Nat} (h : boxFields P s mode i = .ok ()) :
    boxWidth (s.box i).ctrl ≤ 64 := by
  unfold boxFields at h
  obtain ⟨hmask, _⟩ := check_bind_ok.1 h
  rw [raiseIf_ok, Bool.and_eq_false_imp] at hmask
  unfold boxWidth
  split
  case isTrue hf => exact Nat.not_lt.1 (of_decide_eq_false (hmask hf))
  case isFalse => omega

/-! ### Angles -/

theorem validAngle_ofInt {v : Int} (h0 : 0 ≤ v) (h64 : v < 64) : validAngle (BitVec.ofInt 32 v) := by
  unfold validAngle
  rw [BitVec.toInt_ofInt_eq_self (by decide) (by simp; omega) (by simp; omega)]
  exact ⟨h0, h64⟩

/-- A reconstructed angle is below ANGLE_VALID, or the box raises (R313). -/
theorem validAngle_of_reconstruct {i : Nat} {pred : Int} {sym b : Nat} {v : Word}
    (h : reconstruct params i true pred sym b = .ok v) : validAngle v := by
  unfold reconstruct at h
  rw [if_pos rfl] at h
  simp only at h
  split at h
  case isTrue => cases h
  case isFalse hv =>
    cases h
    exact validAngle_ofInt (Int.emod_nonneg _ (by decide)) (Int.not_le.1 hv)

theorem validAngle_of_codedValues {s : State} {i : Nat} {sh : Bool} {l : List (Nat × Nat)} {vals : List (Nat × Word)}
    (h : codedValues params s i true sh l = .ok vals) : ∀ x ∈ vals, validAngle x.2 := by
  induction l generalizing vals with
  | nil => cases h; simp
  | cons y l ih =>
    obtain ⟨b, j⟩ := y
    rw [codedValues] at h
    obtain ⟨v, hv, h⟩ := bind_ok.1 h
    obtain ⟨vs, hvs, h⟩ := bind_ok.1 h
    cases h
    exact List.forall_mem_cons.2 ⟨validAngle_of_reconstruct hv, ih hvs⟩

theorem prevMode_is_true {m : PrevMode} (h : m.is true = true) : m = .angle := by
  cases m <;> simp [PrevMode.is] at h ⊢

/-- The working history of an angle frame is the default angle or a committed one (R312). -/
theorem workHist_range {s : State} (hs : HistoryAngles s) {i b : Nat} (hi : i < 16) (hb : b < 64) (sh : Bool) :
    0 ≤ workHist params s i true sh b ∧ workHist params s i true sh b < 64 := by
  unfold workHist
  split
  case isTrue => exact ⟨by decide, by decide⟩
  case isFalse h =>
    simp only [Bool.or_eq_true, Bool.not_eq_true', not_or, Bool.not_eq_false] at h
    obtain ⟨⟨hvalid, hmode⟩, _⟩ := h
    exact hs (prevMode_is_true hmode) i hi hvalid b hb

theorem validAngle_newCoef {s : State} (hs : HistoryAngles s) {i b w : Nat} (hi : i < 16) (hb : b < 64) {sh : Bool}
    {vals : List (Nat × Word)} (hv : ∀ x ∈ vals, validAngle x.2) :
    validAngle (newCoef params s i true sh w vals b) := by
  unfold newCoef
  split
  case h_1 x hx => exact hv x (List.mem_of_find?_eq_some hx)
  case h_2 =>
    split
    · exact validAngle_ofInt (workHist_range hs hi hb sh).1 (workHist_range hs hi hb sh).2
    · exact validAngle_ofInt (by decide) (by decide)

/-! ### The invariant -/

/-- The invariant rests on the frame's fields and on what the boxes keep of the frames. -/
theorem angleInv_congr {s t : State} (hs : AngleInv s) (h1 : t.mctState = s.mctState) (h2 : t.lCtrl = s.lCtrl)
    (h3 : t.lBox = s.lBox) (h4 : t.prevMode = s.prevMode) (h5 : ∀ i, BoxFramesKept (s.box i) (t.box i)) :
    AngleInv t := by
  have hopen : frameOpen t → frameOpen s := by unfold frameOpen; rw [h1]; exact id
  refine ⟨fun h => ?_, fun h hm i hi b hb => ?_, fun h i hi hv b hb => ?_⟩
  · simp only [State.latch, h2, h3]
    exact hs.latch (hopen h)
  · rw [h2] at hm hi
    rw [(h5 i).1]
    exact hs.frame (hopen h) hm i hi b hb
  · obtain ⟨_, hhist, hvalid⟩ := h5 i
    rw [hhist]
    exact hs.hist (h4 ▸ h) i hi (hvalid ▸ hv) b hb

theorem angleInv_congr_boxes {s t : State} (hs : AngleInv s) (h1 : t.mctState = s.mctState) (h2 : t.lCtrl = s.lCtrl)
    (h3 : t.lBox = s.lBox) (h4 : t.prevMode = s.prevMode) (h5 : t.boxes = s.boxes) : AngleInv t :=
  angleInv_congr hs h1 h2 h3 h4 fun i => by rw [State.box, State.box, h5]; exact ⟨rfl, rfl, rfl⟩

/-- A frame that MCT_PARSE may start in is not open (R301). -/
theorem not_frameOpen_of_parseAllowed {s : State} (h : parseAllowed s = true) : ¬ frameOpen s := by
  unfold parseAllowed at h
  unfold frameOpen
  rcases hm : s.mctState <;> simp [hm] at h ⊢

theorem hreset_prevMode (P : Params) (s : State) : (hreset P s).prevMode = .none := by rw [hreset_frame]

theorem hreset_mctState (P : Params) (s : State) : (hreset P s).mctState = s.mctState := by rw [hreset_frame]

/-- HRESET leaves no history, and MCT_PARSE makes it with no frame open. -/
theorem angleInv_hreset {s : State} (h : parseAllowed s = true) : AngleInv (hreset params s) := by
  refine angleInv_of_closed ?_ (by rw [hreset_prevMode]; decide)
  unfold frameOpen
  rw [hreset_mctState]
  exact not_frameOpen_of_parseAllowed h

theorem angleInv_parseBase {s : State} (hs : AngleInv s) : AngleInv (parseBase params s) := by
  unfold parseBase
  split
  case isTrue h => exact angleInv_hreset (Bool.and_eq_true_iff.1 h).1
  case isFalse => exact hs

theorem angleInv_raiseBase {s : State} (i : Instr) (hs : AngleInv s) : AngleInv (raiseBase i s) := by
  rcases raiseBase_cases i s with h | ⟨ha, h⟩ <;> rw [h]
  · exact hs
  · exact angleInv_hreset ha

/-- With a box in the frame, MCT_PARSE answers only after the checks of the channel list (R310). -/
theorem mctParse_groupChecks {P : Params} {s t : State} (h : mctParse P s = .ok t)
    (hn : 1 ≤ ctlNumBoxes (parseBase P s).mctCtrl) :
    groupChecks P (parseBase P s) (ctlNch (parseBase P s).mctCtrl) = .ok () := by
  obtain ⟨_, h⟩ := check_bind_ok.1 h
  obtain ⟨_, h⟩ := check_bind_ok.1 h
  rw [if_pos hn] at h
  exact (check_bind_ok.1 h).1

/-- The frame that MCT_PARSE opens is in range. -/
theorem angleInv_mctParse {s t : State} (h : mctParse params s = .ok t) (hs : AngleInv s) : AngleInv t := by
  have hbase : AngleInv (parseBase params s) := angleInv_parseBase hs
  have hchecks := mctParse_groupChecks h
  obtain ⟨_, hmax, ps, hps, rfl⟩ := mctParse_ok h
  have hctrl : (parseBase params s).mctCtrl = s.mctCtrl := by rw [parseBase_frame]
  rw [hctrl] at hchecks
  generalize parseBase params s = u at hbase hchecks hps hctrl
  have hlctrl : (commitParse params u ps).lCtrl = s.mctCtrl := by rw [commitParse_frame, hctrl]
  have hbox : ∀ i < ctlNumBoxes s.mctCtrl, i < 16 ∧ ∃ x, ps[i]? = some x ∧
      parseBox params u (ctlKeepTree s.mctCtrl && !ctlIndep s.mctCtrl) (ctlMode s.mctCtrl) (ctlNch s.mctCtrl) i =
        .ok x := by
    intro i hi
    have hf := mapM_ok.1 hps
    have hlen : i < ps.length := by rw [← hf.length_eq, List.length_range]; exact hi
    refine ⟨Nat.lt_of_lt_of_le hi hmax, ps[i], List.getElem?_eq_getElem hlen, ?_⟩
    have hget := (List.forall₂_iff_get.1 hf).2 i (by rw [List.length_range]; exact hi) hlen
    simpa using hget
  refine ⟨fun _ => ?_, fun _ hmode i hi b hb => ?_, fun hp i hi hv b hb => ?_⟩
  · rw [hlctrl]
    refine ⟨hmax, fun i hi => ?_⟩
    obtain ⟨hi16, x, hx, hparse⟩ := hbox i hi
    obtain ⟨pi, c1, c2, vals, hslots, hfields, _, _, hlatch⟩ := parseBox_ok hparse
    obtain ⟨p1, p2, h12, h2n, hc⟩ := pairSlots_ok hslots
    obtain ⟨rfl, rfl⟩ := Prod.mk.injEq .. ▸ hc
    obtain ⟨_, hrange, hdup⟩ := groupChecks_ok.1 (hchecks (by omega))
    rw [(commitParse_staged hi16 hx).1, hlatch]
    exact ⟨hrange p1 (by omega), hrange p2 h2n, hdup p2 h2n p1 h12, boxWidth_le hfields⟩
  · rw [hlctrl] at hmode hi
    obtain ⟨hi16, x, hx, hparse⟩ := hbox i hi
    rw [hmode] at hparse
    obtain ⟨pi, c1, c2, vals, _, _, hvals, hcoef, _⟩ := parseBox_ok hparse
    rw [(commitParse_staged hi16 hx).2, hcoef, getElem?_vecOfList 64 _ _ b hb]
    simp only [List.getElem?_map, List.getElem?_range hb, Option.map_some, Option.getD_some]
    exact validAngle_newCoef hbase.hist hi16 hb (validAngle_of_codedValues hvals)
  · obtain ⟨hhist, hvalid⟩ := commitParse_historiesKept params u ps i
    rw [commitParse_frame] at hp
    rw [hhist]
    exact hbase.hist hp i hi (hvalid ▸ hv) b hb

/-- The history that MCT_CLOSE commits of an angle frame is its coefficients (R341). -/
theorem angleInv_commit {s t : State} (hs : AngleInv s) (ho : s.mctState = .rotationApplied)
    (hst : t.mctState = .saved) (hboxes : t.boxes = (commitBoxes params s).boxes)
    (hmode : t.prevMode = PrevMode.ofMode (ctlMode s.lCtrl)) : AngleInv t := by
  have hclosed : ¬ frameOpen t := by simp [frameOpen, hst]
  refine ⟨fun h => absurd h hclosed, fun h => absurd h hclosed, fun hp i hi hv b hb => ?_⟩
  have hangle : ctlMode s.lCtrl = true := by
    rw [hmode] at hp
    cases hm : ctlMode s.lCtrl <;> simp [hm, PrevMode.ofMode] at hp ⊢
  have hbox : t.box i = (commitBoxes params s).box i := by rw [State.box, State.box, hboxes]
  rw [box_commitBoxes params s hi hi] at hbox
  by_cases hin : i < ctlNumBoxes s.lCtrl
  · rw [if_pos hin] at hbox
    rw [hbox]
    exact hs.frame (.inr ho) hangle i hin b hb
  · rw [if_neg hin] at hbox
    simp [hbox, Box.drop] at hv

/-- Every command's rule keeps the latch of an open frame and the angles in range. -/
theorem commandRule_angleInv {i : Instr} {s t : State} (h : commandRule i s = .ok t) (hs : AngleInv s) :
    AngleInv t := by
  cases i with
  | nop => cases h; exact hs
  | chBegin c =>
    rw [chBegin_frame h]
    exact angleInv_congr_boxes hs rfl rfl rfl rfl rfl
  | iqScale c =>
    rw [iqScale_frame h]
    exact angleInv_congr_boxes hs rfl rfl rfl rfl rfl
  | iqDequant c =>
    rw [iqDequant_frame h]
    exact angleInv_congr_boxes hs rfl rfl rfl rfl rfl
  | noiseFill c =>
    rw [noiseFill_frame h]
    exact angleInv_congr_boxes hs rfl rfl rfl rfl rfl
  | msApply c1 c2 cw =>
    rw [msApply_frame h]
    exact angleInv_congr_boxes hs rfl rfl rfl rfl rfl
  | mctParse => exact angleInv_mctParse h hs
  | mctApply =>
    have hopen : frameOpen s := .inl (mctApply_ok h).1
    obtain ⟨u, hu, rfl⟩ := mctApply_bandRun h
    rw [hu.frame]
    exact ⟨fun _ => hs.latch hopen, fun _ => hs.frame hopen, hs.hist⟩
  | mctClose ok =>
    rcases mctClose_ok h with ⟨_, rfl⟩ | ⟨_, ho, u, _, hu, _, rfl⟩
    · rw [(failClose_frame params s).1]
      exact ⟨fun h => absurd h (by simp [frameOpen]), fun h => absurd h (by simp [frameOpen]), hs.hist⟩
    · exact angleInv_commit hs ho rfl (by rw [hu]; rfl) (by rw [hu]; rfl)
  | mctReset =>
    cases h
    refine angleInv_of_closed (by simp [frameOpen, mctReset]) ?_
    rw [mctReset, hreset_prevMode]
    decide
  | clearErr => cases h; exact angleInv_congr_boxes hs rfl rfl rfl rfl rfl

/-- COEF, HIST and BOX_PREV are read-only to the host (R134). -/
theorem box_write_framesKept (x : Box) (v : Word) (r : BoxReg) : BoxFramesKept x (x.write v r) := by
  cases r <;> exact ⟨rfl, rfl, rfl⟩

theorem angleInv_writeView {s : State} (x : BusCell) (v : Word) (hs : AngleInv s) : AngleInv (writeView s v x) := by
  cases x with
  | ctrl =>
    simp only [writeView]
    split
    · exact angleInv_of_closed (by simp [frameOpen, State.hardReset, State.reset])
        (by simp [State.hardReset, State.reset])
    · exact hs
  | box j r =>
    refine angleInv_congr hs rfl rfl rfl rfl fun i => ?_
    rcases State.box_setBox_eq_or s j i ((s.box j).write v r) with h | ⟨rfl, h⟩ <;> rw [writeView, h]
    · exact ⟨rfl, rfl, rfl⟩
    · exact box_write_framesKept _ v r
  | mem c M i => cases M <;> exact angleInv_congr_boxes hs rfl rfl rfl rfl rfl
  | _ => exact angleInv_congr_boxes hs rfl rfl rfl rfl rfl

theorem turnInvariant_angles : TurnInvariant AngleInv where
  frame h hs := by rw [h]; exact angleInv_congr_boxes hs rfl rfl rfl rfl rfl
  write v _ hs := angleInv_writeView _ v hs
  record e hs := by rw [State.record_frame]; exact angleInv_congr_boxes hs rfl rfl rfl rfl rfl
  base i hs := angleInv_raiseBase i hs
  rule h hs := commandRule_angleInv h hs

/-- Settles O57: MCT_PARSE opens a frame in range, MCT_CLOSE commits its coefficients, and nothing else writes them. -/
theorem stepKeepsAnglesInRange : Obligations.StepKeepsAnglesInRange :=
  fun _ _ hs ht => turnInvariant_angles.step_keeps hs ht

end Sys2Proof.Proofs
end

section
/-! The model's one fault (R98, R451): it names a cell of an existing channel that has no value in the memory the
command found, because the checks of R252 and R262 to R264 bound every cell a command reads, and no write of a command
takes a value away. -/

namespace Sys2Proof.Proofs

open Sys2Proof Sys2Proof.Machine

/-! ### Faults of a run -/

/-- Address a is that of a cell of a channel's memories that has no value in m (R98, R128). -/
def UnwrittenCell (m : Memory) (a : Nat) : Prop :=
  ∃ M c k, c < 16 ∧ k < memSize M ∧ a = cellAddr M c k ∧ cellBits m M c k = none

/-- If the run ends in the model's fault, the fault names a cell that has no value in m. -/
def FaultsIn {α : Type} (m : Memory) (x : Except Halt α) : Prop :=
  ∀ a, x = .error (.fault (.unwrittenCell a)) → UnwrittenCell m a

/-- What is unwritten after writes that clear no mark was unwritten before them. -/
theorem FaultsIn.before {α : Type} {m m' : Memory} {x : Except Halt α} (hm : MarksKept m m') (h : FaultsIn m' x) :
    FaultsIn m x := by
  intro a ha
  obtain ⟨M, c, k, hc, hk, rfl, hnone⟩ := h a ha
  refine ⟨M, c, k, hc, hk, rfl, ?_⟩
  by_contra hsome
  have := hm M c k hk (Option.isSome_iff_ne_none.2 hsome)
  simp [hnone] at this

section
variable {α β : Type} {m : Memory}

theorem faultsIn_ok (a : α) : FaultsIn m (.ok a) := nofun

theorem faultsIn_raise (e : Err) : FaultsIn m (.error (.raise e) : Except Halt α) := nofun

theorem faultsIn_raiseIf (bad : Bool) (e : Err) : FaultsIn m (raiseIf bad e) := by
  cases bad <;> exact nofun

theorem FaultsIn.bind {x : Except Halt α} {f : α → Except Halt β} (hx : FaultsIn m x)
    (hf : ∀ a, x = .ok a → FaultsIn m (f a)) : FaultsIn m (x >>= f) := by
  intro a ha
  rcases bind_error.1 ha with h | ⟨b, hb, h⟩
  · exact hx a h
  · exact hf b hb a h

theorem FaultsIn.ite {p : Prop} [Decidable p] {x y : Except Halt α} (hx : p → FaultsIn m x) (hy : ¬ p → FaultsIn m y) :
    FaultsIn m (if p then x else y) := by
  split
  · exact hx ‹p›
  · exact hy ‹¬ p›

theorem faultsIn_mapM {f : α → Except Halt β} {l : List α} (h : ∀ x ∈ l, FaultsIn m (f x)) : FaultsIn m (l.mapM f) := by
  induction l with
  | nil => exact faultsIn_ok _
  | cons x l ih =>
    rw [List.mapM_cons]
    exact (h x List.mem_cons_self).bind fun _ _ =>
      (ih fun y hy => h y (List.mem_cons_of_mem x hy)).bind fun _ _ => faultsIn_ok _

theorem faultsIn_forM {f : α → Except Halt Unit} {l : List α} (h : ∀ x ∈ l, FaultsIn m (f x)) :
    FaultsIn m (l.forM f) := by
  induction l with
  | nil => exact faultsIn_ok _
  | cons x l ih =>
    exact (h x List.mem_cons_self).bind fun _ _ => ih fun y hy => h y (List.mem_cons_of_mem x hy)

theorem faultsIn_filterRun {f : α → Except Halt Bool} {l : List α} (h : ∀ x ∈ l, FaultsIn m (f x)) :
    FaultsIn m (filterRun f l) := by
  induction l with
  | nil => exact faultsIn_ok _
  | cons x l ih =>
    exact (h x List.mem_cons_self).bind fun _ _ =>
      (ih fun y hy => h y (List.mem_cons_of_mem x hy)).bind fun _ _ => faultsIn_ok _

theorem faultsIn_allRun {f : α → Except Halt Bool} {l : List α} (h : ∀ x ∈ l, FaultsIn m (f x)) :
    FaultsIn m (allRun f l) := by
  induction l with
  | nil => exact faultsIn_ok _
  | cons x l ih =>
    exact (h x List.mem_cons_self).bind fun _ _ =>
      .ite (fun _ => ih fun y hy => h y (List.mem_cons_of_mem x hy)) fun _ => faultsIn_ok _

/-- A fold whose rounds keep an invariant and, under it, fault only in m. -/
theorem faultsIn_foldlM {f : β → α → Except Halt β} {I : β → Prop} {l : List α}
    (hf : ∀ s, I s → ∀ x ∈ l, FaultsIn m (f s x) ∧ ∀ t, f s x = .ok t → I t) {s : β} (hs : I s) :
    FaultsIn m (l.foldlM f s) := by
  induction l generalizing s with
  | nil => exact faultsIn_ok _
  | cons x l ih =>
    rw [List.foldlM_cons]
    obtain ⟨hx, hI⟩ := hf s hs x List.mem_cons_self
    exact hx.bind fun t ht => ih (fun u hu y hy => hf u hu y (List.mem_cons_of_mem x hy)) (hI t ht)

end

/-! ### Readers -/

section
variable {m : Memory} {M : ChMem} {c i : Nat} (hc : c < 16)
include hc

theorem faultsIn_getByteAt (hM : M.isWord = false) (hi : i < 512) : FaultsIn m (getByteAt m (cellAddr M c i)) := by
  intro a ha
  obtain ⟨hnone, heq⟩ := getByteAt_error.1 ha
  cases heq
  exact ⟨M, c, i, hc, memSize_byte hM ▸ hi, rfl, by rw [cellBits_byte hM, hnone]; rfl⟩

theorem faultsIn_getWordAt (hM : M.isWord = true) (hi : i < 1024) : FaultsIn m (getWordAt m (cellAddr M c i)) := by
  intro a ha
  obtain ⟨hnone, heq⟩ := getWordAt_error.1 ha
  cases heq
  exact ⟨M, c, i, hc, memSize_word hM ▸ hi, rfl, by rw [cellBits_word hM, hnone]⟩

theorem faultsIn_walkWords (hM : M.isWord = true) {n : Nat} (hi : i + n ≤ 1024) {α : Type} {f : Word → Except Halt α}
    (hf : ∀ w, FaultsIn m (f w)) : FaultsIn m (walkWords f n m (cellAddr M c i)) := by
  rw [walkWords_eq]
  refine faultsIn_mapM fun k hk => ?_
  rw [← cellAddr_add]
  have := List.mem_range.1 hk
  exact (faultsIn_getWordAt hc hM (by omega)).bind fun w _ => hf w

theorem faultsIn_getBytes {s : State} (hM : M.isWord = false) {n : Nat} (hi : i + n ≤ 512) :
    FaultsIn s.mem (s.getBytes M c i n) := by
  unfold State.getBytes
  rw [walkBytes_eq]
  refine faultsIn_mapM fun k hk => ?_
  rw [← cellAddr_add]
  have := List.mem_range.1 hk
  exact faultsIn_getByteAt hc hM (by omega)

/-- The test for zero reads the words as the pass does: the first without a value is the fault. -/
theorem faultsIn_walkAllZero (hM : M.isWord = true) {n : Nat} (hi : i + n ≤ 1024) :
    FaultsIn m (walkAllZero n m (cellAddr M c i)) := by
  suffices key : ∀ n i m', i + n ≤ 1024 → (∀ b, cellAddr M c i ≤ b → readWord m' b = readWord m b) →
      FaultsIn m (walkAllZero n m' (cellAddr M c i)) from key n i m hi fun _ _ => rfl
  intro n
  induction n with
  | zero => exact fun _ _ _ _ => faultsIn_ok _
  | succ n ih =>
    intro i m' hi hread
    have hword : getWordAt (dropBelow (cellAddr M c i) m') (cellAddr M c i) = getWordAt m (cellAddr M c i) := by
      simp only [getWordAt, readWord_dropBelow (Nat.le_refl _), hread _ (Nat.le_refl _)]
    have hnext : cellAddr M c (i + 1) = cellAddr M c i + 4 := cellAddr_add M c i 1
    simp only [walkAllZero, hword]
    refine (faultsIn_getWordAt hc hM (by omega)).bind fun w _ => .ite (fun _ => ?_) fun _ => faultsIn_ok _
    rw [← hnext]
    exact ih (i + 1) _ (by omega) fun b hb =>
      (readWord_dropBelow (by omega) m').trans (hread b (by omega))

end

/-! ### Checks -/

section
variable {P : Params} {s : State} {m : Memory}

theorem faultsIn_chkCfg (c : Nat) : FaultsIn m (chkCfg P s c) := by
  refine FaultsIn.bind ?_ fun _ _ => ?_
  · refine (faultsIn_raiseIf _ _).bind fun _ _ => ?_
    split
    · exact faultsIn_raise _
    · exact faultsIn_raiseIf _ _
  · iterate 5 refine (faultsIn_raiseIf _ _).bind fun _ _ => ?_
    exact faultsIn_raiseIf _ _

theorem faultsIn_recheckBox (i : Nat) : FaultsIn m (recheckBox P s i) :=
  (faultsIn_raiseIf _ _).bind fun _ _ => (faultsIn_raiseIf _ _).bind fun _ _ => (faultsIn_chkCfg _).bind fun _ _ =>
    (faultsIn_chkCfg _).bind fun _ _ => faultsIn_raiseIf _ _

theorem faultsIn_groupChecks (n : Nat) : FaultsIn m (groupChecks P s n) := by
  refine (faultsIn_raiseIf _ _).bind fun _ _ => ?_
  split
  · exact faultsIn_raise _
  · split
    · exact faultsIn_raise _
    · exact faultsIn_ok _

theorem faultsIn_boxChannels (i c1 c2 : Nat) : FaultsIn m (boxChannels P s i c1 c2) :=
  (faultsIn_raiseIf _ _).bind fun _ _ => (faultsIn_raiseIf _ _).bind fun _ _ => (faultsIn_chkCfg _).bind fun _ _ =>
    (faultsIn_chkCfg _).bind fun _ _ => (faultsIn_raiseIf _ _).bind fun _ _ => faultsIn_raiseIf _ _

theorem faultsIn_boxFields (mode : Bool) (i : Nat) : FaultsIn m (boxFields P s mode i) := by
  refine (faultsIn_raiseIf _ _).bind fun _ _ => (faultsIn_raiseIf _ _).bind fun _ _ => ?_
  split
  · exact faultsIn_raise _
  · exact faultsIn_ok _

theorem faultsIn_codedValues (i : Nat) (mode sh : Bool) (l : List (Nat × Nat)) :
    FaultsIn m (codedValues P s i mode sh l) := by
  induction l with
  | nil => exact faultsIn_ok _
  | cons x l ih =>
    refine FaultsIn.bind ?_ fun _ _ => ih.bind fun _ _ => faultsIn_ok _
    exact .ite (fun _ => .ite (fun _ => faultsIn_raise _) fun _ => faultsIn_ok _) fun _ => faultsIn_ok _

/-- MCT_PARSE reads no channel memory. -/
theorem faultsIn_parseBox (keep mode : Bool) (n i : Nat) : FaultsIn m (parseBox P s keep mode n i) := by
  refine FaultsIn.bind ?_ fun pi _ => FaultsIn.bind ?_ fun c _ => ?_
  · exact .ite (fun _ => (faultsIn_raiseIf _ _).bind fun _ _ => faultsIn_ok _) fun _ => faultsIn_ok _
  · unfold pairSlots
    split
    · exact faultsIn_raise _
    · exact faultsIn_ok _
  · exact (faultsIn_boxChannels _ _ _).bind fun _ _ => (faultsIn_boxFields _ _).bind fun _ _ =>
      (faultsIn_codedValues _ _ _ _).bind fun _ _ => faultsIn_ok _

theorem faultsIn_mctParse : FaultsIn m (mctParse P s) := by
  refine (faultsIn_raiseIf _ _).bind fun _ _ => (faultsIn_raiseIf _ _).bind fun _ _ =>
    .ite (fun _ => (faultsIn_groupChecks _).bind fun _ _ => ?_) fun _ => (faultsIn_ok _).bind fun _ _ => ?_
  all_goals exact (faultsIn_mapM fun _ _ => faultsIn_parseBox _ _ _ _).bind fun _ _ => faultsIn_ok _

end

/-! ### Bands inside a channel -/

/-- Band b of window w of channel c is made of cells that the channel has. -/
structure BandInside (s : State) (c w b : Nat) : Prop where
  slot : c < 16
  lines : s.lineLo params c w b + s.bandWidth c b ≤ 1024
  window : w < 8
  band : b < 64

theorem bandInside_of_cfg {s : State} {c w b : Nat} (hc : c < 16) (h : CfgOk s c) (hw : w < s.nwin c)
    (hb : b < s.maxSfb c) : BandInside s c w b :=
  have ⟨hlines, hb64, hw8⟩ := band_inside h hw hb
  ⟨hc, hlines, hw8, hb64⟩

/-- A legal band table keeps every one of its bands inside the channel, those above MAX_SFB too (R262). -/
theorem bandInside_of_table {s : State} {c w b : Nat} (hc : c < 16) (h : BandTableOk s c) (hw : w < s.nwin c)
    (hb : b < s.nsfbOf c) : BandInside s c w b := by
  have hmono : ∀ n, b + 1 + n ≤ s.nsfbOf c → s.off c (b + 1) ≤ s.off c (b + 1 + n) := by
    intro n
    induction n with
    | zero => exact fun _ => Nat.le_refl _
    | succ n ih => exact fun hn => Nat.le_trans (ih (by omega)) (Nat.le_of_lt (h.rising _ (by omega)))
  have hlast := hmono (s.nsfbOf c - (b + 1)) (by omega)
  rw [show b + 1 + (s.nsfbOf c - (b + 1)) = s.nsfbOf c by omega] at hlast
  have hrise := h.rising b hb
  have htop := h.last
  have hcount := h.count
  have hwin : w * s.wlen params c + s.wlen params c ≤ 1024 ∧ w < 8 := by
    unfold State.nwin at hw
    unfold State.wlen
    cases hs : s.short c <;> simp only [hs, Config.nWinShort, params] at hw ⊢ <;> simp at hw ⊢ <;> omega
  refine ⟨hc, ?_, hwin.2, by omega⟩
  unfold State.lineLo State.bandWidth
  omega

theorem BandRun.bandInside {s t : State} (h : BandRun s t) {c w b : Nat} (hs : BandInside s c w b) :
    BandInside t c w b := by
  rw [h.frame]
  exact ⟨hs.slot, hs.lines, hs.window, hs.band⟩

theorem BandRun.cfgOk {s t : State} (h : BandRun s t) {c : Nat} (hs : CfgOk s c) : CfgOk t c := by
  rw [h.frame]
  exact ⟨⟨hs.1.count, hs.1.rising, hs.1.last⟩, ⟨hs.2.ltp, hs.2.gain, hs.2.er, hs.2.lfe, hs.2.long, hs.2.shortGroups,
    hs.2.maxSfb⟩⟩

theorem ng_le {s : State} {c : Nat} (h : IcsOk s c) : s.ng c ≤ 8 := by
  cases hs : s.short c with
  | false => rw [(h.long hs).1]; omega
  | true => exact (h.shortGroups hs).2.1

section
variable {s : State} {c w b : Nat}

theorem faultsIn_bandOf {mm em : ChMem} (hmm : mm.isWord = true) (hem : em.isWord = false) (h : BandInside s c w b) :
    FaultsIn s.mem (s.bandOf params mm em c w b) := by
  have hw := h.window
  have hb := h.band
  exact (faultsIn_walkWords h.slot hmm h.lines fun _ => faultsIn_ok _).bind fun _ _ =>
    (faultsIn_getByteAt h.slot hem (by omega)).bind fun _ _ => faultsIn_ok _

theorem faultsIn_band (h : BandInside s c w b) : FaultsIn s.mem (s.band params c w b) := faultsIn_bandOf rfl rfl h

theorem faultsIn_add1At {z : List Int} {ez : Int} (h : BandInside s c w b) :
    FaultsIn s.mem (s.add1At params c w b z ez) := by
  refine (faultsIn_band h).bind fun x _ => ?_
  split <;> exact faultsIn_ok _

theorem faultsIn_op2At {f : Int → Int → Int × Int} {c1 c2 : Nat} (h1 : BandInside s c1 w b)
    (h2 : BandInside s c2 w b) : FaultsIn s.mem (s.op2At params f c1 c2 w b) := by
  refine (faultsIn_band h1).bind fun x _ => (faultsIn_band h2).bind fun y _ => ?_
  split <;> exact faultsIn_ok _

/-- The cells of CB, SF and NFLAG are indexed as those of EXP, by the group or the window. -/
theorem faultsIn_cell (M : ChMem) (hM : M.isWord = false) (hc : c < 16) (hw : w < 8) (hb : b < 64) :
    FaultsIn s.mem (s.getByte M c (w * 64 + b)) := faultsIn_getByteAt hc hM (by omega)

theorem faultsIn_prevBand (h : BandInside s c 0 b) : FaultsIn s.mem (s.prevBand params c b) :=
  (faultsIn_bandOf (mm := .pmant) (em := .pexp) rfl rfl h).bind fun _ _ =>
    .ite (fun _ => faultsIn_ok _) fun _ => faultsIn_ok _

theorem faultsIn_sfill {c1 c2 i : Nat} (h1 : BandInside s c1 0 b) (h2 : BandInside s c2 0 b) :
    FaultsIn s.mem (s.sfill params c1 c2 b i) := by
  refine (faultsIn_prevBand h1).bind fun p1 _ => (faultsIn_prevBand h2).bind fun p2 _ => ?_
  split
  · exact faultsIn_ok _
  · exact (faultsIn_band h2).bind fun _ _ => (faultsIn_cell .sf rfl h2.slot (by omega) h2.band).bind fun _ _ =>
      .ite (fun _ => faultsIn_ok _) fun _ => faultsIn_add1At h2

end

/-! ### The channel commands -/

section
variable {s : State} {c : Nat}

/-- What CHK_CH and CHK_CFG let through (R252, R264). -/
theorem slot_and_cfg {u v : Unit} (hc : chkCh params c = .ok u) (hcfg : chkCfg params s c = .ok v) : c < 16 ∧ CfgOk s c :=
  ⟨chkCh_ok.1 hc, cfgOk_iff.2 hcfg⟩

theorem faultsIn_getCb {g b : Nat} (hc : c < 16) (hg : g < 8) (hb : b < 64) : FaultsIn s.mem (s.getCb c g b) :=
  (faultsIn_cell .cb rfl hc hg hb).bind fun _ _ => faultsIn_ok _

/-- The group of a window of a checked channel is one of 8. -/
theorem grp_lt {w : Nat} (h : CfgOk s c) (hw : w < s.nwin c) : s.grp c w < 8 :=
  Nat.lt_of_lt_of_le (grp_spec h.2 hw).1 (ng_le h.2)

theorem faultsIn_iqScale : FaultsIn s.mem (iqScale params c s) := by
  refine (faultsIn_raiseIf _ _).bind fun _ hch => (faultsIn_raiseIf _ _).bind fun _ _ =>
    (faultsIn_chkCfg _).bind fun _ hchk => FaultsIn.bind ?_ fun _ _ => faultsIn_ok _
  obtain ⟨hc, hcfg⟩ := slot_and_cfg hch hchk
  refine faultsIn_mapM fun wb _ => .ite (fun ⟨hw, hb⟩ => ?_) fun _ => faultsIn_ok _
  have hin := bandInside_of_cfg hc hcfg hw hb
  exact (faultsIn_getCb hc (grp_lt hcfg hw) hin.band).bind fun _ _ =>
    .ite (fun _ => (faultsIn_cell .sf rfl hc (grp_lt hcfg hw) hin.band).bind fun _ _ => faultsIn_ok _)
      fun _ => faultsIn_ok _

/-- The bands a test keeps are bands of the list. -/
theorem filterRun_subset {α : Type} {f : α → Except Halt Bool} {l r : List α} (h : filterRun f l = .ok r) : r ⊆ l := by
  induction l generalizing r with
  | nil => cases h; exact List.Subset.refl _
  | cons x l ih =>
    obtain ⟨keep, _, h⟩ := bind_ok.1 h
    obtain ⟨ys, hys, h⟩ := bind_ok.1 h
    cases h
    split
    · exact List.cons_subset_cons x (ih hys)
    · exact List.subset_cons_of_subset x (ih hys)

theorem faultsIn_iqDequant : FaultsIn s.mem (iqDequant params c s) := by
  refine (faultsIn_raiseIf _ _).bind fun _ hch => (faultsIn_raiseIf _ _).bind fun _ _ =>
    (faultsIn_chkCfg _).bind fun _ hchk => FaultsIn.bind ?_ fun bands hbands => FaultsIn.bind ?_ fun _ _ => faultsIn_ok _
  · obtain ⟨hc, hcfg⟩ := slot_and_cfg hch hchk
    refine faultsIn_filterRun fun wb hwb => ?_
    obtain ⟨hw, hb⟩ := mem_pairList.1 hwb
    exact (faultsIn_getCb hc (grp_lt hcfg hw) (bandInside_of_cfg hc hcfg hw hb).band).bind fun _ _ => faultsIn_ok _
  · obtain ⟨hc, hcfg⟩ := slot_and_cfg hch hchk
    refine faultsIn_mapM fun wb hwb => ?_
    obtain ⟨hw, hb⟩ := mem_pairList.1 (filterRun_subset hbands hwb)
    have hin := bandInside_of_cfg hc hcfg hw hb
    exact (faultsIn_walkWords hc rfl hin.lines fun _ => (faultsIn_raiseIf _ _).bind fun _ _ => faultsIn_ok _).bind
      fun _ _ => faultsIn_ok _

theorem faultsIn_noiseCand {g b : Nat} (hc : c < 16) (hcfg : CfgOk s c) (hg : g < s.ng c) (hb : b < s.maxSfb c) :
    FaultsIn s.mem (noiseCand params s c g b) := by
  have hg8 : g < 8 := Nat.lt_of_lt_of_le hg (ng_le hcfg.2)
  have hb64 : b < 64 := Nat.lt_of_lt_of_le hb (maxSfb_le (cfgOk_iff.1 hcfg))
  have hin : ∀ w ∈ s.wins c g, BandInside s c w b := fun w hw =>
    bandInside_of_cfg hc hcfg ((mem_wins s c g w).1 hw).1 hb
  refine .ite (fun _ => faultsIn_ok _) fun _ => (faultsIn_getCb hc hg8 hb64).bind fun _ _ =>
    .ite (fun _ => ?_) fun _ => faultsIn_ok _
  refine FaultsIn.bind (faultsIn_allRun fun w hw => faultsIn_walkAllZero hc rfl (hin w hw).lines) fun _ _ =>
    .ite (fun _ => faultsIn_allRun fun w hw => ?_) fun _ => faultsIn_ok _
  exact FaultsIn.bind ((faultsIn_cell .nflag rfl hc (hin w hw).window hb64).bind fun _ _ => faultsIn_ok _)
    fun _ _ => faultsIn_ok _

theorem faultsIn_fillBand {acc : State × Word} {gb : Nat × Nat} (hc : c < 16) (hcfg : CfgOk acc.1 c)
    (hg : gb.1 < acc.1.ng c) (hb : gb.2 < acc.1.maxSfb c) : FaultsIn acc.1.mem (fillBand params c acc gb) := by
  have hb64 : gb.2 < 64 := Nat.lt_of_lt_of_le hb (maxSfb_le (cfgOk_iff.1 hcfg))
  refine (faultsIn_noiseCand hc hcfg hg hb).bind fun _ _ => .ite (fun _ => ?_) fun _ => faultsIn_ok _
  refine (faultsIn_cell .sf rfl hc (Nat.lt_of_lt_of_le hg (ng_le hcfg.2)) hb64).bind fun _ _ => ?_
  refine faultsIn_foldlM (I := fun a : State × Word => BandRun acc.1 a.1) (fun a ha w hw => ⟨?_, fun a' h' => ?_⟩)
    (.refl _)
  · have hin := ha.bandInside (bandInside_of_cfg hc hcfg ((mem_wins _ c _ w).1 hw).1 hb)
    exact ((faultsIn_add1At hin).bind fun _ _ => faultsIn_ok _).before ha.marks
  · exact ha.trans (fillWindow_bandRun (wins_lt hw) hb64 h')

theorem faultsIn_noiseFill : FaultsIn s.mem (noiseFill params c s) := by
  refine (faultsIn_raiseIf _ _).bind fun _ hch => (faultsIn_raiseIf _ _).bind fun _ _ =>
    (faultsIn_chkCfg _).bind fun _ hchk => .ite (fun _ => faultsIn_ok _) fun _ => FaultsIn.bind ?_ fun _ _ => faultsIn_ok _
  obtain ⟨hc, hcfg⟩ := slot_and_cfg hch hchk
  refine faultsIn_foldlM (I := fun a : State × Word => BandRun s a.1) (fun a ha gb hgb => ⟨?_, fun a' h' => ?_⟩)
    (.refl _)
  · obtain ⟨hg, hb⟩ := mem_pairList.1 hgb
    have hng : a.1.ng c = s.ng c := by rw [ha.frame]; rfl
    exact (faultsIn_fillBand hc (ha.cfgOk hcfg) (hng ▸ hg) (ha.maxSfb c ▸ hb)).before ha.marks
  · exact ha.trans (fillBand_bandRun (Nat.lt_of_lt_of_le (mem_pairList.1 hgb).2 (maxSfb_le hchk)) h')

end

section
variable {s : State} {c1 c2 : Nat}

theorem faultsIn_dmxUpdate (hin : ∀ wb ∈ pairList (s.nwin c1) (s.maxSfb c1),
    BandInside s c1 wb.1 wb.2 ∧ BandInside s c2 wb.1 wb.2) : FaultsIn s.mem (dmxUpdate params c1 c2 s) := by
  refine faultsIn_foldlM (I := BandRun s) (fun u hu wb hwb => ⟨?_, fun t ht => ?_⟩) ?_
  · obtain ⟨h1, h2⟩ := hin wb hwb
    exact ((faultsIn_band (hu.bandInside h1)).bind fun _ _ => (faultsIn_band (hu.bandInside h2)).bind fun _ _ =>
      faultsIn_ok _).before hu.marks
  · exact hu.trans (dmxBand_bandRun (hin wb hwb).1.window (hin wb hwb).1.band ht)
  · exact (bandRun_putWords _ _ _ _ _).trans (bandRun_putBytes _ rfl _ (by rw [List.length_replicate]))

/-- Channels of a common window have the same windows and bands (R290). -/
theorem sameBands_of_cwMismatch (h : cwMismatch s c1 c2 = false) :
    s.nwin c2 = s.nwin c1 ∧ s.maxSfb c2 = s.maxSfb c1 := by
  simp only [cwMismatch, Bool.or_eq_false_iff, decide_eq_false_iff_not, not_not] at h
  obtain ⟨⟨⟨hseq, _⟩, _⟩, hmax⟩ := h
  have hshort : s.short c2 = s.short c1 := by unfold State.short; rw [hseq]
  exact ⟨by unfold State.nwin; rw [hshort], hmax.symm⟩

theorem faultsIn_msApply (cw : Bool) : FaultsIn s.mem (msApply params c1 c2 cw s) := by
  refine (faultsIn_raiseIf _ _).bind fun _ hch1 => (faultsIn_raiseIf _ _).bind fun _ hch2 =>
    (faultsIn_raiseIf _ _).bind fun _ _ => (faultsIn_raiseIf _ _).bind fun _ _ =>
    (faultsIn_raiseIf _ _).bind fun _ _ => .ite (fun _ => ?_) fun _ => faultsIn_ok _
  refine (faultsIn_chkCfg _).bind fun _ hchk1 => (faultsIn_chkCfg _).bind fun _ hchk2 =>
    (faultsIn_raiseIf _ _).bind fun _ hcw => ?_
  obtain ⟨hc1, hcfg1⟩ := slot_and_cfg hch1 hchk1
  obtain ⟨hc2, hcfg2⟩ := slot_and_cfg hch2 hchk2
  obtain ⟨hwin, hmax⟩ := sameBands_of_cwMismatch (raiseIf_ok.1 hcw)
  have hin : ∀ wb ∈ pairList (s.nwin c1) (s.maxSfb c1), BandInside s c1 wb.1 wb.2 ∧ BandInside s c2 wb.1 wb.2 := by
    intro wb hwb
    obtain ⟨hw, hb⟩ := mem_pairList.1 hwb
    exact ⟨bandInside_of_cfg hc1 hcfg1 hw hb, bandInside_of_cfg hc2 hcfg2 (hwin ▸ hw) (hmax ▸ hb)⟩
  have hround : ∀ u, BandRun s u → ∀ wb ∈ pairList (s.nwin c1) (s.maxSfb c1), ∀ t,
      msBand params c1 c2 u wb = .ok t → BandRun s t :=
    fun u hu wb hwb t ht => hu.trans (msBand_bandRun (hin wb hwb).1.window (hin wb hwb).1.band ht)
  refine FaultsIn.bind ?_ fun s1 hs1 => FaultsIn.bind ?_ fun _ _ => faultsIn_ok _
  · refine faultsIn_foldlM (I := BandRun s) (fun u hu wb hwb => ⟨?_, hround u hu wb hwb⟩) (.refl s)
    obtain ⟨h1, h2⟩ := hin wb hwb
    exact FaultsIn.before hu.marks
      (.ite (fun _ => faultsIn_op2At (hu.bandInside h1) (hu.bandInside h2)) fun _ => faultsIn_ok _)
  · have hrun : BandRun s s1 := foldlM_invariant (I := BandRun s) hround (.refl s) hs1
    refine (faultsIn_dmxUpdate fun wb hwb => ?_).before hrun.marks
    have hnwin : s1.nwin c1 = s.nwin c1 := by rw [hrun.frame]; rfl
    rw [hnwin, hrun.maxSfb] at hwb
    exact ⟨hrun.bandInside (hin wb hwb).1, hrun.bandInside (hin wb hwb).2⟩

end

/-! ### The MCT commands -/

/-- A slot whose stage is not IDLE is one of the 16. -/
theorem slot_lt_of_stage {s : State} {c : Nat} (h : (s.ch c).stage ≠ .idle) : c < 16 := by
  by_contra hc
  refine h ?_
  rw [State.ch, Vector.getElem?_eq_none (by omega)]
  rfl

/-- Every band of a box that passes the re-check lies inside both of its channels: below the larger MAX_SFB, and so
in the table the two share (R320, R325). -/
theorem boxBands_inside {s : State} {i : Nat} (h : recheckBox params s i = .ok ()) {wb : Nat × Nat}
    (hwb : wb ∈ boxBands s i) :
    BandInside s (s.latch i).c1 wb.1 wb.2 ∧ BandInside s (s.latch i).c2 wb.1 wb.2 := by
  obtain ⟨hst1, hst2, hchk1, hchk2, hsh1, hsh2⟩ := recheckBox_ok.1 h
  obtain ⟨hw, hb⟩ := mem_boxBands.1 hwb
  have hcfg1 := cfgOk_iff.2 hchk1
  have hcfg2 := cfgOk_iff.2 hchk2
  have hlt := covered_lt hb
  have hmax1 := hcfg1.2.maxSfb
  have hmax2 := hcfg2.2.maxSfb
  have hnsfb : s.nsfbOf (s.latch i).c2 = s.nsfbOf (s.latch i).c1 := by unfold State.nsfbOf; rw [hsh1, hsh2]
  have hnwin : ∀ c, s.short c = (s.latch i).sh → wb.1 < s.nwin c := fun c hc => by unfold State.nwin; rw [hc]; exact hw
  exact ⟨bandInside_of_table (slot_lt_of_stage (by rw [hst1]; decide)) hcfg1.1 (hnwin _ hsh1) (by omega),
    bandInside_of_table (slot_lt_of_stage (by rw [hst2]; decide)) hcfg2.1 (hnwin _ hsh2) (by omega)⟩

theorem faultsIn_fillStereo {s : State} {i b : Nat} (h1 : BandInside s (s.latch i).c1 0 b)
    (h2 : BandInside s (s.latch i).c2 0 b) : FaultsIn s.mem (fillStereo params i b s) := by
  refine .ite (fun _ => ?_) fun _ => faultsIn_ok _
  refine FaultsIn.bind ((faultsIn_cell .nflag rfl h2.slot (by omega) h2.band).bind fun _ _ => faultsIn_ok _) fun _ _ => ?_
  exact .ite (fun _ => faultsIn_sfill h1 h2) fun _ => faultsIn_ok _

/-- The first window is at or below any other. -/
theorem BandInside.first {s : State} {c w b : Nat} (h : BandInside s c w b) : BandInside s c 0 b := by
  refine ⟨h.slot, ?_, by omega, h.band⟩
  have hlines := h.lines
  unfold State.lineLo at hlines ⊢
  omega

theorem faultsIn_applyBand {s : State} {i : Nat} {wb : Nat × Nat} (h1 : BandInside s (s.latch i).c1 wb.1 wb.2)
    (h2 : BandInside s (s.latch i).c2 wb.1 wb.2) : FaultsIn s.mem (applyBand params i s wb) := by
  refine (faultsIn_fillStereo h1.first h2.first).bind fun t ht => ?_
  have hrun := fillStereo_bandRun h1.band ht
  have hlatch : t.latch i = s.latch i := by rw [hrun.frame]; rfl
  rw [hlatch]
  exact (faultsIn_op2At (hrun.bandInside h1) (hrun.bandInside h2)).before hrun.marks

theorem faultsIn_mctApply {s : State} : FaultsIn s.mem (mctApply params s) := by
  refine (faultsIn_raiseIf _ _).bind fun _ _ => (faultsIn_forM fun _ _ => faultsIn_recheckBox _).bind fun _ hre =>
    FaultsIn.bind ?_ fun _ _ => faultsIn_ok _
  have hin : ∀ i ∈ List.range (ctlNumBoxes s.lCtrl), ∀ wb ∈ boxBands s i,
      BandInside s (s.latch i).c1 wb.1 wb.2 ∧ BandInside s (s.latch i).c2 wb.1 wb.2 :=
    fun i hi wb hwb => boxBands_inside (forM_ok.1 hre i hi) hwb
  refine faultsIn_foldlM (I := BandRun s) (fun u hu i hi => ⟨?_, fun t ht => hu.trans (applyBox_bandRun ?_ ht)⟩)
    (.refl s)
  · refine faultsIn_foldlM (I := BandRun s) (fun v hv wb hwb => ?_) hu
    rw [hu.boxBands] at hwb
    obtain ⟨h1, h2⟩ := hin i hi wb hwb
    refine ⟨?_, fun t ht => hv.trans (applyBand_bandRun h1.window h1.band ht)⟩
    have hlatch : v.latch i = s.latch i := by rw [hv.frame]; rfl
    exact (faultsIn_applyBand (hlatch ▸ hv.bandInside h1) (hlatch ▸ hv.bandInside h2)).before hv.marks
  · rw [hu.boxBands]
    exact fun wb hwb => ⟨(hin i hi wb hwb).1.window, (hin i hi wb hwb).1.band⟩

theorem faultsIn_saveChannel {s : State} {c : Nat} (hc : c < 16) : FaultsIn s.mem (saveChannel params s c) :=
  (faultsIn_walkWords hc rfl (by decide) fun _ => faultsIn_ok _).bind fun _ _ =>
    (faultsIn_getBytes hc rfl (by decide)).bind fun _ _ => faultsIn_ok _

theorem faultsIn_commitFrame {s : State} : FaultsIn s.mem (commitFrame params s) := by
  refine faultsIn_foldlM (I := fun t : State => MarksKept s.mem t.mem) (fun t ht c hc => ?_) ?_
  · exact ⟨(faultsIn_saveChannel (List.mem_range.1 (List.mem_of_mem_filter hc))).before ht,
      fun u hu => ht.trans (saveChannel_marksKept hu)⟩
  · rw [commitBoxes_frame]
    exact .refl _

/-! ### Every command -/

/-- A fault of a command's rule names a cell that has no value in the memory the command found. -/
theorem faultsIn_commandRule (i : Instr) (s : State) : FaultsIn s.mem (commandRule i s) := by
  cases i with
  | nop => exact faultsIn_ok _
  | chBegin c => exact (faultsIn_raiseIf _ _).bind fun _ _ => faultsIn_ok _
  | iqScale c => exact faultsIn_iqScale
  | iqDequant c => exact faultsIn_iqDequant
  | noiseFill c => exact faultsIn_noiseFill
  | msApply c1 c2 cw => exact faultsIn_msApply cw
  | mctParse => exact faultsIn_mctParse
  | mctApply => exact faultsIn_mctApply
  | mctClose ok =>
    exact .ite (fun _ => (faultsIn_raiseIf _ _).bind fun _ _ => faultsIn_commitFrame.bind fun _ _ => faultsIn_ok _)
      fun _ => faultsIn_ok _
  | mctReset => exact faultsIn_ok _
  | clearErr => exact faultsIn_ok _

theorem finish_fault_iff {base : State} {r : Except Halt State} {f : Fault} :
    finish base r = .fault f ↔ r = .error (.fault f) := by
  rcases r with (e | g) | t <;> simp [finish]

/-- No turn is refused: every command has its rule. -/
theorem step_not_refused (s : State) (r : Refusal) : step s ≠ .refused r := by
  intro h
  rcases step_cases s with ⟨x, ts, _, hs⟩ | ⟨ts, _, hs⟩ | ⟨u, _, ⟨_, hs⟩ | ⟨v, _, hs⟩⟩
  · cases hs.symm.trans h
  · cases hs.symm.trans h
  · cases hs.symm.trans h
  · rw [hs] at h
    rcases runWord_cases exec u v with ⟨_, _, hr⟩ | ⟨_, ⟨e, _, hr⟩ | ⟨i, _, hr⟩⟩
    · cases hr.symm.trans h
    · cases hr.symm.trans h
    · rw [hr, exec_eq_finish] at h
      exact finish_not_refused _ _ r h

/-- Settles O10: every cell a command reads is bounded by its checks, and its writes clear no mark. -/
theorem faultNamesAnUnwrittenCell : Obligations.FaultNamesAnUnwrittenCell :=
  ⟨fun i s a h => faultsIn_commandRule i s a (finish_fault_iff.1 (exec_eq_finish i s ▸ h)), step_not_refused⟩

end Sys2Proof.Proofs
end

section
/-! OVF (R44, R212): OP2, ADD1 and the half-sum renormalise their lanes at the shared exponent (R206), and set OVF
exactly when that saturates. -/

namespace Sys2Proof.Proofs

open Sys2Proof Sys2Proof.Machine

/-! ### Renormalisation -/

/-- Saturation in terms of the least shift that fits 32 bits. -/
theorem saturates_iff (xs : List Int) (e0 : Int) :
    Saturates xs e0 ↔ allZero xs = false ∧ 127 < e0 + (leastShift xs : Int) := by
  have hzero : (∃ x ∈ xs, x ≠ 0) ↔ allZero xs = false := by
    rw [← Bool.not_eq_true, allZero_eq_true_iff]
    push Not
    rfl
  unfold Saturates
  simp only [← leastShift_le_iff]
  refine and_congr hzero ⟨fun h => h _ (Nat.le_refl _), fun h n hn => by omega⟩

/-- A renormalisation reports OVF exactly when it saturates (R212). -/
theorem renorm_ovf_iff (xs : List Int) (e0 eold : Int) : (renorm xs e0 eold).2 = true ↔ Saturates xs e0 := by
  rw [saturates_iff]
  unfold renorm
  cases hz : allZero xs with
  | true => simp
  | false =>
    simp only [Bool.false_eq_true, if_false, true_and]
    split
    case isTrue h => simpa using h
    case isFalse h => split <;> simpa using h

/-! ### The operators at the shared exponent -/

section
variable {x y : Band}

theorem op2_zero (P : Params) (f : Int → Int → Int × Int) (h : x.isZero ∧ y.isZero) : op2 P f x y = none := by
  rw [op2, (common_eq_none_iff x y).2 h]

theorem op2_lanes (f : Int → Int → Int × Int) (h : ¬ (x.isZero ∧ y.isZero)) : op2 params f x y =
    some ⟨(renorm ((pairLanes f x y).map (·.1)) (sharedExp x y) x.exp).1,
      (renorm ((pairLanes f x y).map (·.2)) (sharedExp x y) y.exp).1,
      (renorm ((pairLanes f x y).map (·.1)) (sharedExp x y) x.exp).2 ||
        (renorm ((pairLanes f x y).map (·.2)) (sharedExp x y) y.exp).2⟩ := by
  rw [op2, common_eq_sharedExp h]
  rfl

theorem add1_zero (P : Params) {z : List Int} {ez : Int} (h : x.isZero ∧ ∀ v ∈ z, v = 0) : add1 P x z ez = none := by
  rw [add1, (common_eq_none_iff x ⟨z, ez⟩).2 h]

theorem add1_lanes {z : List Int} {ez : Int} (h : ¬ (x.isZero ∧ ∀ v ∈ z, v = 0)) :
    add1 params x z ez = some (renorm (sumLanes x ⟨z, ez⟩) (sharedExp x ⟨z, ez⟩) x.exp) := by
  rw [add1, common_eq_sharedExp (y := ⟨z, ez⟩) h]
  rfl

theorem halfSum_zero (P : Params) (h : x.isZero ∧ y.isZero) :
    halfSum P x y = (⟨x.mant.map (fun _ => 0), 0⟩, false) := by
  rw [halfSum, (common_eq_none_iff x y).2 h]

theorem halfSum_lanes (h : ¬ (x.isZero ∧ y.isZero)) :
    halfSum params x y = renorm (sumLanes x y) (sharedExp x y - 1) 0 := by
  rw [halfSum, common_eq_sharedExp h]
  rfl

/-- The half-sum reports OVF exactly when it saturates (R219). -/
theorem halfSum_ovf_iff : (halfSum params x y).2 = true ↔ HalfSaturates x y := by
  unfold HalfSaturates
  by_cases h : x.isZero ∧ y.isZero
  · simp [halfSum_zero params h, h]
  · rw [halfSum_lanes h, renorm_ovf_iff]
    simp [h]

end

/-! ### OVF after an operator -/

theorem orOvf_ovf_iff (s : State) (b : Bool) : (s.orOvf b).ovf = true ↔ s.ovf = true ∨ b = true := by
  simp [State.orOvf]

theorem op2At_ovf_iff {s t : State} {f : Int → Int → Int × Int} {c1 c2 w b : Nat} {x y : Band}
    (hx : s.band params c1 w b = .ok x) (hy : s.band params c2 w b = .ok y) (h : s.op2At params f c1 c2 w b = .ok t) :
    t.ovf = true ↔ s.ovf = true ∨ PairSaturates f x y := by
  obtain ⟨x', y', hx', hy', ho⟩ := op2At_ok.1 h
  obtain rfl := Except.ok.inj (hx'.symm.trans hx)
  obtain rfl := Except.ok.inj (hy'.symm.trans hy)
  unfold PairSaturates
  by_cases hz : x'.isZero ∧ y'.isZero
  · rw [op2_zero params f hz] at ho
    rcases ho with ⟨_, rfl⟩ | ⟨r, hr, _⟩
    · exact ⟨.inl, fun h => h.resolve_right fun h => h.1 hz⟩
    · cases hr
  · rw [op2_lanes f hz] at ho
    rcases ho with ⟨hn, _⟩ | ⟨r, hr, rfl⟩
    · cases hn
    · cases hr
      rw [orOvf_ovf_iff, Bool.or_eq_true, renorm_ovf_iff, renorm_ovf_iff]
      simp only [hz, not_false_eq_true, true_and]
      rfl

theorem dmxBand_ovf_iff {s t : State} {c1 c2 w b : Nat} {x y : Band} (hx : s.band params c1 w b = .ok x)
    (hy : s.band params c2 w b = .ok y) (h : dmxBand params c1 c2 s (w, b) = .ok t) :
    t.ovf = true ↔ s.ovf = true ∨ HalfSaturates x y := by
  obtain ⟨x', hx', h⟩ := bind_ok.1 h
  obtain ⟨y', hy', h⟩ := bind_ok.1 h
  obtain rfl := Except.ok.inj (hx'.symm.trans hx)
  obtain rfl := Except.ok.inj (hy'.symm.trans hy)
  cases h
  rw [orOvf_ovf_iff, halfSum_ovf_iff]
  rfl

theorem add1At_ovf_iff {s t : State} {c w b : Nat} {x : Band} {z : List Int} {ez : Int}
    (hx : s.band params c w b = .ok x) (h : s.add1At params c w b z ez = .ok t) :
    t.ovf = true ↔ s.ovf = true ∨ AddSaturates x z ez := by
  obtain ⟨x', hx', ho⟩ := add1At_ok.1 h
  obtain rfl := Except.ok.inj (hx'.symm.trans hx)
  unfold AddSaturates
  by_cases hz : x'.isZero ∧ ∀ v ∈ z, v = 0
  · rw [add1_zero params hz] at ho
    rcases ho with ⟨_, rfl⟩ | ⟨r, hr, _⟩
    · exact ⟨.inl, fun h => h.resolve_right fun h => h.1 hz⟩
    · cases hr
  · rw [add1_lanes hz] at ho
    rcases ho with ⟨hn, _⟩ | ⟨r, hr, rfl⟩
    · cases hn
    · cases hr
      rw [orOvf_ovf_iff, renorm_ovf_iff]
      simp only [hz, not_false_eq_true, true_and]
      rfl

/-! ### Commands that use none of them -/

/-- Only NOISE_FILL, MS_APPLY with a common window and MCT_APPLY can move OVF. -/
theorem commandRule_ovf {i : Instr} {s t : State} (h : commandRule i s = .ok t) (hn : ∀ c, i ≠ .noiseFill c)
    (hms : ∀ c1 c2, i ≠ .msApply c1 c2 true) (hma : i ≠ .mctApply) : t.ovf = s.ovf := by
  cases i with
  | nop => cases h; rfl
  | chBegin c => rw [chBegin_frame h]
  | iqScale c => rw [iqScale_frame h]
  | iqDequant c => rw [iqDequant_frame h]
  | noiseFill c => exact absurd rfl (hn c)
  | msApply c1 c2 cw =>
    obtain ⟨_, _, _, _, _, ⟨_, rfl⟩ | ⟨rfl, _⟩⟩ := msApply_ok h
    · rfl
    · exact absurd rfl (hms c1 c2)
  | mctParse =>
    obtain ⟨_, _, ps, _, rfl⟩ := mctParse_ok h
    rw [commitParse_frame, parseBase_frame]
  | mctApply => exact absurd rfl hma
  | mctClose ok =>
    rcases mctClose_ok h with ⟨_, rfl⟩ | ⟨_, _, u, _, hu, _, rfl⟩
    · rw [(failClose_frame params s).1]; rfl
    · rw [hu]; rfl
  | mctReset => cases h; rw [mctReset, hreset_frame]
  | clearErr => cases h; rfl

theorem exec_ovf {i : Instr} {s t : State} (h : exec i s = .next t) (hn : ∀ c, i ≠ .noiseFill c)
    (hms : ∀ c1 c2, i ≠ .msApply c1 c2 true) (hma : i ≠ .mctApply) : t.ovf = s.ovf := by
  rcases exec_next h with ⟨u, hu, rfl⟩ | ⟨e, _, rfl⟩
  · have hovf : u.ovf = s.ovf := commandRule_ovf hu hn hms hma
    exact hovf
  · rw [State.raise_ovf, raiseBase_frame]

/-- Settles O49: each operator's result and its OVF, rule by rule. -/
theorem ovfRisesOnlyWithASaturation : Obligations.OvfRisesOnlyWithASaturation := by
  refine ⟨renorm_ovf_iff, fun _ _ => rfl, fun f x y => ⟨fun h => ?_, fun h => ?_⟩,
    fun x z ez => ⟨fun h => ?_, fun h => ?_⟩, fun x y => ⟨fun h => ?_, fun h => ?_⟩,
    fun s t f c1 c2 w b x y hx hy => ⟨op2At_ovf_iff hx hy, dmxBand_ovf_iff hx hy⟩,
    fun s t c w b x z ez => add1At_ovf_iff, fun i s t => exec_ovf⟩
  · rw [pairAfter, op2_zero params f h]
  · rw [pairAfter, op2_lanes f h]
  · rw [addAfter, add1_zero params h]
  · rw [addAfter, add1_lanes h]
  · rw [halfSum_zero params h]
  · rw [halfSum_lanes h]

end Sys2Proof.Proofs
end

section
/-! The host's reads and writes, one access at a time (R43, R44, R132 to R137), the layouts of the words a host reads
(R45, R47, R59, R60, R81, R82, R88 to R91), and what reset leaves (R100). -/

namespace Sys2Proof.Proofs

open Sys2Proof Sys2Proof.Machine

/-! ### One access -/

section
variable {s : State} {ts : List Turn} {a : Word} {n : Nat}

theorem step_read (h : s.turns = .host (.read a n) :: ts) :
    step s = .next (busRead params { s with turns := ts } a n) := by
  unfold step nextTurn
  rw [h]
  rfl

theorem step_write {v : Word} (h : s.turns = .host (.write a n v) :: ts) :
    step s = .next (busWrite params { s with turns := ts } a n v) := by
  unfold step nextTurn
  rw [h]
  rfl

theorem accessCell_of_decode {P : Params} {x : BusCell} (hx : decodeAddr P a.toNat = some x) :
    accessCell P a 4 = some x := by
  rw [accessCell, if_pos rfl, hx]

theorem not_busy (h : s.pending = none) : s.busy = false := by simp [State.busy, h]

theorem busy (h : s.pending ≠ none) : s.busy = true := Option.isSome_iff_ne_none.2 h

/-- A read that BUSY does not cut off answers the cell's view (R132). -/
theorem busRead_view {P : Params} {x : BusCell} {d : Word} (hx : decodeAddr P a.toNat = some x)
    (hb : s.busy = false ∨ x.alwaysRead = true) (hd : readView P s x = some d) : busRead P s a 4 = s.respond true d := by
  rcases busRead_cases P s a 4 with ⟨hn, _⟩ | ⟨y, hy, h⟩
  · simp [accessCell_of_decode hx] at hn
  · obtain rfl := Option.some.inj ((accessCell_of_decode hx).symm.trans hy)
    rcases h with ⟨hbusy, ha, _⟩ | ⟨_, ⟨v, hv, hr⟩ | ⟨hv, _⟩⟩
    · simp [hbusy, ha] at hb
    · rw [hr, Option.some.inj (hd.symm.trans hv)]
    · simp [hd] at hv

/-- A write that BUSY does not cut off is the cell's write view (R132). -/
theorem busWrite_view {P : Params} {x : BusCell} (v : Word) (hx : decodeAddr P a.toNat = some x)
    (hb : s.busy = false ∨ x.alwaysWrite = true) : busWrite P s a 4 v = (writeView s v x).respond true 0 := by
  rcases busWrite_cases P s a 4 v with ⟨hn, _⟩ | ⟨y, hy, h⟩
  · simp [accessCell_of_decode hx] at hn
  · obtain rfl := Option.some.inj ((accessCell_of_decode hx).symm.trans hy)
    rcases h with ⟨hbusy, ha, _⟩ | ⟨_, hr⟩
    · simp [hbusy, ha] at hb
    · exact hr

/-- A write outside ALWAYS is dropped with HAZ under BUSY (R132, R465). -/
theorem busWrite_dropped {P : Params} {x : BusCell} (v : Word) (hx : decodeAddr P a.toNat = some x)
    (hb : s.busy = true) (ha : x.alwaysWrite = false) :
    busWrite P s a 4 v = ({ s with haz := true } : State).respond true 0 := by
  rcases busWrite_cases P s a 4 v with ⟨hn, _⟩ | ⟨y, hy, h⟩
  · simp [accessCell_of_decode hx] at hn
  · obtain rfl := Option.some.inj ((accessCell_of_decode hx).symm.trans hy)
    rcases h with ⟨_, _, hr⟩ | ⟨h, _⟩
    · exact hr
    · simp [hb, ha] at h

end

/-- What a read answers does not rest on the turns to come. -/
@[simp] theorem readView_turns (P : Params) (s : State) (ts : List Turn) (x : BusCell) :
    readView P { s with turns := ts } x = readView P s x := by
  cases x <;> rfl

/-- What a read answers does not rest on the last response. -/
@[simp] theorem readView_respond (P : Params) (s : State) (ok : Bool) (d : Word) (x : BusCell) :
    readView P (s.respond ok d) x = readView P s x := by
  cases x <;> rfl

section
variable {s : State} {ts : List Turn} {a : Word} {x : BusCell}

/-- The host's read of a mapped word, when BUSY does not cut it off. -/
theorem step_read_view {d : Word} (ht : s.turns = .host (.read a 4) :: ts) (hx : decodeAddr params a.toNat = some x)
    (hb : s.busy = false ∨ x.alwaysRead = true) (hd : readView params s x = some d) :
    step s = .next { s with turns := ts, resp := some ⟨true, d⟩ } := by
  have hd' : readView params { s with turns := ts } x = some d := (readView_turns params s ts x).trans hd
  rw [step_read ht, busRead_view (s := { s with turns := ts }) hx hb hd']
  rfl

/-- The host's write of a mapped word, when BUSY does not cut it off. -/
theorem step_write_view {v : Word} (ht : s.turns = .host (.write a 4 v) :: ts)
    (hx : decodeAddr params a.toNat = some x) (hb : s.busy = false ∨ x.alwaysWrite = true) :
    step s = .next ((writeView { s with turns := ts } v x).respond true 0) := by
  rw [step_write ht, busWrite_view (s := { s with turns := ts }) v hx hb]

/-- The host's write of a word outside ALWAYS under BUSY. -/
theorem step_write_dropped {v : Word} (ht : s.turns = .host (.write a 4 v) :: ts)
    (hx : decodeAddr params a.toNat = some x) (hb : s.busy = true) (ha : x.alwaysWrite = false) :
    step s = .next { s with turns := ts, haz := true, resp := some ⟨true, 0⟩ } := by
  rw [step_write ht, busWrite_dropped (s := { s with turns := ts }) v hx hb ha]
  rfl

end

/-- A read changes the response, BUSERR and the count of free values at most, and a mapped word answers OK (R132, R137;
log 4). -/
theorem busRead_effect (P : Params) (s : State) (a : Word) (n : Nat) : ∃ r b d,
    busRead P s a n = { s with resp := some r, buserr := b, draws := d } ∧
      ((accessCell P a n).isSome = true → r.ok = true ∧ b = s.buserr) := by
  rcases busRead_cases P s a n with ⟨hn, h⟩ | ⟨x, _, ⟨_, _, h⟩ | ⟨_, ⟨v, _, h⟩ | ⟨_, h⟩⟩⟩
  · exact ⟨⟨false, 0⟩, true, s.draws, h, fun hm => by simp [hn] at hm⟩
  · exact ⟨⟨true, _⟩, s.buserr, s.draws + 1, h, fun _ => ⟨rfl, rfl⟩⟩
  · exact ⟨⟨true, v⟩, s.buserr, s.draws, h, fun _ => ⟨rfl, rfl⟩⟩
  · exact ⟨⟨true, _⟩, s.buserr, s.draws + 1, h, fun _ => ⟨rfl, rfl⟩⟩

/-! ### CMD and STATUS -/

theorem decode_cmd : decodeAddr params (0x004 : Word).toNat = some .cmd := by decide

theorem decode_status : decodeAddr params (0x008 : Word).toNat = some .status := by decide

/-- Settles O6: CMD is outside both ALWAYS sets, its write view takes the word, and it reads 0. -/
theorem writingCmdTakesACommand : Obligations.WritingCmdTakesACommand := by
  exact fun s ts v => ⟨fun ht hp => step_write_view ht decode_cmd (.inl (not_busy hp)),
    fun ht hp => step_write_dropped ht decode_cmd (busy hp) rfl,
    fun ht hp => step_read_view ht decode_cmd (.inl (not_busy hp)) rfl⟩

/-! ### Layouts: the fields of a word made of parts side by side -/

section
variable {v w start len : Nat} {hi : BitVec v} {lo : BitVec w}

theorem field_low : (hi ++ lo).extractLsb' 0 w = lo := BitVec.extractLsb'_append_eq_right

theorem field_top : (hi ++ lo).extractLsb' w v = hi := BitVec.extractLsb'_append_eq_left

/-- A field of the upper part lies above the lower part. -/
theorem field_above {x : BitVec len} (h : hi.extractLsb' start len = x) :
    (hi ++ lo).extractLsb' (start + w) len = x := by
  rw [BitVec.extractLsb'_append_eq_of_le (by omega), Nat.add_sub_cancel, h]

theorem bit_of_field {n k : Nat} {x : BitVec n} {b : Bool} (h : x.extractLsb' k 1 = BitVec.ofBool b) :
    x.getLsbD k = b := by
  have hbit := congrArg (fun y => y.getLsbD 0) h
  simpa using hbit

end

/-- The bits of the STATUS word (R44). -/
theorem statusWord_bits (s : State) : s.statusWord.getLsbD 0 = s.pending.isSome ∧ s.statusWord.getLsbD 1 = s.done ∧
    s.statusWord.getLsbD 2 = s.err ∧ s.statusWord.getLsbD 3 = s.drop ∧ s.statusWord.getLsbD 4 = s.haz ∧
    s.statusWord.getLsbD 5 = s.ovf ∧ s.statusWord.getLsbD 6 = s.buserr ∧ s.statusWord.extractLsb' 7 25 = 0 :=
  ⟨bit_of_field field_low, bit_of_field (field_above field_low), bit_of_field (field_above (field_above field_low)),
    bit_of_field (field_above (field_above (field_above field_low))),
    bit_of_field (field_above (field_above (field_above (field_above field_low)))),
    bit_of_field (field_above (field_above (field_above (field_above (field_above field_low))))),
    bit_of_field (field_above (field_above (field_above (field_above (field_above (field_above field_low)))))),
    field_above (field_above (field_above (field_above (field_above (field_above field_top)))))⟩

/-- Settles O17: STATUS is in both ALWAYS sets, reads its flags, and its write view clears the flags written 1. -/
theorem statusReadAndClear : Obligations.StatusReadAndClear := by
  refine fun s ts => ⟨fun ht => ⟨s.statusWord, step_read_view ht decode_status (.inr rfl) rfl, statusWord_bits s⟩,
    fun v ht => ⟨_, step_write_view ht decode_status (.inr rfl), rfl, ?_⟩⟩
  simp [State.respond, writeView, State.writeStatus]

/-- Settles O8: the word of an error is its fields side by side, and the causes are those of the table. -/
theorem errCodeLayout : Obligations.ErrCodeLayout := by
  refine ⟨fun e => ⟨errWord_code e, field_above field_low, field_above (field_above field_low), ?_, ?_⟩,
    fun c => by cases c <;> decide⟩
  · exact congrArg BitVec.toNat (field_above (field_above (field_above field_low))
      : e.word.extractLsb' 16 8 = BitVec.ofNat 8 e.index)
  · exact congrArg BitVec.toNat (field_above (field_above (field_above field_top))
      : e.word.extractLsb' 24 8 = BitVec.ofNat 8 e.band)

/-- The fields of PREV_INFO (R60). -/
theorem prevInfo_fields (x : Channel) : x.prevInfo.getLsbD 0 = x.prevShort ∧ x.prevInfo.getLsbD 1 = x.prevPath ∧
    x.prevInfo.extractLsb' 2 2 = x.prevWinSeq ∧ x.prevInfo.getLsbD 4 = x.prevWinShape ∧
    x.prevInfo.extractLsb' 5 27 = 0 :=
  ⟨bit_of_field field_low, bit_of_field (field_above field_low), field_above (field_above field_low),
    bit_of_field (field_above (field_above (field_above field_low))),
    field_above (field_above (field_above field_top))⟩

/-- The fields of BOX_PREV (R91). -/
theorem prevWord_fields (x : Box) : x.prevWord.extractLsb' 0 8 = x.prevPair ∧ x.prevWord.getLsbD 8 = x.prevPairValid ∧
    x.prevWord.getLsbD 9 = x.prevBoxShort ∧ x.prevWord.getLsbD 10 = x.histValid ∧ x.prevWord.extractLsb' 11 21 = 0 :=
  ⟨field_low, bit_of_field (field_above field_low), bit_of_field (field_above (field_above field_low)),
    bit_of_field (field_above (field_above (field_above field_low))),
    field_above (field_above (field_above field_top))⟩

/-- A number of the build reads back from its field when it fits. -/
theorem toNat_field {n start len k : Nat} {x : BitVec n} (h : x.extractLsb' start len = BitVec.ofNat len k)
    (hk : k < 2 ^ len) : (x.extractLsb' start len).toNat = k := by
  rw [h, BitVec.toNat_ofNat, Nat.mod_eq_of_lt hk]

/-- The fields of PARAM (R47). -/
theorem paramWord_fields {P : Params} (h : P.Legal) : ((paramWord P).extractLsb' 0 8).toNat = P.maxCh ∧
    ((paramWord P).extractLsb' 8 8).toNat = P.maxBoxes ∧ (paramWord P).extractLsb' 16 8 = 64 ∧
    (paramWord P).extractLsb' 24 8 = 0 := by
  obtain ⟨_, hch⟩ := h.maxCh
  obtain ⟨_, hboxes⟩ := h.maxBoxes
  exact ⟨toNat_field field_low (by omega), toNat_field (field_above field_low) (by omega),
    field_above (field_above field_low), field_above (field_above field_top)⟩

/-- The fields of PARAM2 (R47). -/
theorem param2Word_fields {P : Params} (h : P.Legal) : ((param2Word P).extractLsb' 0 16).toNat = P.nLong ∧
    (param2Word P).extractLsb' 16 8 = 8 ∧ (param2Word P).getLsbD 24 = P.profileLtp ∧
    (param2Word P).extractLsb' 25 7 = 0 := by
  obtain ⟨_, hlong⟩ := h.nLong
  exact ⟨toNat_field field_low (by omega), field_above field_low, bit_of_field (field_above (field_above field_low)),
    field_above (field_above field_top)⟩

/-- How the memories show their cells (R133). -/
theorem readView_word {P : Params} {s : State} {M : ChMem} (hM : M.isWord = true) (c j : Nat) :
    readView P s (.mem c M j) = readWord s.mem (cellAddr M c j) := by
  rw [readView, cellBits_word hM]
  cases M <;> cases hM <;> exact Option.map_id'

theorem readView_byte {P : Params} {s : State} {M : ChMem} (hM : M.isWord = false) (c j : Nat) :
    readView P s (.mem c M j) = (readByte s.mem (cellAddr M c j)).map (fun b => M.view (b.setWidth 32)) := by
  rw [readView, cellBits_byte hM, Option.map_map]
  rfl

/-- The low bits of a byte zero-extended to a word. -/
theorem extractLsb'_setWidth_byte (b : Byte) {k : Nat} (hk : k ≤ 32) :
    (b.setWidth 32).extractLsb' 0 k = b.extractLsb' 0 k := BitVec.extractLsb'_setWidth_of_le (by omega)

theorem view_signed {M : ChMem} (hM : M ∈ [ChMem.exp, .pexp, .dmxe]) (b : Byte) :
    M.view (b.setWidth 32) = b.signExtend 32 := by
  have h8 : (b.setWidth 32).extractLsb' 0 8 = b :=
    (extractLsb'_setWidth_byte b (by decide)).trans BitVec.extractLsb'_eq_self
  simp only [List.mem_cons, List.not_mem_nil, or_false] at hM
  rcases hM with rfl | rfl | rfl <;> rw [ChMem.view, h8]

theorem view_sf (b : Byte) : ChMem.sf.view (b.setWidth 32) = b.setWidth 32 := by
  rw [ChMem.view, extractLsb'_setWidth_byte b (by decide), BitVec.extractLsb'_eq_self]

/-- Settles O13: a read's effect, and the layouts of the words that only commands write. -/
theorem hostReadsHaveNoSideEffect : Obligations.HostReadsHaveNoSideEffect := by
  refine ⟨fun s ts a n ht => ⟨?_, fun x d hn hp hx hd => ?_⟩, fun s => ⟨rfl, rfl, ?_, ?_⟩, fun s c => ⟨rfl, ?_,
    _, rfl, prevInfo_fields _⟩, fun s i => ⟨rfl, fun b hb => ?_, _, rfl, prevWord_fields _⟩,
    fun s c j => ⟨fun M hM => ?_, fun M hM => ?_, ?_, ?_, ?_⟩, fun P s hP => ⟨_, _, rfl, rfl, ?_⟩⟩
  · obtain ⟨r, b, d, h, hok⟩ := busRead_effect params { s with turns := ts } a n
    refine ⟨r, b, d, by rw [step_read ht, h], fun hn hm => hok ?_⟩
    rw [hn, accessCell, if_pos rfl]
    exact hm
  · subst hn
    exact step_read_view ht hx (.inl (not_busy hp)) hd
  · cases h : s.mctState <;> simp [readView, h, MctState.code]
  · cases h : s.prevMode <;> simp [readView, h, PrevMode.code]
  · cases h : (s.ch c).stage <;> simp [readView, Channel.view, h, Stage.code]
  · simp [readView, Box.view, hb]
  · simp only [List.mem_cons, List.not_mem_nil, or_false] at hM
    exact readView_word (by rcases hM with rfl | rfl | rfl | rfl <;> rfl) c j
  · rw [readView_byte (by simp only [List.mem_cons, List.not_mem_nil, or_false] at hM
                          rcases hM with rfl | rfl | rfl <;> rfl)]
    simp only [view_signed hM]
  · rw [readView_byte rfl]
    simp only [view_sf]
  · rw [readView_byte rfl]
    simp only [ChMem.view, extractLsb'_setWidth_byte _ (show 4 ≤ 32 by decide)]
  · rw [readView_byte rfl]
    simp only [ChMem.view, extractLsb'_setWidth_byte _ (show 1 ≤ 32 by decide)]
  · obtain ⟨h1, h2, h3, h4⟩ := paramWord_fields hP
    exact ⟨h1, h2, h3, h4, param2Word_fields hP⟩

end Sys2Proof.Proofs
end

section
/-! A written word reads back and no other word changes (R79, R133, R134), the fields of a word are at their bits (R55,
R57, R61, R80, R85, R86), and what every mapped word reads after reset (R100). -/

namespace Sys2Proof.Proofs

open Sys2Proof Sys2Proof.Machine

/-! ### Memory cells apart -/

/-- The memories of a channel's block lie one after another and inside the block (R128). -/
theorem memories_apart (M M' : ChMem) : M.offset + 4 * memSize M ≤ 0x8000 ∧
    (M = M' ∨ M.offset + 4 * memSize M ≤ M'.offset ∨ M'.offset + 4 * memSize M' ≤ M.offset) := by
  cases M <;> cases M' <;> decide

/-- Two different cells that the build has are different words of the bus (R128, R129). -/
theorem cells_apart {M M' : ChMem} {c c' i i' : Nat} (hi : i < memSize M) (hi' : i' < memSize M')
    (hne : BusCell.mem c M i ≠ .mem c' M' i') :
    cellAddr M c i + 4 ≤ cellAddr M' c' i' ∨ cellAddr M' c' i' + 4 ≤ cellAddr M c i := by
  obtain ⟨hlast, hM⟩ := memories_apart M M'
  obtain ⟨hlast', _⟩ := memories_apart M' M
  unfold cellAddr
  by_cases hc : c = c'
  · subst hc
    rcases hM with rfl | h | h
    · have : i ≠ i' := fun h => hne (h ▸ rfl)
      omega
    · omega
    · omega
  · omega

/-- A cell reads as before when no byte of its word changes. -/
theorem cellBits_congr {m m' : Memory} {M : ChMem} {c i : Nat}
    (h : ∀ j < 4, readByte m' (cellAddr M c i + j) = readByte m (cellAddr M c i + j)) :
    cellBits m' M c i = cellBits m M c i := by
  have h0 : readByte m' (cellAddr M c i) = readByte m (cellAddr M c i) := h 0 (by omega)
  unfold cellBits readWord
  rw [h0, h 1 (by omega), h 2 (by omega), h 3 (by omega)]

section
variable {s : State} {M M' : ChMem} {c c' i i' : Nat} (hi : i < memSize M) (hi' : i' < memSize M')
  (hne : BusCell.mem c M i ≠ .mem c' M' i')
include hi hi' hne

theorem cellBits_putWords_ne (v : Word) :
    cellBits (s.putWords M c i [v]).mem M' c' i' = cellBits s.mem M' c' i' := by
  have hapart := cells_apart hi hi' hne
  exact cellBits_congr fun j hj => readByte_putWords_outside (by simp only [List.length_singleton]; omega)

theorem cellBits_putBytes_ne (b : Byte) :
    cellBits (s.putBytes M c i [b]).mem M' c' i' = cellBits s.mem M' c' i' := by
  have hapart := cells_apart hi hi' hne
  exact cellBits_congr fun j hj => readByte_putBytes_outside (by simp only [List.length_singleton]; omega)

end

theorem cellBits_putWords_self {s : State} {M : ChMem} (hM : M.isWord = true) (c i : Nat) (v : Word) :
    cellBits (s.putWords M c i [v]).mem M c i = some v := by
  rw [cellBits_word hM]
  exact readWord_putWords (ws := [v]) (k := 0) (by simp)

theorem cellBits_putBytes_self {s : State} {M : ChMem} (hM : M.isWord = false) (c i : Nat) (b : Byte) :
    cellBits (s.putBytes M c i [b]).mem M c i = some (b.setWidth 32) := by
  rw [cellBits_byte hM]
  exact congrArg (Option.map _) (readByte_putBytes (bs := [b]) (k := 0) (by simp))

/-! ### The stored bits -/

theorem and_mask_twice (v m : Word) : v &&& m &&& m = v &&& m := by
  rw [BitVec.and_assoc, BitVec.and_self]

/-- The low bits of a word, zero-extended, are the word under their mask. -/
theorem setWidth_lowBits (v : Word) {k : Nat} (hk : k ≤ 32) :
    (v.extractLsb' 0 k).setWidth 32 = v &&& BitVec.ofNat 32 (2 ^ k - 1) := by
  have hpow : 2 ^ k ≤ 2 ^ 32 := Nat.pow_le_pow_right (by decide) hk
  have hpos : 0 < 2 ^ k := Nat.two_pow_pos k
  apply BitVec.eq_of_toNat_eq
  rw [BitVec.toNat_setWidth_of_le hk, BitVec.extractLsb'_toNat, Nat.shiftRight_zero, BitVec.toNat_and, BitVec.toNat_ofNat,
    Nat.mod_eq_of_lt (a := 2 ^ k - 1) (by omega), Nat.and_two_pow_sub_one_eq_mod]

theorem byte_setWidth_lowBits (b : Byte) {k : Nat} (hk : k ≤ 8) :
    (b.setWidth 32).extractLsb' 0 k = b.extractLsb' 0 k := extractLsb'_setWidth_byte b (by omega)

/-! ### A write and the words it leaves -/

section
variable {s : State} {x : BusCell} {v d : Word}

/-- A word that the host may write reads as the stored bits of what was written (R133, R134). -/
theorem readView_writeView_self (hx : InRange x) (h : x.stored v = some d) :
    readView params (writeView s v x) x = some d := by
  cases x with
  | irqEn => cases h; exact congrArg some (and_mask_twice v irqEnMask)
  | nsfb => cases h; exact congrArg some (and_mask_twice v nsfbMask)
  | nfStart => cases h; exact congrArg some (and_mask_twice v nfStartMask)
  | mctCtrl => cases h; exact congrArg some (and_mask_twice v mctCtrlMask)
  | sfbOffLong b =>
    cases h
    rw [readView, writeView, Vector.getElem?_setIfInBounds_self_of_lt hx]
    exact congrArg some (setWidth_lowBits v (by decide))
  | sfbOffShort b =>
    cases h
    rw [readView, writeView, Vector.getElem?_setIfInBounds_self_of_lt hx]
    exact congrArg some (setWidth_lowBits v (by decide))
  | chMap p =>
    cases h
    rw [readView, writeView, Vector.getElem?_setIfInBounds_self_of_lt hx]
    exact congrArg some (setWidth_lowBits v (by decide))
  | chan c r =>
    obtain ⟨hc, hr⟩ := hx
    rw [readView, writeView, State.ch_setCh_self hc]
    cases r with
    | ics => cases h; exact congrArg some (and_mask_twice v icsMask)
    | groupLen => cases h; rfl
    | noise => cases h; exact congrArg some (and_mask_twice v noiseMask)
    | nseed => cases h; rfl
    | msMaskLo g =>
      cases h
      rw [Channel.view, Channel.write, Vector.getElem?_setIfInBounds_self_of_lt hr]; rfl
    | msMaskHi g =>
      cases h
      rw [Channel.view, Channel.write, Vector.getElem?_setIfInBounds_self_of_lt hr]; rfl
    | _ => cases h
  | box i r =>
    obtain ⟨hi, hr⟩ := hx
    rw [readView, writeView, State.box_setBox_self hi]
    cases r with
    | ctrl => cases h; exact congrArg some (and_mask_twice v boxCtrlMask)
    | maskLo => cases h; rfl
    | maskHi => cases h; rfl
    | sym j =>
      cases h
      rw [Box.view, Box.write, Vector.getElem?_setIfInBounds_self_of_lt hr]
      exact congrArg some (setWidth_lowBits v (by decide))
    | _ => cases h
  | mem c M i =>
    rw [readView, writeView]
    cases M with
    | mant => cases h; rw [State.writeMem, cellBits_putWords_self rfl]; rfl
    | qin => cases h; rw [State.writeMem, cellBits_putWords_self rfl]; rfl
    | exp =>
      cases h
      rw [State.writeMem, cellBits_putBytes_self rfl, Option.map_some, view_signed (by simp)]
    | sf =>
      cases h
      rw [State.writeMem, cellBits_putBytes_self rfl, Option.map_some, view_sf]
      exact congrArg some (setWidth_lowBits v (by decide))
    | cb =>
      cases h
      rw [State.writeMem, cellBits_putBytes_self rfl, Option.map_some, ChMem.view, byte_setWidth_lowBits _ (by decide),
        BitVec.extractLsb'_setWidth_of_le (by decide), BitVec.extractLsb'_eq_self]
      exact congrArg some (setWidth_lowBits v (by decide))
    | _ => cases h
  | _ => cases h

theorem channel_view_write_ne (x : Channel) (v : Word) {r r' : ChReg} (h : r' ≠ r) : (x.write v r).view r' = x.view r' := by
  cases r with
  | msMaskLo g =>
    cases r' with
    | msMaskLo g' => rw [Channel.view, Channel.write, Vector.getElem?_setIfInBounds_ne (fun hg => h (by rw [hg]))]; rfl
    | _ => rfl
  | msMaskHi g =>
    cases r' with
    | msMaskHi g' => rw [Channel.view, Channel.write, Vector.getElem?_setIfInBounds_ne (fun hg => h (by rw [hg]))]; rfl
    | _ => rfl
  | ics =>
    cases r' with
    | ics => exact absurd rfl h
    | _ => rfl
  | groupLen =>
    cases r' with
    | groupLen => exact absurd rfl h
    | _ => rfl
  | noise =>
    cases r' with
    | noise => exact absurd rfl h
    | _ => rfl
  | nseed =>
    cases r' with
    | nseed => exact absurd rfl h
    | _ => rfl
  | _ => rfl

theorem box_view_write_ne (x : Box) (v : Word) {r r' : BoxReg} (h : r' ≠ r) : (x.write v r).view r' = x.view r' := by
  cases r with
  | sym j =>
    cases r' with
    | sym j' => rw [Box.view, Box.write, Vector.getElem?_setIfInBounds_ne (fun hj => h (by rw [hj]))]; rfl
    | _ => rfl
  | ctrl =>
    cases r' with
    | ctrl => exact absurd rfl h
    | _ => rfl
  | maskLo =>
    cases r' with
    | maskLo => exact absurd rfl h
    | _ => rfl
  | maskHi =>
    cases r' with
    | maskHi => exact absurd rfl h
    | _ => rfl
  | _ => rfl

/-- A host write of a memory cell changes no other memory cell. -/
theorem cellBits_writeMem_ne {M M' : ChMem} {c c' i i' : Nat} (hi : i < memSize M) (hi' : i' < memSize M')
    (hne : BusCell.mem c M i ≠ .mem c' M' i') :
    cellBits (s.writeMem c M i v).mem M' c' i' = cellBits s.mem M' c' i' := by
  cases M with
  | mant => exact cellBits_putWords_ne hi hi' hne v
  | qin => exact cellBits_putWords_ne hi hi' hne v
  | exp => exact cellBits_putBytes_ne hi hi' hne _
  | sf => exact cellBits_putBytes_ne hi hi' hne _
  | cb => exact cellBits_putBytes_ne hi hi' hne _
  | _ => rfl

/-- A write of a word that the host may write changes no other word (R134). -/
theorem readView_writeView_ne {y : BusCell} (hx : InRange x) (hy : InRange y) (h : x.stored v = some d) (hne : y ≠ x) :
    readView params (writeView s v x) y = readView params s y := by
  cases x with
  | sfbOffLong b =>
    cases y with
    | sfbOffLong b' => rw [readView, writeView, Vector.getElem?_setIfInBounds_ne (fun hb => hne (by rw [hb]))]; rfl
    | _ => rfl
  | sfbOffShort b =>
    cases y with
    | sfbOffShort b' => rw [readView, writeView, Vector.getElem?_setIfInBounds_ne (fun hb => hne (by rw [hb]))]; rfl
    | _ => rfl
  | chMap p =>
    cases y with
    | chMap p' => rw [readView, writeView, Vector.getElem?_setIfInBounds_ne (fun hp => hne (by rw [hp]))]; rfl
    | _ => rfl
  | chan c r =>
    cases y with
    | chan c' r' =>
      rw [readView, writeView, readView]
      by_cases hc : c = c'
      · subst hc
        rw [State.ch_setCh_self hx.1, channel_view_write_ne _ _ (fun hr => hne (by rw [hr]))]
      · rw [State.ch_setCh_ne hc]
    | _ => rfl
  | box i r =>
    cases y with
    | box i' r' =>
      rw [readView, writeView, readView]
      by_cases hi : i = i'
      · subst hi
        rw [State.box_setBox_self hx.1, box_view_write_ne _ _ (fun hr => hne (by rw [hr]))]
      · rw [State.box_setBox_ne hi]
    | _ => rfl
  | mem c M i =>
    cases y with
    | mem c' M' i' => rw [readView, writeView, readView, cellBits_writeMem_ne hx.2 hy.2 (Ne.symm hne)]
    | _ => cases M <;> rfl
  | irqEn =>
    cases y with
    | irqEn => exact absurd rfl hne
    | _ => rfl
  | nsfb =>
    cases y with
    | nsfb => exact absurd rfl hne
    | _ => rfl
  | nfStart =>
    cases y with
    | nfStart => exact absurd rfl hne
    | _ => rfl
  | mctCtrl =>
    cases y with
    | mctCtrl => exact absurd rfl hne
    | _ => rfl
  | _ => cases h

theorem writeView_turns (h : x.stored v = some d) : (writeView s v x).turns = s.turns := by
  cases x with
  | mem c M i => cases M <;> rfl
  | ctrl => cases h
  | _ => rfl

end

/-! ### Fields at their bits -/

/-- The fields of ICS, NOISE, MCT_CTRL and BOX_CTRL (R55, R57, R80, R85). -/
theorem fields_at_bits (v : Word) : icsWinSeq v = v.extractLsb' 0 2 ∧ icsMaxSfb v = v.toNat / 2 ^ 16 % 2 ^ 7 ∧
    icsNumGroups v = v.toNat / 2 ^ 24 % 2 ^ 4 ∧
    [icsWinShape v, icsLfe v, icsLtp v, icsGainCtrl v, icsErPayload v, icsNoiseEn v, icsIgfEn v, icsPath v] =
      [2, 3, 4, 5, 6, 7, 8, 9].map v.getLsbD ∧
    (noiseLevel v).toNat = v.toNat % 2 ^ 3 ∧ (noiseOffset v).toNat = v.toNat / 2 ^ 8 % 2 ^ 5 ∧
    [ctlIndep v, ctlSfEnable v, ctlMode v, ctlKeepTree v] = [0, 1, 2, 3].map v.getLsbD ∧
    ctlNumBoxes v = v.toNat / 2 ^ 8 % 2 ^ 5 ∧ ctlNch v = v.toNat / 2 ^ 16 % 2 ^ 5 ∧
    [boxHasMask v, boxBandwise v, boxPredDir v, boxDeltaTime v, boxSfFlag v] = [8, 9, 10, 11, 12].map v.getLsbD ∧
    boxPairIdx v = v.toNat % 2 ^ 8 ∧ boxNumBands v = v.toNat / 2 ^ 16 % 2 ^ 7 := by
  have field : ∀ k n, (v.extractLsb' k n).toNat = v.toNat / 2 ^ k % 2 ^ n := fun k n => by
    rw [BitVec.extractLsb'_toNat, Nat.shiftRight_eq_div_pow]
  have low : ∀ n, (v.extractLsb' 0 n).toNat = v.toNat % 2 ^ n := fun n => by
    rw [field, Nat.pow_zero, Nat.div_one]
  exact ⟨rfl, field 16 7, field 24 4, rfl, low 3, field 8 5, rfl, field 8 5, field 16 5, rfl, low 8, field 16 7⟩

/-- A bit of a 64-bit mask is a bit of its low or its high word. -/
theorem getLsbD_maskPair (hi lo : Word) (b : Nat) :
    (hi ++ lo : BitVec 64).getLsbD b = if b < 32 then lo.getLsbD b else hi.getLsbD (b - 32) := by
  rw [BitVec.getLsbD_append]

/-- Settles O16: the write view of the word, the words apart from it, and the fields. -/
theorem writtenWordsReadBack : Obligations.WrittenWordsReadBack := by
  refine ⟨fun s ts a v d x hp ht hx hd => ?_, fields_at_bits, fun s c g b _ _ => getLsbD_maskPair _ _ b,
    fun x b hb => ⟨getLsbD_maskPair _ _ b, ?_⟩⟩
  · have hin := decodeAddr_inRange hx
    refine ⟨_, step_write_view ht hx (.inl (not_busy hp)), writeView_turns hd, rfl, ?_, fun b y hy hne => ?_⟩
    · rw [readView_respond]
      exact readView_writeView_self hin hd
    · rw [readView_respond, readView_writeView_ne hin (decodeAddr_inRange hy) hd hne, readView_turns]
  · rw [Box.symAt, Vector.getElem?_eq_getElem hb]
    rfl

/-! ### After reset -/

/-- An unlisted byte reads 0 in PMANT and PEXP and has no value elsewhere (R100). -/
theorem unlisted_cell {M : ChMem} {c i : Nat} (hi : i < memSize M) {j : Nat} (hj : j < 4) :
    unlisted (cellAddr M c i + j) = if M = .pmant ∨ M = .pexp then some 0 else none := by
  have hoff : M.offset + 4 * i + j < 0x8000 := by
    cases M <;> simp only [memSize, ChMem.isWord, ChMem.offset] at hi ⊢ <;> simp at hi <;> omega
  have hmod : (cellAddr M c i + j - 0x100000) % 0x8000 = M.offset + 4 * i + j := by
    rw [show cellAddr M c i + j - 0x100000 = M.offset + 4 * i + j + 0x8000 * c by unfold cellAddr; omega,
      Nat.add_mul_mod_self_left, Nat.mod_eq_of_lt hoff]
  have hlo : 0x100000 ≤ cellAddr M c i + j := by unfold cellAddr; omega
  rw [unlisted, hmod]
  cases M <;> simp [memSize, ChMem.isWord, ChMem.offset, hlo] at hi ⊢ <;> omega

/-- After reset a cell of PMANT and PEXP reads 0, and any other cell has no value. -/
theorem readView_reset_mem {M : ChMem} {c i : Nat} (hi : i < memSize M) :
    readView params State.reset (.mem c M i) = if M = .pmant ∨ M = .pexp then some 0 else none := by
  have hread : ∀ j < 4, readByte State.reset.mem (cellAddr M c i + j) = if M = .pmant ∨ M = .pexp then some 0 else none :=
    fun j hj => unlisted_cell hi hj
  have h0 : readByte State.reset.mem (cellAddr M c i) = _ := hread 0 (by omega)
  rw [readView, cellBits, readWord, h0, hread 1 (by omega), hread 2 (by omega), hread 3 (by omega)]
  cases M <;> rfl

theorem getD_replicate {α : Type} (n i : Nat) (x : α) : ((Vector.replicate n x)[i]?).getD x = x := by
  rw [Vector.getElem?_replicate]
  split <;> rfl

/-- Settles O19: each register's reset value, and the memory that lists no byte. -/
theorem whatResetLeaves : Obligations.WhatResetLeaves := by
  refine ⟨rfl, rfl, fun a x hx => ?_⟩
  have hin := decodeAddr_inRange hx
  cases x with
  | mem c M i => exact readView_reset_mem hin.2
  | rotCos i => simp [readView, romWord, show i < params.angleValid from hin]
  | rotSin i => simp [readView, romWord, show i < params.angleValid from hin]
  | chan c r =>
    rw [readView, reset_ch]
    cases r <;> simp [Channel.view, Channel.reset, Stage.code, Channel.prevInfo, getD_replicate]
  | box i r =>
    rw [readView, reset_box]
    cases r <;> simp [Box.view, Box.reset, Box.prevWord, getD_replicate]
  | sfbOffLong b => simp [readView, State.reset, getD_replicate]
  | sfbOffShort b => simp [readView, State.reset, getD_replicate]
  | chMap p => simp [readView, State.reset, getD_replicate]
  | _ => rfl

end Sys2Proof.Proofs
end

section
/-! Accesses that BUSY or the cell itself keeps from taking effect (R132, R134, R465), and the reserved bits of the
writable registers, which every turn keeps 0 (R133, R134; log 20). -/

namespace Sys2Proof.Proofs

open Sys2Proof Sys2Proof.Machine

/-! ### Accesses under BUSY -/

/-- A read outside ALWAYS answers a free value under BUSY (R132, R465; log 4). -/
theorem busRead_free {P : Params} {s : State} {a : Word} {x : BusCell} (hx : decodeAddr P a.toNat = some x)
    (hb : s.busy = true) (ha : x.alwaysRead = false) : busRead P s a 4 = s.respondFree (fun v => v) := by
  rcases busRead_cases P s a 4 with ⟨hn, _⟩ | ⟨y, hy, h⟩
  · simp [accessCell_of_decode hx] at hn
  · obtain rfl := Option.some.inj ((accessCell_of_decode hx).symm.trans hy)
    rcases h with ⟨_, _, hr⟩ | ⟨h, _⟩
    · exact hr
    · simp [hb, ha] at h

/-- The ALWAYS set of reads is that of R132. -/
theorem alwaysRead_iff (x : BusCell) :
    x.alwaysRead = true ↔ x ∈ [.id, .status, .errCode, .irqEn, .ctrl, .cmdCount, .param, .param2] := by
  cases x <;> simp [BusCell.alwaysRead]

/-- The ALWAYS set of writes is that of R132. -/
theorem alwaysWrite_iff (x : BusCell) : x.alwaysWrite = true ↔ x ∈ [.status, .irqEn, .ctrl] := by
  cases x <;> simp [BusCell.alwaysWrite]

/-- An ALWAYS word is a register, whose value is never unspecified. -/
theorem readView_isSome_of_alwaysRead {P : Params} {s : State} {x : BusCell} (h : x.alwaysRead = true) :
    ∃ d, readView P s x = some d := by
  cases x with
  | mem c M i => cases h
  | _ => exact ⟨_, rfl⟩

/-- Settles O14: the two ALWAYS sets decide whether BUSY cuts an access off. -/
theorem accessesUnderBusy : Obligations.AccessesUnderBusy := by
  intro s ts a v x hp hx
  refine ⟨fun ht hn => ?_, fun ht hn => ?_, fun ht hm => ?_, fun ht hm => ?_⟩
  · rw [step_read ht, busRead_free (s := { s with turns := ts }) hx (busy hp)
      (Bool.eq_false_iff.2 (hn ∘ (alwaysRead_iff x).1))]
    rfl
  · exact step_write_dropped ht hx (busy hp) (Bool.eq_false_iff.2 (hn ∘ (alwaysWrite_iff x).1))
  · have ha := (alwaysRead_iff x).2 hm
    obtain ⟨d, hd⟩ := readView_isSome_of_alwaysRead (P := params) (s := s) ha
    exact ⟨d, hd, step_read_view ht hx (.inr ha) hd⟩
  · exact step_write_view ht hx (.inr ((alwaysWrite_iff x).2 hm))

/-! ### Read-only words -/

/-- Writing an entry back leaves the array as it is. -/
theorem setIfInBounds_getD {α : Type} {n : Nat} (xs : Vector α n) (i : Nat) (d : α) :
    xs.setIfInBounds i ((xs[i]?).getD d) = xs := by
  ext j hj
  rw [Vector.getElem_setIfInBounds]
  split
  · next h => simp [h, hj]
  · rfl

@[simp] theorem setCh_ch (s : State) (c : Nat) : s.setCh c (s.ch c) = s := by
  rw [State.setCh, State.ch, setIfInBounds_getD]

@[simp] theorem setBox_box (s : State) (i : Nat) : s.setBox i (s.box i) = s := by
  rw [State.setBox, State.box, setIfInBounds_getD]

/-- The write view of a read-only word changes nothing (R134). -/
theorem writeView_readOnly (s : State) (v : Word) {x : BusCell} (h : x.readOnly = true) : writeView s v x = s := by
  cases x with
  | chan c r =>
    cases r with
    | stage => exact setCh_ch s c
    | prevInfo => exact setCh_ch s c
    | _ => cases h
  | box i r =>
    cases r with
    | info => exact setBox_box s i
    | prev => exact setBox_box s i
    | coef _ => exact setBox_box s i
    | hist _ => exact setBox_box s i
    | _ => cases h
  | mem c M i =>
    cases M with
    | nflag | pmant | pexp | dmxe | dmxm => rfl
    | _ => cases h
  | id | errCode | cmdCount | param | param2 | rotCos _ | rotSin _ | mctState | mctPrev => rfl
  | _ => cases h

/-- Settles O15: the write reaches the word's write view, which is the state itself. -/
theorem readOnlyWordsIgnoreWrites : Obligations.ReadOnlyWordsIgnoreWrites := by
  intro s ts a v x hp ht hx hro
  rw [step_write_view ht hx (.inl (not_busy hp)), writeView_readOnly _ v hro]
  rfl

/-! ### Reserved bits -/

/-- What a command does to the registers keeps the reserved bits: it writes none of the registers that have any. -/
theorem reservedBitsZero_of_step {i : Instr} {s t : State} (hs : ReservedBitsZero s) (hirq : t.irqEn = s.irqEn)
    (hnsfb : t.nsfb = s.nsfb) (hnf : t.nfStart = s.nfStart) (hctrl : t.mctCtrl = s.mctCtrl)
    (hch : ChannelsStep i s t) (hbox : BoxesHostKept s t) : ReservedBitsZero t := by
  have hchan : ∀ c, (t.ch c).ics = (s.ch c).ics ∧ (t.ch c).noise = (s.ch c).noise := fun c => by
    rw [(hch c).host]; exact ⟨rfl, rfl⟩
  have hbctrl : ∀ i, (t.box i).ctrl = (s.box i).ctrl := fun i => (hbox i).1
  unfold ReservedBitsZero at hs ⊢
  simpa only [hirq, hnsfb, hnf, hctrl, hchan, hbctrl] using hs

/-- A host write of a channel register drops the reserved bits (R134). -/
theorem channel_write_reserved {x : Channel} (h : x.ics &&& icsMask = x.ics ∧ x.noise &&& noiseMask = x.noise) (v : Word)
    (r : ChReg) : (x.write v r).ics &&& icsMask = (x.write v r).ics ∧
      (x.write v r).noise &&& noiseMask = (x.write v r).noise := by
  cases r with
  | ics => exact ⟨and_mask_twice v icsMask, h.2⟩
  | noise => exact ⟨h.1, and_mask_twice v noiseMask⟩
  | _ => exact h

/-- A host write of a box register drops the reserved bits (R134). -/
theorem box_write_reserved {x : Box} (h : x.ctrl &&& boxCtrlMask = x.ctrl) (v : Word) (r : BoxReg) :
    (x.write v r).ctrl &&& boxCtrlMask = (x.write v r).ctrl := by
  cases r with
  | ctrl => exact and_mask_twice v boxCtrlMask
  | _ => exact h

/-- A host write stores a register without its reserved bits, or leaves every such register, or resets the block. -/
theorem reservedBitsZero_writeView {s : State} (x : BusCell) (v : Word) (hs : ReservedBitsZero s) :
    ReservedBitsZero (writeView s v x) := by
  obtain ⟨hirq, hnsfb, hnf, hctrl, hch, hbox⟩ := hs
  cases x with
  | irqEn => exact ⟨and_mask_twice v irqEnMask, hnsfb, hnf, hctrl, hch, hbox⟩
  | nsfb => exact ⟨hirq, and_mask_twice v nsfbMask, hnf, hctrl, hch, hbox⟩
  | nfStart => exact ⟨hirq, hnsfb, and_mask_twice v nfStartMask, hctrl, hch, hbox⟩
  | mctCtrl => exact ⟨hirq, hnsfb, hnf, and_mask_twice v mctCtrlMask, hch, hbox⟩
  | ctrl =>
    rw [writeView]
    split
    · exact reset_reservedBitsZero
    · exact ⟨hirq, hnsfb, hnf, hctrl, hch, hbox⟩
  | chan d r =>
    refine ⟨hirq, hnsfb, hnf, hctrl, fun c hc => ?_, hbox⟩
    rcases State.ch_setCh_eq_or s d c ((s.ch d).write v r) with h | ⟨rfl, h⟩ <;> rw [writeView, h]
    · exact hch c hc
    · exact channel_write_reserved (hch c hc) v r
  | box j r =>
    refine ⟨hirq, hnsfb, hnf, hctrl, hch, fun i hi => ?_⟩
    rcases State.box_setBox_eq_or s j i ((s.box j).write v r) with h | ⟨rfl, h⟩ <;> rw [writeView, h]
    · exact hbox i hi
    · exact box_write_reserved (hbox i hi) v r
  | mem c M i => cases M <;> exact ⟨hirq, hnsfb, hnf, hctrl, hch, hbox⟩
  | _ => exact ⟨hirq, hnsfb, hnf, hctrl, hch, hbox⟩

theorem turnInvariant_reservedBits : TurnInvariant ReservedBitsZero where
  frame h hs := by rw [h]; exact hs
  write v _ hs := reservedBitsZero_writeView _ v hs
  record e hs := by rw [State.record_frame]; exact hs
  base {s} i hs := by
    have hf := raiseBase_frame i s
    exact reservedBitsZero_of_step hs (by rw [hf]) (by rw [hf]) (by rw [hf]) (by rw [hf]) (raiseBase_channelsStep i s)
      (raiseBase_boxesHostKept i s)
  rule h hs := by
    have hf := commandRule_frame h
    exact reservedBitsZero_of_step hs (by rw [hf]) (by rw [hf]) (by rw [hf]) (by rw [hf]) (commandRule_channelsStep h)
      (commandRule_boxesHostKept h)

/-- Settles O59: the write view stores these registers under their masks, and no command writes them. -/
theorem stepKeepsReservedBitsZero : Obligations.StepKeepsReservedBitsZero :=
  fun _ _ hs ht => turnInvariant_reservedBits.step_keeps hs ht

end Sys2Proof.Proofs
end

section
/-! The address map (R121 to R131): the address of a cell, which decoding inverts, the listed addresses of every legal
build, the holes, and the accesses that reach no cell (R132, R136). -/

namespace Sys2Proof.Proofs

open Sys2Proof Sys2Proof.Machine

/-! ### The address of a cell -/

/-- What holds of the answers of both branches holds of the answer of a test, whose failure the second may use. -/
theorem forall_mem_ite_not {α : Type} {Q : α → Prop} {p : Prop} [Decidable p] {o o' : Option α} (ho : p → ∀ x ∈ o, Q x)
    (ho' : ¬ p → ∀ x ∈ o', Q x) : ∀ x ∈ (if p then o else o'), Q x := by
  split
  · exact ho ‹p›
  · exact ho' ‹¬ p›

/-- The offset of a word in a channel register block (R125). -/
def chRegOffset : ChReg → Nat
  | .ics => 0x00
  | .groupLen => 0x04
  | .noise => 0x08
  | .nseed => 0x0C
  | .stage => 0x10
  | .prevInfo => 0x14
  | .msMaskLo g => 0x40 + 8 * g
  | .msMaskHi g => 0x44 + 8 * g

/-- The offset of a word in a box register block (R127). -/
def boxRegOffset : BoxReg → Nat
  | .ctrl => 0x000
  | .maskLo => 0x004
  | .maskHi => 0x008
  | .info => 0x00C
  | .prev => 0x010
  | .sym j => 0x100 + 4 * j
  | .coef b => 0x200 + 4 * b
  | .hist b => 0x300 + 4 * b

/-- The bus address of a cell (R122 to R128). -/
def busAddr : BusCell → Nat
  | .id => 0x000
  | .cmd => 0x004
  | .status => 0x008
  | .errCode => 0x00C
  | .irqEn => 0x010
  | .ctrl => 0x014
  | .cmdCount => 0x018
  | .param => 0x01C
  | .param2 => 0x020
  | .nsfb => 0x040
  | .nfStart => 0x044
  | .sfbOffLong b => 0x400 + 4 * b
  | .sfbOffShort b => 0x600 + 4 * b
  | .rotCos i => 0x800 + 4 * i
  | .rotSin i => 0x900 + 4 * i
  | .chan c r => 0x1000 + 0x80 * c + chRegOffset r
  | .mctCtrl => 0x2000
  | .mctState => 0x2004
  | .mctPrev => 0x2008
  | .chMap p => 0x2040 + 4 * p
  | .box i r => 0x8000 + 0x400 * i + boxRegOffset r
  | .mem c M i => cellAddr M c i

theorem decodeGlobal_addr {a : Nat} (ha : a % 4 = 0) : ∀ x ∈ decodeGlobal a, busAddr x = a := by
  unfold decodeGlobal
  iterate 11 refine forall_mem_ite (fun h => forall_mem_some h.symm) ?_
  iterate 4 refine forall_mem_ite (fun h => forall_mem_some (by simp only [busAddr]; omega)) ?_
  exact forall_mem_none

theorem decodeMct_addr {a : Nat} (ha : a % 4 = 0) : ∀ x ∈ decodeMct a, busAddr x = a := by
  unfold decodeMct
  iterate 3 refine forall_mem_ite (fun h => forall_mem_some h.symm) ?_
  exact forall_mem_ite (fun h => forall_mem_some (by simp only [busAddr]; omega)) forall_mem_none

theorem decodeChReg_offset {o : Nat} (ho : o % 4 = 0) : ∀ r ∈ decodeChReg o, chRegOffset r = o := by
  unfold decodeChReg
  iterate 6 refine forall_mem_ite (fun h => forall_mem_some h.symm) ?_
  refine forall_mem_ite (fun h => forall_mem_some ?_) forall_mem_none
  split <;> simp only [chRegOffset] <;> omega

theorem decodeBoxReg_offset {o : Nat} (ho : o % 4 = 0) : ∀ r ∈ decodeBoxReg o, boxRegOffset r = o := by
  unfold decodeBoxReg
  iterate 5 refine forall_mem_ite (fun h => forall_mem_some h.symm) ?_
  iterate 3 refine forall_mem_ite (fun h => forall_mem_some (by simp only [boxRegOffset]; omega)) ?_
  exact forall_mem_none

theorem lineCell_addr {P : Params} {c i a : Nat} {M : ChMem} (h : cellAddr M c i = a) :
    ∀ x ∈ lineCell P c M i, busAddr x = a :=
  forall_mem_ite (fun _ => forall_mem_some h) forall_mem_none

theorem decodeChMem_addr (P : Params) (c : Nat) {o : Nat} (ho : o % 4 = 0) :
    ∀ x ∈ decodeChMem P c o, busAddr x = 0x100000 + 0x8000 * c + o := by
  have cell : ∀ {M i}, M.offset + 4 * i = o → cellAddr M c i = 0x100000 + 0x8000 * c + o := fun h => by
    rw [cellAddr, Nat.add_assoc, h]
  unfold decodeChMem
  iterate 2 refine forall_mem_ite_not (fun _ => lineCell_addr (cell (by simp only [ChMem.offset]; omega))) fun _ => ?_
  iterate 4 refine forall_mem_ite_not (fun _ => forall_mem_some (cell (by simp only [ChMem.offset]; omega))) fun _ => ?_
  refine forall_mem_ite_not (fun _ => lineCell_addr (cell (by simp only [ChMem.offset]; omega))) fun _ => ?_
  iterate 2 refine forall_mem_ite_not (fun _ => forall_mem_some (cell (by simp only [ChMem.offset]; omega))) fun _ => ?_
  exact forall_mem_ite (fun _ => lineCell_addr (cell (by simp only [ChMem.offset]; omega))) forall_mem_none

/-- A mapped address is the address of the cell it names (R129). -/
theorem decodeAddr_addr {P : Params} {a : Nat} {x : BusCell} (h : decodeAddr P a = some x) : busAddr x = a := by
  refine (?_ : ∀ y ∈ decodeAddr P a, busAddr y = a) x h
  unfold decodeAddr
  refine forall_mem_ite_not (fun _ => forall_mem_none) fun ha => ?_
  rw [not_not] at ha
  refine forall_mem_ite_not (fun _ => decodeGlobal_addr ha) fun _ => ?_
  refine forall_mem_ite_not (fun _ => forall_mem_ite (fun _ => Option.forall_mem_map.2 fun r hr => ?_)
    forall_mem_none) fun _ => ?_
  · have := decodeChReg_offset (by omega) r hr
    simp only [busAddr]
    omega
  refine forall_mem_ite_not (fun _ => decodeMct_addr ha) fun _ => ?_
  refine forall_mem_ite_not (fun _ => forall_mem_ite (fun _ => Option.forall_mem_map.2 fun r hr => ?_)
    forall_mem_none) fun _ => ?_
  · have := decodeBoxReg_offset (by omega) r hr
    simp only [busAddr]
    omega
  refine forall_mem_ite (fun _ => forall_mem_ite (fun _ y hy => ?_) forall_mem_none) forall_mem_none
  have := decodeChMem_addr P _ (by omega) y hy
  omega

/-! ### Accesses that reach no cell -/

/-- An access that is not one aligned word of a mapped cell reaches none (R131, R132). -/
theorem accessCell_eq_none {P : Params} {a : Word} {n : Nat}
    (h : n ≠ 4 ∨ a.toNat % 4 ≠ 0 ∨ decodeAddr P a.toNat = none) : accessCell P a n = none := by
  unfold accessCell
  split
  · next hn =>
    rcases h with h | h | h
    · exact absurd hn h
    · rw [decodeAddr, if_pos h]
    · exact h
  · rfl

/-- Settles O12: such an access reaches no cell, and a hole holds the address of no cell that the build has. -/
theorem badAccessesGetBusError : Obligations.BadAccessesGetBusError := by
  refine ⟨fun s ts a n v h => ?_, fun a ha => Option.eq_none_iff_forall_ne_some.2 fun x hx => ?_⟩
  · have hnone := accessCell_eq_none h
    refine ⟨fun ht => ?_, fun ht => ?_⟩
    · rw [step_read ht, busRead, hnone]
      rfl
    · rw [step_write ht, busWrite, hnone]
      rfl
  · have hin := decodeAddr_inRange hx
    have haddr := decodeAddr_addr hx
    cases x with
    | chan c r => cases r <;> simp only [busAddr, chRegOffset, InRange, ChRegInRange] at hin haddr <;> omega
    | box i r => cases r <;> simp only [busAddr, boxRegOffset, InRange, BoxRegInRange] at hin haddr <;> omega
    | mem c M i =>
      cases M <;> simp [busAddr, cellAddr, ChMem.offset, InRange, memSize, ChMem.isWord] at hin haddr <;> omega
    | _ => simp only [busAddr, InRange] at hin haddr; omega

/-! ### The listed addresses -/

section
variable {P : Params}

theorem decodeAddr_global {a : Nat} (h4 : a % 4 = 0) (ha : a < 0x1000) : decodeAddr P a = decodeGlobal a := by
  rw [decodeAddr, if_neg (not_not.2 h4), if_pos ha]

theorem decodeAddr_mct {a : Nat} (h4 : a % 4 = 0) (ha : 0x1800 ≤ a ∧ a < 0x8000) : decodeAddr P a = decodeMct a := by
  rw [decodeAddr, if_neg (not_not.2 h4), if_neg (by omega), if_neg (by omega), if_pos ha.2]

/-- The channel register blocks (R125). -/
theorem decodeAddr_chan {c o : Nat} (hc : c < 16) (ho : o < 0x80) : decodeAddr P (0x1000 + 0x80 * c + o) =
    if o % 4 ≠ 0 then none else if c < P.maxCh then (decodeChReg o).map (.chan c) else none := by
  have hblock : (0x1000 + 0x80 * c + o - 0x1000) / 0x80 = c := by omega
  have hoff : (0x1000 + 0x80 * c + o - 0x1000) % 0x80 = o := by omega
  have h4 : (0x1000 + 0x80 * c + o) % 4 = o % 4 := by omega
  have hlo : ¬ 0x1000 + 0x80 * c + o < 0x1000 := by omega
  have hhi : 0x1000 + 0x80 * c + o < 0x1800 := by omega
  rw [decodeAddr, hblock, hoff, h4, if_neg hlo, if_pos hhi]

/-- The box register blocks (R127). -/
theorem decodeAddr_box {i o : Nat} (hi : i < 16) (ho : o < 0x400) : decodeAddr P (0x8000 + 0x400 * i + o) =
    if o % 4 ≠ 0 then none else if i < P.maxBoxes then (decodeBoxReg o).map (.box i) else none := by
  have hblock : (0x8000 + 0x400 * i + o - 0x8000) / 0x400 = i := by omega
  have hoff : (0x8000 + 0x400 * i + o - 0x8000) % 0x400 = o := by omega
  have h4 : (0x8000 + 0x400 * i + o) % 4 = o % 4 := by omega
  have hlo : ∀ k ≤ 0x8000, ¬ 0x8000 + 0x400 * i + o < k := by omega
  have hhi : 0x8000 + 0x400 * i + o < 0xC000 := by omega
  rw [decodeAddr, hblock, hoff, h4, if_neg (hlo 0x1000 (by decide)), if_neg (hlo 0x1800 (by decide)),
    if_neg (hlo 0x8000 (by decide)), if_pos hhi]

/-- The channel memory blocks (R128). -/
theorem decodeAddr_mem {c o : Nat} (hc : c < 16) (ho : o < 0x8000) : decodeAddr P (0x100000 + 0x8000 * c + o) =
    if o % 4 ≠ 0 then none else if c < P.maxCh then decodeChMem P c o else none := by
  have hblock : (0x100000 + 0x8000 * c + o - 0x100000) / 0x8000 = c := by omega
  have hoff : (0x100000 + 0x8000 * c + o - 0x100000) % 0x8000 = o := by omega
  have h4 : (0x100000 + 0x8000 * c + o) % 4 = o % 4 := by omega
  have hlo : ∀ k ≤ 0x100000, ¬ 0x100000 + 0x8000 * c + o < k := by omega
  have hin : 0x100000 ≤ 0x100000 + 0x8000 * c + o ∧ 0x100000 + 0x8000 * c + o < 0x180000 := by omega
  rw [decodeAddr, hblock, hoff, h4, if_neg (hlo 0x1000 (by decide)), if_neg (hlo 0x1800 (by decide)),
    if_neg (hlo 0x8000 (by decide)), if_neg (hlo 0xC000 (by decide)), if_pos hin]

/-- The index of a word of an array that starts at k. -/
theorem wordIndex (k i : Nat) : (k + 4 * i - k) / 4 = i := by omega

theorem decodeGlobal_tables {b : Nat} (hb : b < 65) : decodeGlobal (0x400 + 4 * b) = some (.sfbOffLong b) ∧
    decodeGlobal (0x600 + 4 * b) = some (.sfbOffShort b) := by
  constructor <;> simp (disch := omega) only [decodeGlobal, if_neg, if_pos, wordIndex]

theorem decodeGlobal_rom {i : Nat} (hi : i < 64) : decodeGlobal (0x800 + 4 * i) = some (.rotCos i) ∧
    decodeGlobal (0x900 + 4 * i) = some (.rotSin i) := by
  constructor <;> simp (disch := omega) only [decodeGlobal, if_neg, if_pos, wordIndex]

theorem decodeMct_chMap {p : Nat} (hp : p < 16) : decodeMct (0x2040 + 4 * p) = some (.chMap p) := by
  simp (disch := omega) only [decodeMct, if_neg, if_pos, wordIndex]

theorem decodeChReg_msMask {g : Nat} (hg : g < 8) : decodeChReg (0x40 + 8 * g) = some (.msMaskLo g) ∧
    decodeChReg (0x44 + 8 * g) = some (.msMaskHi g) := by
  have hlo : (0x40 + 8 * g - 0x40) / 8 = g := by omega
  have hhi : (0x44 + 8 * g - 0x40) / 8 = g := by omega
  constructor <;> simp (disch := omega) only [decodeChReg, if_neg, if_pos, hlo, hhi]

theorem decodeBoxReg_arrays {j : Nat} (hj : j < 64) : decodeBoxReg (0x100 + 4 * j) = some (.sym j) ∧
    decodeBoxReg (0x200 + 4 * j) = some (.coef j) ∧ decodeBoxReg (0x300 + 4 * j) = some (.hist j) := by
  refine ⟨?_, ?_, ?_⟩ <;> simp (disch := omega) only [decodeBoxReg, if_neg, if_pos, wordIndex]

/-- A cell of a channel's memory at its offset: a line is mapped below N_LONG only (R78, R128). -/
theorem decodeChMem_cell (P : Params) (c : Nat) {M : ChMem} {i : Nat} (hi : i < memSize M) :
    decodeChMem P c (M.offset + 4 * i) = if M.isWord then lineCell P c M i else some (.mem c M i) := by
  have hmant : (0x0000 + 4 * i) / 4 = i := by omega
  cases M <;> simp only [memSize, ChMem.isWord, if_true, Bool.false_eq_true, if_false] at hi ⊢ <;>
    simp (disch := omega) only [ChMem.offset, decodeChMem, if_neg, if_pos, wordIndex, hmant]

section
variable (hP : P.Legal)
include hP

/-- A listed word of an existing channel register block. -/
theorem decodeAddr_chanReg {c o : Nat} {r : ChReg} (hc : c < P.maxCh) (ho : o < 0x80 ∧ o % 4 = 0)
    (hr : decodeChReg o = some r) : decodeAddr P (0x1000 + 0x80 * c + o) = some (.chan c r) := by
  rw [decodeAddr_chan (hc.trans_le hP.maxCh.2) ho.1, if_neg (not_not.2 ho.2), if_pos hc, hr, Option.map_some]

/-- A listed word of an existing box register block. -/
theorem decodeAddr_boxReg {i o : Nat} {r : BoxReg} (hi : i < P.maxBoxes) (ho : o < 0x400 ∧ o % 4 = 0)
    (hr : decodeBoxReg o = some r) : decodeAddr P (0x8000 + 0x400 * i + o) = some (.box i r) := by
  rw [decodeAddr_box (hi.trans_le hP.maxBoxes.2) ho.1, if_neg (not_not.2 ho.2), if_pos hi, hr, Option.map_some]

/-- A cell of an existing channel's memory block. -/
theorem decodeAddr_memCell {c i : Nat} {M : ChMem} (hc : c < P.maxCh) (hi : i < memSize M) :
    decodeAddr P (0x100000 + 0x8000 * c + (M.offset + 4 * i)) =
      if M.isWord then lineCell P c M i else some (.mem c M i) := by
  have hend : M.offset + 4 * memSize M ≤ 0x8000 := (memories_apart M M).1
  have haligned : M.offset % 4 = 0 := by cases M <;> rfl
  have hword : (M.offset + 4 * i) % 4 = 0 := by omega
  rw [decodeAddr_mem (hc.trans_le hP.maxCh.2) (by omega), if_neg (not_not.2 hword), if_pos hc, decodeChMem_cell P c hi]

/-- A listed offset of a word memory names its line, below N_LONG (R78). -/
theorem decodeAddr_line {c k o : Nat} {M : ChMem} (hc : c < P.maxCh) (hk : k < 1024) (hM : M.isWord = true)
    (ho : o = M.offset) :
    decodeAddr P (0x100000 + 0x8000 * c + (o + 4 * k)) = if k < P.nLong then some (.mem c M k) else none := by
  have hsize : memSize M = 1024 := if_pos hM
  rw [ho, decodeAddr_memCell hP hc (hsize ▸ hk), if_pos hM, lineCell]

/-- A listed offset of a byte memory names its cell. -/
theorem decodeAddr_byteCell {c j o : Nat} {M : ChMem} (hc : c < P.maxCh) (hj : j < 512) (hM : M.isWord = false)
    (ho : o = M.offset) : decodeAddr P (0x100000 + 0x8000 * c + (o + 4 * j)) = some (.mem c M j) := by
  have hword : ¬ M.isWord = true := Bool.eq_false_iff.1 hM
  have hsize : memSize M = 512 := if_neg hword
  rw [ho, decodeAddr_memCell hP hc (hsize ▸ hj), if_neg hword]

end

/-- Settles O11: decoding inverts the address of a cell, and block by block it answers what the build has. -/
theorem addressesNameDifferentCells : Obligations.AddressesNameDifferentCells := by
  intro P hP
  refine ⟨fun a b x ha hb => (decodeAddr_addr ha).symm.trans (decodeAddr_addr hb), ?_, fun b hb => ?_, fun i hi => ?_,
    fun p hp => ?_, fun c hc => ?_, fun i hi => ?_, fun c hc => ⟨fun k hk x hx => ?_, fun j hj x hx => ?_⟩,
    fun c hmax hc => ⟨fun o ho => ?_, fun o ho => ?_⟩, fun i hmax hi o ho => ?_⟩
  · exact ⟨rfl, rfl, rfl, rfl, rfl, rfl, rfl, rfl, rfl, rfl, rfl, rfl, rfl, rfl⟩
  · rw [decodeAddr_global (by omega) (by omega), decodeAddr_global (by omega) (by omega)]
    exact decodeGlobal_tables hb
  · rw [decodeAddr_global (by omega) (by omega), decodeAddr_global (by omega) (by omega)]
    exact decodeGlobal_rom hi
  · rw [decodeAddr_mct (by omega) (by omega), decodeMct_chMap hp]
  · have word : ∀ {o r}, o < 0x80 ∧ o % 4 = 0 → decodeChReg o = some r → _ := decodeAddr_chanReg hP hc
    refine ⟨word (by decide) rfl, word (by decide) rfl, word (by decide) rfl, word (by decide) rfl,
      word (by decide) rfl, word (by decide) rfl, fun g hg => ?_⟩
    obtain ⟨hlo, hhi⟩ := decodeChReg_msMask hg
    exact ⟨word (by omega) hlo, word (by omega) hhi⟩
  · have word : ∀ {o r}, o < 0x400 ∧ o % 4 = 0 → decodeBoxReg o = some r → _ := decodeAddr_boxReg hP hi
    refine ⟨word (by decide) rfl, word (by decide) rfl, word (by decide) rfl, word (by decide) rfl,
      word (by decide) rfl, fun j hj => ?_⟩
    obtain ⟨hsym, hcoef, hhist⟩ := decodeBoxReg_arrays hj
    exact ⟨word (by omega) hsym, word (by omega) hcoef, word (by omega) hhist⟩
  · simp only [List.mem_cons, List.not_mem_nil, or_false] at hx
    rcases hx with rfl | rfl | rfl | rfl <;> exact decodeAddr_line hP hc hk rfl rfl
  · simp only [List.mem_cons, List.not_mem_nil, or_false] at hx
    rcases hx with rfl | rfl | rfl | rfl | rfl | rfl <;> exact decodeAddr_byteCell hP hc hj rfl rfl
  · rw [decodeAddr_chan hc ho, if_neg (Nat.not_lt.2 hmax), ite_self]
  · rw [decodeAddr_mem hc ho, if_neg (Nat.not_lt.2 hmax), ite_self]
  · rw [decodeAddr_box hi ho, if_neg (Nat.not_lt.2 hmax), ite_self]

end

end Sys2Proof.Proofs
end

section
/-! The rules of 30_encoding.md: the decoder as a table of rows (R165, R167), its inverse (R168), the words it refuses
and what the block does with one (R166), and the example words (R178). -/

namespace Sys2Proof.Proofs

open Sys2Proof Sys2Proof.Machine

/-! ### Fields side by side -/

section
variable {m n : Nat} {x x' : BitVec m} {y y' : BitVec n}

theorem append_inj_iff : x ++ y = x' ++ y' ↔ x = x' ∧ y = y' := by
  refine ⟨fun h => ⟨?_, ?_⟩, fun ⟨hx, hy⟩ => hx ▸ hy ▸ rfl⟩
  · exact field_top.symm.trans ((congrArg (BitVec.extractLsb' n m) h).trans field_top)
  · exact field_low.symm.trans ((congrArg (BitVec.extractLsb' 0 n) h).trans field_low)

theorem append_eq_zero_iff : x ++ y = 0#(m + n) ↔ x = 0#m ∧ y = 0#n := by
  rw [← BitVec.zero_append_zero, append_inj_iff]

/-- A mask that leaves a field out, or takes all of it. -/
theorem and_mask_field_iff {out : Bool} :
    x &&& (if out then 0#m else BitVec.allOnes m) = 0#m ↔ (out = false → x = 0#m) := by
  cases out <;> simp

end

/-! ### The fields of a command word (R161) -/

section
variable (v : Word)

/-- A field is its upper and its lower part. -/
theorem field_split (lo len len' : Nat) :
    v.extractLsb' lo (len' + len) = v.extractLsb' (lo + len) len' ++ v.extractLsb' lo len :=
  (BitVec.extractLsb'_append_extractLsb'_eq_extractLsb' rfl).symm

theorem field_eq_zero_iff (lo len len' : Nat) :
    v.extractLsb' lo (len' + len) = 0#(len' + len) ↔
      v.extractLsb' (lo + len) len' = 0#len' ∧ v.extractLsb' lo len = 0#len := by
  rw [field_split, append_eq_zero_iff]

/-- A word is F[7:1], F[0], B, A and OP. -/
theorem word_eq_fields : v = v.extractLsb' 25 7 ++ v.extractLsb' 24 1 ++ v.extractLsb' 16 8 ++ v.extractLsb' 8 8 ++
    v.extractLsb' 0 8 := by
  have hf : v.extractLsb' 24 8 = v.extractLsb' 25 7 ++ v.extractLsb' 24 1 := field_split v 24 1 7
  have hb : v.extractLsb' 16 16 = v.extractLsb' 24 8 ++ v.extractLsb' 16 8 := field_split v 16 8 8
  have ha : v.extractLsb' 8 24 = v.extractLsb' 16 16 ++ v.extractLsb' 8 8 := field_split v 8 8 16
  have hop : v.extractLsb' 0 32 = v.extractLsb' 8 24 ++ v.extractLsb' 0 8 := field_split v 0 8 24
  rw [← hf, ← hb, ← ha, ← hop, BitVec.extractLsb'_eq_self]

/-- Bits [31:16] are F[7:1], F[0] and B. -/
theorem bits_31_16_eq_zero_iff : v.extractLsb' 16 16 = 0#16 ↔
    v.extractLsb' 25 7 = 0#7 ∧ v.extractLsb' 24 1 = 0#1 ∧ v.extractLsb' 16 8 = 0#8 := by
  have hf : v.extractLsb' 24 8 = 0#8 ↔ _ := field_eq_zero_iff v 24 1 7
  have hb : v.extractLsb' 16 16 = 0#16 ↔ _ := field_eq_zero_iff v 16 8 8
  rw [hb, hf, and_assoc]

theorem bits_31_8_eq_zero_iff : v.extractLsb' 8 24 = 0#24 ↔ v.extractLsb' 16 16 = 0#16 ∧ v.extractLsb' 8 8 = 0#8 :=
  field_eq_zero_iff v 8 8 16

theorem bits_23_8_eq_zero_iff : v.extractLsb' 8 16 = 0#16 ↔ v.extractLsb' 16 8 = 0#8 ∧ v.extractLsb' 8 8 = 0#8 :=
  field_eq_zero_iff v 8 8 8

theorem ofNat_cmdA : BitVec.ofNat 8 (cmdA v) = v.extractLsb' 8 8 := BitVec.ofNat_toNat ..

theorem ofNat_cmdB : BitVec.ofNat 8 (cmdB v) = v.extractLsb' 16 8 := BitVec.ofNat_toNat ..

theorem ofBool_cmdF : BitVec.ofBool (cmdF v) = v.extractLsb' 24 1 := by
  refine BitVec.eq_of_getLsbD_eq fun i hi => ?_
  obtain rfl : i = 0 := by omega
  simp [cmdF]

end

section
variable (op : Byte) (a b : Nat) (f : Bool)

theorem packWord_op : (packWord op a b f).extractLsb' 0 8 = op := field_low

theorem packWord_a : (packWord op a b f).extractLsb' 8 8 = BitVec.ofNat 8 a := field_above field_low

theorem packWord_b : (packWord op a b f).extractLsb' 16 8 = BitVec.ofNat 8 b := field_above (field_above field_low)

theorem packWord_f : (packWord op a b f).extractLsb' 24 1 = BitVec.ofBool f :=
  field_above (field_above (field_above field_low))

@[simp] theorem cmdOp_packWord : cmdOp (packWord op a b f) = op.toNat := congrArg BitVec.toNat (packWord_op op a b f)

@[simp] theorem cmdA_packWord : cmdA (packWord op a b f) = a % 256 :=
  (congrArg BitVec.toNat (packWord_a op a b f)).trans (BitVec.toNat_ofNat a 8)

@[simp] theorem cmdB_packWord : cmdB (packWord op a b f) = b % 256 :=
  (congrArg BitVec.toNat (packWord_b op a b f)).trans (BitVec.toNat_ofNat b 8)

@[simp] theorem cmdF_packWord : cmdF (packWord op a b f) = f := bit_of_field (packWord_f op a b f)

end

/-! ### The rows of the opcode table (R165, R167) -/

/-- A row of the opcode table: the opcode, whether A, B and F[0] are operands, and the command they make. -/
structure Row where
  op : Byte
  hasA : Bool
  hasB : Bool
  hasF : Bool
  cmd : Nat → Nat → Bool → Instr

/-- The opcode table (R165), the rows with the same operands together. -/
def rows : List Row :=
  [⟨0x00, false, false, false, fun _ _ _ => .nop⟩,
   ⟨0x10, false, false, false, fun _ _ _ => .mctParse⟩,
   ⟨0x11, false, false, false, fun _ _ _ => .mctApply⟩,
   ⟨0x13, false, false, false, fun _ _ _ => .mctReset⟩,
   ⟨0x20, false, false, false, fun _ _ _ => .clearErr⟩,
   ⟨0x01, true, false, false, fun a _ _ => .chBegin a⟩,
   ⟨0x02, true, false, false, fun a _ _ => .iqScale a⟩,
   ⟨0x03, true, false, false, fun a _ _ => .iqDequant a⟩,
   ⟨0x04, true, false, false, fun a _ _ => .noiseFill a⟩,
   ⟨0x05, true, true, true, fun a b f => .msApply a b f⟩,
   ⟨0x12, false, false, true, fun _ _ f => .mctClose f⟩]

section
variable (r : Row)

/-- The mask of a row (R167): OP and every field that is no operand. -/
def Row.mask : Word :=
  BitVec.allOnes 7 ++ (if r.hasF then 0#1 else BitVec.allOnes 1) ++ (if r.hasB then 0#8 else BitVec.allOnes 8) ++
    (if r.hasA then 0#8 else BitVec.allOnes 8) ++ BitVec.allOnes 8

/-- The command that a word of this row stands for. -/
def Row.cmdOf (v : Word) : Instr := r.cmd (cmdA v) (cmdB v) (cmdF v)

/-- The word of this row with the given operands. -/
def Row.word (a b : Nat) (f : Bool) : Word :=
  packWord r.op (if r.hasA then a else 0) (if r.hasB then b else 0) (r.hasF && f)

/-- Every field that is no operand of the row is 0. -/
def Row.ReservedZero (v : Word) : Prop :=
  v.extractLsb' 25 7 = 0#7 ∧ (r.hasF = false → v.extractLsb' 24 1 = 0#1) ∧
    (r.hasB = false → v.extractLsb' 16 8 = 0#8) ∧ (r.hasA = false → v.extractLsb' 8 8 = 0#8)

/-- The mask test of R167: the reserved fields are 0. -/
theorem Row.mask_test_iff {v : Word} (hop : v.extractLsb' 0 8 = r.op) :
    v &&& r.mask = packWord r.op 0 0 false ↔ r.ReservedZero v := by
  conv_lhs => rw [word_eq_fields v, hop, Row.mask, packWord]
  have hflag : BitVec.ofBool false = 0#1 := rfl
  rw [BitVec.and_append, BitVec.and_append, BitVec.and_append, BitVec.and_append, append_inj_iff, append_inj_iff,
    append_inj_iff, append_inj_iff, BitVec.and_allOnes, BitVec.and_allOnes, hflag, and_mask_field_iff,
    and_mask_field_iff, and_mask_field_iff]
  simp only [and_true, and_assoc, Row.ReservedZero]

/-- A word whose reserved fields are 0 is the row's word with its operands. -/
theorem Row.word_eq_of_reservedZero {v : Word} (hop : v.extractLsb' 0 8 = r.op) (hz : r.ReservedZero v) :
    r.word (cmdA v) (cmdB v) (cmdF v) = v := by
  obtain ⟨htop, hf, hb, ha⟩ := hz
  have ha' : BitVec.ofNat 8 (if r.hasA then cmdA v else 0) = v.extractLsb' 8 8 := by
    cases h : r.hasA <;> simp [ha, h, ofNat_cmdA]
  have hb' : BitVec.ofNat 8 (if r.hasB then cmdB v else 0) = v.extractLsb' 16 8 := by
    cases h : r.hasB <;> simp [hb, h, ofNat_cmdB]
  have hf' : BitVec.ofBool (r.hasF && cmdF v) = v.extractLsb' 24 1 := by
    cases h : r.hasF <;> simp [hf, h, ofBool_cmdF]
  conv_rhs => rw [word_eq_fields v, htop, hop, ← hf', ← hb', ← ha']
  rfl

theorem Row.reservedZero_word (a b : Nat) (f : Bool) : r.ReservedZero (r.word a b f) := by
  refine ⟨Laws.packWord_top _ _ _ _, fun h => ?_, fun h => ?_, fun h => ?_⟩
  · simp [Row.word, packWord_f, h]
  · simp [Row.word, packWord_b, h]
  · simp [Row.word, packWord_a, h]

theorem Row.cmdOp_word (a b : Nat) (f : Bool) : cmdOp (r.word a b f) = r.op.toNat := cmdOp_packWord ..

end

/-! ### The decoder and the encoder by rows -/

/-- The encoder packs the operands of the command's row (R165, R175). -/
theorem encode_cmd {r : Row} (hr : r ∈ rows) (a b : Nat) (f : Bool) : encode (r.cmd a b f) = r.word a b f := by
  fin_cases hr <;> rfl

/-- The decoder tests a word against the row of its opcode byte (R167). -/
theorem decode_row {r : Row} (hr : r ∈ rows) {v : Word} (hop : cmdOp v = r.op.toNat) :
    decode v = checkRow v r.mask (packWord r.op 0 0 false) (r.cmdOf v) := by
  unfold decode
  rw [hop]
  fin_cases hr <;> rfl

theorem decode_of_reservedZero {r : Row} (hr : r ∈ rows) {v : Word} (hop : cmdOp v = r.op.toNat)
    (hz : r.ReservedZero v) : decode v = .ok (r.cmdOf v) := by
  rw [decode_row hr hop, checkRow, if_pos ((r.mask_test_iff (BitVec.eq_of_toNat_eq hop)).2 hz)]

theorem decode_of_not_reservedZero {r : Row} (hr : r ∈ rows) {v : Word} (hop : cmdOp v = r.op.toNat)
    (hz : ¬ r.ReservedZero v) : decode v = .error .reservedField := by
  rw [decode_row hr hop, checkRow, if_neg (mt (r.mask_test_iff (BitVec.eq_of_toNat_eq hop)).1 hz)]

theorem decode_of_unlisted {v : Word} (h : ∀ r ∈ rows, cmdOp v ≠ r.op.toNat) :
    decode v = .error .illegalOpcode := by
  simp only [rows, List.forall_mem_cons] at h
  unfold decode
  split
  case h_12 => rfl
  all_goals simp_all

/-- Everything decode can answer: the command of the opcode's row, or one of the two refusals. -/
theorem decode_cases (v : Word) :
    (∃ r ∈ rows, cmdOp v = r.op.toNat ∧ r.ReservedZero v ∧ decode v = .ok (r.cmdOf v)) ∨
    (∃ r ∈ rows, cmdOp v = r.op.toNat ∧ ¬ r.ReservedZero v ∧ decode v = .error .reservedField) ∨
    ((∀ r ∈ rows, cmdOp v ≠ r.op.toNat) ∧ decode v = .error .illegalOpcode) := by
  by_cases h : ∃ r ∈ rows, cmdOp v = r.op.toNat
  · obtain ⟨r, hr, hop⟩ := h
    by_cases hz : r.ReservedZero v
    · exact .inl ⟨r, hr, hop, hz, decode_of_reservedZero hr hop hz⟩
    · exact .inr (.inl ⟨r, hr, hop, hz, decode_of_not_reservedZero hr hop hz⟩)
  · push Not at h
    exact .inr (.inr ⟨h, decode_of_unlisted h⟩)

theorem decode_eq_ok {v : Word} {i : Instr} (h : decode v = .ok i) :
    ∃ r ∈ rows, cmdOp v = r.op.toNat ∧ r.ReservedZero v ∧ i = r.cmdOf v := by
  rcases decode_cases v with ⟨r, hr, hop, hz, hd⟩ | ⟨_, _, _, _, hd⟩ | ⟨_, hd⟩
  · exact ⟨r, hr, hop, hz, Except.ok.inj (h.symm.trans hd)⟩
  · cases h.symm.trans hd
  · cases h.symm.trans hd

theorem decode_eq_reservedField_iff {v : Word} :
    decode v = .error .reservedField ↔ ∃ r ∈ rows, cmdOp v = r.op.toNat ∧ ¬ r.ReservedZero v := by
  refine ⟨fun h => ?_, fun ⟨r, hr, hop, hz⟩ => decode_of_not_reservedZero hr hop hz⟩
  rcases decode_cases v with ⟨_, _, _, _, hd⟩ | ⟨r, hr, hop, hz, _⟩ | ⟨_, hd⟩
  · cases h.symm.trans hd
  · exact ⟨r, hr, hop, hz⟩
  · cases h.symm.trans hd

theorem decode_eq_illegalOpcode_iff {v : Word} :
    decode v = .error .illegalOpcode ↔ ∀ r ∈ rows, cmdOp v ≠ r.op.toNat := by
  refine ⟨fun h => ?_, decode_of_unlisted⟩
  rcases decode_cases v with ⟨_, _, _, _, hd⟩ | ⟨_, _, _, _, hd⟩ | ⟨hne, _⟩
  · cases h.symm.trans hd
  · cases h.symm.trans hd
  · exact hne

/-! ### The inverse (R168) -/

/-- A slot read from a word fits its field (R163). -/
theorem cmdOf_wf {r : Row} (hr : r ∈ rows) (v : Word) : (r.cmdOf v).wf = true := by
  have ha : cmdA v < 256 := (v.extractLsb' 8 8).isLt
  have hb : cmdB v < 256 := (v.extractLsb' 16 8).isLt
  fin_cases hr <;> simp [Row.cmdOf, Instr.wf, ha, hb]

/-- A row reads back the operands of its own word. -/
theorem cmdOf_word {r : Row} (hr : r ∈ rows) {a b : Nat} (ha : a < 256) (hb : b < 256) (f : Bool) :
    r.cmdOf (r.word a b f) = r.cmd a b f := by
  fin_cases hr <;> simp [Row.cmdOf, Row.word, Nat.mod_eq_of_lt, ha, hb]

/-- Every well-formed command is a row's, with slots that fit their fields. -/
theorem exists_row_of_wf {i : Instr} (hi : i.wf = true) :
    ∃ (k : Fin 11) (a b : Fin 256) (f : Bool), i = (rows.get k).cmd a b f := by
  cases i with
  | nop => exact ⟨0, 0, 0, false, rfl⟩
  | mctParse => exact ⟨1, 0, 0, false, rfl⟩
  | mctApply => exact ⟨2, 0, 0, false, rfl⟩
  | mctReset => exact ⟨3, 0, 0, false, rfl⟩
  | clearErr => exact ⟨4, 0, 0, false, rfl⟩
  | chBegin c => exact ⟨5, ⟨c, of_decide_eq_true hi⟩, 0, false, rfl⟩
  | iqScale c => exact ⟨6, ⟨c, of_decide_eq_true hi⟩, 0, false, rfl⟩
  | iqDequant c => exact ⟨7, ⟨c, of_decide_eq_true hi⟩, 0, false, rfl⟩
  | noiseFill c => exact ⟨8, ⟨c, of_decide_eq_true hi⟩, 0, false, rfl⟩
  | msApply c1 c2 cw =>
    obtain ⟨h1, h2⟩ := Bool.and_eq_true_iff.1 hi
    exact ⟨9, ⟨c1, of_decide_eq_true h1⟩, ⟨c2, of_decide_eq_true h2⟩, cw, rfl⟩
  | mctClose ok => exact ⟨10, 0, 0, ok, rfl⟩

/-- Settles O1: a command is read back from its row's word, and a word that passes its row's test is that word. -/
theorem decodeAndEncodeAgree : Obligations.DecodeAndEncodeAgree := by
  refine ⟨fun i hi => ?_, fun v i hd => ?_⟩
  · obtain ⟨k, a, b, f, rfl⟩ := exists_row_of_wf hi
    have hr := rows.get_mem k
    rw [encode_cmd hr, decode_of_reservedZero hr (Row.cmdOp_word _ a b f) (Row.reservedZero_word _ a b f),
      cmdOf_word hr a.isLt b.isLt]
  · obtain ⟨r, hr, hop, hz, rfl⟩ := decode_eq_ok hd
    exact ⟨(encode_cmd hr ..).trans (r.word_eq_of_reservedZero (BitVec.eq_of_toNat_eq hop) hz), cmdOf_wf hr v⟩

/-! ### The refused words (R166) -/

/-- The opcodes of the table are the eleven of R165. -/
theorem opcodes_perm : (rows.map fun r => r.op.toNat).Perm
    [0x00, 0x01, 0x02, 0x03, 0x04, 0x05, 0x10, 0x11, 0x12, 0x13, 0x20] := by
  decide

section
variable {op : Byte} {cmd : Nat → Nat → Bool → Instr} {v : Word}

theorem reservedZero_noOperand : (Row.mk op false false false cmd).ReservedZero v ↔ v.extractLsb' 8 24 = 0 := by
  simp [Row.ReservedZero, bits_31_8_eq_zero_iff, bits_31_16_eq_zero_iff, and_assoc]

theorem reservedZero_slot : (Row.mk op true false false cmd).ReservedZero v ↔ v.extractLsb' 16 16 = 0 := by
  simp [Row.ReservedZero, bits_31_16_eq_zero_iff]

theorem reservedZero_slotsAndFlag : (Row.mk op true true true cmd).ReservedZero v ↔ v.extractLsb' 25 7 = 0 := by
  simp [Row.ReservedZero]

theorem reservedZero_flag : (Row.mk op false false true cmd).ReservedZero v ↔
    v.extractLsb' 8 16 = 0 ∧ v.extractLsb' 25 7 = 0 := by
  simp [Row.ReservedZero, bits_23_8_eq_zero_iff, and_comm]

end

/-- Settles O2: the opcode of no row, and the opcode of a row whose reserved fields are not 0. -/
theorem refusedWords : Obligations.RefusedWords := by
  refine fun v => ⟨?_, ?_⟩
  · rw [decode_eq_illegalOpcode_iff, ← opcodes_perm.mem_iff]
    simp [eq_comm]
  · rw [decode_eq_reservedField_iff]
    simp [rows, exists_or, reservedZero_noOperand, reservedZero_slot, reservedZero_slotsAndFlag, reservedZero_flag,
      or_and_right, or_assoc, imp_iff_not_or]

/-- With ERR = 0 nothing is dropped, and the block raises a refused word's error (R166, R402). -/
theorem blockTurn_refused (run : Runner) {s : State} {v : Word} {e : IllegalWord} (hp : s.pending = some v)
    (he : s.err = false) (hd : decode v = .error e) : blockTurn run s = .next (s.raise (illegalErr e)) := by
  simp only [blockTurn, hp, runWord, he, hd, Bool.false_and, Bool.false_eq_true, if_false]

/-- The first error after ERR = 0 records its code (R402). -/
theorem raise_of_not_err {s : State} (he : s.err = false) (e : Err) :
    s.raise e = { s with pending := none, done := true, err := true, errCode := e.word } := by
  rw [State.raise, State.record_of_not_err he]
  rfl

/-- CODE 4, the cause, and INDEX and BAND 0xFF (R401, R402). -/
theorem illegalErr_word :
    (illegalErr .illegalOpcode).word = 0xFFFF0104 ∧ (illegalErr .reservedField).word = 0xFFFF0204 := by
  decide

/-- Settles O3: with no turn listed the block moves, and it raises the word's cause. -/
theorem refusedWordRaisesIllegal : Obligations.RefusedWordRaisesIllegal := by
  intro s v ht hp he
  have raised {e : IllegalWord} (hd : decode v = .error e) :
      step s = .next { s with pending := none, done := true, err := true, errCode := (illegalErr e).word } := by
    rw [step, nextTurn_nil params exec ht, blockTurn_refused exec hp he hd, raise_of_not_err he]
  obtain ⟨hopcode, hreserved⟩ := illegalErr_word
  exact ⟨fun hd => hopcode ▸ raised hd, fun hd => hreserved ▸ raised hd⟩

/-! ### The example words (R178) -/

/-- Settles O4: each word is evaluated. -/
theorem wordsDecodeAsWritten : Obligations.WordsDecodeAsWritten := by
  unfold Obligations.WordsDecodeAsWritten
  decide

end Sys2Proof.Proofs
end

section
/-! The rules of 40_bfp_numerics.md: alignment and renormalisation (R205, R212), the default kernels (R220 to R222,
R227), and the stereo-filling gain (R230, R231). -/

namespace Sys2Proof.Proofs

open Sys2Proof Sys2Proof.Machine

/-! ### Alignment and renormalisation -/

/-- A right shift is a floor division (R205). -/
theorem shiftRight_eq_ediv (x : Int) (n : Nat) : x >>> n = x / 2 ^ n := by
  rw [Int.shiftRight_eq_div_pow]
  norm_cast

theorem align_eq_ediv (P : Params) (m e E : Int) : align P m e E = m / 2 ^ min (E - e).toNat P.shiftCap :=
  shiftRight_eq_ediv ..

/-- Settles O47: a floor division by the smaller of the difference and SHIFT_CAP. -/
theorem alignmentIsAFloorShiftCappedAt31 : Obligations.AlignmentIsAFloorShiftCappedAt31 := by
  intro m e E _
  have hcap : params.shiftCap = 31 := rfl
  have capped (h : 31 ≤ E - e) : align params m e E = m / 2 ^ 31 := by
    rw [align_eq_ediv, hcap, Nat.min_eq_right (by omega)]
  refine ⟨fun h => ?_, capped, fun h _ _ => ?_, fun h _ _ => ?_⟩
  · rw [align_eq_ediv, hcap, Nat.min_eq_left (by omega)]
  · rw [capped h]
    omega
  · rw [capped h]
    omega

theorem shr_of_nonneg (x : Int) {d : Int} (h : 0 ≤ d) : shr x d = x / 2 ^ d.toNat := by
  rw [shr, if_pos h, shiftRight_eq_ediv]

theorem shr_of_neg (x : Int) {d : Int} (h : d < 0) : shr x d = x * 2 ^ (-d).toNat := by
  rw [shr, if_neg (Int.not_le.2 h)]
  norm_cast

section
variable {xs : List Int} {e0 eold : Int}

/-- A band that is all 0 keeps its old exponent (R212). -/
theorem renorm_of_allZero (h : allZero xs = true) : renorm xs e0 eold = (⟨xs, eold⟩, false) := by
  rw [renorm, if_pos h]

/-- Above exponent 127 a renormalisation saturates at 127 (R212). -/
theorem renorm_of_high (h : allZero xs = false) (he : 127 < e0 + (leastShift xs : Int)) :
    renorm xs e0 eold = (⟨xs.map (fun x => sat32 (shr x (127 - e0))), 127⟩, true) := by
  simp only [renorm, h, Bool.false_eq_true, if_false, if_pos he, gt_iff_lt]

/-- Below exponent -128 it shifts further, to -128 (R212). -/
theorem renorm_of_low (h : allZero xs = false) (he : e0 + (leastShift xs : Int) < -128) :
    renorm xs e0 eold = (⟨xs.map (fun x => x / 2 ^ (-128 - e0).toNat), -128⟩, false) := by
  have hhigh : ¬ 127 < e0 + (leastShift xs : Int) := by omega
  have hd : 0 ≤ -128 - e0 := by omega
  simp only [renorm, h, Bool.false_eq_true, if_false, if_neg hhigh, if_pos he, gt_iff_lt, shr_of_nonneg _ hd]

/-- In range it is the least shift that fits (R212). -/
theorem renorm_of_mid (h : allZero xs = false) (hlo : -128 ≤ e0 + (leastShift xs : Int))
    (hhi : e0 + (leastShift xs : Int) ≤ 127) : renorm xs e0 eold =
      (⟨xs.map (fun x => x / 2 ^ leastShift xs), e0 + (leastShift xs : Int)⟩, false) := by
  simp only [renorm, h, Bool.false_eq_true, if_false, if_neg (Int.not_lt.2 hhi), if_neg (Int.not_lt.2 hlo), gt_iff_lt,
    shiftRight_eq_ediv]

end

/-- sat32 with its bounds as powers of two (R13). -/
theorem sat32_eq (x : Int) : sat32 x = min (max x (-2 ^ 31)) (2 ^ 31 - 1) := rfl

/-- Settles O48: the shift is leastShift, and each range of its exponent is one case of renorm. -/
theorem renormalisationUsesTheLeastShift : Obligations.RenormalisationUsesTheLeastShift := by
  intro xs e0 eold
  refine ⟨fun h => renorm_of_allZero ((allZero_eq_true_iff xs).2 h), fun hne => ?_⟩
  have h : allZero xs = false := by
    rw [← Bool.not_eq_true, allZero_eq_true_iff]
    push Not
    exact hne
  have fits_iff (n : Nat) : leastShift xs ≤ n ↔ ∀ x ∈ xs, -2 ^ 31 ≤ x / 2 ^ n ∧ x / 2 ^ n ≤ 2 ^ 31 - 1 := by
    simp only [leastShift_le_iff, Int.le_sub_one_iff]
  refine ⟨leastShift xs, (fits_iff _).1 (Nat.le_refl _), fun m hm => ?_, fun hhigh he0 => ?_, fun he0 => ?_,
    renorm_of_low h, renorm_of_mid h⟩
  · simpa only [not_forall, exists_prop] using mt (fits_iff m).2 (Nat.not_le.2 hm)
  · have hd : 0 ≤ 127 - e0 := by omega
    simp only [renorm_of_high h hhigh, shr_of_nonneg _ hd, sat32_eq]
  · have hd : 127 - e0 < 0 := by omega
    simp only [renorm_of_high h (show 127 < e0 + (leastShift xs : Int) by omega), shr_of_neg _ hd, sat32_eq, neg_sub]

/-! ### The integer twelfth root -/

/-- root12 is the floored twelfth root (R13). -/
theorem root12_spec (n : Nat) : root12 n ^ 12 ≤ n ∧ n < (root12 n + 1) ^ 12 := by
  have antitone : ∀ a b : Nat, a ≤ b → decide (b ^ 12 ≤ n) = true → decide (a ^ 12 ≤ n) = true := fun a b hab h =>
    decide_eq_true ((Nat.pow_le_pow_left hab 12).trans (of_decide_eq_true h))
  obtain ⟨hle, -, hmax⟩ := greatestBits_spec antitone (n.log2 / 12 + 1) 0 (decide_eq_true (Nat.zero_le n))
  refine ⟨of_decide_eq_true hle, Nat.lt_of_not_le fun h => ?_⟩
  have out_of_reach : 2 ^ (n.log2 / 12 + 1) ≤ root12 n + 1 := by
    by_contra hlt
    have : root12 n + 1 ≤ root12 n := hmax _ (by omega) (decide_eq_true h)
    omega
  refine Nat.lt_irrefl n ?_
  calc n < 2 ^ (n.log2 + 1) := Nat.lt_log2_self
    _ ≤ 2 ^ ((n.log2 / 12 + 1) * 12) := Nat.pow_le_pow_right (by decide) (by omega)
    _ = (2 ^ (n.log2 / 12 + 1)) ^ 12 := Nat.pow_mul ..
    _ ≤ (root12 n + 1) ^ 12 := Nat.pow_le_pow_left out_of_reach 12
    _ ≤ n := h

theorem root12_lt {n b : Nat} (h : n < b ^ 12) : root12 n < b :=
  lt_of_pow_lt_pow_left₀ 12 (Nat.zero_le b) ((root12_spec n).1.trans_lt h)

theorem le_root12 {n b : Nat} (h : b ^ 12 ≤ n) : b ≤ root12 n :=
  Nat.le_of_lt_succ (lt_of_pow_lt_pow_left₀ 12 (Nat.zero_le _) (h.trans_lt (root12_spec n).2))

theorem pow_le_root12_pow {b i j : Nat} (hb : 0 < b) (h : i * 12 ≤ j) : b ^ i ≤ root12 (b ^ j) :=
  le_root12 ((Nat.pow_mul b i 12).symm.trans_le (Nat.pow_le_pow_right hb h))

theorem root12_pow_lt_pow {b i j : Nat} (hb : 1 < b) (h : j < i * 12) : root12 (b ^ j) < b ^ i :=
  root12_lt ((Nat.pow_lt_pow_right hb h).trans_eq (Nat.pow_mul b i 12))

/-! ### The inverse quantiser (R220) -/

/-- The magnitude of a legal quantised value fits 31 bits (R220). -/
theorem iqMagnitude_lt {q : Nat} (hq : q ≤ 8191) (r : BitVec 2) : iqMagnitude 19 q r < 2 ^ 31 := by
  have hr := r.isLt
  refine root12_lt ?_
  calc q ^ 16 * 2 ^ (3 * r.toNat + 12 * (31 - 19))
      ≤ 8191 ^ 16 * 2 ^ 153 := Nat.mul_le_mul (Nat.pow_le_pow_left hq 16) (Nat.pow_le_pow_right (by decide) (by omega))
    _ < (2 ^ 31) ^ 12 := by norm_num

/-- A value with a magnitude below 2^31 is kept by its 32-bit word. -/
theorem toInt_ofInt_sign_mul (s : Int) {y : Nat} (hy : y < 2 ^ 31) :
    (BitVec.ofInt 32 (s.sign * y)).toInt = s.sign * y := by
  have hrange : -2 ^ 31 ≤ s.sign * y ∧ s.sign * y < 2 ^ 31 := by
    rcases Int.sign_trichotomy s with h | h | h <;> rw [h] <;> omega
  exact BitVec.toInt_ofInt_eq_self (by decide) hrange.1 hrange.2

/-- The exponent and the fraction of a scale factor are the quotient and remainder of sf - 100 by 4 (R220). -/
theorem iqExp_eq (sf : Byte) : (params.iqExp sf).1.toInt = ((sf.toNat : Int) - 100) / 4 + 19 ∧
    ((params.iqExp sf).2.toNat : Int) = ((sf.toNat : Int) - 100) % 4 := by
  have hsf := sf.isLt
  refine ⟨BitVec.toInt_ofInt_eq_self (by decide) (by omega) (by omega), ?_⟩
  change ((BitVec.ofInt 2 ((sf.toNat : Int) - 100 - 4 * (((sf.toNat : Int) - 100) / 4))).toNat : Int) = _
  rw [BitVec.toNat_ofInt]
  omega

/-- Settles O51: division by 4, and the twelfth root, whose value fits its word. -/
theorem inverseQuantiserKernel : Obligations.InverseQuantiserKernel := by
  refine ⟨fun sf => ?_, fun q r hq => ?_⟩
  · obtain ⟨hexp, hfrac⟩ := iqExp_eq sf
    rw [hexp, hfrac]
    have hsf := sf.isLt
    omega
  · obtain ⟨hle, hlt⟩ := root12_spec (q.toInt.natAbs ^ 16 * 2 ^ (3 * r.toNat + 144))
    exact ⟨iqMagnitude 19 q.toInt.natAbs r, hle, hlt, iqMagnitude_lt hq r,
      toInt_ofInt_sign_mul q.toInt (iqMagnitude_lt hq r)⟩

/-! ### Noise and the alpha table (R221, R222, R227, R280) -/

/-- The mantissa of the noise amplitude lies in [2^30, 2^31) (R221). -/
theorem noiseRoot_bounds {k : Nat} (hk : k < 12) :
    2 ^ 30 ≤ root12 (2 ^ (k + 360)) ∧ root12 (2 ^ (k + 360)) < 2 ^ 31 :=
  ⟨pow_le_root12_pow two_pos (by omega), root12_pow_lt_pow one_lt_two (by omega)⟩

/-- The default noise kernel in terms of its argument t (R221). -/
theorem noiseKernel_eq (nl : BitVec 3) (off : BitVec 5) (sf : Byte) :
    (params.noiseKernel nl off sf).2.toInt = noiseT 14 16 100 nl off sf / 12 + 1 ∧
    (params.noiseKernel nl off sf).1.toNat = root12 (2 ^ ((noiseT 14 16 100 nl off sf % 12).toNat + 360)) := by
  have hnl := nl.isLt
  have hoff := off.isLt
  have hsf := sf.isLt
  have ht : -404 ≤ noiseT 14 16 100 nl off sf ∧ noiseT 14 16 100 nl off sf ≤ 482 := by
    unfold noiseT
    omega
  refine ⟨BitVec.toInt_ofInt_eq_self (by decide) (by omega) (by omega), ?_⟩
  refine (BitVec.toNat_ofNat ..).trans (Nat.mod_eq_of_lt ?_)
  have := (noiseRoot_bounds (k := (noiseT 14 16 100 nl off sf % 12).toNat) (by omega)).2
  omega

/-- The generator is linear congruential modulo 2^32 (R222). -/
theorem noiseRng_seed (seed : Word) :
    (params.noiseRng seed).2.toNat = (seed.toNat * 1664525 + 1013904223) % 2 ^ 32 := by
  change (seed * 1664525#32 + 1013904223#32).toNat = _
  rw [BitVec.toNat_add, BitVec.toNat_mul, BitVec.toNat_ofNat, BitVec.toNat_ofNat]
  omega

theorem getLsbD_last_iff (w : Word) : w.getLsbD 31 = true ↔ 2 ^ 31 ≤ w.toNat := by
  rw [show w.getLsbD 31 = w.msb from (BitVec.msb_eq_getLsbD_last w).symm, BitVec.msb_eq_decide, decide_eq_true_iff]

/-- The sign is bit 31 of the next seed (R222). -/
theorem noiseRng_sign_iff (seed : Word) :
    (params.noiseRng seed).1 = true ↔ 2 ^ 31 ≤ (params.noiseRng seed).2.toNat :=
  getLsbD_last_iff _

/-- Stated of the functions first: applied to a seed, the kernel would compare the two seeds by computing them. -/
theorem seedAfter_succ (n : Nat) (seed : Word) : seedAfter (n + 1) seed = seedAfter n (params.noiseRng seed).2 :=
  congrFun (show seedAfter (n + 1) = seedAfter n ∘ fun x => (params.noiseRng x).2 from rfl) seed

theorem noiseLines_succ (nm : Int) (n : Nat) (seed : Word) : noiseLines params nm (n + 1) seed =
    ((if 2 ^ 31 ≤ (params.noiseRng seed).2.toNat then -nm else nm) ::
      (noiseLines params nm n (params.noiseRng seed).2).1, (noiseLines params nm n (params.noiseRng seed).2).2) := by
  simp only [noiseLines, if_congr (noiseRng_sign_iff seed) rfl rfl]

theorem noiseLines_length (nm : Int) (n : Nat) (seed : Word) : (noiseLines params nm n seed).1.length = n := by
  induction n generalizing seed with
  | zero => rfl
  | succ n ih => rw [noiseLines_succ, List.length_cons, ih]

/-- n lines take n generator calls (R280). -/
theorem noiseLines_seed (nm : Int) (n : Nat) (seed : Word) : (noiseLines params nm n seed).2 = seedAfter n seed := by
  induction n generalizing seed with
  | zero => rfl
  | succ n ih => rw [noiseLines_succ, seedAfter_succ, ih]

/-- Line j has the sign of the (j+1)-th generator call (R280). -/
theorem noiseLines_getElem? (nm : Int) {n : Nat} (seed : Word) {j : Nat} (hj : j < n) :
    (noiseLines params nm n seed).1[j]? =
      some (if 2 ^ 31 ≤ (seedAfter (j + 1) seed).toNat then -nm else nm) := by
  induction n generalizing seed j with
  | zero => exact absurd hj (Nat.not_lt_zero j)
  | succ n ih =>
    rw [noiseLines_succ, seedAfter_succ]
    cases j with
    | zero => rfl
    | succ j => rw [List.getElem?_cons_succ, ih _ (Nat.lt_of_succ_lt_succ hj)]

/-- Settles O52: the twelfth root and its bounds, the generator and its lines, and a rounded division by 10. -/
theorem noiseKernelAmplitude : Obligations.NoiseKernelAmplitude := by
  refine ⟨fun nl off sf _ => ?_, fun seed => ⟨noiseRng_seed seed, noiseRng_sign_iff seed⟩,
    fun nm n seed => ⟨noiseLines_length nm n seed, noiseLines_seed nm n seed, fun j => noiseLines_getElem? nm seed⟩,
    fun v => ?_⟩
  · obtain ⟨hexp, hmant⟩ := noiseKernel_eq nl off sf
    obtain ⟨hle, hlt⟩ := root12_spec (2 ^ ((noiseT 14 16 100 nl off sf % 12).toNat + 360))
    obtain ⟨hlo, hhi⟩ := noiseRoot_bounds (k := (noiseT 14 16 100 nl off sf % 12).toNat) (by omega)
    have hpos : (0 : Int) < (params.noiseKernel nl off sf).1.toInt := by
      rw [BitVec.toInt_eq_toNat_of_lt] <;> omega
    intro t k
    rw [← hmant] at hle hlt hlo hhi
    exact ⟨hexp, hle, hlt, hlo, hhi, hpos⟩
  · have halpha : params.alphaTable v = (v * 2 ^ 28 + 5) / 10 := rfl
    omega

/-! ### The stereo-filling gain (R230, R231) -/

/-- The power of two by which the model scales the energies of R230 (log 13). -/
def gainScale (P : Params) : ℚ := 2 ^ (320 + sfillExtra P)

theorem gainScale_pos (P : Params) : 0 < gainScale P := by
  unfold gainScale
  positivity

theorem sumSquares_cast (xs : List Int) : (sumSquares xs : ℤ) = (xs.map (fun x => x * x)).sum := by
  induction xs with
  | nil => rfl
  | cons x xs ih =>
    rw [sumSquares, Nat.cast_add, ih, Int.natAbs_mul_self, List.map_cons, List.sum_cons]

/-- The scaled energy is that of R230, scaled. -/
theorem scaledEnergy_cast (P : Params) (xs : List Int) {e : Int} (he : -128 ≤ e) :
    (scaledEnergy P xs e : ℚ) = ((xs.map (fun x => x * x)).sum : ℤ) * (2 : ℚ) ^ (2 * (e - 31)) * gainScale P := by
  have hexp : (((2 * (e + 129)).toNat + sfillExtra P : Nat) : ℤ) = 2 * (e - 31) + ((320 + sfillExtra P : Nat) : ℤ) := by
    omega
  rw [scaledEnergy, ← sumSquares_cast, gainScale, mul_assoc, ← zpow_natCast (2 : ℚ) (320 + _), ← zpow_add₀ two_ne_zero,
    ← hexp]
  norm_cast

/-- The scaled target is T2 of R230, scaled. -/
theorem scaledTarget_cast (P : Params) (n : Nat) (sf : Byte) : (scaledTarget P n sf : ℚ) =
    (n : ℚ) ^ 2 * (2 : ℚ) ^ ((sf.toNat : ℤ) - P.sfOffset) * gainScale P ^ 2 := by
  have hexp : ((((sf.toNat : Int) - P.sfOffset + 640 + 2 * (sfillExtra P : Int)).toNat : Nat) : ℤ) =
      (sf.toNat : ℤ) - P.sfOffset + (((320 + sfillExtra P) * 2 : Nat) : ℤ) := by
    unfold sfillExtra
    omega
  rw [scaledTarget, gainScale, mul_assoc, ← pow_mul, ← zpow_natCast (2 : ℚ) (_ * 2), ← zpow_add₀ two_ne_zero, ← hexp]
  norm_cast

section
variable {P : Params} {eDmx eRes t2 : Nat}

/-- A smaller gain fits where a larger one does. -/
theorem gainFits_antitone {a b : Nat} (hab : a ≤ b) (h : gainFits P eDmx eRes t2 b = true) :
    gainFits P eDmx eRes t2 a = true := by
  refine decide_eq_true (le_trans ?_ (of_decide_eq_true h))
  gcongr

/-- Gain 0 fits where the residual does not meet its target already. -/
theorem gainFits_zero (h : eRes ^ 2 ≤ t2) : gainFits P eDmx eRes t2 0 = true := by
  refine decide_eq_true ?_
  calc (0 ^ 2 * eDmx + 2 ^ (2 * P.sfillGainFrac) * eRes) ^ 2 = 2 ^ (4 * P.sfillGainFrac) * eRes ^ 2 := by ring
    _ ≤ 2 ^ (4 * P.sfillGainFrac) * t2 := Nat.mul_le_mul_left _ h

/-- The bound on the gain does not depend on the scale of the energies. -/
theorem gainFits_iff (hP : P.sfillGainFrac = 16) {c d r t : ℚ} (hc : 0 < c) (hd : (eDmx : ℚ) = d * c)
    (hr : (eRes : ℚ) = r * c) (ht : (t2 : ℚ) = t * c ^ 2) (g : Nat) :
    gainFits P eDmx eRes t2 g = true ↔ ((g : ℚ) ^ 2 * d + 2 ^ 32 * r) ^ 2 ≤ 2 ^ 64 * t := by
  have energy : (((g ^ 2 * eDmx + 2 ^ 32 * eRes) ^ 2 : Nat) : ℚ) = ((g : ℚ) ^ 2 * d + 2 ^ 32 * r) ^ 2 * c ^ 2 := by
    push_cast
    rw [hd, hr]
    ring
  have target : ((2 ^ 64 * t2 : Nat) : ℚ) = 2 ^ 64 * t * c ^ 2 := by
    push_cast
    rw [ht]
    ring
  rw [gainFits, hP, decide_eq_true_iff, ← Nat.cast_le (α := ℚ), energy, target, mul_le_mul_iff_left₀ (pow_pos hc 2)]

end

section
variable (P : Params) (d : List Int) (ep : Int) (m : List Int) (er : Int) (sf : Byte)

/-- No gain without energy in the downmix or room in the target (R230). -/
theorem sfillGain_eq_zero
    (h : scaledEnergy P d ep = 0 ∨ scaledTarget P m.length sf ≤ scaledEnergy P m er ^ 2) :
    sfillGain P d ep m er sf = 0 := if_pos h

/-- Else the search finds the largest gain up to the cap that fits (R230). -/
theorem sfillGain_spec (hd : scaledEnergy P d ep ≠ 0)
    (ht : scaledEnergy P m er ^ 2 < scaledTarget P m.length sf) :
    let fits := gainFits P (scaledEnergy P d ep) (scaledEnergy P m er) (scaledTarget P m.length sf)
    let g := sfillGain P d ep m er sf
    g ≤ gainCap P ∧ fits g = true ∧ ∀ g' ≤ gainCap P, fits g' = true → g' ≤ g := by
  intro fits g
  have hg : g = greatestBits (fun g => decide (g ≤ gainCap P) && fits g) ((gainCap P).log2 + 1) 0 :=
    if_neg (not_or.2 ⟨hd, Nat.not_le.2 ht⟩)
  obtain ⟨hin, -, hmax⟩ := greatestBits_spec (p := fun g => decide (g ≤ gainCap P) && fits g)
    (fun a b hab h => by
      simp only [Bool.and_eq_true, decide_eq_true_eq] at h ⊢
      exact ⟨hab.trans h.1, gainFits_antitone hab h.2⟩)
    ((gainCap P).log2 + 1) 0 (by simpa using gainFits_zero ht.le)
  rw [← hg] at hin hmax
  simp only [Bool.and_eq_true, decide_eq_true_eq] at hin hmax
  refine ⟨hin.1, hin.2, fun g' hcap hfit => hmax g' ?_ ⟨hcap, hfit⟩⟩
  rw [Nat.zero_add]
  exact hcap.trans_lt Nat.lt_log2_self

end

/-- D is the first row of the inverse rotation, floored by 2^30 (R230). -/
theorem downmix_eq (P : Params) (cs sn : Int) (p q : Band) (e : Int) : downmix P cs sn p q e =
    List.zipWith (fun a b => (cs * align P a p.exp e + sn * align P b q.exp e) / 2 ^ 30) p.mant q.mant := by
  have floor (x : Int) : x >>> (30 : Int) = x / 2 ^ 30 :=
    (Int.shiftRight_natCast_right x 30).trans (shiftRight_eq_ediv x 30)
  simp only [downmix, floor]

theorem sfillAdd_eq (P : Params) (g : Nat) (d : List Int) :
    sfillAdd P g d = d.map (fun x => (g : Int) * x / 2 ^ P.sfillGainFrac) := by
  simp only [sfillAdd, shiftRight_eq_ediv]

/-- Settles O53: the scaled integers compare as the rationals of R230 do, and the search finds the largest gain. -/
theorem stereoFillingGainIsTheLargestThatFits : Obligations.StereoFillingGainIsTheLargestThatFits := by
  refine ⟨fun P d m ep er sf hP hep _ her _ => ?_, rfl, rfl, rfl, downmix_eq,
    fun P g d hP => by rw [sfillAdd_eq, hP]⟩
  intro eDmx eRes t2 cap g
  have hc := gainScale_pos P
  have hD : (scaledEnergy P d ep : ℚ) = eDmx * gainScale P := scaledEnergy_cast P d hep
  have hR : (scaledEnergy P m er : ℚ) = eRes * gainScale P := scaledEnergy_cast P m her
  have hT : (scaledTarget P m.length sf : ℚ) = t2 * gainScale P ^ 2 := scaledTarget_cast P m.length sf
  have hcap : gainCap P = cap := by rw [gainCap, hP]
  have energy_iff : scaledEnergy P d ep = 0 ↔ eDmx = 0 := by
    rw [← Nat.cast_eq_zero (R := ℚ), hD, mul_eq_zero_iff_right hc.ne']
  have room_iff : scaledTarget P m.length sf ≤ scaledEnergy P m er ^ 2 ↔ t2 ≤ eRes ^ 2 := by
    rw [← Nat.cast_le (α := ℚ), Nat.cast_pow, hR, hT, mul_pow, mul_le_mul_iff_left₀ (pow_pos hc 2)]
  refine ⟨fun h => sfillGain_eq_zero P d ep m er sf (h.imp energy_iff.2 room_iff.2), fun hd ht => ?_⟩
  have hspec := sfillGain_spec P d ep m er sf (mt energy_iff.1 hd) (Nat.lt_of_not_le (mt room_iff.1 (not_le.2 ht)))
  simpa only [gainFits_iff hP hc hD hR hT, hcap] using hspec

end Sys2Proof.Proofs
end

section
/-! What the channel commands check before they run (R251, R252, R262 to R264, R290): each failing check is the error
raised when the ones before it pass (R415). And the moves of STAGE (R251). -/

namespace Sys2Proof.Proofs

open Sys2Proof Sys2Proof.Machine

/-! ### STAGE -/

@[simp] theorem ch_raise (s : State) (e : Err) (c : Nat) : (s.raise e).ch c = s.ch c := by
  simp only [State.ch, State.raise_chans]

/-- What a raise keeps of a command's changes leaves STAGE. -/
theorem stage_raiseBase (i : Instr) (s : State) (c : Nat) : ((raiseBase i s).ch c).stage = (s.ch c).stage := by
  rcases raiseBase_cases i s with h | ⟨_, h⟩ <;> rw [h]
  exact (hreset_channelsStep .nop params s c).stage nofun nofun nofun

/-- Settles O23: a raise keeps STAGE, and so does the rule of every command but the three, which set it. -/
theorem stageMoves : Obligations.StageMoves := by
  intro i s t c h hc hne
  rcases exec_next h with ⟨u, hu, rfl⟩ | ⟨e, _, rfl⟩
  · have hkept := (commandRule_channelsStep hu c).stage
    rw [State.ch_complete] at hne ⊢
    by_cases hbegin : i = .chBegin c
    · subst hbegin
      obtain ⟨_, rfl⟩ := chBegin_ok.1 hu
      exact .inl ⟨rfl, stage_setStage hc _⟩
    by_cases hscale : i = .iqScale c
    · subst hscale
      obtain ⟨_, hst, _, cells, _, rfl⟩ := iqScale_ok.1 hu
      exact .inr (.inl ⟨rfl, hst, stage_setStage hc _⟩)
    by_cases hdequant : i = .iqDequant c
    · subst hdequant
      obtain ⟨_, hst, _, bands, qs, _, _, rfl⟩ := iqDequant_ok.1 hu
      exact .inr (.inr ⟨rfl, hst, stage_setStage hc _⟩)
    exact absurd (hkept hbegin hscale hdequant) hne
  · rw [ch_raise] at hne
    exact absurd (stage_raiseBase i s c) hne

/-! ### A check that passes, and one that fails -/

theorem chkCh_pass {c : Nat} (h : c < 16) : chkCh params c = .ok () := chkCh_ok.2 h

theorem chkCh_fail {c : Nat} (h : 16 ≤ c) : chkCh params c = .error (.raise { cause := .chRange, index := c }) :=
  raiseIf_error.2 ⟨decide_eq_true h, rfl⟩

theorem chkStage_pass {s : State} {c : Nat} {g : Stage} (h : (s.ch c).stage = g) : chkStage s c g = .ok () :=
  chkStage_ok.2 h

theorem chkStage_fail {s : State} {c : Nat} {g : Stage} (h : (s.ch c).stage ≠ g) :
    chkStage s c g = .error (.raise { cause := .stage, index := c }) :=
  raiseIf_error.2 ⟨decide_eq_true h, rfl⟩

section
variable {s : State} {c : Nat}

/-- The band of a table whose offset does not rise first is the one the check finds (R262). -/
theorem badBand_eq_some {b : Nat} (hb : b < s.nsfbOf c) (hbad : s.off c (b + 1) ≤ s.off c b)
    (hfirst : ∀ b' < b, s.off c b' < s.off c (b' + 1)) : s.badBand c = some b := by
  rw [State.badBand, List.find?_range_eq_some]
  exact ⟨decide_eq_true hbad, List.mem_range.2 hb, fun b' hb' => by simpa using hfirst b' hb'⟩

theorem badBand_eq_none (hrise : ∀ b < s.nsfbOf c, s.off c b < s.off c (b + 1)) : s.badBand c = none := by
  simpa [State.badBand, List.find?_eq_none] using hrise

theorem chkBt_count (h : 64 < s.nsfbOf c) :
    chkBt params s c = .error (.raise { cause := .bandTable, index := c }) := by
  have hcount : decide (Config.maxSfbTable < s.nsfbOf c) = true := decide_eq_true h
  simp only [chkBt, hcount, raiseIf_true, error_bind]

theorem chkBt_rising (h : s.nsfbOf c ≤ 64) {b : Nat} (hb : b < s.nsfbOf c) (hbad : s.off c (b + 1) ≤ s.off c b)
    (hfirst : ∀ b' < b, s.off c b' < s.off c (b' + 1)) :
    chkBt params s c = .error (.raise { cause := .bandTable, index := c, band := b }) := by
  have hcount : decide (Config.maxSfbTable < s.nsfbOf c) = false := decide_eq_false (Nat.not_lt.2 h)
  simp only [chkBt, hcount, raiseIf_false, ok_bind, badBand_eq_some hb hbad hfirst]

theorem chkBt_last (h : s.nsfbOf c ≤ 64) (hrise : ∀ b < s.nsfbOf c, s.off c b < s.off c (b + 1))
    (hlast : s.wlen params c < s.off c (s.nsfbOf c)) :
    chkBt params s c = .error (.raise { cause := .bandTable, index := c, band := s.nsfbOf c }) := by
  have hcount : decide (Config.maxSfbTable < s.nsfbOf c) = false := decide_eq_false (Nat.not_lt.2 h)
  simp only [chkBt, hcount, raiseIf_false, ok_bind, badBand_eq_none hrise, decide_eq_true hlast,
    raiseIf_true]

theorem chkCfg_of_chkBt {x : Halt} (h : chkBt params s c = .error x) : chkCfg params s c = .error x := by
  rw [chkCfg, h, error_bind]

theorem chkCfg_of_bandTableOk (h : BandTableOk s c) : chkCfg params s c = chkIcs params s c := by
  rw [chkCfg, bandTableOk_iff.1 h, ok_bind]

/-! ### The three commands of one channel -/

/-- IQ_SCALE, IQ_DEQUANT and NOISE_FILL make the same checks, of the stage each needs, and then go on. -/
theorem exec_checks {i : Instr} {need : Stage} (h : (i, need) ∈ [(Instr.iqScale c, Stage.begun),
    (Instr.iqDequant c, Stage.scaled), (Instr.noiseFill c, Stage.decoded)]) (s : State) :
    ∃ rest, exec i s = finish s (do
      chkCh params c
      chkStage s c need
      chkCfg params s c
      rest) := by
  simp only [List.mem_cons, Prod.mk.injEq, List.not_mem_nil, or_false] at h
  rcases h with ⟨rfl, rfl⟩ | ⟨rfl, rfl⟩ | ⟨rfl, rfl⟩ <;> exact ⟨_, rfl⟩

/-- Settles O37: the checks run one after another, and the first that fails is the error. -/
theorem channelChecksInOrder : Obligations.ChannelChecksInOrder := by
  intro s c i need hi fails
  obtain ⟨rest, hexec⟩ := exec_checks hi s
  have hp : params.profileLtp = false := rfl
  refine ⟨fun hc => ?_, fun hc hst => ?_, fun hc hst => ?_⟩
  · change exec i s = _
    rw [hexec, chkCh_fail hc, error_bind, finish_raise]
  · change exec i s = _
    rw [hexec, chkCh_pass hc, ok_bind, chkStage_fail hst, error_bind, finish_raise]
  have hcfg {e : Err} (h : chkCfg params s c = .error (.raise e)) : fails e := by
    change exec i s = _
    rw [hexec, chkCh_pass hc, ok_bind, chkStage_pass hst, ok_bind, h, error_bind, finish_raise]
  refine ⟨fun hn => hcfg (chkCfg_of_chkBt (chkBt_count hn)), fun hn => ⟨fun b hb hbad hfirst => ?_, fun hrise hlast => ?_⟩,
    fun hbt => ?_⟩
  · exact hcfg (chkCfg_of_chkBt (chkBt_rising hn hb hbad hfirst))
  · exact hcfg (chkCfg_of_chkBt (chkBt_last hn hrise hlast))
  have hics {e : Err} (h : chkIcs params s c = .error (.raise e)) : fails e :=
    hcfg ((chkCfg_of_bandTableOk hbt).trans h)
  refine ⟨fun h1 => hics ?_, fun h1 h2 => hics ?_, fun h1 h2 h3 => hics ?_,
    fun h1 h2 h3 => ⟨fun h4 hs => hics ?_, fun h4 => ⟨fun hs hg => hics ?_, fun hs hg => hics ?_,
      fun hl hs hm => hics ?_⟩⟩⟩
  · simp [chkIcs, hp, h1]
  · simp [chkIcs, hp, h1, h2]
  · simp [chkIcs, hp, h1, h2, h3]
  · simp [chkIcs, hp, h1, h2, h3, h4, hs]
  all_goals have hlfe : (icsLfe (s.ch c).ics && s.short c) = false := by rcases h4 with h | h <;> simp [h]
  · have hbad : s.groupingOk c = false := by
      rw [← Bool.not_eq_true, groupingOk_iff]
      exact fun h => hg (h.1 hs)
    simp [chkIcs, hp, h1, h2, h3, hlfe, hbad]
  · have hbad : s.groupingOk c = false := by
      rw [← Bool.not_eq_true, groupingOk_iff]
      exact fun h => hg (h.2 hs)
    simp [chkIcs, hp, h1, h2, h3, hlfe, hbad]
  · have hok : s.groupingOk c = true := groupingOk_iff.2 ⟨hl, hs⟩
    simp [chkIcs, hp, h1, h2, h3, hlfe, hok, hm]

end

/-! ### MS_APPLY -/

/-- What MS_APPLY with a common window does once slots and stages pass (R290). -/
def msCommonWindow (c1 c2 : Nat) (s : State) : Except Halt State := do
  chkCfg params s c1
  chkCfg params s c2
  raiseIf (cwMismatch s c1 c2) { cause := .cwMismatch, index := c1 }
  let s1 ← (pairList (s.nwin c1) (s.maxSfb c1)).foldlM (msBand params c1 c2) s
  let s2 ← dmxUpdate params c1 c2 s1
  .ok (savePrevWin c1 s2)

section
variable {s : State} {c1 c2 : Nat}

theorem exec_msApply (s : State) (c1 c2 : Nat) (cw : Bool) :
    exec (.msApply c1 c2 cw) s = finish s (msApply params c1 c2 cw s) := rfl

/-- MS_APPLY of two different decoded slots. -/
theorem msApply_decoded (h1 : c1 < 16) (h2 : c2 < 16) (hne : c1 ≠ c2) (hst1 : (s.ch c1).stage = .decoded)
    (hst2 : (s.ch c2).stage = .decoded) (cw : Bool) :
    msApply params c1 c2 cw s = if cw then msCommonWindow c1 c2 s else .ok s := by
  simp only [msApply, chkCh_pass h1, chkCh_pass h2, decide_eq_false hne, raiseIf_false, chkStage_pass hst1,
    chkStage_pass hst2, ok_bind]
  rfl

/-- The common-window test fails exactly when one of the four fields differs (R290). -/
theorem cwMismatch_iff : cwMismatch s c1 c2 = true ↔
    icsWinSeq (s.ch c1).ics ≠ icsWinSeq (s.ch c2).ics ∨ s.ng c1 ≠ s.ng c2 ∨
      (∃ g < s.ng c1, s.gl c1 g ≠ s.gl c2 g) ∨ s.maxSfb c1 ≠ s.maxSfb c2 := by
  simp [cwMismatch, or_assoc]

/-- Settles O38: the checks of MS_APPLY one after another. -/
theorem msApplyChecksInOrder : Obligations.MsApplyChecksInOrder := by
  intro s c1 c2 cw fails
  have raises {e : Err} (h : msApply params c1 c2 cw s = .error (.raise e)) : fails e := by
    change exec _ s = _
    rw [exec_msApply, h, finish_raise]
  refine ⟨fun h1 => raises ?_, fun h1 h2 => raises ?_, fun h1 heq => raises ?_, fun h1 h2 hne hst1 => raises ?_,
    fun h1 h2 hne hst1 hst2 => raises ?_, fun h1 h2 hne hst1 hst2 hcw => ?_⟩
  · rw [msApply, chkCh_fail h1, error_bind]
  · simp only [msApply, chkCh_pass h1, chkCh_fail h2, ok_bind, error_bind]
  · subst heq
    simp only [msApply, chkCh_pass h1, decide_true, raiseIf_true, ok_bind, error_bind]
  · simp only [msApply, chkCh_pass h1, chkCh_pass h2, decide_eq_false hne, raiseIf_false, chkStage_fail hst1,
      ok_bind, error_bind]
  · simp only [msApply, chkCh_pass h1, chkCh_pass h2, decide_eq_false hne, raiseIf_false, chkStage_pass hst1,
      chkStage_fail hst2, ok_bind, error_bind]
  subst hcw
  have hms := msApply_decoded h1 h2 hne hst1 hst2 true
  rw [if_pos rfl] at hms
  refine ⟨fun e he => raises ?_, fun hcfg1 e he => raises ?_, fun hcfg1 hcfg2 hdiff => raises ?_⟩ <;>
    rw [hms, msCommonWindow]
  · rw [he, error_bind]
  · rw [cfgOk_iff.1 hcfg1, ok_bind, he, error_bind]
  · rw [cfgOk_iff.1 hcfg1, ok_bind, cfgOk_iff.1 hcfg2, ok_bind, cwMismatch_iff.2 hdiff, raiseIf_true, error_bind]

end

/-- Settles O34: once slots and stages pass there is nothing more to do. -/
theorem msApplyWithoutCommonWindow : Obligations.MsApplyWithoutCommonWindow := by
  intro s c1 c2 h1 h2 hne hst1 hst2
  rw [exec_msApply, msApply_decoded h1 h2 hne hst1 hst2 false]
  rfl

end Sys2Proof.Proofs
end

section
/-! Rules the channel commands' proofs share: which addresses lie apart (R128), reads after a write of a run of cells,
passes over lists that answer everywhere or stop at a first error, folds by initial parts, and the bands of a legal
configuration in order (R253, R262). -/

namespace Sys2Proof.Proofs

open Sys2Proof Sys2Proof.Machine

/-! ### The outcome of a command from its rule -/

theorem exec_of_ok {i : Instr} {s u : State} (h : commandRule i s = .ok u) : exec i s = .next u.complete := by
  rw [exec_eq_finish, h, finish_ok]

theorem exec_of_raise {i : Instr} {s : State} {e : Err} (h : commandRule i s = .error (.raise e))
    (hbase : raiseBase i s = s) : exec i s = .next (s.raise e) := by
  rw [exec_eq_finish, h, finish_raise, hbase]

/-! ### Register blocks written twice -/

theorem setCh_setCh (s : State) (c : Nat) (x y : Channel) : (s.setCh c x).setCh c y = s.setCh c y := by
  simp [State.setCh]

/-! ### Ranges of cells -/

section
variable {M M' : ChMem} {c c' i i' n n' a : Nat}

theorem inCells_mono (hlo : i' ≤ i) (hhi : i + n ≤ i' + n') (ha : inCells M c i n a) : inCells M c i' n' a := by
  unfold inCells cellAddr at *
  omega

/-- The bytes of a cell lie in every range that holds the cell. -/
theorem inCells_cell {k j : Nat} (hlo : i ≤ k) (hhi : k < i + n) (hj : j < 4) :
    inCells M c i n (cellAddr M c k + j) := by
  unfold inCells cellAddr
  omega

/-- Ranges of one memory that do not meet share no byte. -/
theorem not_inCells_of_apart (h : i + n ≤ i' ∨ i' + n' ≤ i) (ha : inCells M c i n a) : ¬ inCells M c i' n' a := by
  unfold inCells cellAddr at *
  omega

/-- Ranges of two memories, or of two channels, share no byte (R128). -/
theorem not_inCells_of_ne (hi : i + n ≤ memSize M) (hi' : i' + n' ≤ memSize M') (h : M ≠ M' ∨ c ≠ c')
    (ha : inCells M c i n a) : ¬ inCells M' c' i' n' a := by
  obtain ⟨hlast, hM⟩ := memories_apart M M'
  obtain ⟨hlast', _⟩ := memories_apart M' M
  unfold inCells cellAddr at *
  by_cases hc : c = c'
  · subst hc
    rcases hM with rfl | h' | h'
    · exact absurd h (by simp)
    all_goals omega
  · omega

end

/-! ### Reads after a write of a run of cells -/

section
variable {s : State} {M : ChMem} {c i k a : Nat} {ws : List Word} {bs : List Byte}

theorem readByte_putWords_apart (h : ¬ inCells M c i ws.length a) :
    readByte (s.putWords M c i ws).mem a = readByte s.mem a := by
  rw [inCells, cellAddr_add] at h
  exact readByte_putWords_outside (by omega)

theorem readByte_putBytes_apart (h : ¬ inCells M c i bs.length a) :
    readByte (s.putBytes M c i bs).mem a = readByte s.mem a := by
  rw [inCells, cellAddr_add] at h
  exact readByte_putBytes_outside (by omega)

theorem readByte_putBytes_zero {v : Byte} (h : bs[k]? = some v) :
    readByte (s.putBytes M c 0 bs).mem (cellAddr M c k) = some v := by
  obtain ⟨hk, rfl⟩ := List.getElem?_eq_some_iff.1 h
  have hread := readByte_putBytes (s := s) (M := M) (c := c) (i := 0) hk
  rwa [Nat.zero_add] at hread

theorem readWord_putWords_zero {v : Word} (h : ws[k]? = some v) :
    readWord (s.putWords M c 0 ws).mem (cellAddr M c k) = some v := by
  obtain ⟨hk, rfl⟩ := List.getElem?_eq_some_iff.1 h
  have hread := readWord_putWords (s := s) (M := M) (c := c) (i := 0) hk
  rwa [Nat.zero_add] at hread

theorem readWord_congr {m m' : Memory} (h : ∀ j < 4, readByte m' (a + j) = readByte m (a + j)) :
    readWord m' a = readWord m a := by
  unfold readWord
  rw [h 1 (by omega), h 2 (by omega), h 3 (by omega)]
  have h0 := h 0 (by omega)
  rw [Nat.add_zero] at h0
  rw [h0]

/-- A written byte cell is read as `byteAt` says. -/
theorem getByte_marked (h : byteMarked s.mem M c i) : s.getByte M c i = .ok (byteAt s.mem M c i) := by
  obtain ⟨v, hv⟩ := Option.isSome_iff_exists.1 h
  rw [getByte_ok, byteAt, hv, Option.getD_some]

theorem getCb_marked {g b : Nat} (h : byteMarked s.mem .cb c (g * 64 + b)) :
    s.getCb c g b = .ok ((byteAt s.mem .cb c (g * 64 + b)).extractLsb' 0 4) := by
  rw [State.getCb, getByte_marked h, ok_bind]

end

/-! ### Passes over lists -/

section
variable {α β : Type}

theorem mapM_eq_map {f : α → Except Halt β} {g : α → β} {l : List α} (h : ∀ x ∈ l, f x = .ok (g x)) :
    l.mapM f = .ok (l.map g) :=
  mapM_ok.2 (List.forall₂_map_right_iff.2 (List.forall₂_same.2 h))

theorem exists_mapM {f : α → Except Halt β} {l : List α} (h : ∀ x ∈ l, ∃ y, f x = .ok y) : ∃ r, l.mapM f = .ok r := by
  induction l with
  | nil => exact ⟨[], rfl⟩
  | cons x l ih =>
    obtain ⟨y, hy⟩ := h x List.mem_cons_self
    obtain ⟨r, hr⟩ := ih fun z hz => h z (List.mem_cons_of_mem x hz)
    exact ⟨y :: r, by rw [List.mapM_cons, hy, ok_bind, hr]; rfl⟩

/-- The answers of a pass stand at their elements' places. -/
theorem mapM_getElem? {f : α → Except Halt β} {l : List α} {r : List β} (h : l.mapM f = .ok r) {j : Nat} {x : α} {y : β}
    (hx : l[j]? = some x) (hy : f x = .ok y) : r[j]? = some y := by
  obtain ⟨hlen, hget⟩ := List.forall₂_iff_get.1 (mapM_ok.1 h)
  obtain ⟨hj, rfl⟩ := List.getElem?_eq_some_iff.1 hx
  have hr := hget j hj (hlen ▸ hj)
  rw [List.getElem?_eq_getElem (hlen ▸ hj)]
  exact congrArg some (Except.ok.inj (hr.symm.trans hy))

/-- A pass stops at the first element that does not answer. -/
theorem mapM_first_error {f : α → Except Halt β} {pre post : List α} {x : α} {e : Halt}
    (hpre : ∀ y ∈ pre, ∃ z, f y = .ok z) (hx : f x = .error e) : (pre ++ x :: post).mapM f = .error e := by
  induction pre with
  | nil => rw [List.nil_append, List.mapM_cons, hx, error_bind]
  | cons y pre ih =>
    obtain ⟨z, hz⟩ := hpre y List.mem_cons_self
    rw [List.cons_append, List.mapM_cons, hz, ok_bind, ih fun w hw => hpre w (List.mem_cons_of_mem y hw), error_bind]

theorem filterRun_eq_filter {f : α → Except Halt Bool} {p : α → Bool} {l : List α} (h : ∀ x ∈ l, f x = .ok (p x)) :
    filterRun f l = .ok (l.filter p) := by
  induction l with
  | nil => rfl
  | cons x l ih =>
    rw [filterRun, h x List.mem_cons_self, ok_bind, ih fun y hy => h y (List.mem_cons_of_mem x hy), ok_bind,
      List.filter_cons]

theorem allRun_eq_all {f : α → Except Halt Bool} {p : α → Bool} {l : List α} (h : ∀ x ∈ l, f x = .ok (p x)) :
    allRun f l = .ok (l.all p) := by
  induction l with
  | nil => rfl
  | cons x l ih =>
    rw [allRun, h x List.mem_cons_self, ok_bind, List.all_cons]
    cases p x with
    | false => rfl
    | true => exact ih fun y hy => h y (List.mem_cons_of_mem x hy)

/-- What holds of no elements, and goes over from the elements so far to one more, holds of the whole list: a fold whose
rounds each answer. -/
theorem foldlM_initial {σ : Type} {f : σ → α → Except Halt σ} {I : List α → σ → Prop} (l : List α)
    (step : ∀ pre x post, l = pre ++ x :: post → ∀ s, I pre s → ∃ t, f s x = .ok t ∧ I (pre ++ [x]) t) {s : σ}
    (h : I [] s) : ∃ t, l.foldlM f s = .ok t ∧ I l t := by
  suffices key : ∀ pre post, l = pre ++ post → ∀ s, I pre s → ∃ t, post.foldlM f s = .ok t ∧ I l t from
    key [] l rfl s h
  intro pre post
  induction post generalizing pre with
  | nil =>
    rintro hl s hs
    rw [List.append_nil] at hl
    exact ⟨s, rfl, hl ▸ hs⟩
  | cons x post ih =>
    intro hl s hs
    obtain ⟨u, hu, hIu⟩ := step pre x post hl s hs
    obtain ⟨t, ht, hIt⟩ := ih (pre ++ [x]) (by simpa using hl) u hIu
    exact ⟨t, by rw [List.foldlM_cons, hu, ok_bind, ht], hIt⟩

/-- The same of a fold of pure rounds. -/
theorem foldl_initial {σ : Type} {f : σ → α → σ} {I : List α → σ → Prop} (l : List α)
    (step : ∀ pre x post, l = pre ++ x :: post → ∀ s, I pre s → I (pre ++ [x]) (f s x)) {s : σ} (h : I [] s) :
    I l (l.foldl f s) := by
  suffices key : ∀ pre post, l = pre ++ post → ∀ s, I pre s → I l (post.foldl f s) from key [] l rfl s h
  intro pre post
  induction post generalizing pre with
  | nil =>
    rintro hl s hs
    rw [List.append_nil] at hl
    exact hl ▸ hs
  | cons x post ih => exact fun hl s hs => ih (pre ++ [x]) (by simpa using hl) _ (step pre x post hl s hs)

/-- In a list without repeats an element is not among those before it. -/
theorem not_mem_of_nodup_append {pre post : List α} {x : α} (h : (pre ++ x :: post).Nodup) : x ∉ pre :=
  fun hx => (List.nodup_append.1 h).2.2 x hx x List.mem_cons_self rfl

end

/-! ### The bands in order -/

/-- Window order, and band order in a window. -/
def BandBefore (p q : Nat × Nat) : Prop := p.1 < q.1 ∨ p.1 = q.1 ∧ p.2 < q.2

theorem pairList_succ (nx nb : Nat) : pairList (nx + 1) nb = pairList nx nb ++ (List.range nb).map (fun b => (nx, b)) := by
  simp [pairList, List.range_succ]

theorem pairList_rising (nx nb : Nat) : (pairList nx nb).Pairwise BandBefore := by
  induction nx with
  | zero => exact List.Pairwise.nil
  | succ nx ih =>
    rw [pairList_succ, List.pairwise_append]
    refine ⟨ih, List.pairwise_map.2 (List.pairwise_lt_range.imp fun h => .inr ⟨rfl, h⟩), fun p hp q hq => .inl ?_⟩
    obtain ⟨b, _, rfl⟩ := List.mem_map.1 hq
    exact (mem_pairList.1 hp).1

theorem nodup_of_rising {l : List (Nat × Nat)} (h : l.Pairwise BandBefore) : l.Nodup := by
  refine h.imp ?_
  rintro p _ hpq rfl
  unfold BandBefore at hpq
  omega

theorem pairList_nodup (nx nb : Nat) : (pairList nx nb).Nodup := nodup_of_rising (pairList_rising nx nb)

/-- Pair (w, b) stands at place w * nb + b. -/
theorem pairList_getElem? {nx nb w b : Nat} (hw : w < nx) (hb : b < nb) : (pairList nx nb)[w * nb + b]? = some (w, b) := by
  induction nx with
  | zero => exact absurd hw (Nat.not_lt_zero w)
  | succ nx ih =>
    rw [pairList_succ]
    rcases Nat.lt_succ_iff_lt_or_eq.1 hw with h | rfl
    · have hlt : w * nb + b < nx * nb :=
        Nat.lt_of_lt_of_le (by rw [Nat.succ_mul]; omega) (Nat.mul_le_mul_right nb (Nat.succ_le_of_lt h))
      rw [List.getElem?_append_left (by rwa [length_pairList]), ih h]
    · rw [List.getElem?_append_right (by rw [length_pairList]; omega), length_pairList, Nat.add_sub_cancel_left,
        List.getElem?_map, List.getElem?_range hb]
      rfl

section
variable {s : State} {c : Nat}

/-- The offsets of a legal table rise (R262). -/
theorem off_le_off (h : BandTableOk s c) {i j : Nat} (hij : i ≤ j) (hj : j ≤ s.nsfbOf c) : s.off c i ≤ s.off c j := by
  induction j with
  | zero => rw [Nat.le_zero.1 hij]
  | succ j ih =>
    rcases Nat.le_succ_iff.1 hij with h' | rfl
    · exact Nat.le_trans (ih h' (by omega)) (Nat.le_of_lt (h.rising j (by omega)))
    · exact Nat.le_refl _

/-- The lines of an earlier band end before those of a later one begin (R17, R262). -/
theorem lines_before (h : CfgOk s c) {p q : Nat × Nat} (hp : p.2 < s.maxSfb c) (hq : q.2 < s.maxSfb c)
    (hpq : BandBefore p q) : s.lineLo params c p.1 p.2 + s.bandWidth c p.2 ≤ s.lineLo params c q.1 q.2 := by
  have hmax := h.2.maxSfb
  have hrise := h.1.rising p.2 (by omega)
  have hlast : s.off c (p.2 + 1) ≤ s.wlen params c :=
    Nat.le_trans (off_le_off h.1 (by omega) (Nat.le_refl _)) h.1.last
  unfold State.lineLo State.bandWidth
  rcases hpq with hw | ⟨hw, hb⟩
  · have hwin : (p.1 + 1) * s.wlen params c ≤ q.1 * s.wlen params c := Nat.mul_le_mul_right _ hw
    rw [Nat.succ_mul] at hwin
    omega
  · have hoff : s.off c (p.2 + 1) ≤ s.off c q.2 := off_le_off h.1 hb (by omega)
    rw [hw]
    omega

/-- The lines of two different bands do not meet. -/
theorem lines_apart (h : CfgOk s c) {p q : Nat × Nat} (hp : p.2 < s.maxSfb c) (hq : q.2 < s.maxSfb c) (hne : p ≠ q) :
    s.lineLo params c p.1 p.2 + s.bandWidth c p.2 ≤ s.lineLo params c q.1 q.2 ∨
      s.lineLo params c q.1 q.2 + s.bandWidth c q.2 ≤ s.lineLo params c p.1 p.2 := by
  have hcases : BandBefore p q ∨ BandBefore q p := by
    have hne' : p.1 ≠ q.1 ∨ p.2 ≠ q.2 := by
      by_contra hall
      push Not at hall
      exact hne (Prod.ext hall.1 hall.2)
    unfold BandBefore
    omega
  exact hcases.imp (lines_before h hp hq) (lines_before h hq hp)

end

end Sys2Proof.Proofs
end

section
/-! CH_BEGIN, IQ_SCALE and IQ_DEQUANT (R255, R265, R272): what each leaves in the memories and registers of its channel. -/

namespace Sys2Proof.Proofs

open Sys2Proof Sys2Proof.Machine

/-! ### CH_BEGIN -/

/-- Settles O28: CB and NFLAG are two runs of 512 cells, written one after the other. -/
theorem chBeginStartsTheFrame : Obligations.ChBeginStartsTheFrame := by
  intro s c
  refine ⟨fun hc => ⟨_, exec_of_ok (chBegin_ok.2 ⟨hc, rfl⟩), rfl, fun j hj => ⟨?_, ?_⟩, fun a hcb hnf => ?_⟩,
    fun hc => exec_of_raise ?_ rfl⟩
  · refine Eq.trans (readByte_putBytes_apart ?_) (readByte_putBytes_zero ?_)
    · rw [List.length_replicate]
      exact not_inCells_of_ne (M := .cb) (i := 0) (n := 512) (by decide) (by decide) (.inl nofun)
        (inCells_cell (j := 0) (by omega) (by omega) (by omega))
    · rw [List.getElem?_replicate, if_pos hj]
      rfl
  · exact readByte_putBytes_zero (by rw [List.getElem?_replicate, if_pos hj])
  · exact (readByte_putBytes_apart (by rwa [List.length_replicate])).trans
      (readByte_putBytes_apart (by rwa [List.length_replicate]))
  · rw [commandRule, chBegin, chkCh_fail hc, error_bind]

/-! ### IQ_SCALE -/

section
variable {s : State} {c : Nat} {wb : Nat × Nat}

/-- A transmitted band below MAX_SFB takes its exponent and fraction from its scale factor. -/
theorem scaleCell_of_inT (h : inT s c wb.1 wb.2) (hcb : byteMarked s.mem .cb c (s.grp c wb.1 * 64 + wb.2))
    (hsf : byteMarked s.mem .sf c (s.grp c wb.1 * 64 + wb.2)) :
    scaleCell params s c wb = .ok (params.iqExp (byteAt s.mem .sf c (s.grp c wb.1 * 64 + wb.2))) := by
  obtain ⟨hw, hb, hcoded⟩ := h
  rw [isCoded] at hcoded
  rw [scaleCell, if_pos ⟨hw, hb⟩, getCb_marked hcb, ok_bind, if_pos hcoded, State.getSf, getByte_marked hsf, ok_bind]

/-- Every other (window, band) takes 0. -/
theorem scaleCell_of_not_inT (h : ¬ inT s c wb.1 wb.2)
    (hcb : wb.1 < s.nwin c → wb.2 < s.maxSfb c → byteMarked s.mem .cb c (s.grp c wb.1 * 64 + wb.2)) :
    scaleCell params s c wb = .ok (0, 0) := by
  unfold scaleCell
  split
  case isTrue hin =>
    rw [getCb_marked (hcb hin.1 hin.2), ok_bind, if_neg]
    exact fun hcoded => h ⟨hin.1, hin.2, hcoded⟩
  case isFalse => rfl

end

/-- STAGE after FRAC is one write of the channel's registers. -/
theorem setStage_setFrac {s : State} {c : Nat} (hc : c < 16) (l : List (BitVec 2)) (g : Stage) :
    (s.setFrac c l).setStage c g = s.setCh c { s.ch c with frac := vecOfList 512 l 0, stage := g } := by
  rw [State.setStage, State.setFrac, State.ch_setCh_self hc, setCh_setCh]

theorem frac_setStage_setFrac {s : State} {c : Nat} (hc : c < 16) (l : List (BitVec 2)) (g : Stage) :
    (((s.setFrac c l).setStage c g).complete.ch c).frac = vecOfList 512 l 0 := by
  rw [setStage_setFrac hc, State.ch_complete, State.ch_setCh_self hc]

/-- FRAC of a channel whose 512 fractions have just been written, in w*64+b order. -/
theorem fracAt_of_vecOfList {s : State} {c w b : Nat} {l : List (BitVec 2)} {v : BitVec 2}
    (h : (s.ch c).frac = vecOfList 512 l 0) (hw : w < 8) (hb : b < 64) (hl : l[w * 64 + b]? = some v) :
    s.fracAt c w b = v := by
  rw [State.fracAt, h, getElem?_vecOfList 512 l 0 _ (by omega), hl]
  rfl

/-- Settles O29: the 512 cells of EXP and FRAC are what scaleCell gives, in the order of the pair list. -/
theorem iqScaleSetsTheExponents : Obligations.IqScaleSetsTheExponents := by
  intro s c hc hst hcfg hread
  have hin {w b : Nat} (h : inT s c w b) : scaleCell params s c (w, b) =
      .ok (params.iqExp (byteAt s.mem .sf c (s.grp c w * 64 + b))) := by
    obtain ⟨hcb, hsf⟩ := hread w h.1 b h.2.1
    exact scaleCell_of_inT h hcb (hsf h.2.2)
  have hout {w b : Nat} (h : ¬ inT s c w b) : scaleCell params s c (w, b) = .ok (0, 0) :=
    scaleCell_of_not_inT h fun hw hb => (hread w hw b hb).1
  obtain ⟨cells, hcells⟩ : ∃ cells, (pairList 8 64).mapM (scaleCell params s c) = .ok cells := by
    refine exists_mapM fun wb _ => ?_
    by_cases h : inT s c wb.1 wb.2
    · exact ⟨_, hin h⟩
    · exact ⟨_, hout h⟩
  have hrule := exec_of_ok (i := .iqScale c) (iqScale_ok.2 ⟨hc, hst, cfgOk_iff.1 hcfg, cells, hcells, rfl⟩)
  have hfrac := frac_setStage_setFrac (s := s.putBytes .exp c 0 (cells.map (·.1))) hc (cells.map (·.2)) .scaled
  have hlen : (cells.map (·.1)).length = 512 := by
    rw [List.length_map, ← (mapM_ok.1 hcells).length_eq, length_pairList]
  have hcell {w b : Nat} {v : Byte × BitVec 2} (hw : w < 8) (hb : b < 64) (hv : scaleCell params s c (w, b) = .ok v) :
      cells[w * 64 + b]? = some v := mapM_getElem? hcells (pairList_getElem? hw hb) hv
  refine ⟨_, hrule, ?_, fun w hw b hb => ⟨fun h => ?_, fun h => ?_⟩, fun a ha => readByte_putBytes_apart (hlen.symm ▸ ha)⟩
  · rw [hfrac, setStage_setFrac hc]
    rfl
  all_goals refine ⟨readByte_putBytes_zero ?_, fracAt_of_vecOfList hfrac hw hb ?_⟩
  · rw [List.getElem?_map, hcell hw hb (hin h)]; rfl
  · rw [List.getElem?_map, hcell hw hb (hin h)]; rfl
  · rw [List.getElem?_map, hcell hw hb (hout h)]; rfl
  · rw [List.getElem?_map, hcell hw hb (hout h)]; rfl

/-! ### IQ_DEQUANT: the bands and values it reads -/

/-- T of R272, in window and band order. -/
def transmittedBands (s : State) (c : Nat) : List (Nat × Nat) :=
  (pairList (s.nwin c) (s.maxSfb c)).filter (fun wb => isCoded s c (s.grp c wb.1) wb.2)

/-- The quantised values of a band. -/
def quantLines (s : State) (c : Nat) (wb : Nat × Nat) : List Word :=
  (List.range (s.bandWidth c wb.2)).map (fun k => wordAt s.mem .qin c (s.lineLo params c wb.1 wb.2 + k))

/-- The quantised value of line k of band (w, b) is written and at most QMAX. -/
def LineInRange (s : State) (c w b k : Nat) : Prop := ∃ q : Word,
  readWord s.mem (cellAddr .qin c (s.lineLo params c w b + k)) = some q ∧ q.toInt.natAbs ≤ 8191

section
variable {s : State} {c : Nat}

theorem mem_transmittedBands {wb : Nat × Nat} : wb ∈ transmittedBands s c ↔ inT s c wb.1 wb.2 := by
  rw [transmittedBands, List.mem_filter, mem_pairList, and_assoc]
  rfl

theorem transmittedBands_rising (s : State) (c : Nat) : (transmittedBands s c).Pairwise BandBefore :=
  (pairList_rising _ _).filter _

theorem filterRun_isTransmitted
    (h : ∀ w < s.nwin c, ∀ b < s.maxSfb c, byteMarked s.mem .cb c (s.grp c w * 64 + b)) :
    filterRun (isTransmitted params s c) (pairList (s.nwin c) (s.maxSfb c)) = .ok (transmittedBands s c) := by
  refine filterRun_eq_filter fun wb hwb => ?_
  obtain ⟨hw, hb⟩ := mem_pairList.1 hwb
  rw [isTransmitted, getCb_marked (h _ hw _ hb), ok_bind]
  rfl

/-- One line, read and checked. -/
theorem readLine_ok {w b k b' : Nat} (h : LineInRange s c w b k) :
    (getWordAt s.mem (cellAddr .qin c (s.lineLo params c w b + k)) >>= checkQ params c b') =
      .ok (wordAt s.mem .qin c (s.lineLo params c w b + k)) := by
  obtain ⟨q, hq, hle⟩ := h
  have hfits : decide (params.qMax < q.toInt.natAbs) = false := decide_eq_false (Nat.not_lt.2 hle)
  rw [getWordAt_ok.2 hq, ok_bind, checkQ, hfits, raiseIf_false, ok_bind, wordAt, hq, Option.getD_some]

/-- A band whose values are all in range is read as its lines. -/
theorem readQuant_ok {wb : Nat × Nat} (h : ∀ k < s.bandWidth c wb.2, LineInRange s c wb.1 wb.2 k) :
    readQuant params s c wb = .ok (wb, quantLines s c wb) := by
  have hlines : walkWords (checkQ params c wb.2) (s.bandWidth c wb.2) s.mem
      (cellAddr .qin c (s.lineLo params c wb.1 wb.2)) = .ok (quantLines s c wb) := by
    rw [walkWords_eq]
    refine mapM_eq_map fun k hk => ?_
    rw [← cellAddr_add]
    exact readLine_ok (h k (List.mem_range.1 hk))
  rw [readQuant, hlines, ok_bind]

/-- A band stops at its first value above QMAX. -/
theorem readQuant_error {w b k : Nat} {q : Word} (hk : k < s.bandWidth c b)
    (hbefore : ∀ k' < k, LineInRange s c w b k')
    (hq : readWord s.mem (cellAddr .qin c (s.lineLo params c w b + k)) = some q) (hbig : 8191 < q.toInt.natAbs) :
    readQuant params s c (w, b) = .error (.raise { cause := .iqRange, index := c, band := b }) := by
  have hexceeds : decide (params.qMax < q.toInt.natAbs) = true := decide_eq_true hbig
  have hline : (getWordAt s.mem (cellAddr .qin c (s.lineLo params c w b) + 4 * k) >>= checkQ params c b) =
      .error (.raise { cause := .iqRange, index := c, band := b }) := by
    rw [← cellAddr_add, getWordAt_ok.2 hq, ok_bind, checkQ, hexceeds, raiseIf_true, error_bind]
  obtain ⟨post, hsplit⟩ : ∃ post, List.range (s.bandWidth c b) = List.range k ++ k :: post := by
    obtain ⟨n, hn⟩ : ∃ n, s.bandWidth c b = k + (n + 1) := ⟨s.bandWidth c b - k - 1, by omega⟩
    exact ⟨_, by rw [hn, List.range_add, List.range_succ_eq_map, List.map_cons, Nat.add_zero]⟩
  have hwalk : walkWords (checkQ params c b) (s.bandWidth c b) s.mem (cellAddr .qin c (s.lineLo params c w b)) =
      .error (.raise { cause := .iqRange, index := c, band := b }) := by
    rw [walkWords_eq, hsplit]
    refine mapM_first_error (fun k' hk' => ?_) hline
    rw [← cellAddr_add]
    exact ⟨_, readLine_ok (hbefore k' (List.mem_range.1 hk'))⟩
  rw [readQuant, hwalk, error_bind]

end

/-! ### IQ_DEQUANT: the lines it writes -/

/-- u is s with MANT of channel c cleared and the bands of `done` dequantised (R272). -/
structure Dequantised (s : State) (c : Nat) (done : List (Nat × Nat)) (u : State) : Prop where
  frame : u = { s with mem := u.mem }
  lines : ∀ wb ∈ done, ∀ k < s.bandWidth c wb.2,
    readWord u.mem (cellAddr .mant c (s.lineLo params c wb.1 wb.2 + k)) =
      some (params.iqMant (wordAt s.mem .qin c (s.lineLo params c wb.1 wb.2 + k)) (s.fracAt c wb.1 wb.2))
  zeros : ∀ j < 1024, (∀ wb ∈ done, j < s.lineLo params c wb.1 wb.2 ∨
      s.lineLo params c wb.1 wb.2 + s.bandWidth c wb.2 ≤ j) → readWord u.mem (cellAddr .mant c j) = some 0
  outside : ∀ a, ¬ inCells .mant c 0 1024 a → readByte u.mem a = readByte s.mem a

section
variable {s : State} {c : Nat}

/-- MANT cleared, no band dequantised yet. -/
theorem dequantised_nil (s : State) (c : Nat) :
    Dequantised s c [] (s.putWords .mant c 0 (List.replicate 1024 0)) where
  frame := rfl
  lines _ h := absurd h List.not_mem_nil
  zeros j hj _ := readWord_putWords_zero (by rw [List.getElem?_replicate, if_pos hj])
  outside a ha := readByte_putWords_apart (by rwa [List.length_replicate])

/-- The lines of a band written leave every line outside it. -/
theorem readWord_putWords_line {u : State} {M : ChMem} {i j : Nat} {ws : List Word}
    (h : j < i ∨ i + ws.length ≤ j) :
    readWord (u.putWords M c i ws).mem (cellAddr M c j) = readWord u.mem (cellAddr M c j) := by
  refine readWord_putWords_outside ?_
  unfold cellAddr
  omega

/-- One more band. -/
theorem Dequantised.step (hcfg : CfgOk s c) {done : List (Nat × Nat)} {wb : Nat × Nat} {u : State}
    (hdone : ∀ p ∈ done, p.2 < s.maxSfb c) (hw : wb.1 < s.nwin c) (hb : wb.2 < s.maxSfb c) (hnew : wb ∉ done)
    (h : Dequantised s c done u) : Dequantised s c (done ++ [wb]) (putDequant params c u (wb, quantLines s c wb)) := by
  obtain ⟨hin, _, _⟩ := band_inside hcfg hw hb
  have hfrac : u.fracAt c wb.1 wb.2 = s.fracAt c wb.1 wb.2 := by rw [h.frame]; rfl
  have hlo : u.lineLo params c wb.1 wb.2 = s.lineLo params c wb.1 wb.2 := by rw [h.frame]; rfl
  have hput : putDequant params c u (wb, quantLines s c wb) = u.putWords .mant c (s.lineLo params c wb.1 wb.2)
      ((quantLines s c wb).map (fun q => params.iqMant q (s.fracAt c wb.1 wb.2))) := by
    rw [putDequant, hfrac, hlo]
  have hlen : ((quantLines s c wb).map (fun q => params.iqMant q (s.fracAt c wb.1 wb.2))).length =
      s.bandWidth c wb.2 := by simp [quantLines]
  rw [hput]
  refine ⟨?_, fun p hp k hk => ?_, fun j hj hout => ?_, fun a ha => ?_⟩
  · rw [State.putWords, h.frame]
  · rcases List.mem_append.1 hp with hp | hp
    · have hne : p ≠ wb := fun heq => hnew (heq ▸ hp)
      rw [readWord_putWords_line (by have := lines_apart hcfg (hdone p hp) hb hne; omega)]
      exact h.lines p hp k hk
    · obtain rfl := List.mem_singleton.1 hp
      rw [readWord_putWords (hlen.symm ▸ hk)]
      simp [quantLines]
  · have hwb := hout wb (by simp)
    rw [readWord_putWords_line (by omega)]
    exact h.zeros j hj fun p hp => hout p (List.mem_append_left _ hp)
  · rw [readByte_putWords_apart fun hmem => ha (inCells_mono (by omega) (by omega) hmem)]
    exact h.outside a ha

/-- The writes of IQ_DEQUANT dequantise all of T. -/
theorem dequantised_all (hcfg : CfgOk s c) : Dequantised s c (transmittedBands s c)
    (((transmittedBands s c).map (fun wb => (wb, quantLines s c wb))).foldl (putDequant params c)
      (s.putWords .mant c 0 (List.replicate params.nLong 0))) := by
  rw [List.foldl_map]
  refine foldl_initial (I := Dequantised s c) _ (fun pre wb post hl u hu => ?_) (dequantised_nil s c)
  have hmem {p : Nat × Nat} (hp : p ∈ pre ++ wb :: post) : p.1 < s.nwin c ∧ p.2 < s.maxSfb c := by
    obtain ⟨hw, hb, _⟩ := mem_transmittedBands.1 (hl ▸ hp)
    exact ⟨hw, hb⟩
  obtain ⟨hw, hb⟩ := hmem (List.mem_append_right pre List.mem_cons_self)
  exact hu.step hcfg (fun p hp => (hmem (List.mem_append_left _ hp)).2) hw hb
    (not_mem_of_nodup_append (hl ▸ nodup_of_rising (transmittedBands_rising s c)))

end

/-- Settles O30: the values are read for all of T, and then written band by band. -/
theorem iqDequantWritesTheMantissas : Obligations.IqDequantWritesTheMantissas := by
  intro s c hc hst hcfg hcb hq
  have hquants := mapM_eq_map (f := readQuant params s c) (g := fun wb => (wb, quantLines s c wb))
    (l := transmittedBands s c) fun wb hwb => readQuant_ok fun k hk => hq _ _ k (mem_transmittedBands.1 hwb) hk
  have hrule := exec_of_ok (i := .iqDequant c)
    (iqDequant_ok.2 ⟨hc, hst, cfgOk_iff.1 hcfg, _, _, filterRun_isTransmitted hcb, hquants, rfl⟩)
  have hall := dequantised_all hcfg
  generalize ((transmittedBands s c).map (fun wb => (wb, quantLines s c wb))).foldl (putDequant params c) _ = u
    at hrule hall
  obtain ⟨hframe, hlines, hzeros, houtside⟩ := hall
  refine ⟨_, hrule, ?_, fun w b k hT hk => hlines (w, b) (mem_transmittedBands.2 hT) k hk,
    fun j hj hout => hzeros j hj fun wb hwb => hout wb.1 wb.2 (mem_transmittedBands.1 hwb), houtside⟩
  rw [hframe]
  rfl

/-- Settles O31: the bands before (w, b) in T are read, and (w, b) stops at line k. -/
theorem iqDequantRangeError : Obligations.IqDequantRangeError := by
  intro s c w b k q hc hst hcfg hcb hT hk hread hbig hbefore
  have hrise := transmittedBands_rising s c
  obtain ⟨pre, post, hsplit⟩ := List.append_of_mem (mem_transmittedBands (wb := (w, b)).2 hT)
  have hpre : ∀ p ∈ pre, ∃ y, readQuant params s c p = .ok y := by
    intro p hp
    have hpT : inT s c p.1 p.2 := mem_transmittedBands.1 (hsplit ▸ List.mem_append_left _ hp)
    have hpb : BandBefore p (w, b) := by
      rw [hsplit, List.pairwise_append] at hrise
      exact hrise.2.2 p hp (w, b) List.mem_cons_self
    refine ⟨_, readQuant_ok fun k' hk' => hbefore _ _ k' hpT hk' ?_⟩
    exact hpb.imp_right fun ⟨hw, hb⟩ => ⟨hw, .inl hb⟩
  have hstop := readQuant_error hk
    (fun k' hk' => hbefore w b k' hT (by omega) (.inr ⟨rfl, .inr ⟨rfl, hk'⟩⟩)) hread hbig
  refine exec_of_raise ?_ rfl
  rw [commandRule, iqDequant, chkCh_pass hc, ok_bind, chkStage_pass hst, ok_bind, cfgOk_iff.1 hcfg, ok_bind,
    filterRun_isTransmitted hcb, ok_bind, hsplit, mapM_first_error hpre hstop, error_bind]

end Sys2Proof.Proofs
end

section
/-! The band operators on the bands in memory (R202, R214, R215, R218, R219): where the bytes of a band lie, what an
operator stores, and what it leaves. -/

namespace Sys2Proof.Proofs

open Sys2Proof Sys2Proof.Machine

/-! ### States that differ in memory and OVF only -/

/-- The frame of every band operator. -/
def MemFrame (s u : State) : Prop := u = { s with mem := u.mem, ovf := u.ovf }

theorem MemFrame.refl (s : State) : MemFrame s s := rfl

theorem MemFrame.trans {s t u : State} (h : MemFrame s t) (h' : MemFrame t u) : MemFrame s u := by
  unfold MemFrame at *
  rw [h', h]

theorem memFrame_setBandOf (s : State) (mm em : ChMem) (c w b : Nat) (x : Band) :
    MemFrame s (s.setBandOf params mm em c w b x) :=
  ((putWords_memOnly _ _ _ _ _).trans (putBytes_memOnly _ _ _ _ _)).1

theorem memFrame_orOvf (s : State) (v : Bool) : MemFrame s (s.orOvf v) := (orOvf_memOnly s v).1

section
variable {s u : State} (h : MemFrame s u)
include h

theorem MemFrame.ch (c : Nat) : u.ch c = s.ch c := by rw [h]; rfl

theorem MemFrame.lineLo (c w b : Nat) : u.lineLo params c w b = s.lineLo params c w b := by rw [h]; rfl

theorem MemFrame.bandWidth (c b : Nat) : u.bandWidth c b = s.bandWidth c b := by rw [h]; rfl

theorem MemFrame.bandInside {c w b : Nat} (hin : BandInside s c w b) : BandInside u c w b :=
  ⟨hin.slot, by rw [h.lineLo, h.bandWidth]; exact hin.lines, hin.window, hin.band⟩

end

theorem bandOf_orOvf (s : State) (v : Bool) (mm em : ChMem) (c w b : Nat) :
    (s.orOvf v).bandOf params mm em c w b = s.bandOf params mm em c w b := rfl

theorem bandWidth_setBandOf (s : State) (mm em : ChMem) (c w b : Nat) (x : Band) (d b' : Nat) :
    (s.setBandOf params mm em c w b x).bandWidth d b' = s.bandWidth d b' := rfl

theorem setBand_eq (s : State) (c w b : Nat) (x : Band) :
    s.setBand params c w b x = s.setBandOf params .mant .exp c w b x := rfl

/-- A write of channel registers that keeps ICS leaves every band as it is. -/
theorem bandOf_setCh (s : State) (c : Nat) {x : Channel} (hx : x.ics = (s.ch c).ics) (mm em : ChMem) (d w b : Nat) :
    (s.setCh c x).bandOf params mm em d w b = s.bandOf params mm em d w b := by
  have hshort : (s.setCh c x).short d = s.short d := by
    unfold State.short
    rcases State.ch_setCh_eq_or s c d x with h | ⟨rfl, h⟩ <;> rw [h]
    rw [hx]
  have hlo : (s.setCh c x).lineLo params d w b = s.lineLo params d w b := by
    unfold State.lineLo State.wlen State.off
    rw [hshort]
    rfl
  have hwidth : (s.setCh c x).bandWidth d b = s.bandWidth d b := by
    unfold State.bandWidth State.off
    rw [hshort]
    rfl
  rw [State.bandOf, State.bandOf, hlo, hwidth]
  rfl

/-! ### The bytes of a band -/

/-- Address a is a byte of band (w, b) of channel c in mantissa memory mm and exponent memory em. -/
def InBand (s : State) (mm em : ChMem) (c w b a : Nat) : Prop :=
  inCells mm c (s.lineLo params c w b) (s.bandWidth c b) a ∨ inCells em c (w * 64 + b) 1 a

theorem MemFrame.inBand {s u : State} (h : MemFrame s u) {mm em : ChMem} {c w b a : Nat} :
    InBand u mm em c w b a ↔ InBand s mm em c w b a := by
  rw [InBand, InBand, h.lineLo, h.bandWidth]

/-- Two bands differ: in their memories, in their channel, or in their place. -/
def BandsDiffer (s : State) (mm em mm' em' : ChMem) (c c' : Nat) (p q : Nat × Nat) : Prop :=
  (mm ≠ mm' ∧ em ≠ em') ∨ c ≠ c' ∨ (p ≠ q ∧ (s.lineLo params c p.1 p.2 + s.bandWidth c p.2 ≤ s.lineLo params c q.1 q.2 ∨
    s.lineLo params c q.1 q.2 + s.bandWidth c q.2 ≤ s.lineLo params c p.1 p.2))

section
variable {s : State} {mm em mm' em' : ChMem} (hmm : mm.isWord = true) (hem : em.isWord = false)
  {c c' w b w' b' a : Nat} (hin : BandInside s c w b)
include hmm hem hin

omit hmm hem in
/-- The bytes of a band are bytes of its two memories. -/
theorem inBand_memories (ha : InBand s mm em c w b a) : inCells mm c 0 1024 a ∨ inCells em c 0 512 a := by
  have hlines := hin.lines
  have hw := hin.window
  have hb := hin.band
  exact ha.imp (inCells_mono (by omega) (by omega)) (inCells_mono (by omega) (by omega))

/-- Bands that differ share no byte. -/
theorem not_inBand (hmm' : mm'.isWord = true) (hem' : em'.isWord = false) (hin' : BandInside s c' w' b')
    (hdiff : BandsDiffer s mm em mm' em' c c' (w, b) (w', b')) (ha : InBand s mm em c w b a) :
    ¬ InBand s mm' em' c' w' b' a := by
  obtain ⟨_, hlines, hw, hb⟩ := hin
  obtain ⟨_, hlines', hw', hb'⟩ := hin'
  have hsize := memSize_word hmm
  have hsize' := memSize_word hmm'
  have hsizeE := memSize_byte hem
  have hsizeE' := memSize_byte hem'
  have hne : mm ≠ em' := fun h => by rw [h, hem'] at hmm; cases hmm
  have hne' : em ≠ mm' := fun h => by rw [h, hmm'] at hem; cases hem
  rintro (hb1 | hb1) <;> rcases ha with ha | ha
  · by_cases hsame : mm = mm' ∧ c = c'
    · obtain ⟨rfl, rfl⟩ := hsame
      rcases hdiff with ⟨h, _⟩ | h | ⟨_, h⟩
      · exact h rfl
      · exact h rfl
      · exact not_inCells_of_apart h ha hb1
    · exact not_inCells_of_ne (by omega) (by omega) (by tauto) ha hb1
  · exact not_inCells_of_ne (by omega) (by omega) (.inl hne') ha hb1
  · exact not_inCells_of_ne (by omega) (by omega) (.inl hne) ha hb1
  · by_cases hsame : em = em' ∧ c = c'
    · obtain ⟨rfl, rfl⟩ := hsame
      rcases hdiff with ⟨_, h⟩ | h | ⟨h, _⟩
      · exact h rfl
      · exact h rfl
      · have hcell : w * 64 + b ≠ w' * 64 + b' := fun heq => h (Prod.ext (by simp only; omega) (by simp only; omega))
        exact not_inCells_of_apart (by omega) ha hb1
    · exact not_inCells_of_ne (by omega) (by omega) (by tauto) ha hb1

/-- A stored band reads back when its values fit their cells. -/
theorem bandOf_setBandOf {x : Band} (hl : x.mant.length = s.bandWidth c b) (hm : ∀ m ∈ x.mant, -2 ^ 31 ≤ m ∧ m < 2 ^ 31)
    (hlo : -128 ≤ x.exp) (hhi : x.exp ≤ 127) :
    (s.setBandOf params mm em c w b x).bandOf params mm em c w b = .ok x := by
  obtain ⟨_, hlines, hw, hb⟩ := hin
  refine bandOf_ok.2 ⟨x.mant.map (BitVec.ofInt 32), BitVec.ofInt 8 x.exp, getWords_ok.2 ⟨by rw [List.length_map, hl]; rfl,
    fun k hk => ?_⟩, readByte_putBytes (bs := [BitVec.ofInt 8 x.exp]) (k := 0) (by simp), ?_⟩
  · rw [List.length_map, hl] at hk
    have hapart := word_apart_from_bytes hmm hem (c := c) (c' := c) (k := s.lineLo params c w b + k) (i := w * 64 + b)
      (n := 1) (by omega) (by omega)
    exact (readWord_putBytes_outside hapart).trans (readWord_putWords (by rwa [List.length_map, hl]))
  · have hexp : (BitVec.ofInt 8 x.exp).toInt = x.exp :=
      BitVec.toInt_ofInt_eq_self (by decide) (by simpa using hlo) (by simp; omega)
    have hmant : (x.mant.map (BitVec.ofInt 32)).map BitVec.toInt = x.mant := by
      rw [List.map_map]
      refine List.map_congr_left (g := id) (fun m hmem => ?_) |>.trans (List.map_id _)
      obtain ⟨hmlo, hmhi⟩ := hm m hmem
      exact BitVec.toInt_ofInt_eq_self (by decide) (by simpa using hmlo) (by simpa using hmhi)
    rw [hexp, hmant]

omit hmm hem hin in
/-- Storing a band changes no other byte. -/
theorem readByte_setBandOf_apart {x : Band} (hl : x.mant.length = s.bandWidth c b) (ha : ¬ InBand s mm em c w b a) :
    readByte (s.setBandOf params mm em c w b x).mem a = readByte s.mem a := by
  rw [InBand, not_or] at ha
  exact (readByte_putBytes_apart ha.2).trans (readByte_putWords_apart (by rw [List.length_map, hl]; exact ha.1))

omit hmm hem hin in
/-- A band is read alike where its bytes are the same. -/
theorem bandOf_congr {u : State} {x : Band} (hf : MemFrame s u)
    (hsame : ∀ a, InBand s mm em c w b a → readByte u.mem a = readByte s.mem a)
    (h : s.bandOf params mm em c w b = .ok x) : u.bandOf params mm em c w b = .ok x := by
  obtain ⟨ws, e, hws, he, rfl⟩ := bandOf_ok.1 h
  obtain ⟨hlen, hwords⟩ := getWords_ok.1 hws
  refine bandOf_ok.2 ⟨ws, e, getWords_ok.2 ⟨by rw [hf.bandWidth, hlen], fun k hk => ?_⟩, ?_, rfl⟩
  · rw [hf.lineLo]
    exact (readWord_congr fun j hj => hsame _ (.inl (inCells_cell (by omega) (by omega) hj))).trans (hwords k hk)
  · exact (hsame _ (.inr (inCells_cell (j := 0) (by omega) (by omega) (by omega)))).trans he

end

/-! ### Values that fit their cells -/

/-- A band whose values fit 32-bit mantissa cells and an 8-bit exponent cell (R200, R202). -/
structure BandFits (x : Band) : Prop where
  mant : ∀ m ∈ x.mant, -2 ^ 31 ≤ m ∧ m < 2 ^ 31
  low : -128 ≤ x.exp
  high : x.exp ≤ 127

theorem bandOf_fits {s : State} {mm em : ChMem} {c w b : Nat} {x : Band} (h : s.bandOf params mm em c w b = .ok x) :
    BandFits x := by
  obtain ⟨ws, e, _, _, rfl⟩ := bandOf_ok.1 h
  refine ⟨fun m hm => ?_, ?_, ?_⟩
  · obtain ⟨v, _, rfl⟩ := List.mem_map.1 hm
    exact ⟨by simpa using BitVec.le_toInt v, by simpa using BitVec.toInt_lt (x := v)⟩
  · simpa using BitVec.le_toInt e
  · have := BitVec.toInt_lt (x := e)
    simp only at this ⊢
    omega

/-- A renormalised band fits: the shift is the least that brings its values into 32 bits, or more (R212). -/
theorem renorm_fits (xs : List Int) (e0 : Int) {eold : Int} (hlo : -128 ≤ eold) (hhi : eold ≤ 127) :
    BandFits (renorm xs e0 eold).1 := by
  cases hz : allZero xs with
  | true =>
    rw [renorm_of_allZero hz]
    exact ⟨fun m hm => by rw [(allZero_eq_true_iff xs).1 hz m hm]; omega, hlo, hhi⟩
  | false =>
    rcases Int.lt_or_le 127 (e0 + (leastShift xs : Int)) with hhigh | hmid
    · rw [renorm_of_high hz hhigh]
      refine ⟨fun m hm => ?_, by simp, by simp⟩
      obtain ⟨x, _, rfl⟩ := List.mem_map.1 hm
      rw [sat32_eq]
      omega
    rcases Int.lt_or_le (e0 + (leastShift xs : Int)) (-128) with hlow | hmid'
    · rw [renorm_of_low hz hlow]
      refine ⟨fun m hm => ?_, by simp, by simp⟩
      obtain ⟨x, hx, rfl⟩ := List.mem_map.1 hm
      exact (leastShift_le_iff xs _).1 (by omega) x hx
    · rw [renorm_of_mid hz hmid' hmid]
      refine ⟨fun m hm => ?_, hmid', hmid⟩
      obtain ⟨x, hx, rfl⟩ := List.mem_map.1 hm
      exact (leastShift_le_iff xs _).1 (Nat.le_refl _) x hx

section
variable {x y : Band} (hx : BandFits x)
include hx

theorem op2_fits (hy : BandFits y) {f : Int → Int → Int × Int} {r : Op2Result} (h : op2 params f x y = some r) :
    BandFits r.fst ∧ BandFits r.snd := by
  by_cases hz : x.isZero ∧ y.isZero
  · rw [op2_zero params f hz] at h
    cases h
  · rw [op2_lanes f hz] at h
    cases h
    exact ⟨renorm_fits _ _ hx.low hx.high, renorm_fits _ _ hy.low hy.high⟩

theorem add1_fits {z : List Int} {ez : Int} {r : Band × Bool} (h : add1 params x z ez = some r) : BandFits r.1 := by
  by_cases hz : x.isZero ∧ ∀ v ∈ z, v = 0
  · rw [add1_zero params hz] at h
    cases h
  · rw [add1_lanes hz] at h
    cases h
    exact renorm_fits _ _ hx.low hx.high

omit hx in
theorem halfSum_fits (x y : Band) : BandFits (halfSum params x y).1 := by
  by_cases hz : x.isZero ∧ y.isZero
  · rw [halfSum_zero params hz]
    refine ⟨fun m hm => ?_, by simp, by simp⟩
    obtain ⟨_, _, rfl⟩ := List.mem_map.1 hm
    omega
  · rw [halfSum_lanes hz]
    exact renorm_fits _ _ (by omega) (by omega)

end

/-! ### What each operator stores -/

/-- t is u with the bands (w, b) of two channels replaced by x and y, and OVF raised where `sat` says so. -/
structure PairStored (u : State) (c1 c2 w b : Nat) (x y : Band) (sat : Prop) (t : State) : Prop where
  frame : MemFrame u t
  fst : t.band params c1 w b = .ok x
  snd : t.band params c2 w b = .ok y
  outside : ∀ a, ¬ InBand u .mant .exp c1 w b a → ¬ InBand u .mant .exp c2 w b a → readByte t.mem a = readByte u.mem a
  ovf : t.ovf = true ↔ u.ovf = true ∨ sat

/-- t is u with band (w, b) of channel c replaced by x in memories mm and em, and OVF raised where `sat` says so. -/
structure BandStored (u : State) (mm em : ChMem) (c w b : Nat) (x : Band) (sat : Prop) (t : State) : Prop where
  frame : MemFrame u t
  band : t.bandOf params mm em c w b = .ok x
  outside : ∀ a, ¬ InBand u mm em c w b a → readByte t.mem a = readByte u.mem a
  ovf : t.ovf = true ↔ u.ovf = true ∨ sat

/-- OP2 of two readable bands of one width completes (R214). -/
theorem op2At_stored {u : State} {f : Int → Int → Int × Int} {c1 c2 w b : Nat} {x y : Band}
    (hx : u.band params c1 w b = .ok x) (hy : u.band params c2 w b = .ok y) (hne : c1 ≠ c2)
    (hin1 : BandInside u c1 w b) (hin2 : BandInside u c2 w b) (hwidth : u.bandWidth c1 b = u.bandWidth c2 b) :
    ∃ t, u.op2At params f c1 c2 w b = .ok t ∧
      PairStored u c1 c2 w b (pairAfter f x y).1 (pairAfter f x y).2 (PairSaturates f x y) t := by
  have hlx := bandOf_length hx
  have hly := bandOf_length hy
  cases hop : op2 params f x y with
  | none =>
    have hrun : u.op2At params f c1 c2 w b = .ok u := op2At_ok.2 ⟨x, y, hx, hy, .inl ⟨hop, rfl⟩⟩
    have hafter : pairAfter f x y = (x, y) := by rw [pairAfter, hop]
    rw [hafter]
    exact ⟨u, hrun, .refl u, hx, hy, fun _ _ _ => rfl, op2At_ovf_iff hx hy hrun⟩
  | some r =>
    have hrun := op2At_ok.2 ⟨x, y, hx, hy, .inr ⟨r, hop, rfl⟩⟩
    have hafter : pairAfter f x y = (r.fst, r.snd) := by rw [pairAfter, hop]
    obtain ⟨hfit1, hfit2⟩ := op2_fits (bandOf_fits hx) (bandOf_fits hy) hop
    obtain ⟨hlen1, hlen2⟩ := op2_length hop (by omega)
    have hframe1 := memFrame_setBandOf u .mant .exp c1 w b r.fst
    have hlen2' : r.snd.mant.length = (u.setBandOf params .mant .exp c1 w b r.fst).bandWidth c2 b := by
      rw [bandWidth_setBandOf]
      omega
    have hread1 := bandOf_setBandOf (mm := .mant) (em := .exp) rfl rfl hin1 (hlen1.trans hlx) hfit1.mant hfit1.low
      hfit1.high
    have hread2 := bandOf_setBandOf (mm := .mant) (em := .exp) rfl rfl (hframe1.bandInside hin2) hlen2' hfit2.mant
      hfit2.low hfit2.high
    have hovf := op2At_ovf_iff hx hy hrun
    rw [setBand_eq, setBand_eq] at hrun hovf
    rw [hafter]
    refine ⟨_, hrun, hframe1.trans ((memFrame_setBandOf _ _ _ _ _ _ _).trans (memFrame_orOvf _ _)), ?_, ?_,
      fun a ha1 ha2 => ?_, hovf⟩
    · refine (bandOf_orOvf _ _ _ _ _ _ _).trans (bandOf_congr (memFrame_setBandOf _ _ _ _ _ _ _)
        (fun a ha => readByte_setBandOf_apart hlen2' ?_) hread1)
      exact not_inBand rfl rfl (hframe1.bandInside hin1) rfl rfl (hframe1.bandInside hin2) (.inr (.inl hne)) ha
    · exact (bandOf_orOvf _ _ _ _ _ _ _).trans hread2
    · rw [orOvf_mem]
      exact (readByte_setBandOf_apart hlen2' fun ha => ha2 (hframe1.inBand.1 ha)).trans
        (readByte_setBandOf_apart (by omega) ha1)

/-- ADD1 into a readable band completes (R218). -/
theorem add1At_stored {u : State} {c w b : Nat} {x : Band} {z : List Int} {ez : Int}
    (hx : u.band params c w b = .ok x) (hin : BandInside u c w b) (hz : z.length = u.bandWidth c b) :
    ∃ t, u.add1At params c w b z ez = .ok t ∧
      BandStored u .mant .exp c w b (addAfter x z ez) (AddSaturates x z ez) t := by
  have hlx := bandOf_length hx
  cases hop : add1 params x z ez with
  | none =>
    have hrun : u.add1At params c w b z ez = .ok u := add1At_ok.2 ⟨x, hx, .inl ⟨hop, rfl⟩⟩
    have hafter : addAfter x z ez = x := by rw [addAfter, hop]
    rw [hafter]
    exact ⟨u, hrun, .refl u, hx, fun _ _ => rfl, add1At_ovf_iff hx hrun⟩
  | some r =>
    have hrun := add1At_ok.2 ⟨x, hx, .inr ⟨r, hop, rfl⟩⟩
    have hafter : addAfter x z ez = r.1 := by rw [addAfter, hop]
    have hfit := add1_fits (bandOf_fits hx) hop
    have hlen := (add1_length hop (by omega)).trans hlx
    have hread := bandOf_setBandOf (mm := .mant) (em := .exp) rfl rfl hin hlen hfit.mant hfit.low hfit.high
    have hovf := add1At_ovf_iff hx hrun
    rw [setBand_eq] at hrun hovf
    rw [hafter]
    refine ⟨_, hrun, (memFrame_setBandOf _ _ _ _ _ _ _).trans (memFrame_orOvf _ _),
      (bandOf_orOvf _ _ _ _ _ _ _).trans hread, fun a ha => ?_, hovf⟩
    rw [orOvf_mem]
    exact readByte_setBandOf_apart hlen ha

/-- The half-sum of two readable bands of one width goes to the downmix history (R219, R292). -/
theorem dmxBand_stored {u : State} {c1 c2 w b : Nat} {x y : Band} (hx : u.band params c1 w b = .ok x)
    (hy : u.band params c2 w b = .ok y) (hin : BandInside u c1 w b) (hwidth : u.bandWidth c1 b = u.bandWidth c2 b) :
    ∃ t, dmxBand params c1 c2 u (w, b) = .ok t ∧
      BandStored u .dmxm .dmxe c1 w b (halfSum params x y).1 (HalfSaturates x y) t := by
  have hlx := bandOf_length hx
  have hly := bandOf_length hy
  have hrun : dmxBand params c1 c2 u (w, b) = .ok ((u.setBandOf params .dmxm .dmxe c1 w b (halfSum params x y).1).orOvf
      (halfSum params x y).2) := by
    rw [dmxBand, hx, ok_bind, hy, ok_bind]
  have hlen := (halfSum_length (P := params) (x := x) (y := y) (by omega)).trans hlx
  have hfit := halfSum_fits x y
  have hread := bandOf_setBandOf (mm := .dmxm) (em := .dmxe) rfl rfl hin hlen hfit.mant hfit.low hfit.high
  refine ⟨_, hrun, (memFrame_setBandOf _ _ _ _ _ _ _).trans (memFrame_orOvf _ _),
    (bandOf_orOvf _ _ _ _ _ _ _).trans hread, fun a ha => ?_, dmxBand_ovf_iff hx hy hrun⟩
  rw [orOvf_mem]
  exact readByte_setBandOf_apart hlen ha

end Sys2Proof.Proofs
end

section
/-! MS_APPLY with a common window (R290, R292): the masked bands one by one, then the half-sums into the downmix
history. -/

namespace Sys2Proof.Proofs

open Sys2Proof Sys2Proof.Machine

/-- One more element that may have a property. -/
theorem exists_mem_snoc {α : Type} {Q : α → Prop} {l : List α} {x : α} :
    (∃ y ∈ l ++ [x], Q y) ↔ (∃ y ∈ l, Q y) ∨ Q x := by
  simp [or_and_right, exists_or]

/-! ### Two channels with a common window -/

/-- Two different slots with legal configurations, the same windows and the same bands, all readable (R290). -/
structure CommonWindow (s : State) (c1 c2 : Nat) : Prop where
  slot1 : c1 < 16
  slot2 : c2 < 16
  ne : c1 ≠ c2
  cfg1 : CfgOk s c1
  cfg2 : CfgOk s c2
  seq : icsWinSeq (s.ch c1).ics = icsWinSeq (s.ch c2).ics
  maxSfb : s.maxSfb c1 = s.maxSfb c2
  bands : ∀ p ∈ pairList (s.nwin c1) (s.maxSfb c1),
    (∃ x, s.band params c1 p.1 p.2 = .ok x) ∧ ∃ y, s.band params c2 p.1 p.2 = .ok y

section
variable {s : State} {c1 c2 : Nat} (h : CommonWindow s c1 c2)
include h

theorem CommonWindow.short : s.short c2 = s.short c1 := by
  unfold State.short
  rw [h.seq]

theorem CommonWindow.nwin : s.nwin c2 = s.nwin c1 := by
  unfold State.nwin
  rw [h.short]

theorem CommonWindow.bandWidth (b : Nat) : s.bandWidth c2 b = s.bandWidth c1 b := by
  unfold State.bandWidth State.off
  rw [h.short]

variable {c c' : Nat} (hc : c = c1 ∨ c = c2)
include hc

theorem CommonWindow.cfg : CfgOk s c := hc.elim (· ▸ h.cfg1) (· ▸ h.cfg2)

theorem CommonWindow.mem {p : Nat × Nat} (hp : p ∈ pairList (s.nwin c1) (s.maxSfb c1)) :
    p.1 < s.nwin c ∧ p.2 < s.maxSfb c := by
  rcases hc with rfl | rfl
  · exact mem_pairList.1 hp
  · rw [h.nwin, ← h.maxSfb]
    exact mem_pairList.1 hp

theorem CommonWindow.inside {p : Nat × Nat} (hp : p ∈ pairList (s.nwin c1) (s.maxSfb c1)) :
    BandInside s c p.1 p.2 :=
  have ⟨hw, hb⟩ := h.mem hc hp
  bandInside_of_cfg (hc.elim (· ▸ h.slot1) (· ▸ h.slot2)) (h.cfg hc) hw hb

/-- Different bands of the two channels share no byte. -/
theorem CommonWindow.apart (hc' : c' = c1 ∨ c' = c2) {p q : Nat × Nat} (hp : p ∈ pairList (s.nwin c1) (s.maxSfb c1))
    (hq : q ∈ pairList (s.nwin c1) (s.maxSfb c1)) (hne : p ≠ q) {a : Nat} (ha : InBand s .mant .exp c p.1 p.2 a) :
    ¬ InBand s .mant .exp c' q.1 q.2 a := by
  refine not_inBand rfl rfl (h.inside hc hp) rfl rfl (h.inside hc' hq) ?_ ha
  by_cases hcc : c = c'
  · exact .inr (.inr ⟨hne, lines_apart (h.cfg hc) (h.mem hc hp).2 (h.mem hc hq).2 hne⟩)
  · exact .inr (.inl hcc)

end

/-! ### The masked bands -/

/-- What MS_APPLY leaves of the two bands at p (R290). -/
def msAfter (s : State) (c1 : Nat) (p : Nat × Nat) (x y : Band) : Band × Band :=
  if s.msBit c1 (s.grp c1 p.1) p.2 then pairAfter laneMs x y else (x, y)

/-- M/S of the bands at p saturates. -/
def MsSaturates (s : State) (c1 c2 : Nat) (p : Nat × Nat) : Prop :=
  ∃ x y, s.band params c1 p.1 p.2 = .ok x ∧ s.band params c2 p.1 p.2 = .ok y ∧
    s.msBit c1 (s.grp c1 p.1) p.2 = true ∧ PairSaturates laneMs x y

/-- u is s after M/S of the bands of `done`. -/
structure MsDone (s : State) (c1 c2 : Nat) (done : List (Nat × Nat)) (u : State) : Prop where
  frame : MemFrame s u
  bands : ∀ p ∈ done, ∀ x y, s.band params c1 p.1 p.2 = .ok x → s.band params c2 p.1 p.2 = .ok y →
    u.band params c1 p.1 p.2 = .ok (msAfter s c1 p x y).1 ∧ u.band params c2 p.1 p.2 = .ok (msAfter s c1 p x y).2
  outside : ∀ a, (∀ p ∈ done, s.msBit c1 (s.grp c1 p.1) p.2 = true → ∀ c, c = c1 ∨ c = c2 →
    ¬ InBand s .mant .exp c p.1 p.2 a) → readByte u.mem a = readByte s.mem a
  ovf : u.ovf = true ↔ s.ovf = true ∨ ∃ p ∈ done, MsSaturates s c1 c2 p

section
variable {s u : State} {c1 c2 : Nat}

theorem msDone_nil (s : State) (c1 c2 : Nat) : MsDone s c1 c2 [] s where
  frame := .refl s
  bands _ h := absurd h List.not_mem_nil
  outside _ _ := rfl
  ovf := by simp

theorem msSaturates_iff {p : Nat × Nat} {x y : Band} (hx : s.band params c1 p.1 p.2 = .ok x)
    (hy : s.band params c2 p.1 p.2 = .ok y) :
    MsSaturates s c1 c2 p ↔ s.msBit c1 (s.grp c1 p.1) p.2 = true ∧ PairSaturates laneMs x y := by
  simp [MsSaturates, hx, hy]

/-- A band not done yet is as it was. -/
theorem MsDone.band_kept (hcw : CommonWindow s c1 c2) {done : List (Nat × Nat)} {p : Nat × Nat}
    (hdone : ∀ q ∈ done, q ∈ pairList (s.nwin c1) (s.maxSfb c1)) (hp : p ∈ pairList (s.nwin c1) (s.maxSfb c1))
    (hnew : p ∉ done) (h : MsDone s c1 c2 done u) {c : Nat} (hc : c = c1 ∨ c = c2) {x : Band}
    (hx : s.band params c p.1 p.2 = .ok x) : u.band params c p.1 p.2 = .ok x :=
  bandOf_congr h.frame (fun a ha => h.outside a fun q hq _ _ hc' =>
    hcw.apart hc hc' hp (hdone q hq) (fun heq => hnew (heq ▸ hq)) ha) hx

/-- One more band. -/
theorem MsDone.step (hcw : CommonWindow s c1 c2) {done : List (Nat × Nat)} {p : Nat × Nat}
    (hdone : ∀ q ∈ done, q ∈ pairList (s.nwin c1) (s.maxSfb c1)) (hp : p ∈ pairList (s.nwin c1) (s.maxSfb c1))
    (hnew : p ∉ done) (h : MsDone s c1 c2 done u) :
    ∃ t, msBand params c1 c2 u p = .ok t ∧ MsDone s c1 c2 (done ++ [p]) t := by
  obtain ⟨⟨x, hx⟩, y, hy⟩ := hcw.bands p hp
  have hux := h.band_kept hcw hdone hp hnew (.inl rfl) hx
  have huy := h.band_kept hcw hdone hp hnew (.inr rfl) hy
  have hbitu : u.msBit c1 (u.grp c1 p.1) p.2 = s.msBit c1 (s.grp c1 p.1) p.2 := by rw [h.frame]; rfl
  have hsat := msSaturates_iff hx hy
  cases hbit : s.msBit c1 (s.grp c1 p.1) p.2 with
  | false =>
    refine ⟨u, by rw [msBand, hbitu, hbit]; rfl, h.frame, fun q hq x' y' hx' hy' => ?_, fun a ha => ?_, ?_⟩
    · rcases List.mem_append.1 hq with hq | hq
      · exact h.bands q hq x' y' hx' hy'
      · obtain rfl := List.mem_singleton.1 hq
        obtain rfl := Except.ok.inj (hx.symm.trans hx')
        obtain rfl := Except.ok.inj (hy.symm.trans hy')
        rw [msAfter, hbit]
        exact ⟨hux, huy⟩
    · exact h.outside a fun q hq => ha q (List.mem_append_left _ hq)
    · rw [exists_mem_snoc, hsat, hbit, h.ovf]
      simp
  | true =>
    have hin1 := h.frame.bandInside (hcw.inside (.inl rfl) hp)
    have hin2 := h.frame.bandInside (hcw.inside (.inr rfl) hp)
    have hwidth : u.bandWidth c1 p.2 = u.bandWidth c2 p.2 := by
      rw [h.frame.bandWidth, h.frame.bandWidth, hcw.bandWidth]
    obtain ⟨t, ht, hst⟩ := op2At_stored (f := laneMs) hux huy hcw.ne hin1 hin2 hwidth
    have hkeep {c : Nat} (hc : c = c1 ∨ c = c2) {q : Nat × Nat} (hq : q ∈ done) {z : Band}
        (hz : u.band params c q.1 q.2 = .ok z) : t.band params c q.1 q.2 = .ok z := by
      have hne : q ≠ p := fun heq => hnew (heq ▸ hq)
      refine bandOf_congr hst.frame (fun a ha => ?_) hz
      rw [h.frame.inBand] at ha
      exact hst.outside a (fun hb => hcw.apart hc (.inl rfl) (hdone q hq) hp hne ha (h.frame.inBand.1 hb))
        (fun hb => hcw.apart hc (.inr rfl) (hdone q hq) hp hne ha (h.frame.inBand.1 hb))
    refine ⟨t, by rw [msBand, hbitu, hbit]; exact ht, h.frame.trans hst.frame, fun q hq x' y' hx' hy' => ?_,
      fun a ha => ?_, ?_⟩
    · rcases List.mem_append.1 hq with hq | hq
      · obtain ⟨h1, h2⟩ := h.bands q hq x' y' hx' hy'
        exact ⟨hkeep (.inl rfl) hq h1, hkeep (.inr rfl) hq h2⟩
      · obtain rfl := List.mem_singleton.1 hq
        obtain rfl := Except.ok.inj (hx.symm.trans hx')
        obtain rfl := Except.ok.inj (hy.symm.trans hy')
        rw [msAfter, hbit]
        exact ⟨hst.fst, hst.snd⟩
    · have hp' := ha p (List.mem_append_right _ (List.mem_singleton_self p)) hbit
      exact (hst.outside a (fun hb => hp' c1 (.inl rfl) (h.frame.inBand.1 hb))
        (fun hb => hp' c2 (.inr rfl) (h.frame.inBand.1 hb))).trans
          (h.outside a fun q hq => ha q (List.mem_append_left _ hq))
    · rw [exists_mem_snoc, hsat, hbit, hst.ovf, h.ovf, or_assoc]
      simp

/-- The first loop of MS_APPLY completes. -/
theorem msBands_done (hcw : CommonWindow s c1 c2) :
    ∃ u, (pairList (s.nwin c1) (s.maxSfb c1)).foldlM (msBand params c1 c2) s = .ok u ∧
      MsDone s c1 c2 (pairList (s.nwin c1) (s.maxSfb c1)) u := by
  refine foldlM_initial (I := MsDone s c1 c2) _ (fun pre p post hl u hu => ?_) (msDone_nil s c1 c2)
  have hnodup := pairList_nodup (s.nwin c1) (s.maxSfb c1)
  rw [hl] at hnodup
  exact hu.step hcw (fun q hq => hl ▸ List.mem_append_left _ hq)
    (hl ▸ List.mem_append_right _ List.mem_cons_self) (not_mem_of_nodup_append hnodup)

end

/-! ### The downmix history -/

/-- The half-sum of the bands at p saturates, after M/S. -/
def DmxSaturates (s : State) (c1 c2 : Nat) (p : Nat × Nat) : Prop :=
  ∃ x y, s.band params c1 p.1 p.2 = .ok x ∧ s.band params c2 p.1 p.2 = .ok y ∧
    HalfSaturates (msAfter s c1 p x y).1 (msAfter s c1 p x y).2

/-- The downmix history of channel c cleared (R292). -/
def dmxCleared (u : State) (c : Nat) : State :=
  (u.putWords .dmxm c 0 (List.replicate params.nLong 0)).putBytes .dmxe c 0 (List.replicate 512 0)

/-- v is u, the state after M/S, with the downmix history of c1 cleared and the half-sums of `done` in it. -/
structure DmxDone (s : State) (c1 c2 : Nat) (u : State) (done : List (Nat × Nat)) (v : State) : Prop where
  frame : MemFrame u v
  bands : ∀ p ∈ done, ∀ x y, s.band params c1 p.1 p.2 = .ok x → s.band params c2 p.1 p.2 = .ok y →
    v.bandOf params .dmxm .dmxe c1 p.1 p.2 = .ok (halfSum params (msAfter s c1 p x y).1 (msAfter s c1 p x y).2).1
  inside : ∀ a, (∀ p ∈ done, ¬ InBand s .dmxm .dmxe c1 p.1 p.2 a) →
    readByte v.mem a = readByte (dmxCleared u c1).mem a
  outside : ∀ a, ¬ inCells .dmxm c1 0 1024 a → ¬ inCells .dmxe c1 0 512 a → readByte v.mem a = readByte u.mem a
  ovf : v.ovf = true ↔ u.ovf = true ∨ ∃ p ∈ done, DmxSaturates s c1 c2 p

section
variable {s u v : State} {c1 c2 : Nat}

theorem readByte_dmxCleared (u : State) (c a : Nat) (hm : ¬ inCells .dmxm c 0 1024 a) (he : ¬ inCells .dmxe c 0 512 a) :
    readByte (dmxCleared u c).mem a = readByte u.mem a :=
  (readByte_putBytes_apart (by rwa [List.length_replicate])).trans
    (readByte_putWords_apart (by rwa [List.length_replicate, params_nLong]))

theorem readWord_dmxCleared (u : State) (c : Nat) {j : Nat} (hj : j < 1024) :
    readWord (dmxCleared u c).mem (cellAddr .dmxm c j) = some 0 := by
  refine (readWord_putBytes_outside ?_).trans
    (readWord_putWords_zero (by rw [List.getElem?_replicate, params_nLong, if_pos hj]))
  rw [List.length_replicate]
  exact word_apart_from_bytes rfl rfl hj (by omega)

theorem readByte_dmxCleared_exp (u : State) (c : Nat) {j : Nat} (hj : j < 512) :
    readByte (dmxCleared u c).mem (cellAddr .dmxe c j) = some 0 :=
  readByte_putBytes_zero (by rw [List.getElem?_replicate, if_pos hj])

theorem dmxDone_nil (s u : State) (c1 c2 : Nat) : DmxDone s c1 c2 u [] (dmxCleared u c1) where
  frame := ((putWords_memOnly _ _ _ _ _).trans (putBytes_memOnly _ _ _ _ _)).1
  bands _ h := absurd h List.not_mem_nil
  inside _ _ := rfl
  outside := readByte_dmxCleared u c1
  ovf := (or_iff_left (by simp)).symm

theorem dmxSaturates_iff {p : Nat × Nat} {x y : Band} (hx : s.band params c1 p.1 p.2 = .ok x)
    (hy : s.band params c2 p.1 p.2 = .ok y) :
    DmxSaturates s c1 c2 p ↔ HalfSaturates (msAfter s c1 p x y).1 (msAfter s c1 p x y).2 := by
  simp [DmxSaturates, hx, hy]

/-- The downmix history lies apart from the spectra. -/
theorem DmxDone.band_kept {done : List (Nat × Nat)} (h : DmxDone s c1 c2 u done v) {c w b : Nat} {z : Band}
    (hin : BandInside u c w b) (hz : u.band params c w b = .ok z) : v.band params c w b = .ok z := by
  refine bandOf_congr h.frame (fun a ha => ?_) hz
  rcases inBand_memories hin ha with hm | hm <;>
    refine h.outside a (not_inCells_of_ne ?_ ?_ (.inl ?_) hm) (not_inCells_of_ne ?_ ?_ (.inl ?_) hm) <;> decide

/-- One more half-sum. -/
theorem DmxDone.step (hcw : CommonWindow s c1 c2) (hms : MsDone s c1 c2 (pairList (s.nwin c1) (s.maxSfb c1)) u)
    {done : List (Nat × Nat)} {p : Nat × Nat} (hdone : ∀ q ∈ done, q ∈ pairList (s.nwin c1) (s.maxSfb c1))
    (hp : p ∈ pairList (s.nwin c1) (s.maxSfb c1)) (hnew : p ∉ done) (h : DmxDone s c1 c2 u done v) :
    ∃ t, dmxBand params c1 c2 v p = .ok t ∧ DmxDone s c1 c2 u (done ++ [p]) t := by
  obtain ⟨⟨x, hx⟩, y, hy⟩ := hcw.bands p hp
  obtain ⟨hux, huy⟩ := hms.bands p hp x y hx hy
  have hframe : MemFrame s v := hms.frame.trans h.frame
  have hin1 := hms.frame.bandInside (hcw.inside (.inl rfl) hp)
  have hin2 := hms.frame.bandInside (hcw.inside (.inr rfl) hp)
  have hwidth : v.bandWidth c1 p.2 = v.bandWidth c2 p.2 := by
    rw [hframe.bandWidth, hframe.bandWidth, hcw.bandWidth]
  obtain ⟨t, ht, hst⟩ := dmxBand_stored (h.band_kept hin1 hux) (h.band_kept hin2 huy) (h.frame.bandInside hin1)
    hwidth
  refine ⟨t, ht, h.frame.trans hst.frame, fun q hq x' y' hx' hy' => ?_, fun a ha => ?_, fun a hm he => ?_, ?_⟩
  · rcases List.mem_append.1 hq with hq | hq
    · have hne : q ≠ p := fun heq => hnew (heq ▸ hq)
      refine bandOf_congr hst.frame (fun a ha => hst.outside a ?_) (h.bands q hq x' y' hx' hy')
      have hcq := hcw.mem (.inl rfl) (hdone q hq)
      have hcp := hcw.mem (.inl rfl) hp
      rw [hframe.inBand] at ha ⊢
      exact not_inBand rfl rfl (hcw.inside (.inl rfl) (hdone q hq)) rfl rfl (hcw.inside (.inl rfl) hp)
        (.inr (.inr ⟨hne, lines_apart hcw.cfg1 hcq.2 hcp.2 hne⟩)) ha
    · obtain rfl := List.mem_singleton.1 hq
      obtain rfl := Except.ok.inj (hx.symm.trans hx')
      obtain rfl := Except.ok.inj (hy.symm.trans hy')
      exact hst.band
  · have hp' := ha p (List.mem_append_right _ (List.mem_singleton_self p))
    rw [← hframe.inBand] at hp'
    exact (hst.outside a hp').trans (h.inside a fun q hq => ha q (List.mem_append_left _ hq))
  · refine (hst.outside a fun hb => ?_).trans (h.outside a hm he)
    exact (inBand_memories (hframe.bandInside (hcw.inside (.inl rfl) hp)) hb).elim hm he
  · rw [exists_mem_snoc, dmxSaturates_iff hx hy, hst.ovf, h.ovf, or_assoc]

/-- A line of the downmix history outside the bands done is 0. -/
theorem DmxDone.line_zero (hcw : CommonWindow s c1 c2)
    (h : DmxDone s c1 c2 u (pairList (s.nwin c1) (s.maxSfb c1)) v) {j : Nat} (hj : j < 1024)
    (hout : ∀ w < s.nwin c1, ∀ b < s.maxSfb c1,
      j < s.lineLo params c1 w b ∨ s.lineLo params c1 w b + s.bandWidth c1 b ≤ j) :
    readWord v.mem (cellAddr .dmxm c1 j) = some 0 := by
  refine (readWord_congr fun i hi => h.inside _ fun p hp => ?_).trans (readWord_dmxCleared u c1 hj)
  have hin := hcw.inside (.inl rfl) hp
  have hjp := hout p.1 (mem_pairList.1 hp).1 p.2 (mem_pairList.1 hp).2
  have hcell : inCells .dmxm c1 j 1 (cellAddr .dmxm c1 j + i) := inCells_cell (by omega) (by omega) hi
  have hline : inCells .dmxm c1 0 1024 (cellAddr .dmxm c1 j + i) := inCells_mono (by omega) (by omega) hcell
  rintro (hb | hb)
  · exact not_inCells_of_apart (by omega) hcell hb
  · have hexp : inCells .dmxe c1 0 512 (cellAddr .dmxm c1 j + i) :=
      inCells_mono (by omega) (by have := hin.window; have := hin.band; omega) hb
    refine not_inCells_of_ne ?_ ?_ (.inl ?_) hline hexp <;> decide

/-- An exponent of the downmix history of no band done is 0. -/
theorem DmxDone.exp_zero (hcw : CommonWindow s c1 c2)
    (h : DmxDone s c1 c2 u (pairList (s.nwin c1) (s.maxSfb c1)) v) {w b : Nat} (hw : w < 8) (hb : b < 64)
    (hout : ¬ (w < s.nwin c1 ∧ b < s.maxSfb c1)) :
    readByte v.mem (cellAddr .dmxe c1 (w * 64 + b)) = some 0 := by
  refine (h.inside _ fun p hp => ?_).trans (readByte_dmxCleared_exp u c1 (by omega))
  have hin := hcw.inside (.inl rfl) hp
  have hpw := hin.window
  have hpb := hin.band
  have hlines := hin.lines
  have hne' : w * 64 + b ≠ p.1 * 64 + p.2 := by
    intro heq
    have hw' : w = p.1 := by omega
    have hb' : b = p.2 := by omega
    exact hout (hw' ▸ hb' ▸ mem_pairList.1 hp)
  have hcell : inCells .dmxe c1 (w * 64 + b) 1 (cellAddr .dmxe c1 (w * 64 + b)) :=
    inCells_cell (j := 0) (by omega) (by omega) (by omega)
  have hexp : inCells .dmxe c1 0 512 (cellAddr .dmxe c1 (w * 64 + b)) :=
    inCells_mono (by omega) (by omega) hcell
  rintro (hb' | hb')
  · have hline : inCells .dmxm c1 0 1024 (cellAddr .dmxe c1 (w * 64 + b)) :=
      inCells_mono (by omega) (by omega) hb'
    refine not_inCells_of_ne ?_ ?_ (.inl ?_) hexp hline <;> decide
  · exact not_inCells_of_apart (by omega) hcell hb'

/-- DMX_UPDATE completes after M/S. -/
theorem dmxUpdate_done (hcw : CommonWindow s c1 c2)
    (hms : MsDone s c1 c2 (pairList (s.nwin c1) (s.maxSfb c1)) u) :
    ∃ v, dmxUpdate params c1 c2 u = .ok v ∧ DmxDone s c1 c2 u (pairList (s.nwin c1) (s.maxSfb c1)) v := by
  have hbands : pairList (u.nwin c1) (u.maxSfb c1) = pairList (s.nwin c1) (s.maxSfb c1) := by rw [hms.frame]; rfl
  rw [dmxUpdate, hbands]
  refine foldlM_initial (I := DmxDone s c1 c2 u) _ (fun pre p post hl v hv => ?_) (dmxDone_nil s u c1 c2)
  have hnodup := pairList_nodup (s.nwin c1) (s.maxSfb c1)
  rw [hl] at hnodup
  exact hv.step hcw hms (fun q hq => hl ▸ List.mem_append_left _ hq)
    (hl ▸ List.mem_append_right _ List.mem_cons_self) (not_mem_of_nodup_append hnodup)

end

/-! ### The command -/

/-- The bands of a common window at which OVF rises: in M/S or in the half-sum after it. -/
theorem ms_or_dmx_saturates_iff {s : State} {c1 c2 : Nat} {p : Nat × Nat} :
    MsSaturates s c1 c2 p ∨ DmxSaturates s c1 c2 p ↔
      ∃ x y, s.band params c1 p.1 p.2 = .ok x ∧ s.band params c2 p.1 p.2 = .ok y ∧
        if s.msBit c1 (s.grp c1 p.1) p.2 then
          PairSaturates laneMs x y ∨ HalfSaturates (pairAfter laneMs x y).1 (pairAfter laneMs x y).2
        else HalfSaturates x y := by
  unfold MsSaturates DmxSaturates msAfter
  cases s.msBit c1 (s.grp c1 p.1) p.2 with
  | false => simp
  | true => simp [← exists_or, ← and_or_left]

/-- PREV_INFO is no part of a band. -/
theorem bandOf_savePrevWin (c : Nat) (v : State) (mm em : ChMem) (d w b : Nat) :
    (savePrevWin c v).complete.bandOf params mm em d w b = v.bandOf params mm em d w b :=
  bandOf_setCh v c (x := { v.ch c with prevWinSeq := icsWinSeq (v.ch c).ics, prevWinShape := icsWinShape (v.ch c).ics })
    rfl mm em d w b

/-- Settles O35: M/S of the masked bands, then the half-sums, then PREV_INFO. -/
theorem msApplyCombinesTheMaskedBands : Obligations.MsApplyCombinesTheMaskedBands := by
  intro s c1 c2 h1 h2 hne hst1 hst2 hcfg1 hcfg2 hseq hng hgl hmax hbands
  have hcw : CommonWindow s c1 c2 := ⟨h1, h2, hne, hcfg1, hcfg2, hseq, hmax, fun p hp =>
    have ⟨hw, hb⟩ := mem_pairList.1 hp
    hbands p.1 hw p.2 hb⟩
  have hmatch : cwMismatch s c1 c2 = false := by
    rw [← Bool.not_eq_true, cwMismatch_iff]
    simpa [hseq, hng, hmax] using hng ▸ hgl
  obtain ⟨u, hu, hms⟩ := msBands_done hcw
  obtain ⟨v, hv, hdmx⟩ := dmxUpdate_done hcw hms
  have hrule : commandRule (.msApply c1 c2 true) s = .ok (savePrevWin c1 v) := by
    rw [commandRule, msApply_decoded h1 h2 hne hst1 hst2 true, if_pos rfl, msCommonWindow, cfgOk_iff.1 hcfg1, ok_bind,
      cfgOk_iff.1 hcfg2, ok_bind, hmatch, raiseIf_false, ok_bind, hu, ok_bind, hv, ok_bind]
  have hframe : MemFrame s v := hms.frame.trans hdmx.frame
  have hkept {c : Nat} (hc : c = c1 ∨ c = c2) {p : Nat × Nat} (hp : p ∈ pairList (s.nwin c1) (s.maxSfb c1)) {z : Band}
      (hz : u.band params c p.1 p.2 = .ok z) : (savePrevWin c1 v).complete.band params c p.1 p.2 = .ok z :=
    (bandOf_savePrevWin ..).trans (hdmx.band_kept (hms.frame.bandInside (hcw.inside hc hp)) hz)
  refine ⟨_, exec_of_ok hrule, ?_, fun w hw b hb x y hx hy => ?_, ?_, fun j hj hout => ?_, fun w hw b hb hout => ?_,
    fun a hm he hout => ?_⟩
  · rw [savePrevWin, hframe]
    rfl
  · have hp : (w, b) ∈ pairList (s.nwin c1) (s.maxSfb c1) := mem_pairList.2 ⟨hw, hb⟩
    have hafter : (if s.msBit c1 (s.grp c1 w) b then pairAfter laneMs x y else (x, y)) = msAfter s c1 (w, b) x y := rfl
    obtain ⟨hux, huy⟩ := hms.bands (w, b) hp x y hx hy
    simp only [hafter]
    exact ⟨hkept (.inl rfl) hp hux, hkept (.inr rfl) hp huy,
      (bandOf_savePrevWin ..).trans (hdmx.bands (w, b) hp x y hx hy)⟩
  · have hovf : v.ovf = true ↔ s.ovf = true ∨ ∃ p ∈ pairList (s.nwin c1) (s.maxSfb c1),
        MsSaturates s c1 c2 p ∨ DmxSaturates s c1 c2 p := by
      rw [hdmx.ovf, hms.ovf, or_assoc]
      simp only [and_or_left, exists_or]
    refine hovf.trans (or_congr_right ?_)
    simp only [ms_or_dmx_saturates_iff, Prod.exists, mem_pairList, and_assoc, exists_and_left]
  · exact hdmx.line_zero hcw hj hout
  · exact hdmx.exp_zero hcw hw hb hout
  · refine (hdmx.outside a hm he).trans (hms.outside a fun p hp hbit c hc => ?_)
    obtain ⟨hw, hb⟩ := mem_pairList.1 hp
    exact not_or.2 (hout p.1 hw p.2 hb hbit c hc)

end Sys2Proof.Proofs
end

section
/-! NOISE_FILL (R280): what it reads, the candidate test, and the loop over groups, bands and windows. -/

namespace Sys2Proof.Proofs

open Sys2Proof Sys2Proof.Machine

/-! ### The registers that place the bands of a channel -/

/-- t has the registers of s that say where the bands of channel c are and how noise filling treats them. -/
structure SameConfig (s t : State) (c : Nat) : Prop where
  ics : (t.ch c).ics = (s.ch c).ics
  groupLen : (t.ch c).groupLen = (s.ch c).groupLen
  noise : (t.ch c).noise = (s.ch c).noise
  stage : (t.ch c).stage = (s.ch c).stage
  nsfb : t.nsfb = s.nsfb
  nfStart : t.nfStart = s.nfStart
  offLong : t.sfbOffLong = s.sfbOffLong
  offShort : t.sfbOffShort = s.sfbOffShort

theorem MemFrame.sameConfig {s t : State} (h : MemFrame s t) (c : Nat) : SameConfig s t c := by
  rw [h]
  exact ⟨rfl, rfl, rfl, rfl, rfl, rfl, rfl, rfl⟩

/-- The seed is none of them. -/
theorem sameConfig_setSeed (s : State) (c : Nat) (v : Word) : SameConfig s (s.setSeed c v).complete c := by
  have hkept {α : Type} (f : Channel → α) (hf : f { s.ch c with nseed := v } = f (s.ch c)) :
      f (((s.setSeed c v).complete).ch c) = f (s.ch c) := by
    rw [State.ch_complete, State.setSeed]
    rcases State.ch_setCh_eq_or s c c { s.ch c with nseed := v } with h | ⟨_, h⟩ <;> rw [h]
    exact hf
  exact ⟨hkept (·.ics) rfl, hkept (·.groupLen) rfl, hkept (·.noise) rfl, hkept (·.stage) rfl, rfl, rfl, rfl, rfl⟩

theorem SameConfig.trans {s t u : State} {c : Nat} (h : SameConfig s t c) (h' : SameConfig t u c) : SameConfig s u c :=
  ⟨h'.ics.trans h.ics, h'.groupLen.trans h.groupLen, h'.noise.trans h.noise, h'.stage.trans h.stage,
    h'.nsfb.trans h.nsfb, h'.nfStart.trans h.nfStart, h'.offLong.trans h.offLong, h'.offShort.trans h.offShort⟩

section
variable {s t : State} {c : Nat} (h : SameConfig s t c)
include h

theorem SameConfig.short : t.short c = s.short c := by rw [State.short, State.short, h.ics]

theorem SameConfig.nwin : t.nwin c = s.nwin c := by rw [State.nwin, State.nwin, h.short]

theorem SameConfig.wlen : t.wlen params c = s.wlen params c := by rw [State.wlen, State.wlen, h.short]

theorem SameConfig.off (b : Nat) : t.off c b = s.off c b := by
  rw [State.off, State.off, h.short, h.offLong, h.offShort]

theorem SameConfig.nsfbOf : t.nsfbOf c = s.nsfbOf c := by rw [State.nsfbOf, State.nsfbOf, h.short, h.nsfb]

theorem SameConfig.nfStartOf : t.nfStartOf c = s.nfStartOf c := by
  rw [State.nfStartOf, State.nfStartOf, h.short, h.nfStart]

theorem SameConfig.maxSfb : t.maxSfb c = s.maxSfb c := by rw [State.maxSfb, State.maxSfb, h.ics]

theorem SameConfig.ng : t.ng c = s.ng c := by rw [State.ng, State.ng, h.ics]

theorem SameConfig.gl (g : Nat) : t.gl c g = s.gl c g := by rw [State.gl, State.gl, h.groupLen]

theorem SameConfig.groupLens : t.groupLens c = s.groupLens c := by
  rw [State.groupLens, State.groupLens, h.ng, show t.gl c = s.gl c from funext h.gl]

theorem SameConfig.grp (w : Nat) : t.grp c w = s.grp c w := by rw [State.grp, State.grp, h.groupLens]

theorem SameConfig.wins (g : Nat) : t.wins c g = s.wins c g := by
  simp only [State.wins, h.nwin, h.grp]

theorem SameConfig.lineLo (w b : Nat) : t.lineLo params c w b = s.lineLo params c w b := by
  rw [State.lineLo, State.lineLo, h.wlen, h.off]

theorem SameConfig.bandWidth (b : Nat) : t.bandWidth c b = s.bandWidth c b := by
  rw [State.bandWidth, State.bandWidth, h.off, h.off]

theorem SameConfig.cfgOk (hs : CfgOk s c) : CfgOk t c := by
  have hbt : chkBt params t c = chkBt params s c := by
    simp only [chkBt, State.badBand, h.nsfbOf, h.off, h.wlen]
  have hics : chkIcs params t c = chkIcs params s c := by
    simp only [chkIcs, State.groupingOk, h.ics, h.short, h.ng, h.groupLens, h.gl, h.nsfbOf, h.maxSfb]
  rw [CfgOk, bandTableOk_iff, icsOk_iff] at hs ⊢
  rwa [hbt, hics]

end

/-! ### What NOISE_FILL leaves alone -/

/-- t has the configuration of s, and its bytes outside MANT, EXP and NFLAG of channel c. -/
structure NoiseRun (s t : State) (c : Nat) : Prop where
  config : SameConfig s t c
  outside : ∀ a, ¬ inCells .mant c 0 1024 a → ¬ inCells .exp c 0 512 a → ¬ inCells .nflag c 0 512 a →
    readByte t.mem a = readByte s.mem a

section
variable {s t : State} {c : Nat} (h : NoiseRun s t c)
include h

/-- The other memories read as before. -/
theorem NoiseRun.readByte_cell {M : ChMem} (hM : M ≠ .mant ∧ M ≠ .exp ∧ M ≠ .nflag) {k j : Nat} (hk : k < memSize M)
    (hj : j < 4) : readByte t.mem (cellAddr M c k + j) = readByte s.mem (cellAddr M c k + j) := by
  obtain ⟨hmant, hexp, hnflag⟩ := hM
  have hcell : inCells M c k 1 (cellAddr M c k + j) := inCells_cell (by omega) (by omega) hj
  exact h.outside _ (not_inCells_of_ne (by omega) (by decide) (.inl hmant) hcell)
    (not_inCells_of_ne (by omega) (by decide) (.inl hexp) hcell)
    (not_inCells_of_ne (by omega) (by decide) (.inl hnflag) hcell)

theorem NoiseRun.getByte {M : ChMem} (hM : M ≠ .mant ∧ M ≠ .exp ∧ M ≠ .nflag) {k : Nat} (hk : k < memSize M) :
    t.getByte M c k = s.getByte M c k := by
  have hcell := h.readByte_cell hM hk (j := 0) (by omega)
  rw [Nat.add_zero] at hcell
  rw [State.getByte, State.getByte, getByteAt, getByteAt, hcell]

theorem NoiseRun.getCb {g b : Nat} (hg : g < 8) (hb : b < 64) : t.getCb c g b = s.getCb c g b := by
  rw [State.getCb, State.getCb, h.getByte (M := .cb) (by decide) (by rw [memSize_byte rfl]; omega)]

theorem NoiseRun.getSf {g b : Nat} (hg : g < 8) (hb : b < 64) : t.getSf c g b = s.getSf c g b :=
  h.getByte (M := .sf) (by decide) (by rw [memSize_byte rfl]; omega)

end

/-- The test for zero sees the words it reads only. -/
theorem walkAllZero_congr {n : Nat} {m m' : Memory} {a : Nat}
    (h : ∀ k < n, readWord m' (a + 4 * k) = readWord m (a + 4 * k)) : walkAllZero n m' a = walkAllZero n m a := by
  induction n generalizing m m' a with
  | zero => rfl
  | succ n ih =>
    have hfirst : getWordAt (dropBelow a m') a = getWordAt (dropBelow a m) a := by
      have h0 := h 0 (by omega)
      rw [Nat.mul_zero, Nat.add_zero] at h0
      rw [getWordAt, getWordAt, readWord_dropBelow (Nat.le_refl a), readWord_dropBelow (Nat.le_refl a), h0]
    have hrest : walkAllZero n (dropBelow a m') (a + 4) = walkAllZero n (dropBelow a m) (a + 4) := by
      refine ih fun k hk => ?_
      rw [readWord_dropBelow (by omega), readWord_dropBelow (by omega), show a + 4 + 4 * k = a + 4 * (k + 1) by omega]
      exact h (k + 1) (by omega)
    simp only [walkAllZero, hfirst, hrest]

theorem allRun_congr {α : Type} {f f' : α → Except Halt Bool} {l : List α} (h : ∀ x ∈ l, f' x = f x) :
    allRun f' l = allRun f l := by
  induction l with
  | nil => rfl
  | cons x l ih => rw [allRun, allRun, h x List.mem_cons_self, ih fun y hy => h y (List.mem_cons_of_mem x hy)]

theorem NoiseRun.quantZero {s t : State} {c w b : Nat} (h : NoiseRun s t c) (hin : BandInside s c w b) :
    quantZero params t c b w = quantZero params s c b w := by
  rw [Machine.quantZero, Machine.quantZero, h.config.bandWidth, h.config.lineLo]
  refine walkAllZero_congr fun k hk => ?_
  have hlines := hin.lines
  rw [← cellAddr_add]
  exact readWord_congr fun j hj => h.readByte_cell (M := .qin) (by decide) (by rw [memSize_word rfl]; omega) hj

/-! ### The candidate test (R280) -/

/-- The conjuncts of cand before the flags: the band starts high enough, is transmitted, and is all 0. -/
def noiseQuiet (s : State) (c g b : Nat) : Except Halt Bool :=
  if s.off c b < s.nfStartOf c then .ok false
  else do
    let cb ← s.getCb c g b
    if params.transmitted cb then allRun (quantZero params s c b) (s.wins c g) else .ok false

theorem noiseCand_eq (s : State) (c g b : Nat) : noiseCand params s c g b = (do
    let z ← noiseQuiet s c g b
    if z then allRun (notFlagged s c b) (s.wins c g) else .ok false) := by
  unfold noiseCand noiseQuiet
  split
  case isTrue => rfl
  case isFalse =>
    rw [bind_assoc]
    refine bind_congr fun cb => ?_
    split <;> rfl

section
variable {s : State} {c : Nat}

theorem win_inside (hc : c < 16) (hcfg : CfgOk s c) {g b w : Nat} (hb : b < s.maxSfb c) (hw : w ∈ s.wins c g) :
    BandInside s c w b :=
  bandInside_of_cfg hc hcfg ((mem_wins s c g w).1 hw).1 hb

theorem NoiseRun.noiseQuiet {t : State} (h : NoiseRun s t c) (hc : c < 16) (hcfg : CfgOk s c) {g b : Nat}
    (hg : g < s.ng c) (hb : b < s.maxSfb c) : noiseQuiet t c g b = noiseQuiet s c g b := by
  have hg8 : g < 8 := Nat.lt_of_lt_of_le hg (ng_le hcfg.2)
  have hb64 : b < 64 := Nat.lt_of_lt_of_le hb (maxSfb_le (cfgOk_iff.1 hcfg))
  rw [Proofs.noiseQuiet, Proofs.noiseQuiet, h.config.off, h.config.nfStartOf, h.getCb hg8 hb64, h.config.wins,
    allRun_congr fun w hw => h.quantZero (win_inside hc hcfg hb hw)]

theorem notFlagged_congr {t : State} {b w : Nat}
    (h : readByte t.mem (cellAddr .nflag c (w * 64 + b)) = readByte s.mem (cellAddr .nflag c (w * 64 + b))) :
    notFlagged t c b w = notFlagged s c b w := by
  rw [notFlagged, notFlagged, State.getNflag, State.getNflag, State.getByte, State.getByte, getByteAt, getByteAt, h]

/-- With everything it reads written, the test answers what isNoiseCand says. -/
theorem noiseCand_ok (hread : NoiseReadable s c) {g b : Nat} (hg : g < s.ng c) (hb : b < s.maxSfb c) :
    noiseCand params s c g b = .ok (isNoiseCand s c g b) := by
  unfold noiseCand isNoiseCand
  by_cases hstart : s.off c b < s.nfStartOf c
  · rw [if_pos hstart, decide_eq_false (Nat.not_le.2 hstart)]
    rfl
  have hle : s.nfStartOf c ≤ s.off c b := Nat.le_of_not_lt hstart
  rw [if_neg hstart, getCb_marked (hread.cb g hg b hb hle), ok_bind, decide_eq_true hle, Bool.true_and]
  change (if isCoded s c g b = true then _ else _) = _
  cases hcoded : isCoded s c g b with
  | false => rfl
  | true =>
    have hquant := allRun_eq_all (f := quantZero params s c b) (l := s.wins c g) (p := fun w =>
        (List.range (s.bandWidth c b)).all (fun k =>
          decide (readWord s.mem (cellAddr .qin c (s.lineLo params c w b + k)) = some 0))) fun w hw => by
      rw [quantZero, walkAllZero_ok fun k hk => ?_]
      · rw [Except.ok.injEq, Bool.eq_iff_iff]
        simp only [cellAddr_add, decide_eq_true_eq, List.all_eq_true, List.mem_range]
      · rw [← cellAddr_add]
        exact hread.qin g hg b hb hle hcoded w hw k hk
    have hflags := allRun_eq_all (f := notFlagged s c b) (l := s.wins c g) (p := fun w =>
        !(byteAt s.mem .nflag c (w * 64 + b)).getLsbD 0) fun w hw => by
      rw [notFlagged, State.getNflag, getByte_marked (hread.nflag g hg b hb hle hcoded w hw), ok_bind, ok_bind]
    rw [if_pos rfl, hquant, ok_bind, hflags, Bool.true_and]
    split
    case isTrue hz => rw [hz, Bool.true_and]
    case isFalse hz => rw [Bool.eq_false_of_not_eq_true hz, Bool.false_and]

end

/-! ### The outcome of the rule -/

/-- NOISE_EN or the level is 0 (R280). -/
def noiseOff (s : State) (c : Nat) : Bool :=
  !icsNoiseEn (s.ch c).ics || decide (noiseLevel (s.ch c).noise = 0)

/-- NOISE_FILL completes exactly when its checks pass and, where noise is on, the loop over its bands does. -/
theorem noiseFill_ok_iff {c : Nat} {s t : State} : noiseFill params c s = .ok t ↔
    c < 16 ∧ (s.ch c).stage = .decoded ∧ CfgOk s c ∧ ((noiseOff s c = true ∧ t = s) ∨ (noiseOff s c = false ∧ ∃ r,
      (pairList (s.ng c) (s.maxSfb c)).foldlM (fillBand params c) (s, (s.ch c).nseed) = .ok r ∧
        t = r.1.setSeed c r.2)) := by
  simp only [noiseFill, check_bind_ok, chkCh_ok, chkStage_ok, cfgOk_iff]
  refine and_congr_right fun _ => and_congr_right fun _ => and_congr_right fun _ => ?_
  change (if noiseOff s c = true then _ else _) = _ ↔ _
  cases noiseOff s c with
  | true => simp [eq_comm]
  | false =>
    simp only [Bool.false_eq_true, if_false, bind_ok, Except.ok.injEq, false_and, false_or, true_and, @eq_comm _ t]

/-! ### Filling one window -/

theorem seedAfter_add (m n : Nat) (x : Word) : seedAfter n (seedAfter m x) = seedAfter (m + n) x := by
  induction m generalizing x with
  | zero => rw [Nat.zero_add]; rfl
  | succ m ih => rw [seedAfter_succ, ih, Nat.succ_add, seedAfter_succ]

/-- The noise for a band of group g after the triples `before` are filled (R280). -/
def noiseAfter (s : State) (c : Nat) (before : List (Nat × Nat × Nat)) (g b : Nat) : List Int × Int :=
  let k := params.noiseKernel (noiseLevel (s.ch c).noise) (noiseOffset (s.ch c).noise) (byteAt s.mem .sf c (g * 64 + b))
  ((noiseLines params k.1.toInt (s.bandWidth c b) (seedAfter (linesFilled s c before) (s.ch c).nseed)).1, k.2.toInt)

/-- The bytes a triple's fill can write. -/
def FillBytes (s : State) (c : Nat) (x : Nat × Nat × Nat) (a : Nat) : Prop :=
  InBand s .mant .exp c x.2.2 x.2.1 a ∨ inCells .nflag c (x.2.2 * 64 + x.2.1) 1 a

/-- The j-th of the triples `done`, (g, b, w), holds x in s, and its ADD1 saturates. -/
def FillSaturatesAt (s : State) (c : Nat) (done : List (Nat × Nat × Nat)) (j g b w : Nat) (x : Band) : Prop :=
  done[j]? = some (g, b, w) ∧ s.band params c w b = .ok x ∧
    AddSaturates x (noiseAfter s c (done.take j) g b).1 (noiseAfter s c (done.take j) g b).2

/-- acc is s after the triples `done` are filled, with the seed they leave. -/
structure Filled (s : State) (c : Nat) (done : List (Nat × Nat × Nat)) (acc : State × Word) : Prop where
  frame : MemFrame s acc.1
  seed : acc.2 = seedAfter (linesFilled s c done) (s.ch c).nseed
  bands : ∀ j g b w x, done[j]? = some (g, b, w) → s.band params c w b = .ok x →
    acc.1.band params c w b =
        .ok (addAfter x (noiseAfter s c (done.take j) g b).1 (noiseAfter s c (done.take j) g b).2) ∧
      readByte acc.1.mem (cellAddr .nflag c (w * 64 + b)) = some 1
  outside : ∀ a, (∀ x ∈ done, ¬ FillBytes s c x a) → readByte acc.1.mem a = readByte s.mem a
  ovf : acc.1.ovf = true ↔ s.ovf = true ∨ ∃ j g b w x, FillSaturatesAt s c done j g b w x

theorem filled_nil (s : State) (c : Nat) : Filled s c [] (s, (s.ch c).nseed) where
  frame := .refl s
  seed := rfl
  bands _ _ _ _ _ h := by simp at h
  outside _ _ := rfl
  ovf := by simp [FillSaturatesAt]

/-- An element of a list with one more: one of the list, or the last. -/
theorem getElem?_snoc {α : Type} {l : List α} {x y : α} {j : Nat} :
    (l ++ [x])[j]? = some y ↔ l[j]? = some y ∨ (j = l.length ∧ x = y) := by
  rcases Nat.lt_trichotomy j l.length with h | rfl | h
  · rw [List.getElem?_append_left h]
    exact (or_iff_left fun ⟨hj, _⟩ => by omega).symm
  · simp
  · rw [List.getElem?_append_right (by omega), List.getElem?_eq_none (by simp; omega), List.getElem?_eq_none (by omega)]
    simp only [false_or, reduceCtorEq, false_iff, not_and]
    omega

/-- The bytes of a fill lie in MANT, EXP and NFLAG. -/
theorem fillBytes_memories {s : State} {c : Nat} {x : Nat × Nat × Nat} {a : Nat} (hin : BandInside s c x.2.2 x.2.1)
    (h : FillBytes s c x a) : inCells .mant c 0 1024 a ∨ inCells .exp c 0 512 a ∨ inCells .nflag c 0 512 a := by
  have hw := hin.window
  have hb := hin.band
  rcases h with h | h
  · exact (inBand_memories hin h).imp_right .inl
  · exact .inr (.inr (inCells_mono (by omega) (by omega) h))

/-- MANT and EXP lie apart from NFLAG. -/
theorem not_nflag_of_inBand {s : State} {c d w b i n a : Nat} (hin : BandInside s c w b) (hn : i + n ≤ 512)
    (h : InBand s .mant .exp c w b a) : ¬ inCells .nflag d i n a := by
  rcases inBand_memories hin h with hm | hm <;>
    refine fun hd => not_inCells_of_ne ?_ (by rwa [memSize_byte rfl]) (.inl ?_) hm hd <;> decide

/-- Different bands share no byte of what their fills write. -/
theorem fillBytes_apart {s : State} {c : Nat} (hc : c < 16) (hcfg : CfgOk s c) {x y : Nat × Nat × Nat}
    (hx : (x.2.2, x.2.1) ∈ pairList (s.nwin c) (s.maxSfb c)) (hy : (y.2.2, y.2.1) ∈ pairList (s.nwin c) (s.maxSfb c))
    (hne : (x.2.2, x.2.1) ≠ (y.2.2, y.2.1)) {a : Nat} (ha : FillBytes s c x a) : ¬ FillBytes s c y a := by
  obtain ⟨hxw, hxb⟩ := mem_pairList.1 hx
  obtain ⟨hyw, hyb⟩ := mem_pairList.1 hy
  have hin := bandInside_of_cfg hc hcfg hxw hxb
  have hin' := bandInside_of_cfg hc hcfg hyw hyb
  have hwx := hin.window
  have hbx := hin.band
  have hwy := hin'.window
  have hby := hin'.band
  have hcell : x.2.2 * 64 + x.2.1 ≠ y.2.2 * 64 + y.2.1 := fun heq =>
    hne (Prod.ext (by simp only at *; omega) (by simp only at *; omega))
  rintro (hb | hb) <;> rcases ha with ha | ha
  · exact not_inBand rfl rfl hin rfl rfl hin' (.inr (.inr ⟨hne, lines_apart hcfg hxb hyb hne⟩)) ha hb
  · exact not_nflag_of_inBand hin' (by simp only at *; omega) hb ha
  · exact not_nflag_of_inBand hin (by simp only at *; omega) ha hb
  · exact not_inCells_of_apart (by omega) ha hb

section
variable {s : State} {c : Nat} {done : List (Nat × Nat × Nat)} {acc : State × Word}

/-- A band not filled yet is as it was. -/
theorem Filled.band_kept (h : Filled s c done acc) {w b : Nat} (hnew : ∀ y ∈ done, ∀ a, FillBytes s c (0, b, w) a →
    ¬ FillBytes s c y a) {x : Band} (hx : s.band params c w b = .ok x) : acc.1.band params c w b = .ok x :=
  bandOf_congr h.frame (fun a ha => h.outside a fun y hy => hnew y hy a (.inl ha)) hx

/-- One more window saturates when an earlier one does or its own ADD1 does. -/
theorem exists_fillSaturatesAt_snoc {g b w : Nat} {x : Band} (hx : s.band params c w b = .ok x) :
    (∃ j g' b' w' y, FillSaturatesAt s c (done ++ [(g, b, w)]) j g' b' w' y) ↔
      (∃ j g' b' w' y, FillSaturatesAt s c done j g' b' w' y) ∨
        AddSaturates x (noiseAfter s c done g b).1 (noiseAfter s c done g b).2 := by
  refine ⟨?_, ?_⟩
  · rintro ⟨j, g', b', w', y, hj, hy, hsat⟩
    rcases getElem?_snoc.1 hj with hj | ⟨rfl, heq⟩
    · have hlt : j < done.length := (List.getElem?_eq_some_iff.1 hj).1
      rw [List.take_append_of_le_length hlt.le] at hsat
      exact .inl ⟨j, g', b', w', y, hj, hy, hsat⟩
    · cases heq
      obtain rfl := Except.ok.inj (hx.symm.trans hy)
      rw [List.take_left] at hsat
      exact .inr hsat
  · rintro (⟨j, g', b', w', y, hj, hy, hsat⟩ | hsat)
    · have hlt : j < done.length := (List.getElem?_eq_some_iff.1 hj).1
      exact ⟨j, g', b', w', y, getElem?_snoc.2 (.inl hj), hy, by rwa [List.take_append_of_le_length hlt.le]⟩
    · exact ⟨done.length, g, b, w, x, getElem?_snoc.2 (.inr ⟨rfl, rfl⟩), hx, by rwa [List.take_left]⟩

/-- One more window. -/
theorem Filled.step (hc : c < 16) (hcfg : CfgOk s c) (h : Filled s c done acc) {g b w : Nat} {x : Band}
    (hdone : ∀ y ∈ done, (y.2.2, y.2.1) ∈ pairList (s.nwin c) (s.maxSfb c))
    (hp : (w, b) ∈ pairList (s.nwin c) (s.maxSfb c)) (hnew : ∀ y ∈ done, (y.2.2, y.2.1) ≠ (w, b))
    (hx : s.band params c w b = .ok x) :
    let k := params.noiseKernel (noiseLevel (s.ch c).noise) (noiseOffset (s.ch c).noise)
      (byteAt s.mem .sf c (g * 64 + b))
    ∃ acc', fillWindow params c b k.1.toInt k.2.toInt acc w = .ok acc' ∧ Filled s c (done ++ [(g, b, w)]) acc' := by
  intro k
  obtain ⟨hw, hb⟩ := mem_pairList.1 hp
  have hin : BandInside s c w b := bandInside_of_cfg hc hcfg hw hb
  have hw8 := hin.window
  have hb64 := hin.band
  have hapart {y : Nat × Nat × Nat} (hy : y ∈ done) {a : Nat} (ha : FillBytes s c (g, b, w) a) : ¬ FillBytes s c y a :=
    fillBytes_apart hc hcfg hp (hdone y hy) (hnew y hy).symm ha
  have hux := h.band_kept (fun y hy a ha => hapart hy ha) hx
  have hnoise : (noiseLines params k.1.toInt (acc.1.bandWidth c b) acc.2).1 = (noiseAfter s c done g b).1 := by
    rw [h.frame.bandWidth, h.seed]
    rfl
  have hlen : (noiseAfter s c done g b).1.length = acc.1.bandWidth c b := by rw [← hnoise, noiseLines_length]
  obtain ⟨t, ht, hst⟩ := add1At_stored (ez := k.2.toInt) hux (h.frame.bandInside hin) hlen
  have hflag {a : Nat} (ha : ¬ inCells .nflag c (w * 64 + b) 1 a) :
      readByte (t.putBytes .nflag c (w * 64 + b) [1]).mem a = readByte t.mem a := readByte_putBytes_apart ha
  have hput : MemFrame t (t.putBytes .nflag c (w * 64 + b) [1]) := (putBytes_memOnly ..).1
  have hkeep {a : Nat} (ha : ¬ FillBytes s c (g, b, w) a) :
      readByte (t.putBytes .nflag c (w * 64 + b) [1]).mem a = readByte acc.1.mem a := by
    rw [FillBytes, not_or] at ha
    exact (hflag ha.2).trans (hst.outside a fun hb' => ha.1 (h.frame.inBand.1 hb'))
  refine ⟨(t.putBytes .nflag c (w * 64 + b) [1], (noiseLines params k.1.toInt (acc.1.bandWidth c b) acc.2).2), ?_,
    h.frame.trans (hst.frame.trans hput), ?_, fun j g' b' w' x' hj hx' => ?_, fun a ha => ?_, ?_⟩
  · rw [fillWindow, hnoise, ht, ok_bind]
  · simp only [noiseLines_seed, h.seed, seedAfter_add, h.frame.bandWidth]
    simp [linesFilled]
  · rcases getElem?_snoc.1 hj with hj | ⟨rfl, heq⟩
    · have hmem := List.mem_of_getElem? hj
      have hlt : j < done.length := (List.getElem?_eq_some_iff.1 hj).1
      obtain ⟨hband, hone⟩ := h.bands j g' b' w' x' hj hx'
      have hother {a : Nat} (ha : FillBytes s c (g', b', w') a) :
          readByte (t.putBytes .nflag c (w * 64 + b) [1]).mem a = readByte acc.1.mem a :=
        hkeep fun ha' => hapart hmem ha' ha
      rw [List.take_append_of_le_length hlt.le]
      refine ⟨bandOf_congr (hst.frame.trans hput) (fun a ha => hother (.inl (h.frame.inBand.1 ha))) hband,
        (hother (.inr ?_)).trans hone⟩
      exact inCells_cell (j := 0) (Nat.le_refl _) (Nat.lt_succ_self _) (by omega)
    · cases heq
      obtain rfl := Except.ok.inj (hx.symm.trans hx')
      rw [List.take_left]
      refine ⟨bandOf_congr hput (fun a ha => hflag ?_) hst.band, readByte_putBytes (bs := [1]) (k := 0) (by simp)⟩
      exact not_nflag_of_inBand ((h.frame.trans hst.frame).bandInside hin) (by omega) ha
  · exact (hkeep (ha _ (List.mem_append_right _ (List.mem_singleton_self _)))).trans
      (h.outside a fun y hy => ha y (List.mem_append_left _ hy))
  · have hovf : (t.putBytes .nflag c (w * 64 + b) [1]).ovf = t.ovf := rfl
    rw [hovf, hst.ovf, h.ovf, or_assoc]
    exact or_congr_right (exists_fillSaturatesAt_snoc hx).symm

end

/-! ### The loop over groups and bands -/

/-- The first window after the groups before g falls in group g when every group has a window. -/
theorem groupOf_take {ls : List Nat} (hpos : ∀ l ∈ ls, 1 ≤ l) {g : Nat} (hg : g < ls.length) :
    groupOf ls (ls.take g).sum = g ∧ (ls.take g).sum < ls.sum := by
  induction ls generalizing g with
  | nil => exact absurd hg (Nat.not_lt_zero g)
  | cons l ls ih =>
    have hl := hpos l List.mem_cons_self
    cases g with
    | zero =>
      rw [List.take_zero, List.sum_nil, groupOf, if_pos (by omega), List.sum_cons]
      exact ⟨rfl, by omega⟩
    | succ g =>
      obtain ⟨hgrp, hlt⟩ := ih (fun x hx => hpos x (List.mem_cons_of_mem l hx)) (Nat.lt_of_succ_lt_succ hg)
      rw [List.take_succ_cons, List.sum_cons, List.sum_cons, groupOf, if_neg (by omega), Nat.add_sub_cancel_left, hgrp]
      exact ⟨Nat.add_comm 1 g, by omega⟩

/-- Every group of a legal configuration has a window (R263). -/
theorem exists_mem_wins {s : State} {c g : Nat} (h : IcsOk s c) (hg : g < s.ng c) : ∃ w, w ∈ s.wins c g := by
  have hpos : ∀ l ∈ s.groupLens c, 1 ≤ l := by
    intro l hl
    obtain ⟨i, hi, rfl⟩ := List.mem_map.1 hl
    have hin := List.mem_range.1 hi
    cases hs : s.short c with
    | false =>
      obtain ⟨hng, hgl⟩ := h.long hs
      obtain rfl : i = 0 := by omega
      exact hgl.ge
    | true =>
      obtain ⟨_, _, hlen, _⟩ := h.shortGroups hs
      exact hlen i hin
  have hlen : g < (s.groupLens c).length := by simpa [State.groupLens] using hg
  obtain ⟨hgrp, hlt⟩ := groupOf_take hpos hlen
  exact ⟨_, (mem_wins s c g _).2 ⟨sum_groupLens h ▸ hlt, hgrp⟩⟩

/-- The triples of a list of (group, band) pairs that NOISE_FILL fills. -/
def fillsOf (s : State) (c : Nat) (l : List (Nat × Nat)) : List (Nat × Nat × Nat) :=
  (l.filter (fun gb => isNoiseCand s c gb.1 gb.2)).flatMap (fun gb => (s.wins c gb.1).map (fun w => (gb.1, gb.2, w)))

section
variable {s : State} {c : Nat}

theorem mem_fillsOf {l : List (Nat × Nat)} {x : Nat × Nat × Nat} :
    x ∈ fillsOf s c l ↔ (x.1, x.2.1) ∈ l ∧ isNoiseCand s c x.1 x.2.1 = true ∧ x.2.2 ∈ s.wins c x.1 := by
  obtain ⟨g, b, w⟩ := x
  simp only [fillsOf, List.mem_flatMap, List.mem_filter, List.mem_map, Prod.exists, Prod.mk.injEq]
  constructor
  · rintro ⟨_, _, ⟨hl, hcand⟩, _, hw, rfl, rfl, rfl⟩
    exact ⟨hl, hcand, hw⟩
  · rintro ⟨hl, hcand, hw⟩
    exact ⟨g, b, ⟨hl, hcand⟩, w, hw, rfl, rfl, rfl⟩

theorem fillsOf_snoc (l : List (Nat × Nat)) (gb : Nat × Nat) : fillsOf s c (l ++ [gb]) = fillsOf s c l ++
    if isNoiseCand s c gb.1 gb.2 then (s.wins c gb.1).map (fun w => (gb.1, gb.2, w)) else [] := by
  rw [fillsOf, List.filter_append, List.flatMap_append, fillsOf]
  cases h : isNoiseCand s c gb.1 gb.2 <;> simp [h]

theorem mem_pairList_of_fill {x : Nat × Nat × Nat} (hb : x.2.1 < s.maxSfb c) (hw : x.2.2 ∈ s.wins c x.1) :
    (x.2.2, x.2.1) ∈ pairList (s.nwin c) (s.maxSfb c) :=
  mem_pairList.2 ⟨((mem_wins s c _ _).1 hw).1, hb⟩

variable (hc : c < 16) (hcfg : CfgOk s c) (hread : NoiseReadable s c)
include hc hcfg

theorem Filled.noiseRun {done : List (Nat × Nat × Nat)} {acc : State × Word} (h : Filled s c done acc)
    (hdone : ∀ y ∈ done, (y.2.2, y.2.1) ∈ pairList (s.nwin c) (s.maxSfb c)) : NoiseRun s acc.1 c := by
  refine ⟨h.frame.sameConfig c, fun a hm he hn => h.outside a fun y hy hy' => ?_⟩
  obtain ⟨hw, hb⟩ := mem_pairList.1 (hdone y hy)
  rcases fillBytes_memories (bandInside_of_cfg hc hcfg hw hb) hy' with h' | h' | h'
  · exact hm h'
  · exact he h'
  · exact hn h'

include hread

/-- One more (group, band). -/
theorem Filled.fillBand {pre : List (Nat × Nat)} {gb : Nat × Nat} {acc : State × Word}
    (hpre : ∀ p ∈ pre, p ∈ pairList (s.ng c) (s.maxSfb c)) (hgb : gb ∈ pairList (s.ng c) (s.maxSfb c))
    (hnew : gb ∉ pre) (h : Filled s c (fillsOf s c pre) acc) :
    ∃ acc', fillBand params c acc gb = .ok acc' ∧ Filled s c (fillsOf s c (pre ++ [gb])) acc' := by
  obtain ⟨hg, hb⟩ := mem_pairList.1 hgb
  have hg8 : gb.1 < 8 := Nat.lt_of_lt_of_le hg (ng_le hcfg.2)
  have hb64 : gb.2 < 64 := Nat.lt_of_lt_of_le hb (maxSfb_le (cfgOk_iff.1 hcfg))
  have hdone {y : Nat × Nat × Nat} (hy : y ∈ fillsOf s c pre) :
      (y.2.2, y.2.1) ∈ pairList (s.nwin c) (s.maxSfb c) ∧ s.grp c y.2.2 = y.1 ∧ (y.1, y.2.1) ≠ gb := by
    obtain ⟨hl, _, hw⟩ := mem_fillsOf.1 hy
    exact ⟨mem_pairList_of_fill (mem_pairList.1 (hpre _ hl)).2 hw, ((mem_wins s c _ _).1 hw).2,
      fun heq => hnew (heq ▸ hl)⟩
  have hother {y : Nat × Nat × Nat} (hy : y ∈ fillsOf s c pre) {w : Nat} (hw : w ∈ s.wins c gb.1) :
      (y.2.2, y.2.1) ≠ (w, gb.2) := by
    obtain ⟨_, hgrp, hne⟩ := hdone hy
    intro heq
    obtain ⟨hyw, hyb⟩ := Prod.mk.inj heq
    rw [hyw, ((mem_wins s c _ _).1 hw).2] at hgrp
    exact hne (Prod.ext hgrp.symm hyb)
  have hrun := h.noiseRun hc hcfg fun y hy => (hdone hy).1
  have hcand : noiseCand params acc.1 c gb.1 gb.2 = .ok (isNoiseCand s c gb.1 gb.2) := by
    rw [← noiseCand_ok hread hg hb, noiseCand_eq, noiseCand_eq, hrun.noiseQuiet hc hcfg hg hb, hrun.config.wins,
      allRun_congr fun w hw => notFlagged_congr (h.outside _ fun y hy => ?_)]
    have hcell : FillBytes s c (gb.1, gb.2, w) (cellAddr .nflag c (w * 64 + gb.2)) :=
      .inr (inCells_cell (j := 0) (Nat.le_refl _) (Nat.lt_succ_self _) (by omega))
    exact fillBytes_apart hc hcfg (mem_pairList_of_fill hb hw) (hdone hy).1 (hother hy hw).symm hcell
  rw [Machine.fillBand, hcand, ok_bind, fillsOf_snoc]
  cases hgbc : isNoiseCand s c gb.1 gb.2 with
  | false => exact ⟨acc, rfl, by simpa using h⟩
  | true =>
    have hfill {w : Nat} (hw : w ∈ s.wins c gb.1) := hread.fill (gb.1, gb.2, w) (mem_fillsOf.2 ⟨hgb, hgbc, hw⟩)
    obtain ⟨w0, hw0⟩ := exists_mem_wins hcfg.2 hg
    obtain ⟨hsf, _⟩ := hfill hw0
    rw [if_pos rfl, if_pos rfl, hrun.getSf hg8 hb64, State.getSf, getByte_marked hsf, ok_bind, hrun.config.wins,
      hrun.config.noise]
    refine foldlM_initial (I := fun ws a => Filled s c (fillsOf s c pre ++ ws.map (fun w => (gb.1, gb.2, w))) a) _
      (fun ws w post hl a ha => ?_) (by simpa using h)
    have hmem {v : Nat} (hv : v ∈ ws ++ w :: post) : v ∈ s.wins c gb.1 := hl ▸ hv
    have hw : w ∈ s.wins c gb.1 := hmem (by simp)
    have hfresh : w ∉ ws := not_mem_of_nodup_append (hl ▸ (wins_rising s c gb.1).imp Nat.ne_of_lt)
    obtain ⟨_, x, hx⟩ := hfill hw
    rw [List.map_append, ← List.append_assoc]
    refine ha.step hc hcfg (fun y hy => ?_) (mem_pairList_of_fill (x := (gb.1, gb.2, w)) hb hw) (fun y hy => ?_) hx
    all_goals rcases List.mem_append.1 hy with hy | hy
    · exact (hdone hy).1
    · obtain ⟨v, hv, rfl⟩ := List.mem_map.1 hy
      exact mem_pairList_of_fill hb (hmem (List.mem_append_left _ hv))
    · exact hother hy hw
    · obtain ⟨v, hv, rfl⟩ := List.mem_map.1 hy
      exact fun heq => hfresh ((Prod.mk.inj heq).1 ▸ hv)

/-- The loop of NOISE_FILL fills the candidates of s. -/
theorem filled_all : ∃ r, (pairList (s.ng c) (s.maxSfb c)).foldlM (Machine.fillBand params c) (s, (s.ch c).nseed) = .ok r ∧
    Filled s c (noiseFills s c) r := by
  refine foldlM_initial (I := fun l r => Filled s c (fillsOf s c l) r) _ (fun pre gb post hl a ha => ?_) (filled_nil s c)
  have hnodup := pairList_nodup (s.ng c) (s.maxSfb c)
  rw [hl] at hnodup
  exact ha.fillBand hc hcfg hread (fun p hp => hl ▸ List.mem_append_left _ hp)
    (hl ▸ List.mem_append_right _ List.mem_cons_self) (not_mem_of_nodup_append hnodup)

end

/-- Settles O32: noise off changes nothing, and the loop fills the candidates one by one. -/
theorem noiseFillFillsTheCandidates : Obligations.NoiseFillFillsTheCandidates := by
  intro s c hc hst hcfg
  refine ⟨fun hoff => ?_, fun hen hlevel hread => ?_⟩
  · have hoff' : noiseOff s c = true := by
      unfold noiseOff
      rcases hoff with h | h <;> simp [h]
    exact exec_of_ok (i := .noiseFill c) (noiseFill_ok_iff.2 ⟨hc, hst, hcfg, .inl ⟨hoff', rfl⟩⟩)
  · have hon : noiseOff s c = false := by rw [noiseOff, hen, decide_eq_false hlevel]; rfl
    obtain ⟨⟨u, seed⟩, hfold, hframe, hseed, hbands, houtside, hovf⟩ := filled_all hc hcfg hread
    have hrule := exec_of_ok (i := .noiseFill c) (noiseFill_ok_iff.2 ⟨hc, hst, hcfg, .inr ⟨hon, _, hfold, rfl⟩⟩)
    have hband (w b : Nat) : (u.setSeed c seed).complete.band params c w b = u.band params c w b :=
      bandOf_setCh u c (x := { u.ch c with nseed := seed }) rfl .mant .exp c w b
    simp only at hframe hseed hbands houtside hovf
    refine ⟨_, hrule, ?_, fun j g b w x hj hx => ?_, hovf, fun a ha => houtside a fun y hy hy' => ?_⟩
    · rw [hframe, hseed]
      rfl
    · rw [hband]
      exact hbands j g b w x hj hx
    · obtain ⟨hm, he, hn⟩ := ha y.1 y.2.1 y.2.2 hy
      rcases hy' with (h | h) | h
      · exact hm h
      · exact he h
      · exact hn h

end Sys2Proof.Proofs
end

section
/-! A second NOISE_FILL (R280): every band that the first filled is flagged, so no band is a candidate any more. -/

namespace Sys2Proof.Proofs

open Sys2Proof Sys2Proof.Machine

/-! ### Runs that only the checks can raise in -/

/-- The run answers, or ends in the model's fault. -/
def NeverRaises {α : Type} (x : Except Halt α) : Prop := ∀ e, x ≠ .error (.raise e)

section
variable {α β : Type}

theorem neverRaises_ok (a : α) : NeverRaises (.ok a) := nofun

theorem NeverRaises.bind {x : Except Halt α} {f : α → Except Halt β} (hx : NeverRaises x)
    (hf : ∀ a, NeverRaises (f a)) : NeverRaises (x >>= f) := by
  intro e he
  rcases bind_error.1 he with h | ⟨a, _, h⟩
  · exact hx e h
  · exact hf a e h

theorem NeverRaises.ite {p : Prop} [Decidable p] {x y : Except Halt α} (hx : NeverRaises x) (hy : NeverRaises y) :
    NeverRaises (if p then x else y) := by
  split
  · exact hx
  · exact hy

theorem neverRaises_getByteAt (m : Memory) (a : Nat) : NeverRaises (getByteAt m a) := by
  intro e he
  cases (getByteAt_error.1 he).2

theorem neverRaises_getWordAt (m : Memory) (a : Nat) : NeverRaises (getWordAt m a) := by
  intro e he
  cases (getWordAt_error.1 he).2

theorem neverRaises_walkWords (n : Nat) (m : Memory) (a : Nat) : NeverRaises (walkWords .ok n m a) := by
  induction n generalizing m a with
  | zero => exact neverRaises_ok _
  | succ n ih =>
    exact (neverRaises_getWordAt _ _).bind fun w => (neverRaises_ok w).bind fun _ =>
      (ih _ _).bind fun _ => neverRaises_ok _

theorem neverRaises_walkAllZero (n : Nat) (m : Memory) (a : Nat) : NeverRaises (walkAllZero n m a) := by
  induction n generalizing m a with
  | zero => exact neverRaises_ok _
  | succ n ih => exact (neverRaises_getWordAt _ _).bind fun _ => .ite (ih _ _) (neverRaises_ok _)

theorem neverRaises_allRun {f : α → Except Halt Bool} (hf : ∀ x, NeverRaises (f x)) (l : List α) :
    NeverRaises (allRun f l) := by
  induction l with
  | nil => exact neverRaises_ok _
  | cons x l ih => exact (hf x).bind fun _ => .ite ih (neverRaises_ok _)

theorem neverRaises_foldlM {f : β → α → Except Halt β} (hf : ∀ s x, NeverRaises (f s x)) (l : List α) (s : β) :
    NeverRaises (l.foldlM f s) := by
  induction l generalizing s with
  | nil => exact neverRaises_ok _
  | cons x l ih =>
    rw [List.foldlM_cons]
    exact (hf s x).bind fun t => ih t

end

theorem neverRaises_add1At (c w b : Nat) (z : List Int) (ez : Int) (s : State) :
    NeverRaises (s.add1At params c w b z ez) := by
  refine NeverRaises.bind ?_ fun x => ?_
  · exact (neverRaises_walkWords _ _ _).bind fun _ => (neverRaises_getByteAt _ _).bind fun _ => neverRaises_ok _
  · split <;> exact neverRaises_ok _

theorem neverRaises_noiseCand (s : State) (c g b : Nat) : NeverRaises (noiseCand params s c g b) := by
  refine .ite (neverRaises_ok _) (NeverRaises.bind ?_ fun _ => .ite (NeverRaises.bind ?_ fun _ =>
    .ite ?_ (neverRaises_ok _)) (neverRaises_ok _))
  · exact (neverRaises_getByteAt _ _).bind fun _ => neverRaises_ok _
  · exact neverRaises_allRun (fun _ => neverRaises_walkAllZero _ _ _) _
  · exact neverRaises_allRun (fun _ => ((neverRaises_getByteAt _ _).bind fun _ => neverRaises_ok _).bind fun _ =>
      neverRaises_ok _) _

theorem neverRaises_fillBand (c : Nat) (acc : State × Word) (gb : Nat × Nat) :
    NeverRaises (fillBand params c acc gb) :=
  (neverRaises_noiseCand _ _ _ _).bind fun _ => .ite ((neverRaises_getByteAt _ _).bind fun _ =>
    neverRaises_foldlM (fun _ _ => (neverRaises_add1At _ _ _ _ _ _).bind fun _ => neverRaises_ok _) _ _)
      (neverRaises_ok _)

/-- The checks of NOISE_FILL. -/
def noiseChecks (c : Nat) (s : State) : Except Halt Unit := do
  chkCh params c
  chkStage s c .decoded
  chkCfg params s c

/-- What NOISE_FILL does once its checks pass. -/
def noiseBody (c : Nat) (s : State) : Except Halt State :=
  if !icsNoiseEn (s.ch c).ics || decide (noiseLevel (s.ch c).noise = 0) then .ok s
  else do
    let r ← (pairList (s.ng c) (s.maxSfb c)).foldlM (fillBand params c) (s, (s.ch c).nseed)
    .ok (r.1.setSeed c r.2)

theorem noiseFill_split (c : Nat) (s : State) : noiseFill params c s = noiseChecks c s >>= fun _ => noiseBody c s := by
  rw [noiseFill, noiseChecks]
  simp only [bind_assoc]
  rfl

theorem neverRaises_noiseBody (c : Nat) (s : State) : NeverRaises (noiseBody c s) :=
  .ite (neverRaises_ok s) ((neverRaises_foldlM (neverRaises_fillBand c) _ _).bind fun _ => neverRaises_ok _)

/-- NOISE_FILL raises exactly what its checks raise. -/
theorem noiseFill_raises_iff {c : Nat} {s : State} {e : Err} :
    noiseFill params c s = .error (.raise e) ↔ noiseChecks c s = .error (.raise e) := by
  rw [noiseFill_split, bind_error]
  exact or_iff_left fun ⟨_, _, h⟩ => neverRaises_noiseBody c s e h

/-! ### An error is raised again -/

theorem raise_raise (s : State) (e : Err) : (s.raise e).raise e = s.raise e := by
  rw [State.raise, State.record, if_pos (State.raise_err s e)]
  rfl

theorem noiseChecks_raise (c : Nat) (s : State) (e : Err) : noiseChecks c (s.raise e) = noiseChecks c s := by
  rw [State.raise_frame]
  rfl

/-! ### What a run of fills keeps, and the flags it raises -/

/-- t is s after some fills: MANT, EXP, NFLAG and OVF may differ, and an NFLAG cell is as it was or 1. -/
structure FlagsRaised (s t : State) (c : Nat) : Prop where
  frame : MemFrame s t
  outside : ∀ a, ¬ inCells .mant c 0 1024 a → ¬ inCells .exp c 0 512 a → ¬ inCells .nflag c 0 512 a →
    readByte t.mem a = readByte s.mem a
  flags : ∀ k < 512, readByte t.mem (cellAddr .nflag c k) = readByte s.mem (cellAddr .nflag c k) ∨
    readByte t.mem (cellAddr .nflag c k) = some 1

section
variable {s t u : State} {c : Nat}

theorem FlagsRaised.refl (s : State) (c : Nat) : FlagsRaised s s c := ⟨.refl s, fun _ _ _ _ => rfl, fun _ _ => .inl rfl⟩

/-- A flag stays up. -/
theorem FlagsRaised.flag_kept (h : FlagsRaised s t c) {k : Nat} (hk : k < 512)
    (hs : readByte s.mem (cellAddr .nflag c k) = some 1) : readByte t.mem (cellAddr .nflag c k) = some 1 :=
  (h.flags k hk).elim (·.trans hs) id

theorem FlagsRaised.trans (h : FlagsRaised s t c) (h' : FlagsRaised t u c) : FlagsRaised s u c where
  frame := h.frame.trans h'.frame
  outside a hm he hn := (h'.outside a hm he hn).trans (h.outside a hm he hn)
  flags k hk := (h'.flags k hk).elim (fun heq => (h.flags k hk).imp heq.trans heq.trans) .inr

/-- A window filled is flagged. -/
theorem fillWindow_flags {b w : Nat} {nm ne : Int} {acc acc' : State × Word} (hin : BandInside acc.1 c w b)
    (h : fillWindow params c b nm ne acc w = .ok acc') :
    FlagsRaised acc.1 acc'.1 c ∧ readByte acc'.1.mem (cellAddr .nflag c (w * 64 + b)) = some 1 := by
  obtain ⟨v, hv, h⟩ := bind_ok.1 h
  cases h
  obtain ⟨x, hx, _⟩ := add1At_ok.1 hv
  obtain ⟨v', hv', hst⟩ := add1At_stored (ez := ne) hx hin (noiseLines_length nm (acc.1.bandWidth c b) acc.2)
  obtain rfl := Except.ok.inj (hv'.symm.trans hv)
  have hw := hin.window
  have hb := hin.band
  have hone : readByte (v'.putBytes .nflag c (w * 64 + b) [1]).mem (cellAddr .nflag c (w * 64 + b)) = some 1 :=
    readByte_putBytes (bs := [1]) (k := 0) (by simp)
  refine ⟨⟨hst.frame.trans (putBytes_memOnly ..).1, fun a hm he hn => ?_, fun k hk => ?_⟩, hone⟩
  · refine (readByte_putBytes_apart fun hd => hn (inCells_mono (by omega) (by simp; omega) hd)).trans
      (hst.outside a fun hd => ?_)
    exact (inBand_memories hin hd).elim hm he
  · by_cases hkw : k = w * 64 + b
    · exact .inr (hkw ▸ hone)
    · have hcell : inCells .nflag c k 1 (cellAddr .nflag c k) := inCells_cell (j := 0) (by omega) (by omega) (by omega)
      refine .inl ((readByte_putBytes_apart (not_inCells_of_apart (by simp; omega) hcell)).trans
        (hst.outside _ fun hd => not_nflag_of_inBand hin (by omega) hd hcell))

end

/-- What every round keeps the fold keeps, and each element had its round. -/
theorem foldlM_round {α σ : Type} {f : σ → α → Except Halt σ} {R : σ → σ → Prop} (hr : ∀ s, R s s)
    (ht : ∀ s t u, R s t → R t u → R s u) {l : List α} {s0 : σ}
    (hf : ∀ x ∈ l, ∀ a a', R s0 a → f a x = .ok a' → R a a') {s t : σ} (hs : R s0 s) (h : l.foldlM f s = .ok t) :
    R s t ∧ ∀ x ∈ l, ∃ a a', R s0 a ∧ f a x = .ok a' ∧ R a' t := by
  induction l generalizing s with
  | nil => cases h; exact ⟨hr _, fun x hx => absurd hx List.not_mem_nil⟩
  | cons x l ih =>
    rw [List.foldlM_cons] at h
    obtain ⟨u, hu, h⟩ := bind_ok.1 h
    have hsu := hf x List.mem_cons_self s u hs hu
    obtain ⟨hut, hall⟩ := ih (fun y hy => hf y (List.mem_cons_of_mem x hy)) (ht _ _ _ hs hsu) h
    refine ⟨ht _ _ _ hsu hut, fun y hy => ?_⟩
    rcases List.mem_cons.1 hy with rfl | hy
    · exact ⟨s, u, hs, hu, hut⟩
    · exact hall y hy

section
variable {c : Nat} (hc : c < 16)
include hc

/-- A (group, band) filled is flagged in all its windows. -/
theorem fillBand_flags {acc acc' : State × Word} (hcfg : CfgOk acc.1 c) {gb : Nat × Nat} (hb : gb.2 < acc.1.maxSfb c)
    (h : fillBand params c acc gb = .ok acc') : FlagsRaised acc.1 acc'.1 c ∧ ∃ v,
      noiseCand params acc.1 c gb.1 gb.2 = .ok v ∧ (v = true → ∀ w ∈ acc.1.wins c gb.1,
        readByte acc'.1.mem (cellAddr .nflag c (w * 64 + gb.2)) = some 1) := by
  obtain ⟨v, hv, h⟩ := bind_ok.1 h
  cases v with
  | false => cases h; exact ⟨.refl _ c, false, hv, nofun⟩
  | true =>
    obtain ⟨sf, _, h⟩ := bind_ok.1 h
    have hin {a : State × Word} (ha : FlagsRaised acc.1 a.1 c) {w : Nat} (hw : w ∈ acc.1.wins c gb.1) :
        BandInside a.1 c w gb.2 := ha.frame.bandInside (win_inside hc hcfg hb hw)
    obtain ⟨hrun, hrounds⟩ := foldlM_round (R := fun a a' : State × Word => FlagsRaised a.1 a'.1 c) (fun _ => .refl _ c)
      (fun _ _ _ => .trans) (fun w hw a a' ha h' => (fillWindow_flags (hin ha hw) h').1) (.refl acc.1 c) h
    refine ⟨hrun, true, hv, fun _ w hw => ?_⟩
    obtain ⟨a, a', ha, hfill, hrest⟩ := hrounds w hw
    have hins := hin ha hw
    have hw8 := hins.window
    have hb64 := hins.band
    exact hrest.flag_kept (by omega) (fillWindow_flags hins hfill).2

end

/-! ### No candidate is left -/

theorem notFlagged_of_flag {s : State} {c b w : Nat}
    (h : readByte s.mem (cellAddr .nflag c (w * 64 + b)) = some 1) : notFlagged s c b w = .ok false := by
  rw [notFlagged, State.getNflag, getByte_ok.2 h, ok_bind, ok_bind]
  rfl

/-- A test that failed for one element fails still when no answer changes but to false. -/
theorem allRun_stays_false {α : Type} {f f' : α → Except Halt Bool} {l : List α}
    (hf : ∀ x ∈ l, f' x = f x ∨ f' x = .ok false) (h : allRun f l = .ok false) : allRun f' l = .ok false := by
  induction l with
  | nil => cases h
  | cons x l ih =>
    obtain ⟨v, hv, h⟩ := bind_ok.1 h
    rw [allRun]
    rcases hf x List.mem_cons_self with hx | hx <;> rw [hx]
    · rw [hv, ok_bind]
      cases v with
      | false => rfl
      | true => exact ih (fun y hy => hf y (List.mem_cons_of_mem x hy)) h
    · rfl

/-- A test that fails for the first element fails. -/
theorem allRun_of_false {α : Type} {f : α → Except Halt Bool} {l : List α} (hne : ∃ x, x ∈ l)
    (hf : ∀ x ∈ l, f x = .ok false) : allRun f l = .ok false := by
  cases l with
  | nil => obtain ⟨x, hx⟩ := hne; cases hx
  | cons x l => rw [allRun, hf x List.mem_cons_self, ok_bind]; rfl

section
variable {c : Nat} (hc : c < 16)
include hc

/-- After its round in a run of fills, a (group, band) is no candidate. -/
theorem noiseCand_after {a a' : State × Word} {t : State} {gb : Nat × Nat} (hcfg : CfgOk a.1 c) (hg : gb.1 < a.1.ng c)
    (hb : gb.2 < a.1.maxSfb c) (hround : fillBand params c a gb = .ok a') (hrun : NoiseRun a.1 t c)
    (hfrom : ∀ k < 512, readByte t.mem (cellAddr .nflag c k) = readByte a.1.mem (cellAddr .nflag c k) ∨
      readByte t.mem (cellAddr .nflag c k) = some 1)
    (hkept : ∀ k < 512, readByte a'.1.mem (cellAddr .nflag c k) = some 1 →
      readByte t.mem (cellAddr .nflag c k) = some 1) : noiseCand params t c gb.1 gb.2 = .ok false := by
  obtain ⟨_, v, hv, hflagged⟩ := fillBand_flags hc hcfg hb hround
  have hcell {w : Nat} (hw : w ∈ a.1.wins c gb.1) : w * 64 + gb.2 < 512 := by
    have hin := win_inside hc hcfg hb hw
    have hw8 := hin.window
    have hb64 := hin.band
    omega
  rw [noiseCand_eq] at hv
  obtain ⟨z, hz, hv⟩ := bind_ok.1 hv
  rw [noiseCand_eq, hrun.noiseQuiet hc hcfg hg hb, hz, ok_bind, hrun.config.wins]
  cases z with
  | false => rfl
  | true =>
    rw [if_pos rfl] at hv ⊢
    cases v with
    | false =>
      refine allRun_stays_false (fun w hw => ?_) hv
      exact (hfrom _ (hcell hw)).imp notFlagged_congr notFlagged_of_flag
    | true =>
      exact allRun_of_false (exists_mem_wins hcfg.2 hg) fun w hw =>
        notFlagged_of_flag (hkept _ (hcell hw) (hflagged rfl w hw))

/-- After a run over all groups and bands, no band is a candidate. -/
theorem fillBand_after {s u : State} {seed seed' : Word} (hcfg : CfgOk s c)
    (h : (pairList (s.ng c) (s.maxSfb c)).foldlM (fillBand params c) (s, seed) = .ok (u, seed')) (v x : Word) :
    SameConfig s (u.setSeed c v).complete c ∧ ∀ gb ∈ pairList (s.ng c) (s.maxSfb c),
      fillBand params c ((u.setSeed c v).complete, x) gb = .ok ((u.setSeed c v).complete, x) := by
  have hconfig {a : State × Word} (ha : FlagsRaised s a.1 c) : SameConfig s a.1 c := ha.frame.sameConfig c
  have hbound {a : State × Word} (ha : FlagsRaised s a.1 c) {p : Nat × Nat} (hp : p ∈ pairList (s.ng c) (s.maxSfb c)) :
      p.1 < a.1.ng c ∧ p.2 < a.1.maxSfb c := by
    rw [(hconfig ha).ng, (hconfig ha).maxSfb]
    exact mem_pairList.1 hp
  obtain ⟨hsu, hrounds⟩ := foldlM_round (R := fun a a' : State × Word => FlagsRaised a.1 a'.1 c) (s0 := (s, seed))
    (fun _ => .refl _ c) (fun _ _ _ => .trans)
    (fun p hp a a' ha h' => (fillBand_flags hc ((hconfig ha).cfgOk hcfg) (hbound ha hp).2 h').1) (.refl s c) h
  refine ⟨(hconfig hsu).trans (sameConfig_setSeed u c v), fun gb hgb => ?_⟩
  obtain ⟨a, a', ha, hround, hrest⟩ := hrounds gb hgb
  obtain ⟨hg, hb⟩ := hbound ha hgb
  have hcfga := (hconfig ha).cfgOk hcfg
  have hall : FlagsRaised a.1 u c := (fillBand_flags hc hcfga hb hround).1.trans hrest
  have hrun : NoiseRun a.1 (u.setSeed c v).complete c :=
    ⟨(hall.frame.sameConfig c).trans (sameConfig_setSeed u c v), hall.outside⟩
  rw [fillBand, noiseCand_after hc hcfga hg hb hround hrun hall.flags fun k hk => hrest.flag_kept hk, ok_bind]
  rfl

end

theorem foldlM_fixed {α σ : Type} {f : σ → α → Except Halt σ} {l : List α} {s : σ} (h : ∀ x ∈ l, f s x = .ok s) :
    l.foldlM f s = .ok s := by
  induction l with
  | nil => rfl
  | cons x l ih =>
    rw [List.foldlM_cons, h x List.mem_cons_self, ok_bind, ih fun y hy => h y (List.mem_cons_of_mem x hy)]

/-- Settles O33: noise off stays off, an error is raised again, and after a run no band is a candidate. -/
theorem noiseFillTwiceAddsNothing : Obligations.NoiseFillTwiceAddsNothing := by
  intro s t c _ h
  rcases exec_next h with ⟨u, hu, rfl⟩ | ⟨e, he, rfl⟩
  · suffices hfix : noiseFill params c u.complete = .ok u.complete from
      exec_of_ok (i := .noiseFill c) (u := u.complete) hfix
    obtain ⟨hc, hst, hcfg, ⟨hoff, rfl⟩ | ⟨hon, ⟨v, seed⟩, hfold, rfl⟩⟩ := noiseFill_ok_iff.1 hu
    · have hsame : SameConfig u u.complete c := ⟨rfl, rfl, rfl, rfl, rfl, rfl, rfl, rfl⟩
      exact noiseFill_ok_iff.2 ⟨hc, hst, hsame.cfgOk hcfg, .inl ⟨hoff, rfl⟩⟩
    · obtain ⟨hsame, hfixed⟩ := fillBand_after hc hcfg hfold seed (((v.setSeed c seed).complete.ch c).nseed)
      have hon' : noiseOff (v.setSeed c seed).complete c = false := by
        rw [noiseOff, hsame.ics, hsame.noise]
        exact hon
      refine noiseFill_ok_iff.2 ⟨hc, hsame.stage.trans hst, hsame.cfgOk hcfg,
        .inr ⟨hon', (_, ((v.setSeed c seed).complete.ch c).nseed), ?_, (setCh_ch (v.setSeed c seed).complete c).symm⟩⟩
      rw [hsame.ng, hsame.maxSfb]
      exact foldlM_fixed hfixed
  · have hagain : noiseFill params c (s.raise e) = .error (.raise e) := by
      rw [noiseFill_raises_iff, noiseChecks_raise]
      exact noiseFill_raises_iff.1 he
    have := exec_of_raise (i := .noiseFill c) hagain rfl
    rwa [raise_raise] at this

end Sys2Proof.Proofs
end

section
/-! The MCT state machine (R301), the history reset (R305, R345) and the failure path of MCT_CLOSE (R342): what clearing
the saved spectra leaves, MCT_RESET, MCT_CLOSE without a commit, and the moves of MCT_STATE. -/

namespace Sys2Proof.Proofs

open Sys2Proof Sys2Proof.Machine

/-! ### Clearing the saved spectra -/

section
variable {s : State} {c a : Nat}

omit s in
/-- An unlisted byte of a saved spectrum reads 0 (R100). -/
theorem unlisted_of_inSaved (h : inSaved c a) : unlisted a = some 0 := by
  simp only [inSaved, inCells, cellAddr, ChMem.offset] at h
  unfold unlisted
  exact if_pos (by omega)

/-- The saved spectrum of channel c reads 0 after it is cleared. -/
theorem readByte_clearSaved_inside (h : inSaved c a) : readByte (s.clearSaved params.nLong c).mem a = some 0 :=
  (readByte_clearSaved ..).trans ((if_pos h).trans (unlisted_of_inSaved h))

theorem readByte_clearSaved_apart (h : ¬ inSaved c a) :
    readByte (s.clearSaved params.nLong c).mem a = readByte s.mem a :=
  (readByte_clearSaved ..).trans (if_neg h)

/-- A pass that clears the saved spectra of the listed channels, whatever else it does beside memory. -/
theorem readByte_foldl_clearSaved {f : State → Nat → State}
    (hf : ∀ t d, (f t d).mem = (t.clearSaved params.nLong d).mem) (l : List Nat) (s : State) (a : Nat) :
    ((∃ d ∈ l, inSaved d a) → readByte (l.foldl f s).mem a = some 0) ∧
      ((∀ d ∈ l, ¬ inSaved d a) → readByte (l.foldl f s).mem a = readByte s.mem a) := by
  induction l generalizing s with
  | nil => simp
  | cons d l ih =>
    obtain ⟨hcleared, hkept⟩ := ih (f s d)
    rw [List.foldl_cons]
    constructor
    · intro h
      by_cases hl : ∃ e ∈ l, inSaved e a
      · exact hcleared hl
      · have hd : inSaved d a := by simpa [hl] using h
        rw [hkept fun e he hin => hl ⟨e, he, hin⟩, hf, readByte_clearSaved_inside hd]
    · intro h
      obtain ⟨hd, hl⟩ := List.forall_mem_cons.1 h
      rw [hkept hl, hf, readByte_clearSaved_apart hd]

end

theorem forall_mem_slots {Q : Nat → Prop} : (∀ c ∈ List.range params.maxCh, Q c) ↔ ∀ c < 16, Q c := by
  simp only [List.mem_range]
  rfl

theorem exists_mem_slots {Q : Nat → Prop} : (∃ c ∈ List.range params.maxCh, Q c) ↔ ∃ c < 16, Q c := by
  simp only [List.mem_range]
  rfl

/-- FAILCLOSE clears the saved spectrum of every channel and no other byte (R342). -/
theorem readByte_failClose (s : State) (a : Nat) :
    ((∃ c < 16, inSaved c a) → readByte (failClose params s).mem a = some 0) ∧
      ((∀ c < 16, ¬ inSaved c a) → readByte (failClose params s).mem a = readByte s.mem a) := by
  rw [← forall_mem_slots, ← exists_mem_slots]
  exact readByte_foldl_clearSaved (fun _ _ => rfl) (List.range params.maxCh) s a

/-! ### The history reset -/

/-- A pass that replaces each listed channel by a function of it. -/
theorem ch_foldl_of_step {f : State → Nat → State} {g : Channel → Channel}
    (hself : ∀ t c, c < 16 → (f t c).ch c = g (t.ch c)) (hne : ∀ t c d, c ≠ d → (f t c).ch d = t.ch d)
    {l : List Nat} (hl : l.Nodup) (s : State) {c : Nat} (hc : c < 16) :
    (l.foldl f s).ch c = if c ∈ l then g (s.ch c) else s.ch c := by
  induction l generalizing s with
  | nil => rfl
  | cons d l ih =>
    obtain ⟨hd, hl⟩ := List.nodup_cons.1 hl
    rw [List.foldl_cons, ih hl]
    by_cases hcd : c = d
    · subst hcd
      simp [hd, hself s c hc]
    · simp [hcd, hne s d c (Ne.symm hcd)]

/-- The channel part of HRESET (R305). -/
def forgetChannels (s : State) : State :=
  (List.range params.maxCh).foldl (fun t c => (t.clearSaved params.nLong c).setCh c (t.ch c).forget) s

/-- HRESET: the boxes, PREV_MODE, then the channels (R305). -/
theorem hreset_eq (s : State) : hreset params s = forgetChannels
    { (List.range params.maxBoxes).foldl (fun t i => t.setBox i (t.box i).forget) s with prevMode := .none } := rfl

section
variable (s : State)

theorem ch_forgetChannels {c : Nat} (hc : c < 16) : (forgetChannels s).ch c = (s.ch c).forget := by
  refine (ch_foldl_of_step (g := Channel.forget) (fun t d hd => ?_) (fun t d e hde => ?_) List.nodup_range s hc).trans
    (if_pos (List.mem_range.2 hc))
  · exact State.ch_setCh_self hd _
  · exact State.ch_setCh_ne hde _

theorem boxes_foldl_forget (l : List Nat) :
    (l.foldl (fun t c => (t.clearSaved params.nLong c).setCh c (t.ch c).forget) s).boxes = s.boxes :=
  foldl_keeps (f := fun t c => (t.clearSaved params.nLong c).setCh c (t.ch c).forget)
    (R := fun t u : State => u.boxes = t.boxes) (fun _ => rfl) (fun _ _ _ h h' => h'.trans h) (fun _ _ => rfl) l s

theorem boxes_forgetChannels : (forgetChannels s).boxes = s.boxes :=
  boxes_foldl_forget s (List.range params.maxCh)

theorem readByte_forgetChannels (a : Nat) :
    ((∃ c < 16, inSaved c a) → readByte (forgetChannels s).mem a = some 0) ∧
      ((∀ c < 16, ¬ inSaved c a) → readByte (forgetChannels s).mem a = readByte s.mem a) := by
  rw [← forall_mem_slots, ← exists_mem_slots]
  exact readByte_foldl_clearSaved (fun _ _ => rfl) (List.range params.maxCh) s a

/-- HRESET forgets the previous frame of every channel (R305). -/
theorem ch_hreset {c : Nat} (hc : c < 16) : (hreset params s).ch c = (s.ch c).forget := by
  rw [hreset_eq, ch_forgetChannels _ hc, forgetBoxes_frame]
  rfl

/-- HRESET forgets the history of every box (R305). -/
theorem box_hreset {i : Nat} (hi : i < 16) : (hreset params s).box i = (s.box i).forget := by
  have hforget := box_foldl_setBox (fun x _ => x.forget) (l := List.range params.maxBoxes) List.nodup_range s hi
  rw [hreset_eq, State.box, boxes_forgetChannels]
  exact hforget.trans (if_pos (List.mem_range.2 hi))

/-- HRESET clears the saved spectrum of every channel and no other byte (R305). -/
theorem readByte_hreset (a : Nat) :
    ((∃ c < 16, inSaved c a) → readByte (hreset params s).mem a = some 0) ∧
      ((∀ c < 16, ¬ inSaved c a) → readByte (hreset params s).mem a = readByte s.mem a) := by
  have h := readByte_forgetChannels { (List.range params.maxBoxes).foldl (fun t i => t.setBox i (t.box i).forget) s with
    prevMode := .none } a
  rw [← hreset_eq, forgetBoxes_frame] at h
  exact h

end

theorem exec_mctReset (s : State) :
    exec .mctReset s = .next ({ hreset params s with mctState := .idle } : State).complete := rfl

/-- Settles O27: HRESET, and MCT_STATE IDLE. -/
theorem mctResetForgetsTheHistory : Obligations.MctResetForgetsTheHistory := by
  intro s
  have hbox : ∀ i < 16, (hreset params s).box i = (s.box i).forget := fun i hi => box_hreset s hi
  have hch : ∀ c < 16, (hreset params s).ch c = (s.ch c).forget := fun c hc => ch_hreset s hc
  have hmem := readByte_hreset s
  have hframe := hreset_frame params s
  refine ⟨_, exec_mctReset s, ?_⟩
  generalize hreset params s = u at hbox hch hmem hframe
  refine ⟨?_, hbox, hch, fun c hc a ha => (hmem a).1 ⟨c, hc, ha⟩, fun a ha => (hmem a).2 ha⟩
  rw [hframe]
  rfl

/-! ### MCT_CLOSE without a commit -/

/-- MCT_CLOSE with ok = 0 or ERR = 1 takes the failure path in every MCT_STATE (R340). -/
theorem mctClose_fails {ok : Bool} {s : State} (h : ok = false ∨ s.err = true) :
    mctClose params ok s = .ok { failClose params s with mctState := .idle }.clearError := by
  have hpath : (ok && !s.err) = false := by
    rcases h with h | h <;> simp [h]
  unfold mctClose
  rw [hpath]
  rfl

/-- Settles O45: the failure path clears the saved spectra and the error record. -/
theorem mctCloseFailureClearsTheSpectra : Obligations.MctCloseFailureClearsTheSpectra := by
  intro s ok h
  refine ⟨_, exec_of_ok (i := .mctClose ok) (mctClose_fails h), ?_,
    fun c hc a ha => (readByte_failClose s a).1 ⟨c, hc, ha⟩, fun a ha => (readByte_failClose s a).2 ha⟩
  rw [(failClose_frame params s).1]
  rfl

/-! ### The moves of MCT_STATE -/

/-- What a raise keeps of a command's changes leaves MCT_STATE and ERR. -/
theorem mctState_raise_raiseBase (i : Instr) (s : State) (e : Err) :
    ((raiseBase i s).raise e).mctState = s.mctState := by
  rw [State.raise_mctState, raiseBase_frame]

theorem parseAllowed_iff {s : State} : parseAllowed s = true ↔ s.mctState = .idle ∨ s.mctState = .saved := by
  simp [parseAllowed]

/-- The table of R301: command i runs in MCT_STATE m with ERR = 0, and leaves m'. -/
def MctMove (i : Instr) (m m' : MctState) : Prop :=
  match i with
  | .mctParse => (m = .idle ∨ m = .saved) ∧ m' = .boxesParsed
  | .mctApply => m = .boxesParsed ∧ m' = .rotationApplied
  | .mctClose true => m = .rotationApplied ∧ m' = .saved
  | .mctClose false => m' = .idle
  | .mctReset => m' = .idle
  | .nop | .chBegin _ | .iqScale _ | .iqDequant _ | .noiseFill _ | .msApply _ _ _ | .clearErr => m' = m

/-- A rule that answers found MCT_STATE where the table of R301 has it, and moves it to the successor. -/
theorem commandRule_mctMove {i : Instr} {s u : State} (h : commandRule i s = .ok u) (he : s.err = false) :
    MctMove i s.mctState u.mctState := by
  cases i with
  | nop => cases h; rfl
  | chBegin c => rw [chBegin_frame h]; rfl
  | iqScale c => rw [iqScale_frame h]; rfl
  | iqDequant c => rw [iqDequant_frame h]; rfl
  | noiseFill c => rw [noiseFill_frame h]; rfl
  | msApply c1 c2 cw => rw [msApply_frame h]; rfl
  | mctParse =>
    obtain ⟨hallowed, _, ps, _, rfl⟩ := mctParse_ok h
    exact ⟨parseAllowed_iff.1 hallowed, rfl⟩
  | mctApply =>
    obtain ⟨hstate, _, u, _, _, rfl⟩ := mctApply_ok h
    exact ⟨hstate, rfl⟩
  | mctClose ok =>
    cases ok with
    | false =>
      cases (mctClose_fails (.inl rfl)).symm.trans h
      rfl
    | true =>
      rcases mctClose_ok h with ⟨hpath, _⟩ | ⟨_, hstate, u, _, _, _, rfl⟩
      · simp [he] at hpath
      · exact ⟨hstate, rfl⟩
  | mctReset => cases h; rfl
  | clearErr => cases h; rfl

/-- A frame that MCT_PARSE may not start in keeps its history (R301, R310). -/
theorem parseBase_of_not_allowed {s : State} (h : parseAllowed s = false) : parseBase params s = s := by
  simp [parseBase, h]

/-- Settles O24: each rule checks MCT_STATE first, and moves it on when it answers. -/
theorem mctStateMoves : Obligations.MctStateMoves := by
  refine ⟨fun i s t h he => ?_, fun s => ⟨fun hidle hsaved => ?_, fun hstate => ?_, fun hstate he => ?_⟩,
    fun s t ok he h => ?_⟩
  · rcases exec_next h with ⟨u, hu, rfl⟩ | ⟨e, _, rfl⟩
    · have hok : u.complete.err = false := (commandRule_err hu).elim (fun h => h.1.trans he) And.left
      have hmove : MctMove i s.mctState u.mctState := commandRule_mctMove hu he
      exact ⟨fun ht => absurd (ht.symm.trans hok) nofun, fun _ => hmove⟩
    · exact ⟨fun _ => mctState_raise_raiseBase i s e, fun ht => absurd ((State.raise_err _ e).symm.trans ht) nofun⟩
  · have hno : parseAllowed s = false := by simp [parseAllowed, hidle, hsaved]
    exact exec_of_raise (i := .mctParse) (by rw [commandRule, mctParse, hno]; rfl) (parseBase_of_not_allowed hno)
  · exact exec_of_raise (i := .mctApply) (by rw [commandRule, mctApply, decide_eq_true hstate]; rfl) rfl
  · exact exec_of_raise (i := .mctClose true) (by rw [commandRule, mctClose, he, decide_eq_true hstate]; rfl) rfl
  · rcases h with h | h
    · cases (exec_of_ok (i := .mctClose ok) (mctClose_fails (.inr he))).symm.trans h
      rfl
    · cases (exec_mctReset s).symm.trans h
      rfl

/-! ### A raise of MCT_PARSE -/

/-- With INDEP = 0 MCT_PARSE makes no HRESET (R310). -/
theorem parseBase_of_not_indep {s : State} (h : ctlIndep s.mctCtrl = false) : parseBase params s = s := by
  simp [parseBase, h]

/-- With INDEP = 1 MCT_PARSE makes HRESET once it may start (R300, R310). -/
theorem parseBase_of_indep {s : State} (hstate : s.mctState = .idle ∨ s.mctState = .saved)
    (h : ctlIndep s.mctCtrl = true) : parseBase params s = hreset params s := by
  simp [parseBase, h, parseAllowed_iff.2 hstate]

/-- Settles O40: what a raise of MCT_PARSE leaves is the state after the HRESET line. -/
theorem indepResetSurvivesAFailedParse : Obligations.IndepResetSurvivesAFailedParse := by
  intro s t h he ht
  rcases exec_next h with ⟨u, hu, rfl⟩ | ⟨e, _, rfl⟩
  · have hok : u.err = false := (commandRule_err hu).elim (fun h => h.1.trans he) And.left
    exact absurd (ht.symm.trans hok) nofun
  · refine ⟨fun hindep => ?_, fun hindep hstate => ⟨_, exec_mctReset s, ?_⟩⟩
    · have hbase : raiseBase .mctParse s = s := parseBase_of_not_indep hindep
      rw [hbase, raise_of_not_err he]
    · have hbase : raiseBase .mctParse s = hreset params s := parseBase_of_indep hstate hindep
      have hframe := hreset_frame params s
      rw [hbase]
      generalize hreset params s = u at hframe
      have hue : u.err = false := by rw [hframe]; exact he
      rw [raise_of_not_err hue, hframe]
      rfl

end Sys2Proof.Proofs
end

section
/-! The pair list (R307, R308): its length, and the place of each pair. -/

namespace Sys2Proof.Proofs

open Sys2Proof Sys2Proof.Machine

/-- The part of the pair list with p1 below k. -/
def pairRows (n k : Nat) : List (Nat × Nat) :=
  (List.range k).flatMap (fun p1 => (List.range' (p1 + 1) (n - (p1 + 1))).map (fun p2 => (p1, p2)))

theorem pairs_eq (n : Nat) : pairs n = pairRows n n := rfl

theorem pairRows_succ (n k : Nat) : pairRows n (k + 1) =
    pairRows n k ++ (List.range' (k + 1) (n - (k + 1))).map (fun p2 => (k, p2)) := by
  simp [pairRows, List.range_succ]

/-- Row p1 holds n - p1 - 1 pairs. -/
theorem length_pairRows {n k : Nat} (hk : k ≤ n) : (pairRows n k).length = k * (2 * n - k - 1) / 2 := by
  suffices htwice : 2 * (pairRows n k).length = k * (2 * n - k - 1) by omega
  induction k with
  | zero => simp [pairRows]
  | succ k ih =>
    obtain ⟨m, rfl⟩ := Nat.exists_eq_add_of_le hk
    have ih := ih (by omega)
    rw [pairRows_succ, List.length_append, List.length_map, List.length_range', Nat.mul_add, ih,
      show 2 * (k + 1 + m) - k - 1 = k + 1 + 2 * m by omega, show 2 * (k + 1 + m) - (k + 1) - 1 = k + 2 * m by omega,
      show k + 1 + m - (k + 1) = m by omega]
    ring

/-- A pair stands behind the rows before its own. -/
theorem pairRows_getElem? {n k p1 p2 : Nat} (hk : k ≤ n) (h1 : p1 < k) (h2 : p1 < p2) (h3 : p2 < n) :
    (pairRows n k)[p1 * (2 * n - p1 - 1) / 2 + (p2 - p1 - 1)]? = some (p1, p2) := by
  induction k with
  | zero => exact absurd h1 (Nat.not_lt_zero p1)
  | succ k ih =>
    rw [pairRows_succ]
    rcases Nat.lt_succ_iff_lt_or_eq.1 h1 with hlt | rfl
    · have hrow := ih (by omega) hlt
      rw [List.getElem?_append_left (List.getElem?_eq_some_iff.1 hrow).1, hrow]
    · rw [← length_pairRows (Nat.le_of_succ_le hk), List.getElem?_append_right (Nat.le_add_right ..),
        Nat.add_sub_cancel_left, List.getElem?_map, List.getElem?_range' (by omega)]
      simp only [Option.map_some, Option.some.injEq, Prod.mk.injEq, true_and]
      omega

theorem length_pairs (n : Nat) : (pairs n).length = n * (n - 1) / 2 := by
  rw [pairs_eq, length_pairRows (Nat.le_refl n), show 2 * n - n - 1 = n - 1 by omega]

theorem pairs_getElem? {n p1 p2 : Nat} (h12 : p1 < p2) (h2n : p2 < n) :
    (pairs n)[p1 * (2 * n - p1 - 1) / 2 + (p2 - p1 - 1)]? = some (p1, p2) :=
  pairRows_getElem? (Nat.le_refl n) (h12.trans h2n) h12 h2n

/-- Settles O54: the rows one after another. -/
theorem pairListClosedForm : Obligations.PairListClosedForm :=
  fun n => ⟨length_pairs n, fun _ _ => pairs_getElem?, fun _ => mem_pairs⟩

end Sys2Proof.Proofs
end

section
/-! The checks of MCT_PARSE and MCT_APPLY one after another (R310, R311, R325): each failing check is the error when the
ones before it pass, and the first box that fails gives the error of the command (R415). -/

namespace Sys2Proof.Proofs

open Sys2Proof Sys2Proof.Machine

/-! ### Passes that stop at a place -/

section
variable {α β : Type}

theorem split_at {l : List α} {j : Nat} {x : α} (hx : l[j]? = some x) : l = l.take j ++ x :: l.drop (j + 1) := by
  obtain ⟨hj, rfl⟩ := List.getElem?_eq_some_iff.1 hx
  rw [List.getElem_cons_drop, List.take_append_drop]

theorem exists_place_of_mem_take {l : List α} {j : Nat} {y : α} (hy : y ∈ l.take j) : ∃ k < j, l[k]? = some y := by
  obtain ⟨k, hk⟩ := List.mem_iff_getElem?.1 hy
  rw [List.getElem?_take] at hk
  split at hk
  case isTrue hkj => exact ⟨k, hkj, hk⟩
  case isFalse => cases hk

/-- A pass stops at the first place that does not answer. -/
theorem mapM_error_at {f : α → Except Halt β} {l : List α} {j : Nat} {x : α} {e : Halt} (hx : l[j]? = some x)
    (hpre : ∀ k < j, ∀ y, l[k]? = some y → ∃ z, f y = .ok z) (he : f x = .error e) : l.mapM f = .error e := by
  rw [split_at hx]
  refine mapM_first_error (fun y hy => ?_) he
  obtain ⟨k, hk, hy⟩ := exists_place_of_mem_take hy
  exact hpre k hk y hy

/-- A pass of checks stops at the first that fails. -/
theorem forM_first_error {f : α → Except Halt Unit} {pre post : List α} {x : α} {e : Halt}
    (hpre : ∀ y ∈ pre, f y = .ok ()) (hx : f x = .error e) : (pre ++ x :: post).forM f = .error e := by
  induction pre with
  | nil => rw [List.nil_append, List.forM, hx, error_bind]
  | cons y pre ih =>
    rw [List.cons_append, List.forM, hpre y List.mem_cons_self, ok_bind,
      ih fun w hw => hpre w (List.mem_cons_of_mem y hw)]

theorem forM_range_error {f : Nat → Except Halt Unit} {n i : Nat} {e : Halt} (hi : i < n)
    (hpre : ∀ j < i, f j = .ok ()) (he : f i = .error e) : (List.range n).forM f = .error e := by
  rw [split_at (List.getElem?_range hi)]
  refine forM_first_error (fun y hy => ?_) he
  obtain ⟨k, hk, hy⟩ := exists_place_of_mem_take hy
  obtain ⟨_, rfl⟩ := List.getElem?_eq_some_iff.1 hy
  rw [List.getElem_range]
  exact hpre k hk

end

/-! ### The frame checks of MCT_PARSE -/

theorem mctCtrl_parseBase (s : State) : (parseBase params s).mctCtrl = s.mctCtrl := by
  rw [parseBase_frame]

theorem chMapAt_parseBase (s : State) (p : Nat) : (parseBase params s).chMapAt p = s.chMapAt p := by
  rw [parseBase_frame]
  rfl

/-- In IDLE or SAVED, MCT_PARSE is the rest of its rule on the state after the HRESET line (R310). -/
theorem mctParse_allowed {s : State} (hstate : s.mctState = .idle ∨ s.mctState = .saved) :
    mctParse params s = parseFrame params (parseBase params s) := by
  rw [mctParse, parseAllowed_iff.2 hstate]
  rfl

theorem exec_mctParse_raises {s : State} {e : Err} (hstate : s.mctState = .idle ∨ s.mctState = .saved)
    (h : parseFrame params (parseBase params s) = .error (.raise e)) :
    exec .mctParse s = .next ((parseBase params s).raise e) := by
  have hrule : commandRule .mctParse s = .error (.raise e) := (mctParse_allowed hstate).trans h
  rw [exec_eq_finish, hrule, finish_raise]
  rfl

section
variable {s : State} {n : Nat}

theorem groupChecks_count (h : n < 2 ∨ 16 < n) :
    groupChecks params s n = .error (.raise { cause := .nchRange, band := n }) := by
  have h' : n < 2 ∨ params.maxCh < n := h
  have hbad : (decide (n < 2) || decide (params.maxCh < n)) = true := by simpa using h'
  rw [groupChecks, hbad, raiseIf_true, error_bind]

section
variable (h2 : 2 ≤ n) (h16 : n ≤ 16)
include h2 h16

theorem groupChecks_counted : groupChecks params s n =
    match badMapRange params s n with
    | some p => .error (.raise { cause := .chmapRange, band := p })
    | none =>
      match badMapDup s n with
      | some q => .error (.raise { cause := .chmapDup, band := q })
      | none => .ok () := by
  have hmax : n ≤ params.maxCh := h16
  have hgood : (decide (n < 2) || decide (params.maxCh < n)) = false := by
    simpa using ⟨h2, hmax⟩
  rw [groupChecks, hgood]
  rfl

theorem groupChecks_range {p : Nat} (hp : p < n) (hbad : 16 ≤ s.chMapAt p) (hfirst : ∀ p' < p, s.chMapAt p' < 16) :
    groupChecks params s n = .error (.raise { cause := .chmapRange, band := p }) := by
  have hfirst' : ∀ p' < p, s.chMapAt p' < params.maxCh := hfirst
  have hfind : badMapRange params s n = some p :=
    List.find?_range_eq_some.2 ⟨decide_eq_true hbad, List.mem_range.2 hp, fun p' hp' => by simpa using hfirst' p' hp'⟩
  rw [groupChecks_counted h2 h16, hfind]

theorem groupChecks_dup (hrange : ∀ p < n, s.chMapAt p < 16) {q : Nat} (hq : q < n)
    (hbad : ∃ p < q, s.chMapAt p = s.chMapAt q) (hfirst : ∀ q' < q, ∀ p < q', s.chMapAt p ≠ s.chMapAt q') :
    groupChecks params s n = .error (.raise { cause := .chmapDup, band := q }) := by
  have hrange' : ∀ p < n, s.chMapAt p < params.maxCh := hrange
  have hnone : badMapRange params s n = none := by
    simpa [badMapRange, List.find?_eq_none] using hrange'
  have hfind : badMapDup s n = some q :=
    List.find?_range_eq_some.2 ⟨by simpa using hbad, List.mem_range.2 hq, fun q' hq' => by
      simpa using hfirst q' hq'⟩
  rw [groupChecks_counted h2 h16, hnone]
  simp only
  rw [hfind]

end

theorem parseFrame_count (h : 16 < ctlNumBoxes s.mctCtrl) :
    parseFrame params s = .error (.raise { cause := .boxCount, band := ctlNumBoxes s.mctCtrl }) := by
  have hbad : decide (params.maxBoxes < ctlNumBoxes s.mctCtrl) = true := decide_eq_true h
  rw [parseFrame, hbad, raiseIf_true, error_bind]

theorem parseFrame_counted (h : ctlNumBoxes s.mctCtrl ≤ 16) : parseFrame params s = (do
    if 1 ≤ ctlNumBoxes s.mctCtrl then groupChecks params s (ctlNch s.mctCtrl) else .ok ()
    let ps ← (List.range (ctlNumBoxes s.mctCtrl)).mapM (parseBox params s
      (ctlKeepTree s.mctCtrl && !ctlIndep s.mctCtrl) (ctlMode s.mctCtrl) (ctlNch s.mctCtrl))
    .ok (commitParse params s ps)) := by
  have hgood : decide (params.maxBoxes < ctlNumBoxes s.mctCtrl) = false := decide_eq_false (Nat.not_lt.2 h)
  rw [parseFrame, hgood]
  rfl

theorem parseFrame_group {x : Halt} (hpos : 1 ≤ ctlNumBoxes s.mctCtrl) (hcount : ctlNumBoxes s.mctCtrl ≤ 16)
    (h : groupChecks params s (ctlNch s.mctCtrl) = .error x) : parseFrame params s = .error x := by
  rw [parseFrame_counted hcount, if_pos hpos, h, error_bind]

/-- With the frame checks passed, MCT_PARSE parses the boxes one after another and commits them (R310). -/
theorem parseFrame_boxes (hcount : ctlNumBoxes s.mctCtrl ≤ 16)
    (hgroup : 1 ≤ ctlNumBoxes s.mctCtrl → groupChecks params s (ctlNch s.mctCtrl) = .ok ()) :
    parseFrame params s = (do
      let ps ← (List.range (ctlNumBoxes s.mctCtrl)).mapM (parseBox params s
        (ctlKeepTree s.mctCtrl && !ctlIndep s.mctCtrl) (ctlMode s.mctCtrl) (ctlNch s.mctCtrl))
      .ok (commitParse params s ps)) := by
  rw [parseFrame_counted hcount]
  split
  case isTrue hpos => rw [hgroup hpos, ok_bind]
  case isFalse => rw [ok_bind]

end

/-- Settles O41: each frame check raises its error once those before it pass. -/
theorem mctParseFrameChecksInOrder : Obligations.MctParseFrameChecksInOrder := by
  intro s hstate u nb n fails
  have hctrl : u.mctCtrl = s.mctCtrl := mctCtrl_parseBase s
  have hmap : ∀ p, u.chMapAt p = s.chMapAt p := chMapAt_parseBase s
  have raises {e : Err} (h : parseFrame params u = .error (.raise e)) : fails e := exec_mctParse_raises hstate h
  have groupRaises {e : Err} (hpos : 1 ≤ nb) (hcount : nb ≤ 16) (h : groupChecks params u n = .error (.raise e)) :
      fails e := raises (parseFrame_group (by rwa [hctrl]) (by rwa [hctrl]) (by rwa [hctrl]))
  refine ⟨fun h => raises ?_, fun hpos hcount => ⟨fun h => groupRaises hpos hcount (groupChecks_count h), fun h2 h16 =>
    ⟨fun p hp hbad hfirst => groupRaises hpos hcount ?_, fun hrange q hq hbad hfirst => groupRaises hpos hcount ?_⟩⟩⟩
  · have hraise := parseFrame_count (s := u) (by rwa [hctrl])
    rwa [hctrl] at hraise
  · simp only [← hmap] at hbad hfirst
    exact groupChecks_range h2 h16 hp hbad hfirst
  · simp only [← hmap] at hrange hbad hfirst
    exact groupChecks_dup h2 h16 hrange hq hbad hfirst

/-! ### The checks of one box of MCT_PARSE -/

theorem prevMode_is_iff {m : PrevMode} {mode : Bool} : m.is mode = true ↔ m = PrevMode.ofMode mode := by
  cases m <;> cases mode <;> decide

/-- What MCT_PARSE does with a box once its pair is known (R310). -/
def parsePair (s : State) (mode : Bool) (i pi c1 c2 : Nat) : Except Halt ParsedBox := do
  boxChannels params s i c1 c2
  boxFields params s mode i
  let vals ← codedValues params s i mode (s.short c1) (codedBands (s.box i).ctrl (s.box i).mask).zipIdx
  .ok
    { coef := vecOfList 64 ((List.range 64).map (newCoef params s i mode (s.short c1) (boxWidth (s.box i).ctrl) vals)) 0
      info := infoWord c1 c2 (s.short c1) (codedBands (s.box i).ctrl (s.box i).mask).length
      latch := ⟨(s.box i).ctrl, (s.box i).mask, pi, c1, c2, s.short c1, boxWidth (s.box i).ctrl⟩ }

section
variable {s : State} {keep mode : Bool} {n i pi c1 c2 : Nat} {x : Halt}

theorem pairIndex_fail (hkeep : keep = true) (h : (s.box i).prevPairValid = false) :
    pairIndex s keep i = .error (.raise { cause := .keepNoPrev, index := i }) := by
  rw [pairIndex, if_pos hkeep, h]
  rfl

theorem pairIndex_pass (hpi : pi = if keep then (s.box i).prevPair.toNat else boxPairIdx (s.box i).ctrl)
    (h : keep = true → (s.box i).prevPairValid = true) : pairIndex s keep i = .ok pi := by
  subst hpi
  cases keep with
  | false => rfl
  | true =>
    rw [pairIndex, if_pos rfl, h rfl]
    rfl

theorem pairSlots_fail (h : n * (n - 1) / 2 ≤ pi) :
    pairSlots s n i pi = .error (.raise { cause := .pairRange, index := i, band := pi }) := by
  rw [pairSlots, List.getElem?_eq_none (by rwa [length_pairs])]

theorem pairSlots_pass {p1 p2 : Nat} (h12 : p1 < p2) (h2n : p2 < n)
    (hpi : pi = p1 * (2 * n - p1 - 1) / 2 + (p2 - p1 - 1)) :
    pairSlots s n i pi = .ok (s.chMapAt p1, s.chMapAt p2) := by
  rw [pairSlots, hpi, pairs_getElem? h12 h2n]

theorem parseBox_pairIndex (h : pairIndex s keep i = .error x) : parseBox params s keep mode n i = .error x := by
  rw [parseBox, h, error_bind]

theorem parseBox_pairSlots (hpi : pairIndex s keep i = .ok pi) (h : pairSlots s n i pi = .error x) :
    parseBox params s keep mode n i = .error x := by
  rw [parseBox, hpi, ok_bind, h, error_bind]

theorem parseBox_paired (hpi : pairIndex s keep i = .ok pi) (hslots : pairSlots s n i pi = .ok (c1, c2)) :
    parseBox params s keep mode n i = parsePair s mode i pi c1 c2 := by
  rw [parseBox, hpi, ok_bind, hslots, ok_bind]
  rfl

theorem parsePair_channels (h : boxChannels params s i c1 c2 = .error x) :
    parsePair s mode i pi c1 c2 = .error x := by
  rw [parsePair, h, error_bind]

theorem parsePair_fields (hchans : boxChannels params s i c1 c2 = .ok ()) (h : boxFields params s mode i = .error x) :
    parsePair s mode i pi c1 c2 = .error x := by
  rw [parsePair, hchans, ok_bind, h, error_bind]

theorem parsePair_values (hchans : boxChannels params s i c1 c2 = .ok ()) (hfields : boxFields params s mode i = .ok ())
    (h : codedValues params s i mode (s.short c1) (codedBands (s.box i).ctrl (s.box i).mask).zipIdx = .error x) :
    parsePair s mode i pi c1 c2 = .error x := by
  rw [parsePair, hchans, ok_bind, hfields, ok_bind, h, error_bind]

/-! The channels of the pair. -/

theorem boxChannels_stage1 (h1 : (s.ch c1).stage ≠ .decoded) :
    boxChannels params s i c1 c2 = .error (.raise { cause := .stage, index := c1 }) := by
  rw [boxChannels, chkStage_fail h1, error_bind]

section
variable (h1 : (s.ch c1).stage = .decoded)
include h1

theorem boxChannels_stage2 (h2 : (s.ch c2).stage ≠ .decoded) :
    boxChannels params s i c1 c2 = .error (.raise { cause := .stage, index := c2 }) := by
  rw [boxChannels, chkStage_pass h1, ok_bind, chkStage_fail h2, error_bind]

variable (h2 : (s.ch c2).stage = .decoded)
include h2

theorem boxChannels_cfg1 (h : chkCfg params s c1 = .error x) : boxChannels params s i c1 c2 = .error x := by
  rw [boxChannels, chkStage_pass h1, ok_bind, chkStage_pass h2, ok_bind, h, error_bind]

variable (hcfg1 : CfgOk s c1)
include hcfg1

theorem boxChannels_cfg2 (h : chkCfg params s c2 = .error x) : boxChannels params s i c1 c2 = .error x := by
  rw [boxChannels, chkStage_pass h1, ok_bind, chkStage_pass h2, ok_bind, cfgOk_iff.1 hcfg1, ok_bind, h, error_bind]

variable (hcfg2 : CfgOk s c2)
include hcfg2

theorem boxChannels_configured : boxChannels params s i c1 c2 = (do
    raiseIf (s.short c1 != s.short c2) { cause := .windowMismatch, index := i }
    raiseIf (icsIgfEn (s.ch c1).ics && icsIgfEn (s.ch c2).ics) { cause := .igfTiles, index := i }) := by
  rw [boxChannels, chkStage_pass h1, ok_bind, chkStage_pass h2, ok_bind, cfgOk_iff.1 hcfg1, ok_bind, cfgOk_iff.1 hcfg2,
    ok_bind]

theorem boxChannels_window (h : s.short c1 ≠ s.short c2) :
    boxChannels params s i c1 c2 = .error (.raise { cause := .windowMismatch, index := i }) := by
  rw [boxChannels_configured h1 h2 hcfg1 hcfg2, bne_iff_ne.2 h, raiseIf_true, error_bind]

variable (hshort : s.short c1 = s.short c2)
include hshort

theorem boxChannels_igf (h : icsIgfEn (s.ch c1).ics = true) (h' : icsIgfEn (s.ch c2).ics = true) :
    boxChannels params s i c1 c2 = .error (.raise { cause := .igfTiles, index := i }) := by
  rw [boxChannels_configured h1 h2 hcfg1 hcfg2, bne_eq_false_iff_eq.2 hshort, h, h']
  rfl

theorem boxChannels_pass (h : icsIgfEn (s.ch c1).ics = false ∨ icsIgfEn (s.ch c2).ics = false) :
    boxChannels params s i c1 c2 = .ok () := by
  have higf : (icsIgfEn (s.ch c1).ics && icsIgfEn (s.ch c2).ics) = false := by
    rcases h with h | h <;> simp [h]
  rw [boxChannels_configured h1 h2 hcfg1 hcfg2, bne_eq_false_iff_eq.2 hshort, higf]
  rfl

end

/-! The box's own fields. -/

theorem boxFields_width (hflag : boxFlagged (s.box i).ctrl = true) (h : 64 < boxNumBands (s.box i).ctrl) :
    boxFields params s mode i =
      .error (.raise { cause := .maskWidth, index := i, band := boxNumBands (s.box i).ctrl }) := by
  have hbad : decide (Config.maxMctBands < boxNumBands (s.box i).ctrl) = true := decide_eq_true h
  rw [boxFields, hflag, hbad]
  rfl

section
variable (hwidth : boxFlagged (s.box i).ctrl = true → boxNumBands (s.box i).ctrl ≤ 64)
include hwidth

theorem boxFields_narrow : boxFields params s mode i = (do
    raiseIf (boxDeltaTime (s.box i).ctrl && decide (s.prevMode ≠ .none) && !s.prevMode.is mode)
      { cause := .dtMode, index := i }
    match badSymbol params (s.box i) mode (codedBands (s.box i).ctrl (s.box i).mask).length with
    | some j => .error (.raise { cause := .symRange, index := i, band := j })
    | none => .ok ()) := by
  have hgood : (boxFlagged (s.box i).ctrl && decide (Config.maxMctBands < boxNumBands (s.box i).ctrl)) = false := by
    rw [Bool.and_eq_false_imp]
    exact fun hflag => decide_eq_false (Nat.not_lt.2 (hwidth hflag))
  rw [boxFields, hgood]
  rfl

theorem boxFields_dtMode (hdt : boxDeltaTime (s.box i).ctrl = true) (hnone : s.prevMode ≠ .none)
    (hmode : s.prevMode ≠ PrevMode.ofMode mode) :
    boxFields params s mode i = .error (.raise { cause := .dtMode, index := i }) := by
  have his : s.prevMode.is mode = false := by rwa [← Bool.not_eq_true, prevMode_is_iff]
  rw [boxFields_narrow hwidth, hdt, decide_eq_true hnone, his]
  rfl

variable (hdt : boxDeltaTime (s.box i).ctrl = true → s.prevMode = .none ∨ s.prevMode = PrevMode.ofMode mode)
include hdt

theorem boxFields_legal : boxFields params s mode i =
    match badSymbol params (s.box i) mode (codedBands (s.box i).ctrl (s.box i).mask).length with
    | some j => .error (.raise { cause := .symRange, index := i, band := j })
    | none => .ok () := by
  have hgood : (boxDeltaTime (s.box i).ctrl && decide (s.prevMode ≠ .none) && !s.prevMode.is mode) = false := by
    rw [Bool.and_assoc, Bool.and_eq_false_imp]
    intro hbit
    rcases hdt hbit with h | h
    · simp [h]
    · simp [prevMode_is_iff.2 h]
  rw [boxFields_narrow hwidth, hgood, raiseIf_false, ok_bind]

theorem boxFields_symbol {j : Nat} (hj : j < (codedBands (s.box i).ctrl (s.box i).mask).length)
    (hbad : alphabet params mode ≤ (s.box i).symAt j) (hfirst : ∀ j' < j, (s.box i).symAt j' < alphabet params mode) :
    boxFields params s mode i = .error (.raise { cause := .symRange, index := i, band := j }) := by
  have hfind : badSymbol params (s.box i) mode (codedBands (s.box i).ctrl (s.box i).mask).length = some j :=
    List.find?_range_eq_some.2 ⟨decide_eq_true hbad, List.mem_range.2 hj, fun j' hj' => by simpa using hfirst j' hj'⟩
  rw [boxFields_legal hwidth hdt, hfind]

theorem boxFields_pass
    (hsym : ∀ j < (codedBands (s.box i).ctrl (s.box i).mask).length, (s.box i).symAt j < alphabet params mode) :
    boxFields params s mode i = .ok () := by
  have hnone : badSymbol params (s.box i) mode (codedBands (s.box i).ctrl (s.box i).mask).length = none := by
    simpa [badSymbol, List.find?_eq_none] using hsym
  rw [boxFields_legal hwidth hdt, hnone]

end

theorem alphabet_params (mode : Bool) : alphabet params mode = if mode then 65 else 121 := rfl

end

/-! The coded values. -/

/-- The value of band b from symbol j of box i (R313). -/
def codedValue (s : State) (i : Nat) (mode sh : Bool) (bj : Nat × Nat) : Except Halt (Nat × Word) := do
  let v ← reconstruct params i mode (predictor params s i mode sh bj.1) ((s.box i).symAt bj.2) bj.1
  .ok (bj.1, v)

theorem codedValues_eq (s : State) (i : Nat) (mode sh : Bool) (l : List (Nat × Nat)) :
    codedValues params s i mode sh l = l.mapM (codedValue s i mode sh) := by
  induction l with
  | nil => rfl
  | cons x l ih =>
    rw [codedValues, ih, List.mapM_cons, codedValue, bind_assoc]
    rfl

section
variable {s : State} {i b j : Nat} {sh : Bool}

theorem codedValue_bad_angle (h : 64 ≤ (predictor params s i true sh b + ((s.box i).symAt j : Int)) % 65) :
    codedValue s i true sh (b, j) = .error (.raise { cause := .angleRange, index := i, band := b }) := by
  unfold codedValue reconstruct
  rw [if_pos rfl]
  exact congrArg (· >>= _) (if_pos h)

theorem codedValue_angle (h : (predictor params s i true sh b + ((s.box i).symAt j : Int)) % 65 < 64) :
    codedValue s i true sh (b, j) =
      .ok (b, BitVec.ofInt 32 ((predictor params s i true sh b + ((s.box i).symAt j : Int)) % 65)) := by
  unfold codedValue reconstruct
  rw [if_pos rfl]
  exact congrArg (· >>= _) (if_neg (Int.not_le.2 h))

end

/-- Settles O42: the boxes before the first that fails parse, and the checks of one box run one after another. -/
theorem mctParseBoxChecksInOrder : Obligations.MctParseBoxChecksInOrder := by
  refine ⟨?_, ?_⟩
  · intro s i e hstate hcount hi h2 h16 hrange hdup run hpre he
    refine exec_mctParse_raises hstate ?_
    have hctrl := mctCtrl_parseBase s
    have hgroup : groupChecks params (parseBase params s) (ctlNch s.mctCtrl) = .ok () := by
      simp only [groupChecks_ok, chMapAt_parseBase]
      exact ⟨⟨h2, h16⟩, hrange, hdup⟩
    rw [parseFrame_boxes (by rwa [hctrl]) (fun _ => by rwa [hctrl]), hctrl,
      mapM_error_at (List.getElem?_range hi) (fun k hk y hy => ?_) he, error_bind]
    obtain ⟨_, rfl⟩ := List.getElem?_eq_some_iff.1 hy
    rw [List.getElem_range]
    exact hpre k hk
  · intro u keep mode n i pi c1 c2 _ fails ctrl coded
    refine ⟨fun hkeep hvalid => parseBox_pairIndex (pairIndex_fail hkeep hvalid),
      fun hpi hvalid => ⟨fun hbig => parseBox_pairSlots (pairIndex_pass hpi hvalid) (pairSlots_fail hbig), ?_⟩⟩
    intro p1 p2 h12 h2n hplace hc1 hc2
    have hslots : pairSlots u n i pi = .ok (c1, c2) := by rw [hc1, hc2]; exact pairSlots_pass h12 h2n hplace
    have hpair : parseBox params u keep mode n i = parsePair u mode i pi c1 c2 :=
      parseBox_paired (pairIndex_pass hpi hvalid) hslots
    simp only [fails, hpair]
    refine ⟨fun h1 => parsePair_channels (boxChannels_stage1 h1),
      fun h1 h2 => parsePair_channels (boxChannels_stage2 h1 h2),
      fun h1 h2 => ⟨fun e he => parsePair_channels (boxChannels_cfg1 h1 h2 he),
        fun hcfg1 e he => parsePair_channels (boxChannels_cfg2 h1 h2 hcfg1 he),
        fun hcfg1 hcfg2 => ⟨fun h => parsePair_channels (boxChannels_window h1 h2 hcfg1 hcfg2 h),
          fun hshort => ⟨fun h h' => parsePair_channels (boxChannels_igf h1 h2 hcfg1 hcfg2 hshort h h'),
            fun higf => ?_⟩⟩⟩⟩
    have hchans : boxChannels params u i c1 c2 = .ok () := boxChannels_pass h1 h2 hcfg1 hcfg2 hshort higf
    refine ⟨fun hflag h => parsePair_fields hchans (boxFields_width hflag h),
      fun hwidth => ⟨fun hdt hnone hmode => parsePair_fields hchans (boxFields_dtMode hwidth hdt hnone hmode),
        fun hdt => ⟨fun j hj hbad hfirst => parsePair_fields hchans (boxFields_symbol hwidth hdt hj hbad hfirst),
          fun hsym hmode j b hj hbad hfirst => ?_⟩⟩⟩
    subst hmode
    refine parsePair_values hchans (boxFields_pass hwidth hdt hsym) ?_
    have hplace : (codedBands (u.box i).ctrl (u.box i).mask).zipIdx[j]? = some (b, j) := by
      rw [List.getElem?_zipIdx, hj]
      simp
    rw [codedValues_eq]
    refine mapM_error_at hplace (fun k hk y hy => ?_) (codedValue_bad_angle hbad)
    obtain ⟨b', hb', rfl⟩ : ∃ b', (codedBands (u.box i).ctrl (u.box i).mask)[k]? = some b' ∧ y = (b', k) := by
      rw [List.getElem?_zipIdx] at hy
      simpa [eq_comm] using hy
    exact ⟨_, codedValue_angle (hfirst k b' hk hb')⟩

/-! ### The re-check of MCT_APPLY -/

section
variable {s : State} {i : Nat} {x : Halt}

theorem recheckBox_stage1 (h1 : (s.ch (s.latch i).c1).stage ≠ .decoded) :
    recheckBox params s i = .error (.raise { cause := .stage, index := (s.latch i).c1 }) := by
  rw [recheckBox, chkStage_fail h1, error_bind]

variable (h1 : (s.ch (s.latch i).c1).stage = .decoded)
include h1

theorem recheckBox_stage2 (h2 : (s.ch (s.latch i).c2).stage ≠ .decoded) :
    recheckBox params s i = .error (.raise { cause := .stage, index := (s.latch i).c2 }) := by
  rw [recheckBox, chkStage_pass h1, ok_bind, chkStage_fail h2, error_bind]

variable (h2 : (s.ch (s.latch i).c2).stage = .decoded)
include h2

theorem recheckBox_cfg1 (h : chkCfg params s (s.latch i).c1 = .error x) : recheckBox params s i = .error x := by
  rw [recheckBox, chkStage_pass h1, ok_bind, chkStage_pass h2, ok_bind, h, error_bind]

variable (hcfg1 : CfgOk s (s.latch i).c1)
include hcfg1

theorem recheckBox_cfg2 (h : chkCfg params s (s.latch i).c2 = .error x) : recheckBox params s i = .error x := by
  rw [recheckBox, chkStage_pass h1, ok_bind, chkStage_pass h2, ok_bind, cfgOk_iff.1 hcfg1, ok_bind, h, error_bind]

theorem recheckBox_window (hcfg2 : CfgOk s (s.latch i).c2)
    (h : s.short (s.latch i).c1 ≠ (s.latch i).sh ∨ s.short (s.latch i).c2 ≠ (s.latch i).sh) :
    recheckBox params s i = .error (.raise { cause := .windowMismatch, index := i }) := by
  have hbad : ((s.short (s.latch i).c1 != (s.latch i).sh) || (s.short (s.latch i).c2 != (s.latch i).sh)) = true := by
    simpa using h
  rw [recheckBox, chkStage_pass h1, ok_bind, chkStage_pass h2, ok_bind, cfgOk_iff.1 hcfg1, ok_bind, cfgOk_iff.1 hcfg2,
    ok_bind, hbad, raiseIf_true]

end

/-- Settles O44: the re-checks run box by box before any box acts. -/
theorem mctApplyRechecksTheBoxes : Obligations.MctApplyRechecksTheBoxes := by
  intro s i hstate hi hpre c1 c2 fails
  have raises {e : Err} (h : recheckBox params s i = .error (.raise e)) : fails e := by
    refine exec_of_raise (i := .mctApply) ?_ rfl
    have hgood : decide (s.mctState ≠ .boxesParsed) = false := decide_eq_false (not_not.2 hstate)
    rw [commandRule, mctApply, hgood, raiseIf_false, ok_bind, forM_range_error hi hpre h, error_bind]
  exact ⟨fun h1 => raises (recheckBox_stage1 h1), fun h1 h2 => raises (recheckBox_stage2 h1 h2),
    fun h1 h2 => ⟨fun e he => raises (recheckBox_cfg1 h1 h2 he), fun hcfg1 e he => raises (recheckBox_cfg2 h1 h2 hcfg1 he),
      fun hcfg1 hcfg2 h => raises (recheckBox_window h1 h2 hcfg1 hcfg2 h)⟩⟩

end Sys2Proof.Proofs
end

section
/-! MCT_PARSE of a frame that passes every check (R310 to R317): the coefficients, BOX_INFO and latch of each box. -/

namespace Sys2Proof.Proofs

open Sys2Proof Sys2Proof.Machine

/-! ### The coded bands and the working history (R312, R314) -/

section
variable {ctrl : Word} {mask : BitVec 64}

theorem codedBands_single (h : boxBandwise ctrl = false) : codedBands ctrl mask = [0] := by
  simp [codedBands, h]

theorem codedBands_bandwise (h : boxBandwise ctrl = true) :
    codedBands ctrl mask = (List.range (boxNumBands ctrl)).filter (maskAllows ctrl mask) := by
  simp [codedBands, boxWidth, boxFlagged, h]

theorem mem_codedBands (h : boxBandwise ctrl = true) {b : Nat} : b ∈ codedBands ctrl mask ↔
    b < boxNumBands ctrl ∧ (boxHasMask ctrl = false ∨ mask.getLsbD b = true) := by
  rw [codedBands_bandwise h, List.mem_filter, List.mem_range, maskAllows, Bool.or_eq_true, Bool.not_eq_true']

theorem codedBands_rising (ctrl : Word) (mask : BitVec 64) : (codedBands ctrl mask).Pairwise (· < ·) := by
  cases h : boxBandwise ctrl with
  | false =>
    rw [codedBands_single h]
    exact List.pairwise_singleton _ _
  | true =>
    rw [codedBands_bandwise h]
    exact List.pairwise_lt_range.filter _

/-- A box at most 64 bands wide codes only bands below 64, and at most 64 of them. -/
theorem codedBands_lt (h : boxFlagged ctrl = true → boxNumBands ctrl ≤ 64) :
    (∀ b ∈ codedBands ctrl mask, b < 64) ∧ (codedBands ctrl mask).length ≤ 64 := by
  cases hbw : boxBandwise ctrl with
  | false =>
    rw [codedBands_single hbw]
    simp
  | true =>
    have hnum := h (by simp [boxFlagged, hbw])
    refine ⟨fun b hb => Nat.lt_of_lt_of_le ((mem_codedBands hbw).1 hb).1 hnum, ?_⟩
    rw [codedBands_bandwise hbw]
    exact (List.length_filter_le _ _).trans (by rwa [List.length_range])

end

theorem modeDefault_eq (mode : Bool) : modeDefault params mode = if mode then 48 else 0 := by
  cases mode <;> rfl

/-- The working history is HIST where the box has a history of this mode and block type, else the default (R312). -/
theorem workHist_eq (s : State) (i : Nat) (mode sh : Bool) (b : Nat) : workHist params s i mode sh b =
    if (s.box i).histValid = true ∧ s.prevMode = PrevMode.ofMode mode ∧ (s.box i).prevBoxShort = sh then
      (((s.box i).hist[b]?).getD 0).toInt
    else if mode then 48 else 0 := by
  unfold workHist
  rw [modeDefault_eq]
  by_cases h : (s.box i).histValid = true ∧ s.prevMode = PrevMode.ofMode mode ∧ (s.box i).prevBoxShort = sh
  · obtain ⟨hvalid, hmode, hshort⟩ := h
    simp [hvalid, prevMode_is_iff.2 hmode, ← hmode, hshort, Box.histAt]
  · rw [if_neg h, if_pos]
    simp only [Bool.or_eq_true, Bool.not_eq_true', bne_iff_ne, ← Bool.not_eq_true, prevMode_is_iff]
    tauto

/-! ### The values of the coded bands (R313) -/

/-- The coefficient of band b from symbol j of box i (R313). -/
def codedInt (s : State) (i : Nat) (mode sh : Bool) (b j : Nat) : Int :=
  if mode then (predictor params s i mode sh b + ((s.box i).symAt j : Int)) % 65
  else predictor params s i mode sh b + ((s.box i).symAt j : Int) - 60

/-- The coded bands of box i, each with its coefficient. -/
def codedPairs (s : State) (i : Nat) (mode sh : Bool) : List (Nat × Word) :=
  (codedBands (s.box i).ctrl (s.box i).mask).zipIdx.map
    (fun bj => (bj.1, BitVec.ofInt 32 (codedInt s i mode sh bj.1 bj.2)))

section
variable {s : State} {i : Nat} {mode sh : Bool}

theorem codedValue_ok {b j : Nat}
    (h : mode = true → (predictor params s i true sh b + ((s.box i).symAt j : Int)) % 65 < 64) :
    codedValue s i mode sh (b, j) = .ok (b, BitVec.ofInt 32 (codedInt s i mode sh b j)) := by
  cases mode with
  | false => rfl
  | true => exact codedValue_angle (h rfl)

/-- The coded values, when every angle is in range. -/
theorem codedValues_ok (h : mode = true → ∀ j b, (codedBands (s.box i).ctrl (s.box i).mask)[j]? = some b →
      (predictor params s i true sh b + ((s.box i).symAt j : Int)) % 65 < 64) :
    codedValues params s i mode sh (codedBands (s.box i).ctrl (s.box i).mask).zipIdx = .ok (codedPairs s i mode sh) := by
  rw [codedValues_eq]
  refine mapM_eq_map fun bj hbj => codedValue_ok fun hmode => h hmode bj.2 bj.1 ?_
  exact List.mem_zipIdx_iff_getElem?.1 hbj

theorem fst_codedPairs : (codedPairs s i mode sh).map Prod.fst = codedBands (s.box i).ctrl (s.box i).mask := by
  rw [codedPairs, List.map_map]
  exact List.zipIdx_map_fst 0 _

/-- In a list with no band twice, the entry of a band is found. -/
theorem find?_of_nodup_fst {l : List (Nat × Word)} (hl : (l.map Prod.fst).Nodup) {b : Nat} {v : Word} (h : (b, v) ∈ l) :
    l.find? (fun x => decide (x.1 = b)) = some (b, v) := by
  induction l with
  | nil => cases h
  | cons x l ih =>
    obtain ⟨hx, hl⟩ := List.nodup_cons.1 hl
    rcases List.mem_cons.1 h with rfl | h
    · exact List.find?_cons_of_pos (by simp)
    · have hne : x.1 ≠ b := fun heq => hx (heq ▸ List.mem_map_of_mem (f := Prod.fst) h)
      exact (List.find?_cons_of_neg (by simpa using hne)).trans (ih hl h)

theorem newCoef_coded {width b j : Nat} (h : (codedBands (s.box i).ctrl (s.box i).mask)[j]? = some b) :
    newCoef params s i mode sh width (codedPairs s i mode sh) b = BitVec.ofInt 32 (codedInt s i mode sh b j) := by
  have hmem : (b, BitVec.ofInt 32 (codedInt s i mode sh b j)) ∈ codedPairs s i mode sh :=
    List.mem_map.2 ⟨(b, j), List.mem_zipIdx_iff_getElem?.2 h, rfl⟩
  have hnodup : ((codedPairs s i mode sh).map Prod.fst).Nodup := by
    rw [fst_codedPairs]
    exact (codedBands_rising _ _).imp Nat.ne_of_lt
  rw [newCoef, find?_of_nodup_fst hnodup hmem]

theorem newCoef_uncoded {width b : Nat} (h : b ∉ codedBands (s.box i).ctrl (s.box i).mask) :
    newCoef params s i mode sh width (codedPairs s i mode sh) b =
      BitVec.ofInt 32 (if b < width then workHist params s i mode sh b else modeDefault params mode) := by
  have hnone : (codedPairs s i mode sh).find? (fun x => decide (x.1 = b)) = none := by
    refine List.find?_eq_none.2 fun x hx => ?_
    rw [← fst_codedPairs (mode := mode) (sh := sh)] at h
    rw [decide_eq_true_eq]
    rintro rfl
    exact h (List.mem_map_of_mem hx)
  rw [newCoef, hnone]

end

/-! ### A box that parses -/

/-- What MCT_PARSE stages for box i with pair index pi and slots c1, c2 (R310). -/
def parsedBox (s : State) (mode : Bool) (i pi c1 c2 : Nat) : ParsedBox where
  coef := vecOfList 64 ((List.range 64).map (newCoef params s i mode (s.short c1) (boxWidth (s.box i).ctrl)
    (codedPairs s i mode (s.short c1)))) 0
  info := infoWord c1 c2 (s.short c1) (codedBands (s.box i).ctrl (s.box i).mask).length
  latch := ⟨(s.box i).ctrl, (s.box i).mask, pi, c1, c2, s.short c1, boxWidth (s.box i).ctrl⟩

section
variable {s : State} {keep mode : Bool} {n i pi c1 c2 : Nat}

/-- A box that passes every check of R310 parses. -/
theorem parseBox_parsed (h : BoxParses s keep mode n i pi c1 c2) :
    parseBox params s keep mode n i = .ok (parsedBox s mode i pi c1 c2) := by
  have hindex : pairIndex s keep i = .ok pi := by
    have hpair := h.pair
    cases keep with
    | false => exact pairIndex_pass hpair nofun
    | true => exact pairIndex_pass hpair.2 fun _ => hpair.1
  have hslots : pairSlots s n i pi = .ok (c1, c2) := by
    obtain ⟨p1, p2, h12, h2n, hpi, rfl, rfl⟩ := h.slots
    exact pairSlots_pass h12 h2n hpi
  have hchans : boxChannels params s i c1 c2 = .ok () :=
    boxChannels_pass h.stages.1 h.stages.2 h.configs.1 h.configs.2 h.windows h.igf
  rw [parseBox_paired hindex hslots, parsePair, hchans, ok_bind, boxFields_pass h.width h.deltaTime h.symbols, ok_bind,
    codedValues_ok h.angles, ok_bind]
  rfl

theorem coef_parsedBox {b : Nat} (hb : b < 64) : (parsedBox s mode i pi c1 c2).coef[b]? =
    some (newCoef params s i mode (s.short c1) (boxWidth (s.box i).ctrl) (codedPairs s i mode (s.short c1)) b) := by
  rw [parsedBox, getElem?_vecOfList 64 _ _ b hb, List.getElem?_map, List.getElem?_range hb]
  rfl

theorem coef_parsedBox_coded {b j : Nat} (hb : b < 64) (h : (codedBands (s.box i).ctrl (s.box i).mask)[j]? = some b) :
    (parsedBox s mode i pi c1 c2).coef[b]? = some (BitVec.ofInt 32 (codedInt s i mode (s.short c1) b j)) := by
  rw [coef_parsedBox hb, newCoef_coded h]

theorem coef_parsedBox_uncoded {b : Nat} (hb : b < 64) (h : b ∉ codedBands (s.box i).ctrl (s.box i).mask) :
    (parsedBox s mode i pi c1 c2).coef[b]? = some (BitVec.ofInt 32
      (if b < boxWidth (s.box i).ctrl then workHist params s i mode (s.short c1) b else modeDefault params mode)) := by
  rw [coef_parsedBox hb, newCoef_uncoded h]

/-- A box of a group whose channels are slots has two slots. -/
theorem slots_of_parses (h : BoxParses s keep mode n i pi c1 c2) (hslot : ∀ p < n, s.chMapAt p < 16) :
    c1 < 16 ∧ c2 < 16 := by
  obtain ⟨p1, p2, h12, h2n, _, rfl, rfl⟩ := h.slots
  exact ⟨hslot p1 (by omega), hslot p2 h2n⟩

/-- The fields of BOX_INFO (R88). -/
theorem infoWord_fields {sh : Bool} (hc1 : c1 < 256) (hc2 : c2 < 256) (hn : n < 128) :
    ((infoWord c1 c2 sh n).extractLsb' 0 8).toNat = c1 ∧ ((infoWord c1 c2 sh n).extractLsb' 8 8).toNat = c2 ∧
      (infoWord c1 c2 sh n).getLsbD 16 = sh ∧ (infoWord c1 c2 sh n).getLsbD 17 = true ∧
      ((infoWord c1 c2 sh n).extractLsb' 24 7).toNat = n ∧ (infoWord c1 c2 sh n).extractLsb' 18 6 = 0 ∧
      (infoWord c1 c2 sh n).getLsbD 31 = false :=
  ⟨toNat_field field_low hc1, toNat_field (field_above field_low) hc2, bit_of_field (field_above (field_above field_low)),
    bit_of_field (field_above (field_above (field_above field_low))),
    toNat_field (field_above (field_above (field_above (field_above (field_above field_low))))) hn,
    field_above (field_above (field_above (field_above field_low))),
    bit_of_field (field_above (field_above (field_above (field_above (field_above field_top)))))⟩

end

/-! ### The commit of the boxes -/

section
variable (ps : List ParsedBox)

/-- Staging the boxes from n on leaves every other box. -/
theorem foldl_commitBox_apart {n j : Nat} (hj : j < n ∨ n + ps.length ≤ j) (s : State) :
    ((ps.zipIdx n).foldl (fun t x => t.commitBox x.2 x.1) s).latch j = s.latch j ∧
      ((ps.zipIdx n).foldl (fun t x => t.commitBox x.2 x.1) s).box j = s.box j := by
  induction ps generalizing n s with
  | nil => exact ⟨rfl, rfl⟩
  | cons x ps ih =>
    have hne : n ≠ j := by simp only [List.length_cons] at hj; omega
    rw [List.zipIdx_cons, List.foldl_cons]
    obtain ⟨hlatch, hbox⟩ := ih (n := n + 1) (by simp only [List.length_cons] at hj; omega) (s.commitBox n x)
    rw [hlatch, hbox, latch_commitBox_ne hne, box_commitBox, State.box_setBox_ne hne]
    exact ⟨rfl, rfl⟩

/-- Staging the boxes from n on gives each its COEF and BOX_INFO. -/
theorem box_foldl_commitBox {n j : Nat} {x : ParsedBox} (hj : j < 16) (hn : n ≤ j) (hx : ps[j - n]? = some x) (s : State) :
    ((ps.zipIdx n).foldl (fun t x => t.commitBox x.2 x.1) s).box j =
      { s.box j with coef := x.coef, info := x.info } := by
  induction ps generalizing n s with
  | nil => simp at hx
  | cons y ps ih =>
    rw [List.zipIdx_cons, List.foldl_cons]
    by_cases hjn : j = n
    · subst hjn
      obtain rfl : y = x := by simpa using hx
      rw [(foldl_commitBox_apart ps (.inl (Nat.lt_succ_self j)) _).2, box_commitBox, State.box_setBox_self hj]
    · rw [show j - n = j - (n + 1) + 1 by omega, List.getElem?_cons_succ] at hx
      rw [ih (by omega) hx, box_commitBox, State.box_setBox_ne (Ne.symm hjn)]

/-- After the staged writes the boxes above lose their BOX_INFO (R310, R317). -/
theorem box_commitParse (s : State) {j : Nat} (hj : j < 16) : (commitParse params s ps).box j =
    if j < ps.length then (ps.zipIdx.foldl (fun t x => t.commitBox x.2 x.1) s).box j
    else { (ps.zipIdx.foldl (fun t x => t.commitBox x.2 x.1) s).box j with info := 0 } := by
  have hrest := box_foldl_setBox (fun y _ => { y with info := 0 })
    (List.nodup_range' (s := ps.length) (n := params.maxBoxes - ps.length))
    (ps.zipIdx.foldl (fun t x => t.commitBox x.2 x.1) s) hj
  have hmax : params.maxBoxes = 16 := rfl
  refine Eq.trans ?_ (hrest.trans ?_)
  · rfl
  · rw [hmax]
    simp only [List.mem_range'_1]
    by_cases h : j < ps.length
    · rw [if_neg (by omega), if_pos h]
    · rw [if_pos (by omega), if_neg h]

theorem latch_foldl_setBox (f : State → Nat → Box) (l : List Nat) (s : State) (j : Nat) :
    (l.foldl (fun t i => t.setBox i (f t i)) s).latch j = s.latch j :=
  foldl_keeps (f := fun t i => t.setBox i (f t i)) (R := fun s t : State => t.latch j = s.latch j) (fun _ => rfl)
    (fun _ _ _ h h' => h'.trans h) (fun _ _ => rfl) l s

/-- A staged box has its COEF and BOX_INFO. -/
theorem box_commitParse_staged (s : State) {j : Nat} {x : ParsedBox} (hj : j < 16) (hx : ps[j]? = some x) :
    (commitParse params s ps).box j = { s.box j with coef := x.coef, info := x.info } := by
  rw [box_commitParse ps s hj, if_pos (List.getElem?_eq_some_iff.1 hx).1, box_foldl_commitBox ps hj (Nat.zero_le j) hx]

/-- A box above the frame's is inactive (R317). -/
theorem commitParse_unstaged (s : State) {j : Nat} (hj : j < 16) (hlen : ps.length ≤ j) :
    (commitParse params s ps).box j = { s.box j with info := 0 } ∧ (commitParse params s ps).latch j = s.latch j := by
  obtain ⟨hlatch, hbox⟩ := foldl_commitBox_apart ps (n := 0) (j := j) (.inr (by omega)) s
  refine ⟨by rw [box_commitParse ps s hj, if_neg (Nat.not_lt.2 hlen), hbox], Eq.trans ?_ hlatch⟩
  exact latch_foldl_setBox (fun t i => { t.box i with info := 0 }) _ _ j

end

/-! ### The command -/

/-- The HRESET line leaves what the host wrote of a box, and the window of a channel. -/
theorem parseBase_keeps (s : State) (i c : Nat) : ((parseBase params s).box i).ctrl = (s.box i).ctrl ∧
    ((parseBase params s).box i).mask = (s.box i).mask ∧ (∀ j, ((parseBase params s).box i).symAt j = (s.box i).symAt j) ∧
    (parseBase params s).short c = s.short c := by
  obtain ⟨hctrl, hlo, hhi, hsym⟩ := parseBase_boxesHostKept s i
  have hics : ((parseBase params s).ch c).ics = (s.ch c).ics := by rw [(parseBase_channelsStep .nop s c).host]
  refine ⟨hctrl, ?_, fun j => ?_, ?_⟩
  · rw [Box.mask, Box.mask, hlo, hhi]
  · rw [Box.symAt, Box.symAt, hsym]
  · rw [State.short, State.short, hics]

/-- Settles O39: the boxes parse one by one, and the commit stages them. -/
theorem mctParseReconstructsTheFrame : Obligations.MctParseReconstructsTheFrame := by
  refine ⟨fun ctrl mask => ⟨rfl, codedBands_single, fun h => ⟨codedBands_rising ctrl mask, fun b => mem_codedBands h⟩⟩, ?_⟩
  intro s u hstate hu hcount hgroup pi c1 c2 hparses
  have hctrl : u.mctCtrl = s.mctCtrl := hu ▸ mctCtrl_parseBase s
  have hchecks : 1 ≤ ctlNumBoxes s.mctCtrl → groupChecks params u (ctlNch s.mctCtrl) = .ok () := fun hpos => by
    obtain ⟨h2, h16, hrange, hdup⟩ := hgroup hpos
    simp only [groupChecks_ok, hu, chMapAt_parseBase]
    exact ⟨⟨h2, h16⟩, hrange, hdup⟩
  obtain ⟨ps, hps⟩ : ∃ ps, ps = (List.range (ctlNumBoxes s.mctCtrl)).map
    (fun i => parsedBox u (ctlMode s.mctCtrl) i (pi i) (c1 i) (c2 i)) := ⟨_, rfl⟩
  have hrule : commandRule .mctParse s = .ok (commitParse params u ps) := by
    have hboxes := mapM_eq_map fun i hi => parseBox_parsed (hparses i (List.mem_range.1 hi))
    refine (mctParse_allowed hstate).trans ?_
    rw [← hu, parseFrame_boxes (by rwa [hctrl]) (by rwa [hctrl]), hctrl, hboxes, ok_bind, hps]
  refine ⟨_, exec_of_ok hrule, ?_, fun i hi => ?_,
    fun i hi hle => commitParse_unstaged ps u hi (by simpa [hps] using hle)⟩
  · rw [commitParse_frame, hctrl]
    rfl
  have hi16 : i < 16 := Nat.lt_of_lt_of_le hi hcount
  have hplace : ps[i]? = some (parsedBox u (ctlMode s.mctCtrl) i (pi i) (c1 i) (c2 i)) := by
    rw [hps, List.getElem?_map, List.getElem?_range hi]
    rfl
  have hbox := box_commitParse_staged ps u hi16 hplace
  have hlatch := (commitParse_staged (P := params) (s := u) hi16 hplace).1
  have hparse := hparses i hi
  obtain ⟨hbctrl, hmask, hsym, hshort⟩ := hu ▸ parseBase_keeps s i (c1 i)
  generalize commitParse params u ps = t at hbox hlatch
  intro mode ctrl mask sh coded dflt h p
  have hsh : u.short (c1 i) = sh := hshort
  have hcoded : codedBands (u.box i).ctrl (u.box i).mask = coded := by rw [hbctrl, hmask]
  have hwork : ∀ b, workHist params u i mode sh b = h b := workHist_eq u i mode sh
  have hpred : ∀ b, predictor params u i mode sh b = p b := fun b => by
    rw [predictor, hwork, modeDefault_eq, hbctrl]
  obtain ⟨hc1, hc2⟩ : c1 i < 16 ∧ c2 i < 16 := by
    obtain ⟨_, _, hrange, _⟩ := hgroup (by omega)
    exact slots_of_parses hparse fun p hp => by
      rw [hu, chMapAt_parseBase]
      exact hrange p hp
  obtain ⟨hlt, hlen⟩ := codedBands_lt (mask := (u.box i).mask) hparse.width
  obtain ⟨hslot1, hslot2, hwindow, hactive, hlength, hspare, htop⟩ :=
    infoWord_fields (sh := u.short (c1 i)) (hc1.trans (by decide)) (hc2.trans (by decide)) (hlen.trans_lt (by decide))
  have hcoef : (t.box i).coef = (parsedBox u mode i (pi i) (c1 i) (c2 i)).coef := congrArg Box.coef hbox
  have hinfo : (t.box i).info =
      infoWord (c1 i) (c2 i) (u.short (c1 i)) (codedBands (u.box i).ctrl (u.box i).mask).length :=
    congrArg Box.info hbox
  rw [← hinfo] at hslot1 hslot2 hwindow hactive hlength hspare htop
  refine ⟨?_, ?_, hslot1, hslot2, hwindow.trans hsh, hactive, hcoded ▸ hlength, hspare, htop, fun j b hj => ?_,
    fun b hb hout => ?_⟩
  · show t.box i = { u.box i with coef := (t.box i).coef, info := (t.box i).info }
    rw [hcoef, hinfo]
    exact hbox
  · show t.latch i = _
    rw [hlatch, parsedBox, hsh, hbctrl, hmask]
  · rw [← hcoded] at hj
    show (t.box i).coef[b]? = _
    rw [hcoef, coef_parsedBox_coded (hlt b (List.mem_of_getElem? hj)) hj, codedInt, hsh, hpred, hsym]
  · rw [← hcoded] at hout
    show (t.box i).coef[b]? = _
    rw [hcoef, coef_parsedBox_uncoded hb hout, hsh, hwork, modeDefault_eq, hbctrl]

end Sys2Proof.Proofs
end

section
/-! The commit of a good frame by MCT_CLOSE (R341): the saved spectra and flags of the participating channels. -/

namespace Sys2Proof.Proofs

open Sys2Proof Sys2Proof.Machine

/-! ### One channel -/

/-- What saving channel c makes of s (R341). -/
structure SavesChannel (s : State) (c : Nat) (t : State) : Prop where
  frame : t = { s with mem := t.mem, chans := t.chans }
  flags : t.ch c = { s.ch c with prevShort := s.short c, prevPath := icsPath (s.ch c).ics }
  words : ∀ k < 1024, readWord t.mem (cellAddr .pmant c k) = readWord s.mem (cellAddr .mant c k)
  bytes : ∀ j < 512, readByte t.mem (cellAddr .pexp c j) = readByte s.mem (cellAddr .exp c j)
  others : ∀ d, d ≠ c → t.ch d = s.ch d
  outside : ∀ a, ¬ inSaved c a → readByte t.mem a = readByte s.mem a

section
variable {s : State} {M : ChMem} {c n : Nat}

theorem getWords_marked (h : ∀ k < n, wordMarked s.mem M c k) :
    s.getWords M c 0 n = .ok ((List.range n).map (wordAt s.mem M c)) := by
  refine getWords_ok.2 ⟨by simp, fun k hk => ?_⟩
  obtain ⟨v, hv⟩ := Option.isSome_iff_exists.1 (h k (by simpa using hk))
  simp [wordAt, hv]

theorem getBytes_marked (h : ∀ k < n, byteMarked s.mem M c k) :
    s.getBytes M c 0 n = .ok ((List.range n).map (byteAt s.mem M c)) := by
  refine getBytes_ok.2 ⟨by simp, fun k hk => ?_⟩
  obtain ⟨v, hv⟩ := Option.isSome_iff_exists.1 (h k (by simpa using hk))
  simp [byteAt, hv]

end

/-- A channel whose MANT and EXP are written is saved. -/
theorem saveChannel_saves {s : State} {c : Nat} (hc : c < 16) (hm : ∀ k < 1024, wordMarked s.mem .mant c k)
    (he : ∀ j < 512, byteMarked s.mem .exp c j) : ∃ t, saveChannel params s c = .ok t ∧ SavesChannel s c t := by
  have hwords : s.getWords .mant c 0 params.nLong = .ok ((List.range 1024).map (wordAt s.mem .mant c)) :=
    getWords_marked hm
  refine ⟨_, by rw [saveChannel, hwords, ok_bind, getBytes_marked he, ok_bind], rfl, ?_, fun k hk => ?_, fun j hj => ?_,
    fun d hd => ?_, fun a ha => ?_⟩
  · exact State.ch_setCh_self hc _
  · obtain ⟨v, hv⟩ := Option.isSome_iff_exists.1 (hm k hk)
    rw [State.setCh_mem, readWord_putBytes_outside, readWord_putWords_zero (v := v) (by simp [hk, wordAt, hv]), hv]
    exact word_apart_from_bytes rfl rfl hk (by simp)
  · obtain ⟨v, hv⟩ := Option.isSome_iff_exists.1 (he j hj)
    rw [State.setCh_mem, readByte_putBytes_zero (v := v) (by simp [hj, byteAt, hv]), hv]
  · exact State.ch_setCh_ne (Ne.symm hd) _
  · rw [inSaved, not_or] at ha
    rw [State.setCh_mem, readByte_putBytes_apart (by simpa using ha.2), readByte_putWords_apart (by simpa using ha.1)]

/-! ### The participating channels in order -/

/-- What saving the listed channels of s, none of them twice, makes of it (R341). -/
structure SavesChannels (s : State) (l : List Nat) (t : State) : Prop where
  frame : t = { s with mem := t.mem, chans := t.chans }
  flags : ∀ c ∈ l, t.ch c = { s.ch c with prevShort := s.short c, prevPath := icsPath (s.ch c).ics }
  words : ∀ c ∈ l, ∀ k < 1024, readWord t.mem (cellAddr .pmant c k) = readWord s.mem (cellAddr .mant c k)
  bytes : ∀ c ∈ l, ∀ j < 512, readByte t.mem (cellAddr .pexp c j) = readByte s.mem (cellAddr .exp c j)
  others : ∀ c, c ∉ l → t.ch c = s.ch c
  outside : ∀ a, (∀ c ∈ l, ¬ inSaved c a) → readByte t.mem a = readByte s.mem a

theorem forall_mem_snoc {Q : Nat → Prop} {l : List Nat} {c : Nat} : (∀ d ∈ l ++ [c], Q d) ↔ (∀ d ∈ l, Q d) ∧ Q c := by
  simp [or_imp, forall_and]

section
variable {M : ChMem} {c d i n : Nat}

/-- The cells of another memory are no saved cells. -/
theorem not_inSaved_of_memory {a : Nat} (ha : inCells M c i n a) (hn : i + n ≤ memSize M) (hp : M ≠ .pmant)
    (he : M ≠ .pexp) : ¬ inSaved d a :=
  not_or.2 ⟨not_inCells_of_ne hn (by decide) (.inl hp) ha, not_inCells_of_ne hn (by decide) (.inl he) ha⟩

/-- The saved cells of another channel are not this channel's. -/
theorem not_inSaved_of_channel {a : Nat} (h : c ≠ d) (ha : inSaved c a) : ¬ inSaved d a := by
  rcases ha with ha | ha <;>
    exact not_or.2 ⟨not_inCells_of_ne (by decide) (by decide) (.inr h) ha,
      not_inCells_of_ne (by decide) (by decide) (.inr h) ha⟩

end

namespace SavesChannels
variable {s t u : State} {l : List Nat} {c : Nat}

/-- The spectra to save are not touched by the saving of other channels. -/
theorem mant_kept (h : SavesChannels s l t) {k : Nat} (hk : k < 1024) :
    readWord t.mem (cellAddr .mant c k) = readWord s.mem (cellAddr .mant c k) :=
  readWord_congr fun j hj => h.outside _ fun _ _ =>
    have hin : inCells .mant c 0 1024 (cellAddr .mant c k + j) := inCells_cell (Nat.zero_le k) (by omega) hj
    not_inSaved_of_memory hin (by decide) nofun nofun

theorem exp_kept (h : SavesChannels s l t) {j : Nat} (hj : j < 512) :
    readByte t.mem (cellAddr .exp c j) = readByte s.mem (cellAddr .exp c j) :=
  h.outside _ fun _ _ =>
    have hin : inCells .exp c 0 512 (cellAddr .exp c j + 0) := inCells_cell (Nat.zero_le j) (by omega) (by decide)
    not_inSaved_of_memory hin (by decide) nofun nofun

/-- One more channel saved. -/
theorem snoc (h : SavesChannels s l t) (hc : c ∉ l) (hu : SavesChannel t c u) : SavesChannels s (l ++ [c]) u where
  frame := by rw [hu.frame, h.frame]
  flags := by
    have hshort : t.short c = s.short c := by rw [State.short, State.short, h.others c hc]
    refine forall_mem_snoc.2 ⟨fun d hd => ?_, by rw [hu.flags, h.others c hc, hshort]⟩
    rw [hu.others d (ne_of_mem_of_not_mem hd hc), h.flags d hd]
  words := by
    refine forall_mem_snoc.2 ⟨fun d hd k hk => ?_, fun k hk => (hu.words k hk).trans (h.mant_kept hk)⟩
    rw [← h.words d hd k hk]
    refine readWord_congr fun j hj => hu.outside _ ?_
    exact not_inSaved_of_channel (ne_of_mem_of_not_mem hd hc) (.inl (inCells_cell (Nat.zero_le k) (by omega) hj))
  bytes := by
    refine forall_mem_snoc.2 ⟨fun d hd j hj => ?_, fun j hj => (hu.bytes j hj).trans (h.exp_kept hj)⟩
    rw [← h.bytes d hd j hj]
    exact hu.outside (_ + 0) (not_inSaved_of_channel (ne_of_mem_of_not_mem hd hc)
      (.inr (inCells_cell (Nat.zero_le j) (by omega) (by decide))))
  others d hd := by
    obtain ⟨hd, hdc⟩ := not_or.1 (mt List.mem_append.2 hd)
    rw [hu.others d (mt List.mem_singleton.2 hdc), h.others d hd]
  outside a ha := by
    obtain ⟨ha, hac⟩ := forall_mem_snoc.1 ha
    rw [hu.outside a hac, h.outside a ha]

end SavesChannels

/-- Listed channels whose MANT and EXP are written are all saved. -/
theorem saveChannels_saves {s : State} {l : List Nat} (hl : l.Nodup) (hc : ∀ c ∈ l, c < 16)
    (hm : ∀ c ∈ l, ∀ k < 1024, wordMarked s.mem .mant c k) (he : ∀ c ∈ l, ∀ j < 512, byteMarked s.mem .exp c j) :
    ∃ t, l.foldlM (saveChannel params) s = .ok t ∧ SavesChannels s l t := by
  refine foldlM_initial l (fun pre c post hsplit t ht => ?_) ⟨rfl, nofun, nofun, nofun, fun _ _ => rfl, fun _ _ => rfl⟩
  have hmem : c ∈ l := by simp [hsplit]
  have hnew : c ∉ pre := not_mem_of_nodup_append (hsplit ▸ hl)
  obtain ⟨u, hok, hu⟩ := saveChannel_saves (s := t) (hc c hmem)
    (fun k hk => by rw [wordMarked, ht.mant_kept hk]; exact hm c hmem k hk)
    (fun j hj => by rw [byteMarked, ht.exp_kept hj]; exact he c hmem j hj)
  exact ⟨u, hok, ht.snoc hnew hu⟩

theorem participates_iff {s : State} {c : Nat} : participates s c = true ↔
    ∃ i < ctlNumBoxes s.lCtrl, (s.latch i).c1 = c ∨ (s.latch i).c2 = c := by
  simp [participates]

/-! ### The command -/

/-- Settles O46: the boxes by the rule of the commit of the boxes, the spectra channel by channel. -/
theorem mctCloseCommitsTheFrame : Obligations.MctCloseCommitsTheFrame := by
  intro s herr hstate inFrame hmarks
  obtain ⟨l, hl⟩ : ∃ l, l = (List.range 16).filter (participates s) := ⟨_, rfl⟩
  have hmem : ∀ c, c ∈ l ↔ c < 16 ∧ inFrame c := fun c => by
    rw [hl, List.mem_filter, List.mem_range, participates_iff]
  obtain ⟨boxes, hboxes⟩ : ∃ boxes, commitBoxes params s = { s with boxes := boxes } := ⟨_, commitBoxes_frame params s⟩
  have hbox : ∀ i < 16, ({ s with boxes := boxes } : State).box i =
      if i < ctlNumBoxes s.lCtrl then (s.box i).commit (s.latch i) else (s.box i).drop := fun i hi =>
    hboxes ▸ box_commitBoxes params s hi hi
  obtain ⟨t, hok, ht⟩ := saveChannels_saves (l := l)
    (s := { s with boxes := boxes, prevMode := PrevMode.ofMode (ctlMode s.lCtrl) })
    (hl ▸ List.nodup_range.filter _) (fun c hc => ((hmem c).1 hc).1)
    (fun c hc => (hmarks c ((hmem c).1 hc).1 ((hmem c).1 hc).2).1)
    (fun c hc => (hmarks c ((hmem c).1 hc).1 ((hmem c).1 hc).2).2)
  have hcommit : commitFrame params s = .ok t := by
    rw [← hok, hl, commitFrame, hboxes]
    rfl
  have hrule : commandRule (.mctClose true) s = .ok { t with mctState := .saved }.clearError := by
    refine Eq.trans (b := mctClose params true s) rfl ?_
    rw [mctClose, herr, hstate, hcommit]
    rfl
  have htbox : ∀ i, t.box i = ({ s with boxes := boxes } : State).box i := fun i => by rw [ht.frame]; rfl
  refine ⟨_, exec_of_ok hrule, ?_, fun i hi hlt => ?_, fun i hi hle => ?_, fun c hc hin => ?_, fun c _ hout => ?_,
    fun a ha => ?_⟩
  · rw [ht.frame]
    rfl
  · exact (htbox i).trans ((hbox i hi).trans (if_pos hlt))
  · exact (htbox i).trans ((hbox i hi).trans (if_neg (Nat.not_lt.2 hle)))
  · have hc := (hmem c).2 ⟨hc, hin⟩
    exact ⟨ht.flags c hc, ht.words c hc, ht.bytes c hc⟩
  · exact ht.others c fun hl => hout ((hmem c).1 hl).2
  · exact ht.outside a fun c hl => ha c ((hmem c).1 hl).1 ((hmem c).1 hl).2

end Sys2Proof.Proofs
end

section
/-! One band of MCT_APPLY (R325): stereo filling of the residual (R230, R330), then the operator of the box. -/

namespace Sys2Proof.Proofs

open Sys2Proof Sys2Proof.Machine

/-! ### The previous-frame bands (R77, R331) -/

/-- Saved spectra always have a value: their bytes read 0 until they are written (R100). -/
theorem readByte_saved_isSome {c a : Nat} (h : inSaved c a) (m : Memory) : (readByte m a).isSome = true := by
  unfold readByte
  rw [unlisted_of_inSaved h]
  split
  · rfl
  · split <;> rfl

/-- The previous-frame band b of channel c that stereo filling uses (R331). -/
def prevBandAt (s : State) (c b : Nat) : Band :=
  prevBandUsed s c ((s.bandOf params .pmant .pexp c 0 b).toOption.getD ⟨[], 0⟩)

section
variable {s : State} {c b w : Nat} {x : Band}

/-- A band whose cells are all written is read. -/
theorem bandOf_marked {mm em : ChMem} (hm : ∀ k < s.bandWidth c b, wordMarked s.mem mm c (s.lineLo params c w b + k))
    (he : byteMarked s.mem em c (w * 64 + b)) : ∃ x, s.bandOf params mm em c w b = .ok x := by
  obtain ⟨e, he⟩ := Option.isSome_iff_exists.1 he
  refine ⟨_, bandOf_ok.2 ⟨(List.range (s.bandWidth c b)).map (fun k => wordAt s.mem mm c (s.lineLo params c w b + k)), e,
    getWords_ok.2 ⟨by simp, fun k hk => ?_⟩, he, rfl⟩⟩
  obtain ⟨v, hv⟩ := Option.isSome_iff_exists.1 (hm k (by simpa using hk))
  simp [wordAt, hv]

/-- A band is read only where its cells are all written. -/
theorem marked_of_bandOf {mm em : ChMem} (h : s.bandOf params mm em c w b = .ok x) :
    (∀ k < s.bandWidth c b, wordMarked s.mem mm c (s.lineLo params c w b + k)) ∧ byteMarked s.mem em c (w * 64 + b) := by
  obtain ⟨ws, e, hws, he, _⟩ := bandOf_ok.1 h
  obtain ⟨hlen, hwords⟩ := getWords_ok.1 hws
  refine ⟨fun k hk => ?_, ?_⟩
  · rw [wordMarked, hwords k (by omega)]
    rfl
  · rw [byteMarked, he]
    rfl

/-- The previous-frame band always has a value. -/
theorem exists_prevBand (hin : BandInside s c 0 b) : ∃ x, s.bandOf params .pmant .pexp c 0 b = .ok x := by
  have hlines := hin.lines
  have hb := hin.band
  refine bandOf_marked (fun k hk => (readWord_isSome_iff _ _).2 fun j hj => ?_) ?_
  · exact readByte_saved_isSome (.inl (inCells_cell (Nat.zero_le _) (by omega) hj)) _
  · exact readByte_saved_isSome (.inr (inCells_cell (j := 0) (Nat.zero_le _) (by omega) (by decide))) _

theorem prevBandAt_eq (h : s.bandOf params .pmant .pexp c 0 b = .ok x) : prevBandAt s c b = prevBandUsed s c x := by
  rw [prevBandAt, h]
  rfl

theorem prevBand_ok (h : s.bandOf params .pmant .pexp c 0 b = .ok x) :
    s.prevBand params c b = .ok (prevBandUsed s c x) := by
  rw [State.prevBand, h, ok_bind, prevBandUsed]
  split <;> rfl

theorem length_prevBandUsed : (prevBandUsed s c x).mant.length = x.mant.length := by
  unfold prevBandUsed
  split <;> simp

/-- The previous-frame band is read, and has as many lines as the table says. -/
theorem prevBand_inside (hin : BandInside s c 0 b) :
    s.prevBand params c b = .ok (prevBandAt s c b) ∧ (prevBandAt s c b).mant.length = s.bandWidth c b := by
  obtain ⟨x, hx⟩ := exists_prevBand hin
  rw [prevBandAt_eq hx, length_prevBandUsed]
  exact ⟨prevBand_ok hx, bandOf_length hx⟩

end

/-! ### Stereo filling (R230) -/

/-- A band left as it is. -/
theorem bandStored_refl {u : State} {mm em : ChMem} {c w b : Nat} {x : Band} {sat : Prop}
    (hx : u.bandOf params mm em c w b = .ok x) (hsat : ¬ sat) : BandStored u mm em c w b x sat u where
  frame := .refl u
  band := hx
  outside _ _ := rfl
  ovf := (or_iff_left hsat).symm

/-- D and G of R230, for previous bands that are not both zero. -/
def fillDownmix (v : Nat) (p1 p2 : Band) : List Int :=
  downmix params (params.rotTable v).1 (params.rotTable v).2 p1 p2 (sharedExp p1 p2)

def fillGain (v : Nat) (p1 p2 y : Band) (sf : Byte) : Nat :=
  sfillGain params (fillDownmix v p1 p2) (sharedExp p1 p2) y.mant y.exp sf

/-- What SFILL adds to the residual. -/
def fillAdded (v : Nat) (p1 p2 y : Band) (sf : Byte) : List Int :=
  sfillAdd params (fillGain v p1 p2 y sf) (fillDownmix v p1 p2)

section
variable {v : Nat} {p1 p2 y : Band} {sf : Byte}

theorem filledBand_of_zero (h : p1.isZero ∧ p2.isZero) : filledBand v p1 p2 y sf = y := by
  rw [filledBand, (common_eq_none_iff p1 p2).2 h]

theorem filledBand_of_not_zero (h : ¬ (p1.isZero ∧ p2.isZero)) : filledBand v p1 p2 y sf =
    if fillGain v p1 p2 y sf = 0 then y else addAfter y (fillAdded v p1 p2 y sf) (sharedExp p1 p2) := by
  rw [filledBand, common_eq_sharedExp h]
  rfl

theorem fillSaturates_iff : FillSaturates v p1 p2 y sf ↔ ¬ (p1.isZero ∧ p2.isZero) ∧ fillGain v p1 p2 y sf ≠ 0 ∧
    AddSaturates y (fillAdded v p1 p2 y sf) (sharedExp p1 p2) := Iff.rfl

theorem length_fillAdded (h : p1.mant.length = p2.mant.length) : (fillAdded v p1 p2 y sf).length = p2.mant.length := by
  simp [fillAdded, sfillAdd, fillDownmix, downmix, h]

end

section
variable {u : State} {c1 c2 b v : Nat} {p1 p2 y : Band} {sf : Byte} (hp1 : u.prevBand params c1 b = .ok p1)
  (hp2 : u.prevBand params c2 b = .ok p2)
include hp1 hp2

theorem sfill_of_zero (h : p1.isZero ∧ p2.isZero) : u.sfill params c1 c2 b v = .ok u := by
  rw [State.sfill, hp1, ok_bind, hp2, ok_bind, (common_eq_none_iff p1 p2).2 h]

theorem sfill_of_not_zero (h : ¬ (p1.isZero ∧ p2.isZero)) (hy : u.band params c2 0 b = .ok y)
    (hsf : u.getSf c2 0 b = .ok sf) : u.sfill params c1 c2 b v =
      if fillGain v p1 p2 y sf = 0 then .ok u
      else u.add1At params c2 0 b (fillAdded v p1 p2 y sf) (sharedExp p1 p2) := by
  rw [State.sfill, hp1, ok_bind, hp2, ok_bind, common_eq_sharedExp h]
  simp only [hy, hsf, ok_bind]
  rfl

end

/-- SFILL of a readable residual band with a written scale factor completes (R230). -/
theorem sfill_stored {u : State} {c1 c2 b v : Nat} {y : Band} (hin1 : BandInside u c1 0 b) (hin2 : BandInside u c2 0 b)
    (hwidth : u.bandWidth c1 b = u.bandWidth c2 b) (hy : u.band params c2 0 b = .ok y) (hsf : byteMarked u.mem .sf c2 b) :
    ∃ t, u.sfill params c1 c2 b v = .ok t ∧ BandStored u .mant .exp c2 0 b
      (filledBand v (prevBandAt u c1 b) (prevBandAt u c2 b) y (byteAt u.mem .sf c2 b))
      (FillSaturates v (prevBandAt u c1 b) (prevBandAt u c2 b) y (byteAt u.mem .sf c2 b)) t := by
  obtain ⟨hp1, hlen1⟩ := prevBand_inside hin1
  obtain ⟨hp2, hlen2⟩ := prevBand_inside hin2
  have hgetSf : u.getSf c2 0 b = .ok (byteAt u.mem .sf c2 b) := by
    rw [State.getSf, Nat.zero_mul, Nat.zero_add]
    exact getByte_marked hsf
  generalize prevBandAt u c1 b = p1 at hp1 hlen1 ⊢
  generalize prevBandAt u c2 b = p2 at hp2 hlen2 ⊢
  generalize byteAt u.mem .sf c2 b = sf at hgetSf ⊢
  by_cases hzero : p1.isZero ∧ p2.isZero
  · rw [filledBand_of_zero hzero]
    exact ⟨u, sfill_of_zero hp1 hp2 hzero, bandStored_refl hy fun hsat => hsat.1 hzero⟩
  · rw [sfill_of_not_zero hp1 hp2 hzero hy hgetSf, filledBand_of_not_zero hzero]
    by_cases hgain : fillGain v p1 p2 y sf = 0
    · rw [if_pos hgain, if_pos hgain]
      exact ⟨u, rfl, bandStored_refl hy fun hsat => (fillSaturates_iff.1 hsat).2.1 hgain⟩
    · have hlen : (fillAdded v p1 p2 y sf).length = u.bandWidth c2 b := by
        rw [length_fillAdded (by omega), hlen2]
      rw [if_neg hgain, if_neg hgain]
      obtain ⟨t, ht, hst⟩ := add1At_stored (ez := sharedExp p1 p2) hy hin2 hlen
      refine ⟨t, ht, hst.frame, hst.band, hst.outside, hst.ovf.trans (or_congr_right ?_)⟩
      rw [fillSaturates_iff, and_iff_right hzero, and_iff_right hgain]

/-! ### The filling of a box (R330) -/

/-- Box i fills its residual in the bands whose NFLAG bit is set (R330). -/
def fillsResidual (s : State) (i : Nat) : Bool :=
  ctlMode s.lCtrl && ctlSfEnable s.lCtrl && boxSfFlag (s.latch i).ctrl && !(s.latch i).sh

/-- The residual of box i in band b, holding y, when the operator runs (R325, R330). -/
def residualAt (s : State) (i b : Nat) (y : Band) : Band :=
  if stereoFills s i b then
    filledBand (s.coefAt i b).toNat (prevBandAt s (s.latch i).c1 b) (prevBandAt s (s.latch i).c2 b) y
      (byteAt s.mem .sf (s.latch i).c2 b)
  else y

/-- The filling of the residual of box i in band b, holding y, saturates. -/
def ResidualSaturates (s : State) (i b : Nat) (y : Band) : Prop :=
  stereoFills s i b = true ∧ FillSaturates (s.coefAt i b).toNat (prevBandAt s (s.latch i).c1 b)
    (prevBandAt s (s.latch i).c2 b) y (byteAt s.mem .sf (s.latch i).c2 b)

theorem stereoFills_iff {s : State} {i b : Nat} : stereoFills s i b = true ↔
    fillsResidual s i = true ∧ (byteAt s.mem .nflag (s.latch i).c2 b).getLsbD 0 = true := by
  rw [stereoFills, fillsResidual, Bool.and_eq_true]

/-- Band b of box i lies in both channels, which give it one width, and what its filling reads is written. -/
structure FillReady (s : State) (i b : Nat) : Prop where
  inside1 : BandInside s (s.latch i).c1 0 b
  inside2 : BandInside s (s.latch i).c2 0 b
  width : s.bandWidth (s.latch i).c1 b = s.bandWidth (s.latch i).c2 b
  flag : fillsResidual s i = true → byteMarked s.mem .nflag (s.latch i).c2 b
  factor : stereoFills s i b = true → byteMarked s.mem .sf (s.latch i).c2 b

section
variable {u : State} {i w b : Nat} {x y : Band}

theorem fillStereo_eq (hready : FillReady u i b) : fillStereo params i b u =
    if stereoFills u i b then u.sfill params (u.latch i).c1 (u.latch i).c2 b (u.coefAt i b).toNat else .ok u := by
  have hrule : fillStereo params i b u = if fillsResidual u i then (do
      let f ← u.getNflag (u.latch i).c2 0 b
      if f then u.sfill params (u.latch i).c1 (u.latch i).c2 b (u.coefAt i b).toNat else .ok u) else .ok u := rfl
  cases hon : fillsResidual u i with
  | false =>
    have hfills : stereoFills u i b = false := by rw [← Bool.not_eq_true, stereoFills_iff, hon]; simp
    rw [hrule, hon, hfills]
    rfl
  | true =>
    have hflag : u.getNflag (u.latch i).c2 0 b = .ok ((byteAt u.mem .nflag (u.latch i).c2 b).getLsbD 0) := by
      rw [State.getNflag, Nat.zero_mul, Nat.zero_add, getByte_marked (hready.flag hon), ok_bind]
    have hfills : stereoFills u i b = (byteAt u.mem .nflag (u.latch i).c2 b).getLsbD 0 := by
      rw [Bool.eq_iff_iff, stereoFills_iff, and_iff_right hon]
    rw [hrule, hon, if_pos rfl, hflag, ok_bind, hfills]

/-- The residual band of box i, whose window is the first where filling may run, goes to the operator filled or as it
is. -/
theorem fillStereo_stored (hready : FillReady u i b) (hw : fillsResidual u i = true → w = 0)
    (hy : u.band params (u.latch i).c2 w b = .ok y) : ∃ t, fillStereo params i b u = .ok t ∧
      BandStored u .mant .exp (u.latch i).c2 w b (residualAt u i b y) (ResidualSaturates u i b y) t := by
  rw [fillStereo_eq hready, residualAt, ResidualSaturates]
  cases hfills : stereoFills u i b with
  | false => exact ⟨u, rfl, bandStored_refl hy fun hsat => nomatch hsat.1⟩
  | true =>
    obtain rfl := hw (stereoFills_iff.1 hfills).1
    obtain ⟨t, ht, hst⟩ := sfill_stored (v := (u.coefAt i b).toNat) hready.inside1 hready.inside2 hready.width hy
      (hready.factor hfills)
    exact ⟨t, ht, hst.frame, hst.band, hst.outside, hst.ovf.trans (or_congr_right (and_iff_right rfl).symm)⟩

/-- Band (w, b) of box i: the residual filled, then both bands through the operator (R325). -/
theorem applyBand_stored (hready : FillReady u i b) (hw : fillsResidual u i = true → w = 0)
    (hne : (u.latch i).c1 ≠ (u.latch i).c2) (hin1 : BandInside u (u.latch i).c1 w b)
    (hin2 : BandInside u (u.latch i).c2 w b) (hx : u.band params (u.latch i).c1 w b = .ok x)
    (hy : u.band params (u.latch i).c2 w b = .ok y) : ∃ t, applyBand params i u (w, b) = .ok t ∧
      PairStored u (u.latch i).c1 (u.latch i).c2 w b (pairAfter (laneOf params u i b) x (residualAt u i b y)).1
        (pairAfter (laneOf params u i b) x (residualAt u i b y)).2
        (ResidualSaturates u i b y ∨ PairSaturates (laneOf params u i b) x (residualAt u i b y)) t := by
  obtain ⟨v, hv, hstv⟩ := fillStereo_stored hready hw hy
  have hframe := hstv.frame
  have hlatch : v.latch i = u.latch i := by rw [hframe]; rfl
  have hlane : laneOf params v i b = laneOf params u i b := by rw [hframe]; rfl
  have hvx : v.band params (u.latch i).c1 w b = .ok x :=
    bandOf_congr hframe (fun a ha => hstv.outside a (not_inBand rfl rfl hin1 rfl rfl hin2 (.inr (.inl hne)) ha)) hx
  obtain ⟨t, ht, hst⟩ := op2At_stored (f := laneOf params u i b) hvx hstv.band hne (hframe.bandInside hin1)
    (hframe.bandInside hin2) (by rw [hframe.bandWidth, hframe.bandWidth, hready.width])
  refine ⟨t, ?_, hframe.trans hst.frame, hst.fst, hst.snd, fun a ha1 ha2 => ?_, ?_⟩
  · rw [applyBand, hv, ok_bind, hlatch, hlane, ht]
  · exact (hst.outside a (mt hframe.inBand.1 ha1) (mt hframe.inBand.1 ha2)).trans (hstv.outside a ha2)
  · rw [hst.ovf, hstv.ovf, or_assoc]

end

/-- OVF of box i at a band holding x and y: in the filling, or in the operator on the filled residual (R325). -/
theorem boxBandSaturates_iff {s : State} {i b : Nat} {x y : Band} (hready : FillReady s i b) : BoxBandSaturates s i b x y ↔
    ResidualSaturates s i b y ∨ PairSaturates (laneOf params s i b) x (residualAt s i b y) := by
  unfold BoxBandSaturates ResidualSaturates residualAt
  cases hfills : stereoFills s i b with
  | false => simp
  | true =>
    obtain ⟨p1, hp1⟩ := exists_prevBand hready.inside1
    obtain ⟨p2, hp2⟩ := exists_prevBand hready.inside2
    obtain ⟨sf, hsf⟩ := Option.isSome_iff_exists.1 (hready.factor hfills)
    simp [hp1, hp2, hsf, prevBandAt_eq hp1, prevBandAt_eq hp2, byteAt]

end Sys2Proof.Proofs
end

section
/-! MCT_APPLY (R325): the bands of a box one after another, and the boxes one after another. -/

namespace Sys2Proof.Proofs

open Sys2Proof Sys2Proof.Machine

/-! ### The bands of a box (R320) -/

/-- The covered bands rise. -/
theorem covered_rising (s : State) (l : LBox) : (covered s l).Pairwise (· < ·) := by
  unfold covered
  split
  · exact List.pairwise_lt_range.filter _
  · exact List.pairwise_lt_range

/-- A list of bands in every window, windows outermost, rises. -/
theorem windowBands_rising {l : List Nat} (hl : l.Pairwise (· < ·)) (n : Nat) :
    ((List.range n).flatMap (fun w => l.map (fun b => (w, b)))).Pairwise BandBefore := by
  induction n with
  | zero => exact List.Pairwise.nil
  | succ n ih =>
    rw [List.range_succ, List.flatMap_append, List.pairwise_append]
    refine ⟨ih, ?_, fun p hp q hq => .inl ?_⟩
    · rw [List.flatMap_singleton]
      exact List.pairwise_map.2 (hl.imp fun h => .inr ⟨rfl, h⟩)
    · obtain ⟨w, hw, hp⟩ := List.mem_flatMap.1 hp
      obtain ⟨_, _, rfl⟩ := List.mem_map.1 hp
      obtain ⟨_, _, rfl⟩ := List.mem_map.1 (List.flatMap_singleton .. ▸ hq)
      exact List.mem_range.1 hw

theorem boxBands_rising (s : State) (i : Nat) : (boxBands s i).Pairwise BandBefore :=
  windowBands_rising (covered_rising s (s.latch i)) _

theorem mem_covered {s : State} {l : LBox} {b : Nat} : b ∈ covered s l ↔ b < max (s.maxSfb l.c1) (s.maxSfb l.c2) ∧
    ((boxHasMask l.ctrl = false ∧ boxBandwise l.ctrl = false) ∨
      (b < l.width ∧ (boxHasMask l.ctrl = false ∨ l.mask.getLsbD b = true))) := by
  unfold covered
  cases hflagged : boxFlagged l.ctrl with
  | false =>
    obtain ⟨hmask, hband⟩ := Bool.or_eq_false_iff.1 hflagged
    simp [hmask, hband]
  | true =>
    have hnot : ¬ (boxHasMask l.ctrl = false ∧ boxBandwise l.ctrl = false) := by
      rw [← Bool.or_eq_false_iff, Bool.not_eq_false]
      exact hflagged
    simp only [if_true, List.mem_filter, List.mem_range, lt_min_iff, maskAllows, Bool.or_eq_true, Bool.not_eq_true',
      or_iff_right hnot]
    tauto

/-- The lines of two different bands of a legal table do not meet, those above MAX_SFB included (R17, R262). -/
theorem tableLines_apart {s : State} {c : Nat} (h : BandTableOk s c) {p q : Nat × Nat} (hp : p.2 < s.nsfbOf c)
    (hq : q.2 < s.nsfbOf c) (hne : p ≠ q) :
    s.lineLo params c p.1 p.2 + s.bandWidth c p.2 ≤ s.lineLo params c q.1 q.2 ∨
      s.lineLo params c q.1 q.2 + s.bandWidth c q.2 ≤ s.lineLo params c p.1 p.2 := by
  have hends {r : Nat × Nat} (hr : r.2 < s.nsfbOf c) : s.off c r.2 < s.off c (r.2 + 1) ∧
      s.off c (r.2 + 1) ≤ s.wlen params c :=
    ⟨h.rising r.2 hr, (off_le_off h (Nat.succ_le_of_lt hr) (Nat.le_refl _)).trans h.last⟩
  have hbefore {p q : Nat × Nat} (hp : p.2 < s.nsfbOf c) (hq : q.2 < s.nsfbOf c) (hpq : BandBefore p q) :
      s.lineLo params c p.1 p.2 + s.bandWidth c p.2 ≤ s.lineLo params c q.1 q.2 := by
    obtain ⟨hrise, hlast⟩ := hends hp
    unfold State.lineLo State.bandWidth
    rcases hpq with hw | ⟨hw, hb⟩
    · have hwin : (p.1 + 1) * s.wlen params c ≤ q.1 * s.wlen params c := Nat.mul_le_mul_right _ hw
      rw [Nat.succ_mul] at hwin
      omega
    · have hoff : s.off c (p.2 + 1) ≤ s.off c q.2 := off_le_off h hb hq.le
      rw [hw]
      omega
  have hcases : BandBefore p q ∨ BandBefore q p := by
    rw [Ne, Prod.ext_iff] at hne
    unfold BandBefore
    omega
  exact hcases.imp (hbefore hp hq) (hbefore hq hp)

section
variable {s : State} {i : Nat} (h : BoxReady s i)
include h

theorem boxReady_recheck : recheckBox params s i = .ok () :=
  recheckBox_ok.2 ⟨h.stages.1, h.stages.2, cfgOk_iff.1 h.configs.1, cfgOk_iff.1 h.configs.2, h.windows.1, h.windows.2⟩

theorem boxReady_short : s.short (s.latch i).c2 = s.short (s.latch i).c1 := h.windows.2.trans h.windows.1.symm

theorem boxReady_bandWidth (b : Nat) : s.bandWidth (s.latch i).c1 b = s.bandWidth (s.latch i).c2 b := by
  unfold State.bandWidth State.off
  rw [boxReady_short h]

/-- A slot of the box. -/
theorem boxReady_cfg {c : Nat} (hc : c = (s.latch i).c1 ∨ c = (s.latch i).c2) : CfgOk s c :=
  hc.elim (· ▸ h.configs.1) (· ▸ h.configs.2)

theorem boxReady_nsfbOf {c : Nat} (hc : c = (s.latch i).c1 ∨ c = (s.latch i).c2) :
    s.nsfbOf c = s.nsfbOf (s.latch i).c1 := by
  rcases hc with rfl | rfl
  · rfl
  · unfold State.nsfbOf
    rw [boxReady_short h]

theorem boxReady_inside {c : Nat} (hc : c = (s.latch i).c1 ∨ c = (s.latch i).c2) {p : Nat × Nat}
    (hp : p ∈ boxBands s i) : BandInside s c p.1 p.2 := by
  obtain ⟨h1, h2⟩ := boxBands_inside (boxReady_recheck h) hp
  exact hc.elim (· ▸ h1) (· ▸ h2)

theorem boxReady_below {p : Nat × Nat} (hp : p ∈ boxBands s i) : p.2 < s.nsfbOf (s.latch i).c1 := by
  have hlt := covered_lt (mem_boxBands.1 hp).2
  have hmax1 := h.configs.1.2.maxSfb
  have hmax2 := h.configs.2.2.maxSfb
  rw [boxReady_nsfbOf h (.inr rfl)] at hmax2
  omega

/-- Different bands of the box share no byte, in the same or in different channels. -/
theorem boxReady_apart {c c' : Nat} (hc : c = (s.latch i).c1 ∨ c = (s.latch i).c2)
    (hc' : c' = (s.latch i).c1 ∨ c' = (s.latch i).c2) {p q : Nat × Nat} (hp : p ∈ boxBands s i) (hq : q ∈ boxBands s i)
    (hne : p ≠ q) {a : Nat} (ha : InBand s .mant .exp c p.1 p.2 a) : ¬ InBand s .mant .exp c' q.1 q.2 a := by
  refine not_inBand rfl rfl (boxReady_inside h hc hp) rfl rfl (boxReady_inside h hc' hq) ?_ ha
  by_cases hcc : c = c'
  · refine .inr (.inr ⟨hne, tableLines_apart (boxReady_cfg h hc).1 ?_ ?_ hne⟩)
    · rw [boxReady_nsfbOf h hc]
      exact boxReady_below h hp
    · rw [boxReady_nsfbOf h hc]
      exact boxReady_below h hq
  · exact .inr (.inl hcc)

theorem boxReady_fillReady {p : Nat × Nat} (hp : p ∈ boxBands s i) : FillReady s i p.2 where
  inside1 := (boxReady_inside h (.inl rfl) hp).first
  inside2 := (boxReady_inside h (.inr rfl) hp).first
  width := boxReady_bandWidth h p.2
  flag hon := by
    simp only [fillsResidual, Bool.and_eq_true, Bool.not_eq_true'] at hon
    obtain ⟨⟨⟨hmode, hsf⟩, hflag⟩, hsh⟩ := hon
    exact h.flags hmode hsf hflag hsh _ (mem_boxBands.1 hp).2
  factor := h.factors _ (mem_boxBands.1 hp).2

omit h in
/-- A box that fills its residual has one window. -/
theorem window_of_fillsResidual {p : Nat × Nat} (hp : p ∈ boxBands s i) (hon : fillsResidual s i = true) : p.1 = 0 := by
  have hsh : (s.latch i).sh = false := by
    simp only [fillsResidual, Bool.and_eq_true, Bool.not_eq_true'] at hon
    exact hon.2
  have hw := (mem_boxBands.1 hp).1
  rw [hsh] at hw
  exact Nat.lt_one_iff.1 hw

end

/-! ### What band operators on the spectra leave alone -/

/-- t is s with other bytes of MANT and EXP, and OVF perhaps. -/
structure SpectraRun (s t : State) : Prop where
  frame : MemFrame s t
  others : ∀ M, M ≠ .mant → M ≠ .exp → ∀ c a, inCells M c 0 (memSize M) a → readByte t.mem a = readByte s.mem a

section
variable {s t : State}

theorem SpectraRun.refl (s : State) : SpectraRun s s := ⟨.refl s, fun _ _ _ _ _ _ => rfl⟩

theorem SpectraRun.trans {u : State} (h : SpectraRun s t) (h' : SpectraRun t u) : SpectraRun s u :=
  ⟨h.frame.trans h'.frame, fun M hm he c a ha => (h'.others M hm he c a ha).trans (h.others M hm he c a ha)⟩

/-- A byte cell of a memory beside EXP is as it was. -/
theorem SpectraRun.byte (h : SpectraRun s t) {M : ChMem} (hM : M.isWord = false) (he : M ≠ .exp) {c k : Nat}
    (hk : k < 512) : readByte t.mem (cellAddr M c k) = readByte s.mem (cellAddr M c k) := by
  have hm : M ≠ .mant := fun heq => by rw [heq] at hM; cases hM
  have hin : inCells M c 0 (memSize M) (cellAddr M c k + 0) :=
    inCells_cell (Nat.zero_le k) (by rw [memSize_byte hM]; omega) (by decide)
  exact h.others M hm he c _ hin

theorem SpectraRun.nflag (h : SpectraRun s t) {c b : Nat} (hb : b < 64) :
    readByte t.mem (cellAddr .nflag c b) = readByte s.mem (cellAddr .nflag c b) :=
  h.byte (M := .nflag) rfl nofun (by omega)

theorem SpectraRun.factor (h : SpectraRun s t) {c b : Nat} (hb : b < 64) :
    readByte t.mem (cellAddr .sf c b) = readByte s.mem (cellAddr .sf c b) :=
  h.byte (M := .sf) rfl nofun (by omega)

/-- The bytes of a saved band are bytes of PMANT or PEXP. -/
theorem SpectraRun.prevBandAt (h : SpectraRun s t) {c b : Nat} (hin : BandInside s c 0 b) :
    prevBandAt t c b = prevBandAt s c b := by
  obtain ⟨x, hx⟩ := exists_prevBand hin
  have htx : t.bandOf params .pmant .pexp c 0 b = .ok x := bandOf_congr h.frame (fun a ha => by
    rcases inBand_memories hin ha with hm | hm
    · exact h.others .pmant nofun nofun c a hm
    · exact h.others .pexp nofun nofun c a hm) hx
  rw [prevBandAt_eq hx, prevBandAt_eq htx, prevBandUsed, prevBandUsed, h.frame.ch]

end

section
variable {s t : State} {i b : Nat} (h : SpectraRun s t)
include h

theorem SpectraRun.latch : t.latch i = s.latch i := by rw [h.frame]; rfl

theorem SpectraRun.laneOf : laneOf params t i b = laneOf params s i b := by rw [h.frame]; rfl

theorem SpectraRun.fillsResidual : fillsResidual t i = fillsResidual s i := by rw [h.frame]; rfl

theorem SpectraRun.stereoFills (hb : b < 64) : stereoFills t i b = stereoFills s i b := by
  rw [Bool.eq_iff_iff, stereoFills_iff, stereoFills_iff, h.fillsResidual, h.latch, byteAt, byteAt,
    h.nflag hb]

/-- The filling of a band is the same before and after a run on the spectra. -/
theorem SpectraRun.residualAt (hin : FillReady s i b) (y : Band) : residualAt t i b y = residualAt s i b y ∧
    (ResidualSaturates t i b y ↔ ResidualSaturates s i b y) := by
  have hb := hin.inside1.band
  have hcoef : t.coefAt i b = s.coefAt i b := by rw [h.frame]; rfl
  have hsf : byteAt t.mem .sf (s.latch i).c2 b = byteAt s.mem .sf (s.latch i).c2 b := by
    rw [byteAt, byteAt, h.factor hb]
  unfold Proofs.residualAt ResidualSaturates
  rw [h.stereoFills hb, h.latch, hcoef, hsf, h.prevBandAt hin.inside1, h.prevBandAt hin.inside2]
  exact ⟨rfl, Iff.rfl⟩

theorem SpectraRun.fillReady (hr : FillReady s i b) : FillReady t i b := by
  have hb := hr.inside1.band
  refine ⟨?_, ?_, ?_, fun hon => ?_, fun hfills => ?_⟩
  · rw [h.latch]
    exact h.frame.bandInside hr.inside1
  · rw [h.latch]
    exact h.frame.bandInside hr.inside2
  · rw [h.latch, h.frame.bandWidth, h.frame.bandWidth, hr.width]
  · rw [h.latch, byteMarked, h.nflag hb]
    exact hr.flag (h.fillsResidual ▸ hon)
  · rw [h.latch, byteMarked, h.factor hb]
    exact hr.factor (h.stereoFills hb ▸ hfills)

end

end Sys2Proof.Proofs
end

section
/-! MCT_APPLY (R325): each box on the results of the earlier ones. -/

namespace Sys2Proof.Proofs

open Sys2Proof Sys2Proof.Machine

/-! ### The bands of a box, one after another -/

/-- Slot c is one of the two of box i. -/
def OfBox (s : State) (i c : Nat) : Prop := c = (s.latch i).c1 ∨ c = (s.latch i).c2

/-- What box i leaves of its bands at p, holding x and y (R325). -/
def boxAfter (s : State) (i : Nat) (p : Nat × Nat) (x y : Band) : Band × Band :=
  pairAfter (laneOf params s i p.2) x (residualAt s i p.2 y)

/-- Box i saturates at p: in the filling or in the operator. -/
def BoxSaturates (s : State) (i : Nat) (p : Nat × Nat) : Prop :=
  ∃ x y, s.band params (s.latch i).c1 p.1 p.2 = .ok x ∧ s.band params (s.latch i).c2 p.1 p.2 = .ok y ∧
    (ResidualSaturates s i p.2 y ∨ PairSaturates (laneOf params s i p.2) x (residualAt s i p.2 y))

/-- u is s after the bands of `done` of box i. -/
structure BoxDone (s : State) (i : Nat) (done : List (Nat × Nat)) (u : State) : Prop where
  frame : MemFrame s u
  bands : ∀ p ∈ done, ∀ x y, s.band params (s.latch i).c1 p.1 p.2 = .ok x → s.band params (s.latch i).c2 p.1 p.2 = .ok y →
    u.band params (s.latch i).c1 p.1 p.2 = .ok (boxAfter s i p x y).1 ∧
      u.band params (s.latch i).c2 p.1 p.2 = .ok (boxAfter s i p x y).2
  outside : ∀ a, (∀ p ∈ done, ∀ c, OfBox s i c → ¬ InBand s .mant .exp c p.1 p.2 a) → readByte u.mem a = readByte s.mem a
  ovf : u.ovf = true ↔ s.ovf = true ∨ ∃ p ∈ done, BoxSaturates s i p

section
variable {s u : State} {i : Nat} {done : List (Nat × Nat)}

theorem boxDone_nil (s : State) (i : Nat) : BoxDone s i [] s where
  frame := .refl s
  bands _ h := absurd h List.not_mem_nil
  outside _ _ := rfl
  ovf := by simp

theorem boxSaturates_iff {p : Nat × Nat} {x y : Band} (hx : s.band params (s.latch i).c1 p.1 p.2 = .ok x)
    (hy : s.band params (s.latch i).c2 p.1 p.2 = .ok y) : BoxSaturates s i p ↔
      ResidualSaturates s i p.2 y ∨ PairSaturates (laneOf params s i p.2) x (residualAt s i p.2 y) := by
  simp [BoxSaturates, hx, hy]

variable (h : BoxReady s i) (hdone : ∀ q ∈ done, q ∈ boxBands s i) (hu : BoxDone s i done u)
include h hdone hu

/-- The bands of a box are bytes of MANT and EXP. -/
theorem BoxDone.spectraRun : SpectraRun s u where
  frame := hu.frame
  others M hm he c a ha := hu.outside a fun q hq d hd hb => by
    rcases inBand_memories (boxReady_inside h hd (hdone q hq)) hb with hin | hin
    · exact not_inCells_of_ne (by decide) (by omega) (.inl hm.symm) hin ha
    · exact not_inCells_of_ne (by decide) (by omega) (.inl he.symm) hin ha

/-- A band not done yet is as it was. -/
theorem BoxDone.band_kept {p : Nat × Nat} (hp : p ∈ boxBands s i) (hnew : p ∉ done) {c : Nat} (hc : OfBox s i c)
    {x : Band} (hx : s.band params c p.1 p.2 = .ok x) : u.band params c p.1 p.2 = .ok x :=
  bandOf_congr hu.frame (fun a ha => hu.outside a fun q hq _ hd =>
    boxReady_apart h hc hd hp (hdone q hq) (fun heq => hnew (heq ▸ hq)) ha) hx

/-- One more band. -/
theorem BoxDone.step {p : Nat × Nat} (hp : p ∈ boxBands s i) (hnew : p ∉ done) :
    ∃ t, applyBand params i u p = .ok t ∧ BoxDone s i (done ++ [p]) t := by
  obtain ⟨⟨x, hx⟩, y, hy⟩ := h.bands p.1 p.2 hp
  have hux := hu.band_kept h hdone hp hnew (.inl rfl) hx
  have huy := hu.band_kept h hdone hp hnew (.inr rfl) hy
  have hrun := hu.spectraRun h hdone
  have hfill := boxReady_fillReady h hp
  have hlatch := hrun.latch (i := i)
  obtain ⟨hres, hressat⟩ := hrun.residualAt hfill y
  obtain ⟨t, ht, hst⟩ := applyBand_stored (hrun.fillReady hfill) (w := p.1) (x := x) (y := y)
    (fun hon => window_of_fillsResidual hp (hrun.fillsResidual ▸ hon)) (hlatch ▸ h.slots.2.2)
    (hlatch ▸ hu.frame.bandInside (boxReady_inside h (.inl rfl) hp))
    (hlatch ▸ hu.frame.bandInside (boxReady_inside h (.inr rfl) hp)) (hlatch ▸ hux) (hlatch ▸ huy)
  rw [hlatch, hrun.laneOf, hres, hressat] at hst
  have hkeep {c : Nat} (hc : OfBox s i c) {q : Nat × Nat} (hq : q ∈ done) {z : Band}
      (hz : u.band params c q.1 q.2 = .ok z) : t.band params c q.1 q.2 = .ok z := by
    have hne : q ≠ p := fun heq => hnew (heq ▸ hq)
    refine bandOf_congr hst.frame (fun a ha => ?_) hz
    rw [hu.frame.inBand] at ha
    exact hst.outside a (fun hb => boxReady_apart h hc (.inl rfl) (hdone q hq) hp hne ha (hu.frame.inBand.1 hb))
      (fun hb => boxReady_apart h hc (.inr rfl) (hdone q hq) hp hne ha (hu.frame.inBand.1 hb))
  refine ⟨t, ht, hu.frame.trans hst.frame, fun q hq x' y' hx' hy' => ?_, fun a ha => ?_, ?_⟩
  · rcases List.mem_append.1 hq with hq | hq
    · obtain ⟨h1, h2⟩ := hu.bands q hq x' y' hx' hy'
      exact ⟨hkeep (.inl rfl) hq h1, hkeep (.inr rfl) hq h2⟩
    · obtain rfl := List.mem_singleton.1 hq
      obtain rfl := Except.ok.inj (hx.symm.trans hx')
      obtain rfl := Except.ok.inj (hy.symm.trans hy')
      exact ⟨hst.fst, hst.snd⟩
  · have hp' := ha p (List.mem_append_right _ (List.mem_singleton_self p))
    exact (hst.outside a (fun hb => hp' _ (.inl rfl) (hu.frame.inBand.1 hb))
      (fun hb => hp' _ (.inr rfl) (hu.frame.inBand.1 hb))).trans
        (hu.outside a fun q hq => ha q (List.mem_append_left _ hq))
  · rw [exists_mem_snoc, boxSaturates_iff hx hy, hst.ovf, hu.ovf, or_assoc]

end

/-! ### One box -/

/-- A box that is ready completes, band after band. -/
theorem applyBox_done {s : State} {i : Nat} (h : BoxReady s i) :
    ∃ u, applyBox params s i = .ok u ∧ BoxDone s i (boxBands s i) u := by
  refine foldlM_initial (I := BoxDone s i) _ (fun pre p post hl u hu => ?_) (boxDone_nil s i)
  have hnodup := nodup_of_rising (boxBands_rising s i)
  rw [hl] at hnodup
  exact hu.step h (fun q hq => hl ▸ List.mem_append_left _ hq) (hl ▸ List.mem_append_right _ List.mem_cons_self)
    (not_mem_of_nodup_append hnodup)

/-- The bands done are what the statement of MCT_APPLY says of the box. -/
theorem BoxDone.applied {s u : State} {i : Nat} (h : BoxReady s i) (hu : BoxDone s i (boxBands s i) u) :
    BoxApplied s i u where
  frame := hu.frame
  ovf := by
    refine hu.ovf.trans (or_congr_right ⟨?_, ?_⟩)
    · rintro ⟨p, hp, x, y, hx, hy, hsat⟩
      exact ⟨p.1, p.2, x, y, hp, hx, hy, (boxBandSaturates_iff (boxReady_fillReady h hp)).2 hsat⟩
    · rintro ⟨w, b, x, y, hwb, hx, hy, hsat⟩
      exact ⟨(w, b), hwb, x, y, hx, hy, (boxBandSaturates_iff (boxReady_fillReady h hwb)).1 hsat⟩
  plain w b x y hwb hfills hx hy := by
    have hres : residualAt s i b y = y := by rw [residualAt, hfills]; rfl
    have hbands := hu.bands (w, b) hwb x y hx hy
    rwa [boxAfter, hres] at hbands
  filled w b x y p1 p2 sf hwb hfills hx hy hp1 hp2 hsf := by
    have hres : residualAt s i b y = filledBand (s.coefAt i b).toNat (prevBandUsed s (s.latch i).c1 p1)
        (prevBandUsed s (s.latch i).c2 p2) y sf := by
      rw [residualAt, if_pos hfills, prevBandAt_eq hp1, prevBandAt_eq hp2, byteAt, hsf, Option.getD_some]
    have hbands := hu.bands (w, b) hwb x y hx hy
    rwa [boxAfter, hres] at hbands
  outside a ha := hu.outside a fun p hp c hc => not_or.2 (ha p.1 p.2 hp c hc)

/-! ### The boxes -/

/-- What the earlier boxes leave for the later ones: bands still written, and the inputs of stereo filling. -/
structure BoxesRun (s t : State) : Prop where
  band : BandRun s t
  spectra : SpectraRun s t

theorem BoxesRun.trans {s t u : State} (h : BoxesRun s t) (h' : BoxesRun t u) : BoxesRun s u :=
  ⟨h.band.trans h'.band, h.spectra.trans h'.spectra⟩

theorem applyBox_run {s : State} {i : Nat} (h : BoxReady s i) :
    ∃ u, applyBox params s i = .ok u ∧ BoxApplied s i u ∧ BoxesRun s u := by
  obtain ⟨u, hu, hdone⟩ := applyBox_done h
  exact ⟨u, hu, hdone.applied h, applyBox_bandRun (fun _ hwb => boxBands_lt (boxReady_recheck h) hwb) hu,
    hdone.spectraRun h fun _ hq => hq⟩

/-- A band that is read stays readable. -/
theorem BandRun.exists_band {s t : State} (h : BandRun s t) {c w b : Nat} (hin : BandInside s c w b)
    (hx : ∃ x, s.band params c w b = .ok x) : ∃ x, t.band params c w b = .ok x := by
  obtain ⟨x, hx⟩ := hx
  obtain ⟨hmant, hexp⟩ := marked_of_bandOf hx
  obtain ⟨_, hlines, hw, hb⟩ := hin
  have hframe : MemFrame s t := h.frame
  refine bandOf_marked (fun k hk => ?_) (h.marks.byte rfl (by omega) hexp)
  rw [hframe.bandWidth] at hk
  rw [hframe.lineLo]
  exact h.marks.word rfl (by omega) (hmant k hk)

/-- A box that is ready stays so while others run. -/
theorem BoxesRun.ready {s t : State} {j : Nat} (h : BoxesRun s t) (hr : BoxReady s j) : BoxReady t j := by
  have hin {c : Nat} (hc : OfBox s j c) {p : Nat × Nat} (hp : p ∈ boxBands s j) := boxReady_inside hr hc hp
  have hb {b : Nat} (hb : b ∈ covered s (s.latch j)) : b < 64 := by
    have hmem : (0, b) ∈ boxBands s j := mem_boxBands.2 ⟨by show 0 < _; split <;> decide, hb⟩
    exact (boxReady_inside hr (.inl rfl) hmem).band
  obtain ⟨m, o, rfl⟩ : ∃ m o, t = { s with mem := m, ovf := o } := ⟨_, _, h.spectra.frame⟩
  exact {
    slots := hr.slots
    stages := hr.stages
    configs := ⟨h.band.cfgOk hr.configs.1, h.band.cfgOk hr.configs.2⟩
    windows := hr.windows
    bands := fun w b hwb => ⟨h.band.exists_band (hin (.inl rfl) hwb) (hr.bands w b hwb).1,
      h.band.exists_band (hin (.inr rfl) hwb) (hr.bands w b hwb).2⟩
    flags := fun hmode hsf hflag hsh b hcov =>
      h.band.marks.byte rfl ((hb hcov).trans (by decide)) (hr.flags hmode hsf hflag hsh b hcov)
    factors := fun b hcov hfills => h.band.marks.byte rfl ((hb hcov).trans (by decide))
      (hr.factors b hcov (h.spectra.stereoFills (hb hcov) ▸ hfills)) }

/-! ### The boxes in order -/

/-- The state after the first n boxes. -/
def afterBoxes (s : State) (n : Nat) : State := ((List.range n).foldlM (applyBox params) s).toOption.getD s

section
variable {s : State} {n : Nat}

theorem afterBoxes_of_ok {t : State} (h : (List.range n).foldlM (applyBox params) s = .ok t) : afterBoxes s n = t := by
  rw [afterBoxes, h]
  rfl

/-- Ready boxes all complete, one after another. -/
theorem afterBoxes_run (h : ∀ i < n, BoxReady s i) :
    (List.range n).foldlM (applyBox params) s = .ok (afterBoxes s n) ∧ BoxesRun s (afterBoxes s n) ∧
      ∀ i < n, BoxApplied (afterBoxes s i) i (afterBoxes s (i + 1)) := by
  induction n with
  | zero => exact ⟨rfl, ⟨.refl s, .refl s⟩, nofun⟩
  | succ n ih =>
    obtain ⟨hfold, hrun, happlied⟩ := ih fun i hi => h i (Nat.lt_succ_of_lt hi)
    obtain ⟨u, hu, hbox, hrun'⟩ := applyBox_run (hrun.ready (h n (Nat.lt_succ_self n)))
    have hfold' : (List.range (n + 1)).foldlM (applyBox params) s = .ok u := by
      rw [List.range_succ, List.foldlM_append, hfold]
      refine Eq.trans (ok_bind ..) ?_
      rw [List.foldlM_cons, hu]
      rfl
    have hafter : afterBoxes s (n + 1) = u := afterBoxes_of_ok hfold'
    refine ⟨hafter ▸ hfold', hafter ▸ hrun.trans hrun', fun i hi => ?_⟩
    rcases Nat.lt_succ_iff_lt_or_eq.1 hi with hlt | rfl
    · exact happlied i hlt
    · exact hafter ▸ hbox

end

/-! ### The lanes (R216, R217) -/

/-- A right shift by an integer constant is a floored division. -/
theorem shiftRight_intCast_eq (x : Int) (n : Nat) : x >>> (n : Int) = x / 2 ^ n :=
  (Int.shiftRight_natCast_right x n).trans (shiftRight_eq_ediv x n)

theorem laneRot_eq (cs sn x y : Int) :
    laneRot cs sn x y = ((cs * x - sn * y) / 2 ^ 30, (sn * x + cs * y) / 2 ^ 30) :=
  Prod.ext (shiftRight_intCast_eq _ 30) (shiftRight_intCast_eq _ 30)

theorem lanePred_eq (A : Int) (d : Bool) (x y : Int) : lanePred A d x y =
    (x + (y + (if d then -1 else 1) * (A * x / 2 ^ 28)), x - (y + (if d then -1 else 1) * (A * x / 2 ^ 28))) := by
  have hshift : (A * x) >>> (28 : Int) = A * x / 2 ^ 28 := shiftRight_intCast_eq _ 28
  cases d <;> simp [lanePred, hshift, Int.sub_eq_add_neg]

/-! ### The command -/

/-- Settles O43: the boxes by the chain of their states, the covered bands and the lanes from their definitions. -/
theorem mctApplyRunsTheBoxesInOrder : Obligations.MctApplyRunsTheBoxesInOrder := by
  refine ⟨fun s hstate hready => ?_, fun s i => ⟨boxBands_rising s i, fun w b => ?_⟩, fun s i b x y => ?_⟩
  · obtain ⟨hfold, _, happlied⟩ := afterBoxes_run hready
    have hrecheck : (List.range (ctlNumBoxes s.lCtrl)).forM (recheckBox params s) = .ok () :=
      forM_ok.2 fun i hi => boxReady_recheck (hready i (List.mem_range.1 hi))
    have hrule : commandRule .mctApply s =
        .ok { afterBoxes s (ctlNumBoxes s.lCtrl) with mctState := .rotationApplied } := by
      refine Eq.trans (b := mctApply params s) rfl ?_
      rw [mctApply, decide_eq_false (not_not.2 hstate), raiseIf_false, ok_bind, hrecheck, ok_bind, hfold, ok_bind]
    exact ⟨_, afterBoxes s, exec_of_ok hrule, rfl, happlied, rfl⟩
  · rw [mem_boxBands, mem_covered]
    rfl
  · refine ⟨rfl, fun hmode => ?_, fun hmode => ?_⟩
    · rw [laneOf, ctlMode, hmode, if_pos rfl, laneRot_eq]
      rfl
    · rw [laneOf, ctlMode, hmode, if_neg Bool.false_ne_true, lanePred_eq]
      rfl

end Sys2Proof.Proofs
end

section
/-! The control commands (43_control.md): NOP and CLEAR_ERR, whose words hold no operand and run under ERR = 1 too. -/

namespace Sys2Proof.Proofs

open Sys2Proof Sys2Proof.Machine

/-- With no operand field, the row's only legal word is its bare opcode (R166, R167). -/
theorem decode_of_ne_bareOpcode {op : Byte} {cmd : Nat → Nat → Bool → Instr} {v : Word}
    (hr : Row.mk op false false false cmd ∈ rows) (hop : cmdOp v = op.toNat) (hv : v ≠ packWord op 0 0 false) :
    decode v = .error .reservedField := by
  have hop' : v.extractLsb' 0 8 = op := BitVec.eq_of_toNat_eq hop
  exact decode_of_not_reservedZero hr hop fun hz => hv (Row.word_eq_of_reservedZero _ hop' hz).symm

/-- With no turn listed and ERR = 0, the block's step raises RESERVED_FIELD for a malformed word (R166, R402). -/
theorem step_reservedField {s : State} {v : Word} (ht : s.turns = []) (hp : s.pending = some v) (he : s.err = false)
    (hd : decode v = .error .reservedField) :
    step s = .next { s with pending := none, done := true, err := true, errCode := 0xFFFF0204 } :=
  (refusedWordRaisesIllegal s v ht hp he).2 hd

/-- Under ERR = 1 a raise keeps the recorded error and only completes (R402). -/
theorem raise_of_err {s : State} (he : s.err = true) (e : Err) : s.raise e = s.complete := by
  rw [State.raise, State.record_of_err he]

/-- Under ERR = 1 a refused word of an opcode that still runs only completes (R402, R405). -/
theorem blockTurn_refused_of_err (run : Runner) {s : State} {v : Word} {e : IllegalWord} (hp : s.pending = some v)
    (he : s.err = true) (hrun : runsUnderErr v = true) (hd : decode v = .error e) :
    blockTurn run s = .next s.complete := by
  simp only [blockTurn, hp, runWord, he, hrun, hd, Bool.not_true, Bool.and_false, Bool.false_eq_true, if_false,
    raise_of_err he]

/-- Settles O25: the rule of NOP changes nothing before it completes, and a word of opcode 0 other than 0 is malformed. -/
theorem nopCompletes : Obligations.NopCompletes := by
  refine ⟨fun s => exec_of_ok (i := .nop) rfl, fun s v ht hp hop hv he => ?_⟩
  have hd : decode v = .error .reservedField :=
    decode_of_ne_bareOpcode (op := 0x00) (cmd := fun _ _ _ => .nop) (by simp [rows]) hop hv
  exact step_reservedField ht hp he hd

/-- Settles O26: CLEAR_ERR ends the error and completes; its malformed word raises, and the first error is kept. -/
theorem clearErrEndsTheError : Obligations.ClearErrEndsTheError := by
  refine ⟨fun s => exec_of_ok (i := .clearErr) rfl, fun s v ht hp hop hv => ?_⟩
  have hd : decode v = .error .reservedField :=
    decode_of_ne_bareOpcode (op := 0x20) (cmd := fun _ _ _ => .clearErr) (by simp [rows]) hop hv
  have hrun : runsUnderErr v = true := (runsUnderErr_iff v).2 (by simp [hop])
  refine ⟨fun he => step_reservedField ht hp he hd, fun he => ?_⟩
  exact (nextTurn_nil params exec ht).trans (blockTurn_refused_of_err exec hp he hrun hd)

end Sys2Proof.Proofs
end

section
/-! Errors and the interrupt (60_exceptions.md): what recording an error leaves of a command (R402, R403), the drop
under ERR = 1 (R405), and the interrupt output (R410). -/

namespace Sys2Proof.Proofs

open Sys2Proof Sys2Proof.Machine

/-! ### What an error leaves (R402, R403) -/

/-- A rule that answers records no error. -/
theorem commandRule_err_of_not_err {i : Instr} {s u : State} (h : commandRule i s = .ok u) (he : s.err = false) :
    u.err = false := by
  rcases commandRule_err h with ⟨herr, _⟩ | ⟨herr, _⟩
  · exact herr.trans he
  · exact herr

/-- ERR goes from 0 to 1 in a command only where its rule raises. -/
theorem exec_raised {i : Instr} {s t : State} (h : exec i s = .next t) (he : s.err = false) (ht : t.err = true) :
    ∃ e, commandRule i s = .error (.raise e) ∧ t = (raiseBase i s).raise e := by
  rcases exec_next h with ⟨u, hu, rfl⟩ | hraise
  · have hok : u.err = false := commandRule_err_of_not_err hu he
    exact absurd (hok.symm.trans ht) Bool.false_ne_true
  · exact hraise

/-- Only MCT_PARSE has a change that a raise leaves (R310, R402). -/
theorem raiseBase_eq_ite (i : Instr) (s : State) :
    raiseBase i s = if i = .mctParse then parseBase params s else s := by
  cases i <;> rfl

theorem err_raiseBase (i : Instr) (s : State) : (raiseBase i s).err = s.err := by
  rw [raiseBase_frame]

/-- Settles O9: the command's rule raised, on the state that the HRESET line leaves; and a refused word under ERR = 1
only completes. -/
theorem errorsArePreciseAndRecordedOnce : Obligations.ErrorsArePreciseAndRecordedOnce := by
  refine ⟨fun i s t h he ht => ?_, fun s v x hturns hp he hop hd => ?_⟩
  · obtain ⟨e, _, rfl⟩ := exec_raised h he ht
    have hbase : (raiseBase i s).err = false := (err_raiseBase i s).trans he
    exact ⟨e, by rw [raise_of_not_err hbase, raiseBase_eq_ite]⟩
  · have hrun : runsUnderErr v = true := (runsUnderErr_iff v).2 hop
    exact (nextTurn_nil params exec hturns).trans (blockTurn_refused_of_err exec hp he hrun hd)

/-! ### The drop (R405) -/

/-- Under ERR = 1 the block drops a pending word of an opcode that does not run then (R405). -/
theorem blockTurn_dropped (run : Runner) {s : State} {v : Word} (hp : s.pending = some v) (he : s.err = true)
    (hop : cmdOp v ∉ [0x00, 0x12, 0x13, 0x20]) : blockTurn run s = .next { s with drop := true }.complete := by
  rw [← runsUnderErr_iff] at hop
  simp only [blockTurn, hp]
  rcases runWord_cases run s v with ⟨_, _, hdrop⟩ | ⟨hrun, _⟩
  · exact hdrop
  · exact absurd hrun (by simp [he, hop])

/-- Settles O7: the host's step takes the word whatever ERR is, and the block's next step drops it. -/
theorem commandsAreDroppedUnderErr : Obligations.CommandsAreDroppedUnderErr := by
  intro s v hp he hop hturns
  have htaken := (writingCmdTakesACommand s [] v).1 hturns hp
  exact ⟨_, htaken, rfl, (nextTurn_nil params exec rfl).trans (blockTurn_dropped exec rfl he hop)⟩

/-! ### The interrupt (R410) -/

/-- irq is DONE and DONE_IE, or ERR and ERR_IE (R410). -/
theorem irq_iff (s : State) :
    s.irq = true ↔ (s.done = true ∧ s.irqEn.getLsbD 0 = true) ∨ (s.err = true ∧ s.irqEn.getLsbD 1 = true) := by
  simp [State.irq, State.doneIe, State.errIe]

/-- Settles O20: a command that answers has set DONE, and IRQ_EN is the host's. -/
theorem interruptFollowsDoneAndErr : Obligations.InterruptFollowsDoneAndErr := by
  refine ⟨irq_iff, fun i s t h hie => ?_⟩
  obtain ⟨_, hdone, _, hkept⟩ := commandsLeaveHostFieldsAlone i s t h
  obtain ⟨_, hirqEn⟩ := hkept.counters
  exact (irq_iff t).2 (.inl ⟨hdone, hirqEn ▸ hie⟩)

end Sys2Proof.Proofs
end

section
/-! MS_APPLY on decoded channels never faults (R290, R451): its checks read no memory, and the bands of a decoded
channel are all written. -/

namespace Sys2Proof.Proofs

open Sys2Proof Sys2Proof.Machine

/-! ### The checks never fault -/

/-- In a memory of one word the cell at its address has a value (R98). -/
theorem cellBits_wordCells_isSome (M : ChMem) (c k : Nat) (v : Word) :
    (cellBits (wordCells (cellAddr M c k) [v]) M c k).isSome = true := by
  have hbyte : ∀ j < 4, (readByte (wordCells (cellAddr M c k) [v]) (cellAddr M c k + j)).isSome = true :=
    fun j hj => readByte_wordCells_isSome _ [v] _ (by omega) (by simpa using hj)
  cases hM : M.isWord with
  | true =>
    rw [cellBits_word hM]
    exact (readWord_isSome_iff _ _).2 hbyte
  | false =>
    rw [cellBits_byte hM, Option.isSome_map]
    exact hbyte 0 (by omega)

/-- A run whose faults name an unwritten cell of whatever memory never faults: a memory has that cell written. -/
theorem ne_fault_of_faultsIn {α : Type} {x : Except Halt α} (h : ∀ m, FaultsIn m x) (f : Fault) :
    x ≠ .error (.fault f) := by
  cases f with
  | unwrittenCell a =>
    intro hx
    obtain ⟨M, c, k, _, _, rfl, hnone⟩ := h (wordCells a [0]) a hx
    have hsome := cellBits_wordCells_isSome M c k 0
    rw [hnone] at hsome
    cases hsome

/-- CHK_CFG finds the configuration legal, or raises what is wrong with it (R264). -/
theorem cfgOk_or_raises (s : State) (c : Nat) : CfgOk s c ∨ ∃ e, chkCfg params s c = .error (.raise e) := by
  rw [cfgOk_iff]
  rcases hchk : chkCfg params s c with (e | f) | _
  · exact .inr ⟨e, rfl⟩
  · exact absurd hchk (ne_fault_of_faultsIn (fun _ => faultsIn_chkCfg c) f)
  · exact .inl rfl

/-! ### The bands of decoded channels -/

section
variable {s : State} {c c1 c2 : Nat}

/-- Every band inside a decoded channel is written, its lines and its exponent (R272, R451). -/
theorem exists_band_of_decoded {w b : Nat} (hs : MarksFollowStage s) (hst : (s.ch c).stage = .decoded)
    (hin : BandInside s c w b) : ∃ x, s.band params c w b = .ok x := by
  obtain ⟨hc, hlines, hw, hb⟩ := hin
  exact bandOf_marked (fun k hk => (hs c hc).mant hst _ (by omega)) ((hs c hc).exp (.inr hst) _ (by omega))

/-- The bands that MS_APPLY combines are readable in both channels (R290). -/
theorem exists_bands_of_commonWindow (hs : MarksFollowStage s) (h1 : c1 < 16) (h2 : c2 < 16)
    (hst1 : (s.ch c1).stage = .decoded) (hst2 : (s.ch c2).stage = .decoded) (hcfg1 : CfgOk s c1) (hcfg2 : CfgOk s c2)
    (hmatch : cwMismatch s c1 c2 = false) {w b : Nat} (hw : w < s.nwin c1) (hb : b < s.maxSfb c1) :
    (∃ x, s.band params c1 w b = .ok x) ∧ ∃ y, s.band params c2 w b = .ok y := by
  obtain ⟨hnwin, hmax⟩ := sameBands_of_cwMismatch hmatch
  exact ⟨exists_band_of_decoded hs hst1 (bandInside_of_cfg h1 hcfg1 hw hb),
    exists_band_of_decoded hs hst2 (bandInside_of_cfg h2 hcfg2 (hnwin ▸ hw) (hmax ▸ hb))⟩

/-! ### The command -/

/-- MS_APPLY with a common window of two different decoded channels answers: a check raises, or every band is read. -/
theorem exec_msApply_commonWindow_next (hs : MarksFollowStage s) (h1 : c1 < 16) (h2 : c2 < 16) (hne : c1 ≠ c2)
    (hst1 : (s.ch c1).stage = .decoded) (hst2 : (s.ch c2).stage = .decoded) :
    ∃ t, exec (.msApply c1 c2 true) s = .next t := by
  obtain ⟨_, _, _, _, _, hchecks⟩ := msApplyChecksInOrder s c1 c2 true
  obtain ⟨hbad1, hbad2, hdiff⟩ := hchecks h1 h2 hne hst1 hst2 rfl
  rcases cfgOk_or_raises s c1 with hcfg1 | ⟨e, he⟩
  case inr => exact ⟨_, hbad1 e he⟩
  rcases cfgOk_or_raises s c2 with hcfg2 | ⟨e, he⟩
  case inr => exact ⟨_, hbad2 hcfg1 e he⟩
  cases hmatch : cwMismatch s c1 c2 with
  | true => exact ⟨_, hdiff hcfg1 hcfg2 (cwMismatch_iff.1 hmatch)⟩
  | false =>
    have hsame := mt cwMismatch_iff.2 (Bool.not_eq_true _ ▸ hmatch)
    push Not at hsame
    obtain ⟨hseq, hng, hgl, hmax⟩ := hsame
    obtain ⟨t, ht, _⟩ := msApplyCombinesTheMaskedBands s c1 c2 h1 h2 hne hst1 hst2 hcfg1 hcfg2 hseq hng hgl hmax
      fun w hw b hb => exists_bands_of_commonWindow hs h1 h2 hst1 hst2 hcfg1 hcfg2 hmatch hw hb
    exact ⟨t, ht⟩

end

/-- Settles O36: a check raises, the form without a common window reads nothing, and the other form reads bands of
decoded channels only. -/
theorem msApplyNeverFaultsOnDecodedChannels : Obligations.MsApplyNeverFaultsOnDecodedChannels := by
  intro s c1 c2 cw hs
  obtain ⟨hslot1, hslot2, hsame, hstage1, hstage2, _⟩ := msApplyChecksInOrder s c1 c2 cw
  by_cases h1 : c1 < 16
  case neg => exact ⟨_, hslot1 (Nat.le_of_not_lt h1)⟩
  by_cases h2 : c2 < 16
  case neg => exact ⟨_, hslot2 h1 (Nat.le_of_not_lt h2)⟩
  by_cases hne : c1 = c2
  case pos => exact ⟨_, hsame h1 hne⟩
  by_cases hst1 : (s.ch c1).stage = .decoded
  case neg => exact ⟨_, hstage1 h1 h2 hne hst1⟩
  by_cases hst2 : (s.ch c2).stage = .decoded
  case neg => exact ⟨_, hstage2 h1 h2 hne hst1 hst2⟩
  cases cw with
  | false => exact ⟨_, msApplyWithoutCommonWindow s c1 c2 h1 h2 hne hst1 hst2⟩
  | true => exact exec_msApply_commonWindow_next hs h1 h2 hne hst1 hst2

end Sys2Proof.Proofs
end

section
/-! The two resets (70_reset_and_hazards.md): the reset input, and CTRL.SRST (R450, R452). -/

namespace Sys2Proof.Proofs

open Sys2Proof Sys2Proof.Machine

theorem decode_ctrl : decodeAddr params (0x014 : Word).toNat = some .ctrl := by decide

section
variable {s : State} {ts : List Turn} {v : Word}

theorem step_rst (h : s.turns = .rst :: ts) : step s = .next ({ s with turns := ts } : State).hardReset := by
  unfold step nextTurn
  rw [h]
  rfl

theorem writeView_ctrl_reset (h : v.getLsbD 0 = true) : writeView s v .ctrl = s.hardReset := if_pos h

theorem writeView_ctrl_keep (h : v.getLsbD 0 = false) : writeView s v .ctrl = s := by
  rw [writeView, h, if_neg Bool.false_ne_true]

/-- CTRL is in the ALWAYS set of writes, so BUSY never cuts its write off (R132). -/
theorem step_write_ctrl (h : s.turns = .host (.write 0x014 4 v) :: ts) :
    step s = .next ((writeView { s with turns := ts } v .ctrl).respond true 0) :=
  step_write_view h decode_ctrl (.inr rfl)

end

/-- Settles O18: both resets are hardReset, and CTRL has no other bit that acts. -/
theorem resetPutsEverythingBack : Obligations.ResetPutsEverythingBack := by
  refine fun s ts v => ⟨step_rst, fun ht hv => ?_, fun ht hv => ?_⟩
  · rw [step_write_ctrl ht, writeView_ctrl_reset hv]
    rfl
  · rw [step_write_ctrl ht, writeView_ctrl_keep hv]
    rfl

end Sys2Proof.Proofs
end
